-- ==== Sys2Proof/Word.lean ====
section
/-! DEFINITION. The word types of the machine: bytes, 64-bit words, vector registers (00_scope.md R7, R8, R11). -/

namespace Sys2Proof

/-- One byte, 8 bits. -/
abbrev Byte := BitVec 8

/-- A 64-bit word: a general register, an address, an MMX register, an opmask register. -/
abbrev Word64 := BitVec 64

/-- A vector register as the model stores it: 512 bits, the widest MAXVL of 00_scope.md R6. -/
abbrev VReg := BitVec 512

/-- An x87 physical data register, 80 bits (10_state.md R23). -/
abbrev FReg := BitVec 80

end Sys2Proof
end

