-- ==== Sys2Proof/Config.lean ====
section
/-! DEFINITION. What an implementation fixes: the parameters of 00_scope.md R6 as types, and the free values the spec
leaves open, which have no body so that no proof can rest on what they are. -/

namespace Sys2Proof

/-- `FEAT`: the CPUID feature flags that read 1 on the processor (00_scope.md R6, 10_state.md R33). -/
structure Features where
  mmx : Bool
  sse2 : Bool
  avx : Bool
  avx2 : Bool
  avx512f : Bool
  avx512bw : Bool
  avx512vl : Bool
  deriving DecidableEq, Repr

/-- Which CPUID flags a kind of form needs (00_scope.md R6, 60_exceptions.md R156 to R159): `ymm` says the 256-bit VEX
forms, `zmm` the 512-bit EVEX forms. -/
inductive FeatureNeed where
  | mmx
  | sse
  | vex (ymm : Bool)
  | evex (zmm : Bool)
  deriving DecidableEq, Repr

/-- `LA_BITS`: the number of implemented linear-address bits in 64-bit mode (00_scope.md R6, 20_memory.md R56). -/
inductive LaBits where
  | la48
  | la57
  deriving DecidableEq, Repr

/-- The number an `LaBits` stands for. -/
def LaBits.toNat : LaBits → Nat
  | .la48 => 48
  | .la57 => 57

/-- What `Translate` answers for the bytes of one region at one privilege (20_memory.md R60): the physical address of
the region's first byte and whether code may be run from it (70_reset_and_hazards.md R194, P4), or a page fault with the
bits P, RSVD and PK of its error code. -/
inductive PageAnswer where
  | mapped (physBase : Nat) (executable : Bool)
  | fault (present rsvd pk : Bool)
  deriving DecidableEq, Repr

/-- One region of the translation parameter: the linear bytes `base .. base + size - 1`, with the answer for a
supervisor read and for a user read (20_memory.md R60). -/
structure LinRegion where
  base : Nat
  size : Nat
  supervisor : PageAnswer
  user : PageAnswer
  deriving DecidableEq, Repr

/-- What kind of memory a physical byte is (20_memory.md R62, R63): private to the program, open to other writers, or a
device register whose read has side effects. -/
inductive MemKind where
  | ordinary
  | shared
  | device
  deriving DecidableEq, Repr

/-- One region of physical memory with its kind. -/
structure PhysRegion where
  base : Nat
  size : Nat
  kind : MemKind
  deriving DecidableEq, Repr

/-- The parameters of the step relation (00_scope.md R6, 10_state.md R40) as plain data. -/
structure Platform where
  feat : Features
  laBits : LaBits
  /-- `Translate`: the first region that holds the address answers; outside every region it is the identity. -/
  translation : List LinRegion
  /-- The first region that holds the address says its kind; outside every region memory is `ordinary`. -/
  memKinds : List PhysRegion
  deriving DecidableEq, Repr

/-- `ReadOracle` (20_memory.md R63): the byte the n-th draw from memory that other agents write returns. A free value:
notes/assumptions/14.md. -/
opaque Config.readOracle : Nat → Byte

/-- Which of several faulting bytes a #PF reports (20_memory.md R60, U8): a free value, taken modulo the number of
candidates. notes/assumptions/9.md. -/
opaque Config.faultPick : Nat → Nat

end Sys2Proof
end

