-- ==== Sys2Proof/Syntax.lean ====
section
/-! DEFINITION. The instructions: one constructor of `Instr` per row of spec/opcode_table.json (30_encoding.md R104),
with the fields of its encoding as operands, extension bits and register numbers un-inverted. -/

namespace Sys2Proof

/-- The operating mode (00_scope.md R6): 64-bit mode, or protected or compatibility mode with a 32-bit code segment. -/
inductive Mode where
  | m64
  | m32
  deriving DecidableEq, Repr

/-- The segment registers, numbered ES=0, CS=1, SS=2, DS=3, FS=4, GS=5 (10_state.md R26). -/
inductive SegName where
  | es
  | cs
  | ss
  | ds
  | fs
  | gs
  deriving DecidableEq, Repr

/-- The legacy prefixes every layout admits (30_encoding.md R71): a segment override and the address-size prefix 67. -/
structure Prefixes where
  seg : Option SegName
  a67 : Bool
  deriving DecidableEq, Repr

/-- The REX prefix `0100WRXB` (30_encoding.md R73). -/
structure Rex where
  w : Bool
  r : Bool
  x : Bool
  b : Bool
  deriving DecidableEq, Repr

/-- The payload of the two-byte VEX prefix, un-inverted (30_encoding.md R84); `L` and `pp` belong to the form. -/
structure Vex2 where
  r : Bool
  vvvv : BitVec 4
  deriving DecidableEq, Repr

/-- The payload of the three-byte VEX prefix, un-inverted (30_encoding.md R83); `mmmmm`, `L` and `pp` belong to the form. -/
structure Vex3 where
  r : Bool
  x : Bool
  b : Bool
  w : Bool
  vvvv : BitVec 4
  deriving DecidableEq, Repr

/-- The payload of the EVEX prefix, un-inverted (30_encoding.md R87); `mm`, `pp`, `L'L` and `b` belong to the form.
`rHi` is R', `vHi` is V'. -/
structure Evex where
  r : Bool
  x : Bool
  b : Bool
  rHi : Bool
  w : Bool
  vvvv : BitVec 4
  vHi : Bool
  z : Bool
  aaa : BitVec 3
  deriving DecidableEq, Repr

/-- The SIB byte (30_encoding.md R76). -/
structure Sib where
  scale : BitVec 2
  index : BitVec 3
  base : BitVec 3
  deriving DecidableEq, Repr

/-- The displacement bytes (30_encoding.md R77). -/
inductive Disp where
  | none
  | disp8 (d : BitVec 8)
  | disp16 (d : BitVec 16)
  | disp32 (d : BitVec 32)
  deriving DecidableEq, Repr

/-- A memory operand as ModRM, SIB and displacement give it (30_encoding.md R75 to R77); `mod` is not 3. -/
structure MemAddr where
  mod : BitVec 2
  rm : BitVec 3
  sib : Option Sib
  disp : Disp
  deriving DecidableEq, Repr

/-- The `ModRM:r/m` operand (30_encoding.md R75): a register (`mod = 3`) or a memory operand. -/
inductive RegMem where
  | reg (r : BitVec 3)
  | mem (a : MemAddr)
  deriving DecidableEq, Repr

/-- The instructions, in the order of spec/opcode_table.json. -/
inductive Instr where
  /-- `PADDUSB mm, mm/m64`, `NP 0F DC /r` (R111). -/
  | paddusbMm (p : Prefixes) (x : Option Rex) (reg : BitVec 3) (rm : RegMem)
  /-- `PADDUSB xmm1, xmm2/m128`, `66 0F DC /r` (R112). -/
  | paddusbXmm (p : Prefixes) (x : Option Rex) (reg : BitVec 3) (rm : RegMem)
  /-- `PADDUSW mm, mm/m64`, `NP 0F DD /r` (R113). -/
  | padduswMm (p : Prefixes) (x : Option Rex) (reg : BitVec 3) (rm : RegMem)
  /-- `PADDUSW xmm1, xmm2/m128`, `66 0F DD /r` (R114). -/
  | padduswXmm (p : Prefixes) (x : Option Rex) (reg : BitVec 3) (rm : RegMem)
  /-- `VPADDUSB xmm1, xmm2, xmm3/m128`, three-byte VEX (R121). -/
  | vpaddusbXmmVex3 (p : Prefixes) (v : Vex3) (reg : BitVec 3) (rm : RegMem)
  /-- `VPADDUSB xmm1, xmm2, xmm3/m128`, two-byte VEX (R121). -/
  | vpaddusbXmmVex2 (p : Prefixes) (v : Vex2) (reg : BitVec 3) (rm : RegMem)
  /-- `VPADDUSW xmm1, xmm2, xmm3/m128`, three-byte VEX (R122). -/
  | vpadduswXmmVex3 (p : Prefixes) (v : Vex3) (reg : BitVec 3) (rm : RegMem)
  /-- `VPADDUSW xmm1, xmm2, xmm3/m128`, two-byte VEX (R122). -/
  | vpadduswXmmVex2 (p : Prefixes) (v : Vex2) (reg : BitVec 3) (rm : RegMem)
  /-- `VPADDUSB ymm1, ymm2, ymm3/m256`, three-byte VEX (R123). -/
  | vpaddusbYmmVex3 (p : Prefixes) (v : Vex3) (reg : BitVec 3) (rm : RegMem)
  /-- `VPADDUSB ymm1, ymm2, ymm3/m256`, two-byte VEX (R123). -/
  | vpaddusbYmmVex2 (p : Prefixes) (v : Vex2) (reg : BitVec 3) (rm : RegMem)
  /-- `VPADDUSW ymm1, ymm2, ymm3/m256`, three-byte VEX (R124). -/
  | vpadduswYmmVex3 (p : Prefixes) (v : Vex3) (reg : BitVec 3) (rm : RegMem)
  /-- `VPADDUSW ymm1, ymm2, ymm3/m256`, two-byte VEX (R124). -/
  | vpadduswYmmVex2 (p : Prefixes) (v : Vex2) (reg : BitVec 3) (rm : RegMem)
  /-- `VPADDUSB xmm1 {k1}{z}, xmm2, xmm3/m128`, EVEX (R133). -/
  | vpaddusbXmmEvex (p : Prefixes) (v : Evex) (reg : BitVec 3) (rm : RegMem)
  /-- `VPADDUSB ymm1 {k1}{z}, ymm2, ymm3/m256`, EVEX (R134). -/
  | vpaddusbYmmEvex (p : Prefixes) (v : Evex) (reg : BitVec 3) (rm : RegMem)
  /-- `VPADDUSB zmm1 {k1}{z}, zmm2, zmm3/m512`, EVEX (R135). -/
  | vpaddusbZmmEvex (p : Prefixes) (v : Evex) (reg : BitVec 3) (rm : RegMem)
  /-- `VPADDUSW xmm1 {k1}{z}, xmm2, xmm3/m128`, EVEX (R136). -/
  | vpadduswXmmEvex (p : Prefixes) (v : Evex) (reg : BitVec 3) (rm : RegMem)
  /-- `VPADDUSW ymm1 {k1}{z}, ymm2, ymm3/m256`, EVEX (R137). -/
  | vpadduswYmmEvex (p : Prefixes) (v : Evex) (reg : BitVec 3) (rm : RegMem)
  /-- `VPADDUSW zmm1 {k1}{z}, zmm2, zmm3/m512`, EVEX (R138). -/
  | vpadduswZmmEvex (p : Prefixes) (v : Evex) (reg : BitVec 3) (rm : RegMem)
  deriving DecidableEq, Repr

/-- Why the decoder gives bytes no meaning, by name (30_encoding.md R100: "out of scope" verdicts and the refusals of
decisions D14 to D16). Each is safe: the model stops where a chip may go on. -/
inductive Reject where
  /-- Another instruction or a reserved opcode-map entry (R72, R74, R85, R100, R103). -/
  | otherInstruction
  /-- A repeated prefix, or two of one group (R71, D15). -/
  | redundantPrefix
  /-- F2 or F3 with the legacy layout (R72, R101 row 11, D15). -/
  | reservedMapEntry
  /-- A REX byte that does not stand immediately before the escape byte 0F (R73, D15). -/
  | rexMisplaced
  /-- Register-extension bits of VEX or EVEX not in their inverted-1 state in 32-bit mode (R86, R88, D14). -/
  | extensionBitsIn32
  /-- 16-bit addressing under VEX or EVEX (R79, D16). -/
  | addressing16Vex
  /-- The bytes given end before the instruction does (R100); the fetch says why they end. -/
  | truncated
  deriving DecidableEq, Repr

end Sys2Proof
end

