-- ==== Sys2Proof/Machine/Layout.lean ====
section
/-! DEFINITION. What the layout of an operand's bytes depends on: the address size and the number of displacement bytes
(30_encoding.md R77, R80). -/

namespace Sys2Proof

/-- 16-bit addressing holds exactly in 32-bit mode with a 67 prefix (30_encoding.md R80). -/
def Mode.addr16 (m : Mode) (a67 : Bool) : Bool :=
  match m with
  | .m64 => false
  | .m32 => a67

/-- How many displacement bytes follow (30_encoding.md R77): `a16` says 16-bit addressing. -/
def dispSize (a16 : Bool) (mod : BitVec 2) (rm : BitVec 3) (sib : Option Sib) : Nat :=
  if mod = 1#2 then 1
  else if a16 then
    if mod = 2#2 then 2
    else if rm = 6#3 then 2
    else 0
  else
    if mod = 2#2 then 4
    else if rm = 5#3 then 4
    else match sib with
      | some sb => if sb.base = 5#3 then 4 else 0
      | none => 0

end Sys2Proof
end

