-- ==== Sys2Proof/WellFormed.lean ====
section
/-! DEFINITION. Which terms of `Instr` are instructions the encoding admits in a mode (30_encoding.md R73, R75 to R77,
R86, R88, R93; decisions D14, D16). -/

namespace Sys2Proof

/-- The number of displacement bytes a `Disp` holds. -/
def Disp.size : Disp → Nat
  | .none => 0
  | .disp8 _ => 1
  | .disp16 _ => 2
  | .disp32 _ => 4

/-- A memory operand is one ModRM can name: `mod` is not 3, the SIB byte is there exactly when R76 says, and the
displacement has the size R77 says. -/
def MemAddr.wellFormed (a16 : Bool) (a : MemAddr) : Bool :=
  a.mod != 3#2 && (a.sib.isSome == (!a16 && a.rm == 4#3)) && (a.disp.size == dispSize a16 a.mod a.rm a.sib)

/-- The `r/m` operand is one ModRM can name. -/
def RegMem.wellFormed (a16 : Bool) : RegMem → Bool
  | .reg _ => true
  | .mem a => a.wellFormed a16

/-- Under VEX and EVEX a memory operand may not use 16-bit addressing (D16). -/
def RegMem.vexWellFormed (m : Mode) (a67 : Bool) : RegMem → Bool
  | .reg _ => true
  | .mem a => !m.addr16 a67 && a.wellFormed false

/-- A legacy form: a REX prefix exists in 64-bit mode only (R73). -/
def legacyWellFormed (m : Mode) (p : Prefixes) (x : Option Rex) (rm : RegMem) : Bool :=
  (m == .m64 || x.isNone) && rm.wellFormed (m.addr16 p.a67)

/-- A two-byte VEX form: in 32-bit mode R and the top bit of vvvv are 0 (R86, D14). -/
def vex2WellFormed (m : Mode) (p : Prefixes) (v : Vex2) (rm : RegMem) : Bool :=
  (m == .m64 || (!v.r && !v.vvvv.msb)) && rm.vexWellFormed m p.a67

/-- A three-byte VEX form: in 32-bit mode R, X, B and the top bit of vvvv are 0 (R86, D14). -/
def vex3WellFormed (m : Mode) (p : Prefixes) (v : Vex3) (rm : RegMem) : Bool :=
  (m == .m64 || (!v.r && !v.x && !v.b && !v.vvvv.msb)) && rm.vexWellFormed m p.a67

/-- An EVEX form: zeroing needs a writemask (R93), and in 32-bit mode R, X, B, R', V' and the top bit of vvvv are 0
(R88, D14). -/
def evexWellFormed (m : Mode) (p : Prefixes) (v : Evex) (rm : RegMem) : Bool :=
  (m == .m64 || (!v.r && !v.x && !v.b && !v.rHi && !v.vHi && !v.vvvv.msb))
    && (!v.z || v.aaa != 0#3) && rm.vexWellFormed m p.a67

/-- The instruction is one the encoding admits in mode `m`. -/
def Instr.wellFormed (m : Mode) : Instr → Bool
  | .paddusbMm p x _ rm => legacyWellFormed m p x rm
  | .paddusbXmm p x _ rm => legacyWellFormed m p x rm
  | .padduswMm p x _ rm => legacyWellFormed m p x rm
  | .padduswXmm p x _ rm => legacyWellFormed m p x rm
  | .vpaddusbXmmVex3 p v _ rm => vex3WellFormed m p v rm
  | .vpaddusbXmmVex2 p v _ rm => vex2WellFormed m p v rm
  | .vpadduswXmmVex3 p v _ rm => vex3WellFormed m p v rm
  | .vpadduswXmmVex2 p v _ rm => vex2WellFormed m p v rm
  | .vpaddusbYmmVex3 p v _ rm => vex3WellFormed m p v rm
  | .vpaddusbYmmVex2 p v _ rm => vex2WellFormed m p v rm
  | .vpadduswYmmVex3 p v _ rm => vex3WellFormed m p v rm
  | .vpadduswYmmVex2 p v _ rm => vex2WellFormed m p v rm
  | .vpaddusbXmmEvex p v _ rm => evexWellFormed m p v rm
  | .vpaddusbYmmEvex p v _ rm => evexWellFormed m p v rm
  | .vpaddusbZmmEvex p v _ rm => evexWellFormed m p v rm
  | .vpadduswXmmEvex p v _ rm => evexWellFormed m p v rm
  | .vpadduswYmmEvex p v _ rm => evexWellFormed m p v rm
  | .vpadduswZmmEvex p v _ rm => evexWellFormed m p v rm

end Sys2Proof
end

