-- ==== Sys2Proof/Decode.lean ====
section
/-! DEFINITION. The decoder, total on any bytes (30_encoding.md R100), the encoder, and the host's reading of a word of
spec/opcode_table.json. -/

namespace Sys2Proof

/-- The decoder's verdicts (30_encoding.md R100): a form with its length in bytes, #UD, #GP(0) for the length, or no
meaning, by name. `truncated` among the last is no verdict on the instruction: more bytes are needed. `barred` is a form that
D15 refuses for its prefixes and that R101 rows 4, 6 and 10 make #UD on a processor without the flags it needs; `len` is its
length, none where its bytes are not all there. -/
inductive Verdict where
  | form (i : Instr) (len : Nat)
  | ud
  | lengthGp
  | reject (r : Reject)
  | barred (r : Reject) (need : FeatureNeed) (len : Option Nat)
  deriving DecidableEq, Repr

/-- The processor has the CPUID flags a kind of form needs (R101 rows 4, 6, 10; 60_exceptions.md R156 to R159). -/
def Features.has (f : Features) : FeatureNeed → Bool
  | .mmx => f.mmx
  | .sse => f.sse2
  | .vex ymm => if ymm then f.avx2 else f.avx
  | .evex zmm => f.avx512bw && (zmm || f.avx512vl)

/-- An encoding that R101 calls illegal, by its length: #UD stands only once the bytes up to the displacement are there, as the
fetch faults and the length limit come before it (60_exceptions.md R168 items 1 to 3; notes/assumptions/29.md). -/
def illegalOfLength : Option Nat → Verdict
  | none => .reject .truncated
  | some n => if n > 15 then .lengthGp else .ud

/-- The verdict on a processor with the flags `f`: what D15 refuses is #UD where R101 rows 4, 6 and 10 list it, since D15
excepts what R101 lists. -/
def Verdict.under (f : Features) : Verdict → Verdict
  | .form i n => .form i n
  | .ud => .ud
  | .lengthGp => .lengthGp
  | .reject r => .reject r
  | .barred r need len => if f.has need then .reject r else illegalOfLength len

/-! ### Legacy prefixes (R71, R100 step 1) -/

/-- A legacy prefix byte by what it means here (R71); F2 and F3 act alike. -/
inductive PrefixByte where
  | lock
  | rep
  | seg (s : SegName)
  | opSize
  | addrSize
  deriving DecidableEq, Repr

/-- Which legacy prefix a byte is, if any (R71). -/
def prefixOf (b : Byte) : Option PrefixByte :=
  if b = 0xF0#8 then some .lock
  else if b = 0xF2#8 then some .rep
  else if b = 0xF3#8 then some .rep
  else if b = 0x2E#8 then some (.seg .cs)
  else if b = 0x36#8 then some (.seg .ss)
  else if b = 0x3E#8 then some (.seg .ds)
  else if b = 0x26#8 then some (.seg .es)
  else if b = 0x64#8 then some (.seg .fs)
  else if b = 0x65#8 then some (.seg .gs)
  else if b = 0x66#8 then some .opSize
  else if b = 0x67#8 then some .addrSize
  else none

/-- A REX byte, 40 to 4F (R73). -/
def rexOf (b : Byte) : Option Rex :=
  if b.extractLsb' 4 4 = 4#4 then some ⟨b.getLsbD 3, b.getLsbD 2, b.getLsbD 1, b.getLsbD 0⟩ else none

/-- The prefixes recorded so far; the last override and the last REX byte where there are several. -/
structure Scan where
  lock : Bool
  rep : Bool
  seg : Option SegName
  opSize : Bool
  addrSize : Bool
  rex : Option Rex
  /-- A legacy prefix was repeated, or two of one group were seen (R71). -/
  redundant : Bool
  /-- A legacy prefix or another REX byte stands behind a REX byte (R73, D15). -/
  rexMisplaced : Bool
  deriving DecidableEq, Repr

/-- No prefix recorded. -/
def Scan.empty : Scan := ⟨false, false, none, false, false, none, false, false⟩

/-- A prefix of the same group was recorded before (R71). LOCK, F2 and F3 are one group. -/
def Scan.taken (s : Scan) : PrefixByte → Bool
  | .lock => s.lock || s.rep
  | .rep => s.lock || s.rep
  | .seg _ => s.seg.isSome
  | .opSize => s.opSize
  | .addrSize => s.addrSize

/-- Sets what a legacy prefix stands for. -/
def Scan.set (s : Scan) : PrefixByte → Scan
  | .lock => { s with lock := true }
  | .rep => { s with rep := true }
  | .seg n => { s with seg := some n }
  | .opSize => { s with opSize := true }
  | .addrSize => { s with addrSize := true }

/-- Records one more legacy prefix. -/
def Scan.add (s : Scan) (p : PrefixByte) : Scan :=
  { s.set p with redundant := s.redundant || s.taken p, rexMisplaced := s.rexMisplaced || s.rex.isSome }

/-- Records a REX byte. -/
def Scan.addRex (s : Scan) (x : Rex) : Scan :=
  { s with rex := some x, rexMisplaced := s.rexMisplaced || s.rex.isSome }

/-- R100 step 1 and the REX byte of step 2: takes prefix bytes off the front, in 64-bit mode REX bytes too. Whether they
make the encoding #UD (R101 rows 1 to 3) or refused (R71, D15) is asked once it is known what follows them. -/
def scanPrefixes (m : Mode) (s : Scan) : List Byte → Scan × List Byte
  | [] => (s, [])
  | b :: bs =>
    match prefixOf b with
    | some p => scanPrefixes m (s.add p) bs
    | none =>
      match m, rexOf b with
      | .m64, some x => scanPrefixes m (s.addRex x) bs
      | _, _ => (s, b :: bs)

/-- Why D15 refuses a legacy form behind these prefixes, if it does: a misplaced REX byte (R73), two prefixes of one group
(R71). -/
def Scan.refusal (s : Scan) : Option Reject :=
  if s.rexMisplaced then some .rexMisplaced else if s.redundant then some .redundantPrefix else none

/-- The bytes end before it is known what stands behind the prefixes: more are needed, unless D15 refuses the prefixes,
however long they are (R100 step 1, R71, R73; DEDUCED, notes/assumptions/29.md). -/
def Scan.cutShort (s : Scan) : Verdict :=
  match s.refusal with
  | some r => .reject r
  | none => .reject .truncated

/-- The prefixes an instruction keeps: the segment override and 67. -/
def Scan.kept (s : Scan) : Prefixes := ⟨s.seg, s.addrSize⟩

/-! ### ModRM, SIB, displacement (R75 to R77, R100 steps 3 and 4) -/

/-- Takes a displacement of `n` bytes, little-endian (R77). -/
def takeDisp (n : Nat) (bs : List Byte) : Option (Disp × List Byte) :=
  if n = 0 then some (.none, bs)
  else if n = 1 then
    match bs with
    | b :: r => some (.disp8 b, r)
    | _ => none
  else if n = 2 then
    match bs with
    | b0 :: b1 :: r => some (.disp16 (b1 ++ b0), r)
    | _ => none
  else
    match bs with
    | b0 :: b1 :: b2 :: b3 :: r => some (.disp32 (b3 ++ b2 ++ b1 ++ b0), r)
    | _ => none

/-- Splits a SIB byte (R76). -/
def sibOf (b : Byte) : Sib := ⟨b.extractLsb' 6 2, b.extractLsb' 3 3, b.extractLsb' 0 3⟩

/-- Takes the displacement after ModRM and SIB and builds the memory operand. -/
def takeMem (a16 : Bool) (mod : BitVec 2) (rm : BitVec 3) (sib : Option Sib) (bs : List Byte) :
    Option (RegMem × List Byte) :=
  match takeDisp (dispSize a16 mod rm sib) bs with
  | none => none
  | some (d, r) => some (.mem ⟨mod, rm, sib, d⟩, r)

/-- Takes ModRM, SIB if R76 asks for one, and the displacement; answers `reg`, the `r/m` operand and the rest. -/
def takeRegMem (a16 : Bool) : List Byte → Option (BitVec 3 × RegMem × List Byte)
  | [] => none
  | b :: bs =>
    let mod := b.extractLsb' 6 2
    let reg := b.extractLsb' 3 3
    let rm := b.extractLsb' 0 3
    if mod = 3#2 then some (reg, .reg rm, bs)
    else if a16 = false ∧ rm = 4#3 then
      match bs with
      | [] => none
      | sb :: bs' =>
        match takeMem a16 mod rm (some (sibOf sb)) bs' with
        | none => none
        | some (o, r) => some (reg, o, r)
    else
      match takeMem a16 mod rm none bs with
      | none => none
      | some (o, r) => some (reg, o, r)

/-- R100 steps 3 to 5: the operand bytes, then the length test of R70; `total` is the number of bytes given to the
decoder. -/
def finish (total : Nat) (a16 : Bool) (mk : BitVec 3 → RegMem → Instr) (bs : List Byte) : Verdict :=
  match takeRegMem a16 bs with
  | none => .reject .truncated
  | some (reg, rm, rest) =>
    if total - rest.length > 15 then .lengthGp else .form (mk reg rm) (total - rest.length)

/-- The length of the instruction whose operand bytes are at the front of `bs`, as `finish` counts it; none where they are not
all there. -/
def extent (total : Nat) (a16 : Bool) (bs : List Byte) : Option Nat :=
  match takeRegMem a16 bs with
  | none => none
  | some (_, _, rest) => some (total - rest.length)

/-- The end of an encoding that R101 calls illegal, from its operand bytes on. -/
def finishIllegal (total : Nat) (a16 : Bool) (bs : List Byte) : Verdict := illegalOfLength (extent total a16 bs)

/-- The bytes from ModRM on name a memory operand with 16-bit addressing. -/
def memory16 (m : Mode) (a67 : Bool) : List Byte → Bool
  | [] => false
  | b :: _ => m.addr16 a67 && b.extractLsb' 6 2 != 3#2

/-- As `finish`, for VEX and EVEX: a repeated override or 67 is refused (R71, D15) but where R101 rows 4, 6 and 10 make the
form #UD; 16-bit addressing of a memory operand is refused without that exception (R79, D16). -/
def finishVex (m : Mode) (total : Nat) (s : Scan) (need : FeatureNeed) (mk : BitVec 3 → RegMem → Instr)
    (bs : List Byte) : Verdict :=
  if memory16 m s.addrSize bs then .reject (if s.redundant then .redundantPrefix else .addressing16Vex)
  else if s.redundant then .barred .redundantPrefix need (extent total false bs)
  else finish total false mk bs

/-! ### Which form the bytes select (R74) -/

/-- `DC` is the byte form, `DD` the word form, nothing else is in scope (R74). -/
def wordForm (opc : Byte) : Option Bool :=
  if opc = 0xDC#8 then some false else if opc = 0xDD#8 then some true else none

/-- Rows 1 to 4 by the 66 prefix and the lane width (R72, R74). -/
def legacyInstr (op66 word : Bool) (p : Prefixes) (x : Option Rex) (reg : BitVec 3) (rm : RegMem) : Instr :=
  match op66, word with
  | false, false => .paddusbMm p x reg rm
  | true, false => .paddusbXmm p x reg rm
  | false, true => .padduswMm p x reg rm
  | true, true => .padduswXmm p x reg rm

/-- Rows 5 to 8 in the two-byte prefix by `L` and the lane width (R74, R84). -/
def vex2Instr (l word : Bool) (p : Prefixes) (v : Vex2) (reg : BitVec 3) (rm : RegMem) : Instr :=
  match l, word with
  | false, false => .vpaddusbXmmVex2 p v reg rm
  | false, true => .vpadduswXmmVex2 p v reg rm
  | true, false => .vpaddusbYmmVex2 p v reg rm
  | true, true => .vpadduswYmmVex2 p v reg rm

/-- Rows 5 to 8 in the three-byte prefix by `L` and the lane width (R74, R83). -/
def vex3Instr (l word : Bool) (p : Prefixes) (v : Vex3) (reg : BitVec 3) (rm : RegMem) : Instr :=
  match l, word with
  | false, false => .vpaddusbXmmVex3 p v reg rm
  | false, true => .vpadduswXmmVex3 p v reg rm
  | true, false => .vpaddusbYmmVex3 p v reg rm
  | true, true => .vpadduswYmmVex3 p v reg rm

/-- The vector length `L'L` selects (R87, R90); 3 is reserved. -/
inductive EvexLen where
  | vl128
  | vl256
  | vl512
  deriving DecidableEq, Repr

/-- `L'L` as a vector length; none for the reserved 11 (R90). -/
def evexLen (ll : BitVec 2) : Option EvexLen :=
  if ll = 0#2 then some .vl128 else if ll = 1#2 then some .vl256 else if ll = 2#2 then some .vl512 else none

/-- Rows 9 to 14 by vector length and lane width (R74). -/
def evexInstr (vl : EvexLen) (word : Bool) (p : Prefixes) (v : Evex) (reg : BitVec 3) (rm : RegMem) : Instr :=
  match vl, word with
  | .vl128, false => .vpaddusbXmmEvex p v reg rm
  | .vl256, false => .vpaddusbYmmEvex p v reg rm
  | .vl512, false => .vpaddusbZmmEvex p v reg rm
  | .vl128, true => .vpadduswXmmEvex p v reg rm
  | .vl256, true => .vpadduswYmmEvex p v reg rm
  | .vl512, true => .vpadduswZmmEvex p v reg rm

/-! ### The three layouts (R70, R100 step 2) -/

/-- The payload byte of the two-byte VEX prefix, un-inverted (R84). -/
def vex2Of (v1 : Byte) : Vex2 := ⟨!v1.getLsbD 7, ~~~(v1.extractLsb' 3 4)⟩

/-- After `C5` (R84, R85, R86). -/
def decodeVex2 (m : Mode) (total : Nat) (s : Scan) : List Byte → Verdict
  | v1 :: opc :: rest =>
    let v := vex2Of v1
    if m = .m32 ∧ (v.r ∨ v.vvvv.msb) then .reject .extensionBitsIn32
    else if v1.extractLsb' 0 2 ≠ 1#2 then .reject .otherInstruction
    else
      match wordForm opc with
      | none => .reject .otherInstruction
      | some word => finishVex m total s (.vex (v1.getLsbD 2)) (vex2Instr (v1.getLsbD 2) word s.kept v) rest
  | _ => s.cutShort

/-- The payload bytes of the three-byte VEX prefix, un-inverted (R83). -/
def vex3Of (v1 v2 : Byte) : Vex3 :=
  ⟨!v1.getLsbD 7, !v1.getLsbD 6, !v1.getLsbD 5, v2.getLsbD 7, ~~~(v2.extractLsb' 3 4)⟩

/-- After `C4` (R83, R85, R86). -/
def decodeVex3 (m : Mode) (total : Nat) (s : Scan) : List Byte → Verdict
  | v1 :: v2 :: opc :: rest =>
    let v := vex3Of v1 v2
    if m = .m32 ∧ (v.r ∨ v.x ∨ v.b ∨ v.vvvv.msb) then .reject .extensionBitsIn32
    else if v1.extractLsb' 0 5 ≠ 1#5 ∨ v2.extractLsb' 0 2 ≠ 1#2 then .reject .otherInstruction
    else
      match wordForm opc with
      | none => .reject .otherInstruction
      | some word => finishVex m total s (.vex (v2.getLsbD 2)) (vex3Instr (v2.getLsbD 2) word s.kept v) rest
  | _ => s.cutShort

/-- The payload bytes of the EVEX prefix, un-inverted (R87). -/
def evexOf (p0 p1 p2 : Byte) : Evex :=
  ⟨!p0.getLsbD 7, !p0.getLsbD 6, !p0.getLsbD 5, !p0.getLsbD 4, p1.getLsbD 7, ~~~(p1.extractLsb' 3 4),
    !p2.getLsbD 3, p2.getLsbD 7, p2.extractLsb' 0 3⟩

/-- After `62` (R87 to R95, R101). The fixed bits come first (R95: #UD), then map, `pp` and opcode (another
instruction), then what makes a form in scope illegal: `b = 1` (R94), `L'L = 11` (R90), `z = 1` without a writemask (R93). -/
def decodeEvex (m : Mode) (total : Nat) (s : Scan) : List Byte → Verdict
  | p0 :: p1 :: p2 :: opc :: rest =>
    let v := evexOf p0 p1 p2
    if m = .m32 ∧ (v.r ∨ v.x ∨ v.b ∨ v.rHi ∨ v.vHi ∨ v.vvvv.msb) then .reject .extensionBitsIn32
    else if p0.extractLsb' 2 2 ≠ 0#2 ∨ p1.getLsbD 2 = false ∨ p0.extractLsb' 0 2 = 0#2 then
      finishIllegal total (m.addr16 s.addrSize) rest
    else if p0.extractLsb' 0 2 ≠ 1#2 ∨ p1.extractLsb' 0 2 ≠ 1#2 then .reject .otherInstruction
    else
      match wordForm opc with
      | none => .reject .otherInstruction
      | some word =>
        if p2.getLsbD 4 then finishIllegal total (m.addr16 s.addrSize) rest
        else
          match evexLen (p2.extractLsb' 5 2) with
          | none => finishIllegal total (m.addr16 s.addrSize) rest
          | some vl =>
            if v.z ∧ v.aaa = 0#3 then finishIllegal total (m.addr16 s.addrSize) rest
            else finishVex m total s (.evex (vl == .vl512)) (evexInstr vl word s.kept v) rest
  | _ => s.cutShort

/-- How many payload and opcode bytes follow `C5`, `C4` and `62` (R70). -/
def vexTail (lead : Byte) : Nat := if lead = 0xC5#8 then 2 else if lead = 0xC4#8 then 3 else 4

/-- After `C4`, `C5` or `62` with a prefix before it that VEX and EVEX forbid: #UD whatever the payload is (R100 step 2,
R101 rows 1 to 3). -/
def illegalVex (m : Mode) (total : Nat) (s : Scan) (lead : Byte) (bs : List Byte) : Verdict :=
  finishIllegal total (m.addr16 s.addrSize) (bs.drop (vexTail lead))

/-- After the prefixes: the escape `0F`, the opcode byte, the operands (R72 to R74, R100 step 2). LOCK makes a form #UD
whatever else stands before the opcode (R101 row 1). F2 or F3 makes the opcode another map entry, which is refused (R72, D15).
D15 refuses misplaced REX and redundant prefixes but where the form lacks its CPUID flag (R101 row 10). -/
def decodeLegacy (m : Mode) (total : Nat) (s : Scan) : List Byte → Verdict
  | [] => s.cutShort
  | b :: bs =>
    if b = 0x0F#8 then
      match bs with
      | [] => s.cutShort
      | opc :: rest =>
        match wordForm opc with
        | none => .reject .otherInstruction
        | some word =>
          if s.lock then finishIllegal total (m.addr16 s.addrSize) rest
          else if s.rep then .reject (s.refusal.getD .reservedMapEntry)
          else
            match s.refusal with
            | some r => .barred r (if s.opSize then .sse else .mmx) (extent total (m.addr16 s.addrSize) rest)
            | none => finish total (m.addr16 s.addrSize) (legacyInstr s.opSize word s.kept s.rex) rest
    else .reject .otherInstruction

/-- The bytes that lead a VEX or EVEX prefix (R83, R84, R87). -/
def vexLead (b : Byte) : Bool := b == 0xC4#8 || b == 0xC5#8 || b == 0x62#8

/-- `C4`, `C5` and `62` lead a VEX or EVEX prefix: always in 64-bit mode, in 32-bit mode when bits 7:6 of the next byte
are 11, else they are LES, LDS and BOUND (R86, R88). -/
def leadsVex (m : Mode) (b next : Byte) : Bool := vexLead b && (m == .m64 || next.extractLsb' 6 2 == 3#2)

/-- LOCK, 66, F2, F3 or a REX byte was seen: #UD before VEX and EVEX (R101 rows 1 to 3). -/
def Scan.illegalBeforeVex (s : Scan) : Bool := s.lock || s.rep || s.opSize || s.rex.isSome

/-- R100 step 2, after the prefixes. LOCK, 66, F2, F3 or REX anywhere before VEX or EVEX is #UD (R101 rows 1 to 3). So is a REX
byte that a legacy prefix follows, of which R73 says that chips ignore it: DESIGN CHOICE (unsafe),
notes/assumptions/37.md. -/
def decodeBody (m : Mode) (total : Nat) (s : Scan) : List Byte → Verdict
  | b :: next :: bs =>
    if leadsVex m b next then
      if s.illegalBeforeVex then illegalVex m total s b (next :: bs)
      else if b = 0xC5#8 then decodeVex2 m total s (next :: bs)
      else if b = 0xC4#8 then decodeVex3 m total s (next :: bs)
      else decodeEvex m total s (next :: bs)
    else decodeLegacy m total s (b :: next :: bs)
  | [b] =>
    if vexLead b then (if m = .m64 ∧ s.illegalBeforeVex then .reject .truncated else s.cutShort)
    else decodeLegacy m total s [b]
  | [] => s.cutShort

/-- The decoder (R100): the instruction at the front of `bs` in mode `m`. -/
def decode (m : Mode) (bs : List Byte) : Verdict :=
  decodeBody m bs.length (scanPrefixes m Scan.empty bs).1 (scanPrefixes m Scan.empty bs).2

/-! ### The encoder -/

/-- The byte of a segment override (R71). -/
def segByte : SegName → Byte
  | .es => 0x26#8
  | .cs => 0x2E#8
  | .ss => 0x36#8
  | .ds => 0x3E#8
  | .fs => 0x64#8
  | .gs => 0x65#8

/-- The prefixes every layout admits, in the order of R104: segment override, then 67. -/
def encodePrefixes (p : Prefixes) : List Byte :=
  (match p.seg with
    | none => []
    | some n => [segByte n]) ++ (if p.a67 then [0x67#8] else [])

/-- The displacement bytes, little-endian (R77). -/
def encodeDisp : Disp → List Byte
  | .none => []
  | .disp8 d => [d]
  | .disp16 d => [d.extractLsb' 0 8, d.extractLsb' 8 8]
  | .disp32 d => [d.extractLsb' 0 8, d.extractLsb' 8 8, d.extractLsb' 16 8, d.extractLsb' 24 8]

/-- The SIB byte (R76). -/
def sibByte (sb : Sib) : Byte := (sb.scale ++ sb.index ++ sb.base : BitVec 8)

/-- ModRM, SIB and displacement (R75 to R77). -/
def encodeRegMem (reg : BitVec 3) : RegMem → List Byte
  | .reg r => [(3#2 ++ reg ++ r : BitVec 8)]
  | .mem a =>
    (a.mod ++ reg ++ a.rm : BitVec 8) ::
      ((match a.sib with
        | none => []
        | some sb => [sibByte sb]) ++ encodeDisp a.disp)

/-- The opcode byte of a lane width (R74). -/
def opcodeByte (word : Bool) : Byte := if word then 0xDD#8 else 0xDC#8

/-- The REX byte (R73). -/
def rexByte (x : Rex) : Byte :=
  (4#4 ++ BitVec.ofBool x.w ++ BitVec.ofBool x.r ++ BitVec.ofBool x.x ++ BitVec.ofBool x.b : BitVec 8)

/-- The legacy layout: `[seg]? [67]? [66]? [REX]? 0F opc ModRM [SIB] [disp]` (R70, R104). -/
def encodeLegacy (op66 word : Bool) (p : Prefixes) (x : Option Rex) (reg : BitVec 3) (rm : RegMem) : List Byte :=
  encodePrefixes p ++ (if op66 then [0x66#8] else []) ++
    (match x with
      | none => []
      | some r => [rexByte r]) ++ [0x0F#8, opcodeByte word] ++ encodeRegMem reg rm

/-- The payload byte of the two-byte VEX prefix, fields inverted where R84 stores them so; `pp = 01`. -/
def vex2Byte (l : Bool) (v : Vex2) : Byte :=
  (BitVec.ofBool (!v.r) ++ ~~~v.vvvv ++ BitVec.ofBool l ++ 1#2 : BitVec 8)

/-- The two-byte VEX layout (R70, R84). -/
def encodeVex2 (l word : Bool) (p : Prefixes) (v : Vex2) (reg : BitVec 3) (rm : RegMem) : List Byte :=
  encodePrefixes p ++ [0xC5#8, vex2Byte l v, opcodeByte word] ++ encodeRegMem reg rm

/-- The first payload byte of the three-byte VEX prefix; `mmmmm = 00001` (R83, R85). -/
def vex3Byte1 (v : Vex3) : Byte :=
  (BitVec.ofBool (!v.r) ++ BitVec.ofBool (!v.x) ++ BitVec.ofBool (!v.b) ++ 1#5 : BitVec 8)

/-- The second payload byte of the three-byte VEX prefix; `pp = 01` (R83, R85). -/
def vex3Byte2 (l : Bool) (v : Vex3) : Byte :=
  (BitVec.ofBool v.w ++ ~~~v.vvvv ++ BitVec.ofBool l ++ 1#2 : BitVec 8)

/-- The three-byte VEX layout (R70, R83). -/
def encodeVex3 (l word : Bool) (p : Prefixes) (v : Vex3) (reg : BitVec 3) (rm : RegMem) : List Byte :=
  encodePrefixes p ++ [0xC4#8, vex3Byte1 v, vex3Byte2 l v, opcodeByte word] ++ encodeRegMem reg rm

/-- `P0`; `mm = 01` (R87, R89). -/
def evexByte0 (v : Evex) : Byte :=
  (BitVec.ofBool (!v.r) ++ BitVec.ofBool (!v.x) ++ BitVec.ofBool (!v.b) ++ BitVec.ofBool (!v.rHi) ++ 1#4 : BitVec 8)

/-- `P1`; bit 2 is 1 and `pp = 01` (R87, R89). -/
def evexByte1 (v : Evex) : Byte := (BitVec.ofBool v.w ++ ~~~v.vvvv ++ 5#3 : BitVec 8)

/-- `L'L` of a vector length (R87). -/
def evexLenBits : EvexLen → BitVec 2
  | .vl128 => 0#2
  | .vl256 => 1#2
  | .vl512 => 2#2

/-- `P2`; `b = 0` (R87, R94). -/
def evexByte2 (vl : EvexLen) (v : Evex) : Byte :=
  (BitVec.ofBool v.z ++ evexLenBits vl ++ 0#1 ++ BitVec.ofBool (!v.vHi) ++ v.aaa : BitVec 8)

/-- The EVEX layout (R70, R87). -/
def encodeEvex (vl : EvexLen) (word : Bool) (p : Prefixes) (v : Evex) (reg : BitVec 3) (rm : RegMem) : List Byte :=
  encodePrefixes p ++ [0x62#8, evexByte0 v, evexByte1 v, evexByte2 vl v, opcodeByte word] ++ encodeRegMem reg rm

/-- The bytes of an instruction, prefixes in the order of R104. -/
def encode : Instr → List Byte
  | .paddusbMm p x reg rm => encodeLegacy false false p x reg rm
  | .paddusbXmm p x reg rm => encodeLegacy true false p x reg rm
  | .padduswMm p x reg rm => encodeLegacy false true p x reg rm
  | .padduswXmm p x reg rm => encodeLegacy true true p x reg rm
  | .vpaddusbXmmVex3 p v reg rm => encodeVex3 false false p v reg rm
  | .vpaddusbXmmVex2 p v reg rm => encodeVex2 false false p v reg rm
  | .vpadduswXmmVex3 p v reg rm => encodeVex3 false true p v reg rm
  | .vpadduswXmmVex2 p v reg rm => encodeVex2 false true p v reg rm
  | .vpaddusbYmmVex3 p v reg rm => encodeVex3 true false p v reg rm
  | .vpaddusbYmmVex2 p v reg rm => encodeVex2 true false p v reg rm
  | .vpadduswYmmVex3 p v reg rm => encodeVex3 true true p v reg rm
  | .vpadduswYmmVex2 p v reg rm => encodeVex2 true true p v reg rm
  | .vpaddusbXmmEvex p v reg rm => encodeEvex .vl128 false p v reg rm
  | .vpaddusbYmmEvex p v reg rm => encodeEvex .vl256 false p v reg rm
  | .vpaddusbZmmEvex p v reg rm => encodeEvex .vl512 false p v reg rm
  | .vpadduswXmmEvex p v reg rm => encodeEvex .vl128 true p v reg rm
  | .vpadduswYmmEvex p v reg rm => encodeEvex .vl256 true p v reg rm
  | .vpadduswZmmEvex p v reg rm => encodeEvex .vl512 true p v reg rm

/-- `L`, the instruction's length in bytes (10_state.md R27): the order of its prefixes does not change it. -/
def Instr.length (i : Instr) : Nat := (encode i).length

/-! ### Words of spec/opcode_table.json -/

/-- The longest instruction the fetch reads (R70). -/
def maxInstrBytes : Nat := 15

/-- The `n` bytes of a number, first byte most significant (R104). -/
def bigEndianBytes : Nat → Nat → List Byte
  | 0, _ => []
  | n + 1, w => BitVec.ofNat 8 (w / 2 ^ (8 * n)) :: bigEndianBytes n w

/-- `match` and `mask` of a row of spec/opcode_table.json, with its number of bytes: the bytes, read as one number with
the first byte most significant, select the row when `(bytes AND mask) = match` (R104). -/
structure TableRow where
  bytes : Nat
  mask : Nat
  value : Nat
  deriving DecidableEq, Repr

/-- The rows of spec/opcode_table.json in its order (R104). -/
def opcodeTable : List TableRow :=
  [ ⟨3, 0xFFFF00, 0x0FDC00⟩, ⟨4, 0xFFFFFF00, 0x660FDC00⟩, ⟨3, 0xFFFF00, 0x0FDD00⟩, ⟨4, 0xFFFFFF00, 0x660FDD00⟩,
    ⟨5, 0xFF1F07FF00, 0xC40101DC00⟩, ⟨4, 0xFF07FF00, 0xC501DC00⟩, ⟨5, 0xFF1F07FF00, 0xC40101DD00⟩,
    ⟨4, 0xFF07FF00, 0xC501DD00⟩, ⟨5, 0xFF1F07FF00, 0xC40105DC00⟩, ⟨4, 0xFF07FF00, 0xC505DC00⟩,
    ⟨5, 0xFF1F07FF00, 0xC40105DD00⟩, ⟨4, 0xFF07FF00, 0xC505DD00⟩, ⟨6, 0xFF0F0770FF00, 0x62010500DC00⟩,
    ⟨6, 0xFF0F0770FF00, 0x62010520DC00⟩, ⟨6, 0xFF0F0770FF00, 0x62010540DC00⟩, ⟨6, 0xFF0F0770FF00, 0x62010500DD00⟩,
    ⟨6, 0xFF0F0770FF00, 0x62010520DD00⟩, ⟨6, 0xFF0F0770FF00, 0x62010540DD00⟩ ]

/-- The number `w` of `n` bytes, first byte most significant, selects the row. -/
def TableRow.selects (r : TableRow) (n w : Nat) : Bool := r.bytes == n && (w &&& r.mask) == r.value

/-- The bytes of a table word in address order, padded with zero bytes up to the longest instruction. The table numbers
the bits of a row with the first byte most significant (R104, its `match` and `mask`); a word that selects a row of its
length read so is laid out so, any other with its bytes counted on from the first (notes/assumptions/21.md). -/
def tableBytes (nbits w : Nat) : List Byte :=
  let n := nbits / 8
  let be := bigEndianBytes n w
  let bs := if opcodeTable.any (fun r => r.selects n w) then be else be.reverse
  bs ++ List.replicate (maxInstrBytes - n) 0#8

/-- The instruction the decoder reads, in 64-bit mode, from an instruction whose bits are `w`. -/
def decodeTableWord (nbits w : Nat) : Option Instr :=
  match decode .m64 (tableBytes nbits w) with
  | .form i _ => some i
  | _ => none

end Sys2Proof
end

