-- ==== Sys2Proof/Machine/State.lean ====
section
/-! DEFINITION. The machine's state as plain data (10_state.md), its value after reset (R39), and the reasons a step can
stop (60_exceptions.md R152, R172; the refusals of 92_eei_decisions.md). -/

namespace Sys2Proof.Machine

/-- A segment register (10_state.md R26): the visible selector, and the hidden base, limit and access rights. `long` and
`big` are the bits L and D of the hidden part, read of CS only (R34). -/
structure SegReg where
  selector : BitVec 16
  base : BitVec 64
  limit : BitVec 32
  present : Bool
  readable : Bool
  long : Bool
  big : Bool
  deriving DecidableEq, Repr

/-- The six segment registers (10_state.md R26). -/
structure SegRegs where
  es : SegReg
  cs : SegReg
  ss : SegReg
  ds : SegReg
  fs : SegReg
  gs : SegReg
  deriving DecidableEq, Repr

/-- The state of the machine (10_state.md; INVENTORY.md says which rule names each field). The MMX registers, `TOP`, CPL
and the mode are views (Machine/Ops.lean, Machine/Flags.lean), not fields. -/
structure State where
  /-- `v[0..31]`: vector registers (R20, R21); the bits from MAXVL up are 0 on a processor with a smaller MAXVL. -/
  v : Vector VReg 32
  /-- `fpr[0..7]`: x87 data registers; `mm[i]` is `fpr[i][63:0]` (R22, R23). -/
  fpr : Vector FReg 8
  /-- The x87 status word: `TOP` in bits 13:11, `ES` bit 7 (R23, R36). -/
  fsw : BitVec 16
  /-- The x87 tag word (R23). -/
  ftw : BitVec 16
  /-- The x87 control word (R29, R39). -/
  fcw : BitVec 16
  /-- MXCSR (R29, R39). -/
  mxcsr : BitVec 32
  /-- `k[0..7]`: opmask registers (R24). -/
  k : Vector Word64 8
  /-- `x[0..15]`: general registers (R25). -/
  x : Vector Word64 16
  /-- RIP, or EIP zero-extended (R27). -/
  pc : Word64
  /-- RFLAGS (R28). -/
  rflags : Word64
  /-- Segment registers (R26). -/
  segs : SegRegs
  /-- CR0 (R30). -/
  cr0 : Word64
  /-- CR2, the faulting address of the last page fault (20_memory.md R60). -/
  cr2 : Word64
  /-- CR3 (R39). -/
  cr3 : Word64
  /-- CR4 (R31). -/
  cr4 : Word64
  /-- XCR0 (R32). -/
  xcr0 : Word64
  /-- IA32_EFER (R34). -/
  efer : Word64
  /-- Memory: the bytes that do not read as 0, by physical address, addresses strictly rising (20_memory.md R50). -/
  mem : List Host.Cell
  /-- The parameters of the step relation (00_scope.md R6), changed by no step. -/
  platform : Platform
  /-- The model's own counter of free draws (notes/assumptions/14.md). -/
  draws : Nat
  deriving DecidableEq, Repr

/-- The exceptions a form can raise (60_exceptions.md R152), with what each records. -/
inductive Exc where
  | ud
  | nm
  | ss
  | gp
  | pf (code : BitVec 32) (addr : Word64)
  | mf
  | ac
  deriving DecidableEq, Repr

/-- The faults (60_exceptions.md R152): terminal outcomes of a step (R172, D5), each with the state it leaves: the state
before the instruction, with CR2 written by #PF (R171). All are safe: nothing is said of what a handler does. -/
inductive Fault where
  /-- #UD, vector 6, no error code: the decoder and every form (R101, R156 to R159). Safe. -/
  | invalidOpcode (after : State)
  /-- #NM, vector 7, no error code: every form with CR0.TS = 1 (R161). Safe. -/
  | deviceNotAvailable (after : State)
  /-- #SS(0), vector 12: a memory operand in SS with a non-canonical address (R163). Safe. -/
  | stackSegment (after : State)
  /-- #GP(0), vector 13: a non-canonical memory operand, a misaligned one of rows 2 and 4 (R162), and, by the step, an
  instruction longer than 15 bytes (R168 item 2). Safe. -/
  | generalProtection (after : State)
  /-- #PF(code), vector 14: a memory operand that does not translate (R164); the address is in `after.cr2`. Safe. -/
  | pageFault (code : BitVec 32) (after : State)
  /-- #MF, vector 16, no error code: rows 1 and 3 with an x87 exception pending (R160). Safe. -/
  | x87Error (after : State)
  /-- #AC(0), vector 17: a misaligned memory operand of rows 1 and 3 under alignment checking (R165). Safe. -/
  | alignmentCheck (after : State)
  deriving DecidableEq, Repr

/-- The refusals: the spec gives no outcome (00_scope.md R14). All are safe: nothing can be proved of what follows. -/
inductive Refusal where
  /-- An instruction without a meaning in this model. No arm of exec uses it. -/
  | notModelled (mnemonic : String)
  /-- A mode other than M64 and M32 (R5 (b), R34, D4): raised by the step and by every form. Safe. -/
  | modeOutOfScope
  /-- The decoder gives the bytes no meaning (30_encoding.md R100): raised by the step. Safe. -/
  | encoding (r : Reject)
  /-- The instruction's bytes would cross the top of the address space or run into a non-canonical address (R27, D12):
  raised by the fetch. Safe. -/
  | codeAtBoundary
  /-- A code byte does not translate (60_exceptions.md R168 item 1 leaves code-fetch faults to the environment; premise
  P4 of R194): raised by the fetch. Safe. -/
  | codeNotMapped
  /-- A code byte lies where code may not be run (70_reset_and_hazards.md R194, P4; R168 item 1): raised by the fetch. Safe. -/
  | codeNotExecutable
  /-- A code byte lies in memory others write or in a device (20_memory.md R65, D10, R62): raised by the fetch. Safe. -/
  | codeNotPrivate
  /-- A segment that is not flat in 32-bit mode (20_memory.md R55, D7): raised by the fetch and by memory operands. Safe. -/
  | nonFlatSegment
  /-- A memory operand with `ea + n - 1 >= 2^32` in 32-bit mode (R55, D7). Safe. -/
  | operandWraps
  /-- 16-bit addressing of a VEX or EVEX form (30_encoding.md R79, D16). Safe. -/
  | addressing16Vex
  /-- Whether a non-canonical operand is #SS or #GP, where an ignored override set its segment to SS or away from SS
  (30_encoding.md R81, D15). Safe. -/
  | stackOrProtection
  /-- A misaligned VEX or EVEX operand with alignment checking on at CPL 3 (20_memory.md R59, D9). Safe. -/
  | alignmentUnderCheck
  /-- Only bytes of masked-off lanes of an EVEX operand fail their checks (42_vpaddus_evex.md R140, D17). Safe. -/
  | maskedLaneFault
  /-- An operand byte is a device register with read side effects (20_memory.md R62, D8). Safe. -/
  | deviceMemory
  /-- An x87 exception is pending before an MMX form and CR0.NE = 0 (60_exceptions.md R160, D19). Safe. -/
  | x87ExternalReport
  deriving DecidableEq, Repr

/-- A segment register as R39 gives it after reset. Access rights present and readable: notes/assumptions/5.md. -/
def SegReg.reset : SegReg := ⟨0#16, 0#64, 0xFFFF#32, true, true, false, false⟩

/-- The machine right after power-up or RESET (10_state.md R39). Values R39 does not fix: notes/assumptions/3.md
(platform), 4.md (RDX), 5.md (access rights), 6.md (memory), 14.md (draws). -/
def State.reset : State where
  v := Vector.replicate 32 0#512
  fpr := Vector.replicate 8 0#80
  fsw := 0x0000#16
  ftw := 0x5555#16
  fcw := 0x0040#16
  mxcsr := 0x1F80#32
  k := Vector.replicate 8 0#64
  x := (Vector.replicate 16 0#64).set 2 0x600#64
  pc := 0xFFF0#64
  rflags := 0x2#64
  segs :=
    { es := .reset
      cs := { SegReg.reset with selector := 0xF000#16, base := 0xFFFF0000#64 }
      ss := .reset
      ds := .reset
      fs := .reset
      gs := .reset }
  cr0 := 0x60000010#64
  cr2 := 0#64
  cr3 := 0#64
  cr4 := 0#64
  xcr0 := 1#64
  efer := 0#64
  mem := []
  platform := ⟨⟨true, true, true, true, true, true, true⟩, .la48, [], []⟩
  draws := 0

end Sys2Proof.Machine
end

