-- ==== Sys2Proof/Machine/Flags.lean ====
section
/-! DEFINITION. The flags, control bits and enabling conditions the forms test (10_state.md R28 to R36, 60_exceptions.md
R156 to R161). No form writes a flag (R28), so there is no flag computation. -/

namespace Sys2Proof.Machine

/-! ### Single bits -/

/-- `CR0.PE`, bit 0 (R30). -/
def State.cr0PE (s : State) : Bool := s.cr0.getLsbD 0
/-- `CR0.EM`, bit 2 (R30). -/
def State.cr0EM (s : State) : Bool := s.cr0.getLsbD 2
/-- `CR0.TS`, bit 3 (R30). -/
def State.cr0TS (s : State) : Bool := s.cr0.getLsbD 3
/-- `CR0.NE`, bit 5 (R30). -/
def State.cr0NE (s : State) : Bool := s.cr0.getLsbD 5
/-- `CR0.AM`, bit 18 (R30). -/
def State.cr0AM (s : State) : Bool := s.cr0.getLsbD 18
/-- `CR0.PG`, bit 31 (R30). -/
def State.cr0PG (s : State) : Bool := s.cr0.getLsbD 31
/-- `CR4.OSFXSR`, bit 9 (R31). -/
def State.osfxsr (s : State) : Bool := s.cr4.getLsbD 9
/-- `CR4.OSXSAVE`, bit 18 (R31). -/
def State.osxsave (s : State) : Bool := s.cr4.getLsbD 18
/-- `EFLAGS.VM`, bit 17 (R34). -/
def State.flagVM (s : State) : Bool := s.rflags.getLsbD 17
/-- `EFLAGS.AC`, bit 18 (R28). -/
def State.flagAC (s : State) : Bool := s.rflags.getLsbD 18
/-- `IA32_EFER.LMA`, bit 10 (R34). -/
def State.lma (s : State) : Bool := s.efer.getLsbD 10
/-- `FSW.ES`, bit 7: an unmasked x87 exception is pending (R36). -/
def State.x87Pending (s : State) : Bool := s.fsw.getLsbD 7
/-- `TOP`, bits 13:11 of the x87 status word (R23). -/
def State.top (s : State) : BitVec 3 := s.fsw.extractLsb' 11 3

/-- CPL, bits 1:0 of the CS selector (R35, 60_exceptions.md R175). -/
def State.cpl (s : State) : BitVec 2 := s.segs.cs.selector.extractLsb' 0 2

/-- `XCR0[2:1] = 11b` (R32). -/
def State.xcr0Avx (s : State) : Bool := s.xcr0.extractLsb' 1 2 == 3#2

/-- `XCR0[7:5] = 111b` (R32). -/
def State.xcr0Avx512 (s : State) : Bool := s.xcr0.extractLsb' 5 3 == 7#3

/-- Alignment checking is enabled: `CR0.AM = 1 and EFLAGS.AC = 1 and CPL = 3` (20_memory.md R58). -/
def State.alignmentChecking (s : State) : Bool := s.cr0AM && s.flagAC && s.cpl == 3#2

/-- The mode (R34): none is a mode out of scope (R5 (b), D4). That PE = PG = 1 in each of the two modes (R30) is a clause of
`State.Inv` and of `State.Launch` (notes/assumptions/34.md). -/
def State.mode (s : State) : Option Mode :=
  if s.lma then
    if s.segs.cs.long then some .m64
    else if s.segs.cs.big then some .m32
    else none
  else if s.cr0PE && !s.flagVM && s.segs.cs.big then some .m32
  else none

/-! ### The feature set -/

/-- FEAT of the processor. -/
abbrev State.feat (s : State) : Features := s.platform.feat

/-- `MAXVL` in bits (00_scope.md R6, D2). -/
def maxVl (f : Features) : Nat := if f.avx512f then 512 else if f.avx then 256 else 128

/-- The number of vector registers that exist on the processor (10_state.md R21). -/
def vectorRegs (f : Features) : Nat := if f.avx512f then 32 else 16

/-- The constraints among the flags (00_scope.md R6), but for the one on 64-bit mode. -/
def featuresConsistent (f : Features) : Bool :=
  (!f.avx2 || f.avx) && (!f.avx512f || f.avx2) && (!f.avx512bw || f.avx512f) && (!f.avx512vl || f.avx512f)
    && (!f.avx || f.sse2)

/-! ### #UD conditions of the four classes, on the state (R156 to R159); the conditions on prefixes are the decoder's -/

/-- Rows 1 and 3 (R156). -/
def State.udMmx (s : State) : Bool := s.cr0EM || !s.feat.has .mmx

/-- Rows 2 and 4 (R157). -/
def State.udSse (s : State) : Bool := s.cr0EM || !s.osfxsr || !s.feat.has .sse

/-- Rows 5 to 8 (R158): `ymm` says the 256-bit forms, which need AVX2. -/
def State.udVex (s : State) (ymm : Bool) : Bool :=
  !s.osxsave || !s.xcr0Avx || !s.feat.has (.vex ymm)

/-- Rows 9 to 14 (R159): `zmm` says the 512-bit forms, which do not need AVX512VL; `z` without a writemask is (h). -/
def State.udEvex (s : State) (zmm : Bool) (z : Bool) (aaa : BitVec 3) : Bool :=
  !s.osxsave || !s.xcr0Avx || !s.xcr0Avx512 || !s.feat.has (.evex zmm) || (z && aaa == 0#3)

end Sys2Proof.Machine
end

