-- ==== Sys2Proof/Machine/Ops.lean ====
section
/-! DEFINITION. The named operations over memory, addresses and the program counter, taking an exception, and the fetch
(20_memory.md, 60_exceptions.md R168 to R172, 10_state.md R27). -/

namespace Sys2Proof

/-- FS or GS, whose base counts in every mode (20_memory.md R54, D7). -/
def SegName.hasBase : SegName → Bool
  | .fs => true
  | .gs => true
  | _ => false

/-- The value modulo the width of a linear address: 2^64 in M64, 2^32 in M32 (R54, R55). -/
def Mode.wrap (m : Mode) (a : Word64) : Word64 :=
  match m with
  | .m64 => a
  | .m32 => (a.setWidth 32).setWidth 64

/-- The first address past the linear address space. -/
def Mode.top (m : Mode) : Nat :=
  match m with
  | .m64 => 2 ^ 64
  | .m32 => 2 ^ 32

end Sys2Proof

namespace Sys2Proof.Machine

/-- The outcome of a step of this machine. -/
abbrev Result := Host.Outcome State Fault Refusal

/-! ### Taking an exception -/

/-- Takes exception `e` at `s`: the terminal outcome of R172 (D5), with the state R171 leaves: `s`, but for CR2 on #PF.
The one place an exception is taken. Delivery through a handler and the return from one are out of scope (R5 (c)). -/
def raise (e : Exc) (s : State) : Result :=
  match e with
  | .ud => .fault (.invalidOpcode s)
  | .nm => .fault (.deviceNotAvailable s)
  | .ss => .fault (.stackSegment s)
  | .gp => .fault (.generalProtection s)
  | .pf code addr => .fault (.pageFault code { s with cr2 := addr })
  | .mf => .fault (.x87Error s)
  | .ac => .fault (.alignmentCheck s)

/-- The vector number (R152). -/
def Fault.vector : Fault → Nat
  | .invalidOpcode _ => 6
  | .deviceNotAvailable _ => 7
  | .stackSegment _ => 12
  | .generalProtection _ => 13
  | .pageFault _ _ => 14
  | .x87Error _ => 16
  | .alignmentCheck _ => 17

/-- The error code (R152): none, 0, or the page-fault code of 20_memory.md R60. -/
def Fault.errorCode : Fault → Option (BitVec 32)
  | .invalidOpcode _ => none
  | .deviceNotAvailable _ => none
  | .stackSegment _ => some 0#32
  | .generalProtection _ => some 0#32
  | .pageFault code _ => some code
  | .x87Error _ => none
  | .alignmentCheck _ => some 0#32

/-- The state a fault leaves (R171). -/
def Fault.after : Fault → State
  | .invalidOpcode s => s
  | .deviceNotAvailable s => s
  | .stackSegment s => s
  | .generalProtection s => s
  | .pageFault _ s => s
  | .x87Error s => s
  | .alignmentCheck s => s

/-- Why an operand gives no value: an exception, or no outcome. -/
inductive Stop where
  | exc (e : Exc)
  | refuse (r : Refusal)
  deriving DecidableEq, Repr

/-- A stop at `s` as an outcome. -/
def Stop.outcome (s : State) : Stop → Result
  | .exc e => raise e s
  | .refuse r => .refused r

/-! ### Memory -/

/-- What an unlisted physical byte reads as: notes/assumptions/6.md. -/
def defaultByte : Byte := 0#8

/-- The byte at an address of a memory list. -/
def memRead : List Host.Cell → Nat → Byte
  | [], _ => defaultByte
  | (b, y) :: rest, a => if a = b then y else memRead rest a

/-- Puts a byte into a memory list, keeping the canonical form: a byte that reads as an unlisted one is taken out. -/
def memWrite : List Host.Cell → Nat → Byte → List Host.Cell
  | [], a, x => if x = defaultByte then [] else [(a, x)]
  | (b, y) :: rest, a, x =>
    if a < b then (if x = defaultByte then (b, y) :: rest else (a, x) :: (b, y) :: rest)
    else if a = b then (if x = defaultByte then rest else (a, x) :: rest)
    else (b, y) :: memWrite rest a x

/-- An address lies above a bound, if there is one. -/
def aboveBound : Option Nat → Nat → Bool
  | none, _ => true
  | some l, a => decide (l < a)

/-- Every address of the list is above `lo` and addresses rise strictly; no entry reads as an unlisted byte. -/
def memWfAbove : Option Nat → List Host.Cell → Bool
  | _, [] => true
  | lo, (b, y) :: rest => aboveBound lo b && y != defaultByte && memWfAbove (some b) rest

/-- The canonical form of memory: addresses strictly rising, no entry equal to what an unlisted address reads as. -/
def Memory.wf (m : List Host.Cell) : Bool := memWfAbove none m

/-- One byte of physical memory. -/
def State.byteAt (s : State) (a : Nat) : Byte := memRead s.mem a

/-! ### Linear addresses and their translation -/

/-- The segment register a name stands for (10_state.md R26). -/
def SegRegs.get (r : SegRegs) : SegName → SegReg
  | .es => r.es
  | .cs => r.cs
  | .ss => r.ss
  | .ds => r.ds
  | .fs => r.fs
  | .gs => r.gs

/-- The segment base `LinAddr` adds: 0 for CS, SS, DS, ES (R54; in 32-bit mode they are flat, R55), the hidden base for
FS and GS. -/
def State.segBase (s : State) (n : SegName) : Word64 := if n.hasBase then (s.segs.get n).base else 0#64

/-- A segment of 32-bit mode is flat (R55, D7): non-null, present, readable, limit FFFFFFFFH, and base 0 but for FS and
GS, whose base is a parameter. -/
def State.flatSegment (s : State) (n : SegName) : Bool :=
  let r := s.segs.get n
  r.selector.extractLsb' 2 14 != 0#14 && r.present && r.readable && r.limit == 0xFFFFFFFF#32
    && (n.hasBase || r.base == 0#64)

/-- `LinAddr(seg, ea)` (R54, R55). -/
def State.linAddr (s : State) (m : Mode) (n : SegName) (ea : Word64) : Word64 := m.wrap (s.segBase n + ea)

/-- The linear address of byte `i` of an operand that starts at `lin`, modulo the mode's width. DESIGN CHOICE (unsafe) where
the bytes wrap: an operand that runs past FFFFFFFFFFFFFFFFH in 64-bit mode goes on at address 0, where R56 says only
`LinAddr + i` (notes/assumptions/32.md); one with an FS or GS base whose bytes pass linear 2^32 in 32-bit mode, which D7
tests on `ea` alone, goes on at address 0 too (notes/assumptions/33.md). -/
def linByte (m : Mode) (lin : Word64) (i : Nat) : Word64 := m.wrap (lin + BitVec.ofNat 64 i)

/-- `LinAddr` is canonical (R56): bits 63 : LA_BITS-1 are all equal. In 32-bit mode there is no such test. -/
def canonical (m : Mode) (la : LaBits) (a : Word64) : Bool :=
  match m with
  | .m32 => true
  | .m64 =>
    let t := a.sshiftRight (la.toNat - 1)
    t == 0#64 || t == BitVec.allOnes 64

/-- The first region that holds a linear address. -/
def findLin : List LinRegion → Nat → Option LinRegion
  | [], _ => none
  | r :: rest, a => if r.base ≤ a ∧ a < r.base + r.size then some r else findLin rest a

/-- The error code of a page fault on a data read (R60): P, W/R = 0, U/S, RSVD, I/D = 0, PK. -/
def pageFaultCode (present user rsvd pk : Bool) : BitVec 32 :=
  (BitVec.ofBool pk ++ 0#1 ++ BitVec.ofBool rsvd ++ BitVec.ofBool user ++ 0#1 ++ BitVec.ofBool present : BitVec 6).setWidth 32

/-- What `Translate` answers for one linear byte at the current privilege (R60): `mapped` with that byte's physical
address, or the bits of its page fault. Outside every region it is the identity, and executable. -/
def State.pageAnswer (s : State) (a : Word64) : PageAnswer :=
  match findLin s.platform.translation a.toNat with
  | none => .mapped a.toNat true
  | some r =>
    match (if s.cpl == 3#2 then r.user else r.supervisor) with
    | .mapped base x => .mapped (base + (a.toNat - r.base)) x
    | .fault p v k => .fault p v k

/-- `Translate(a, read, user)` (R60): the physical address of a linear byte, or the error code of its page fault. -/
def State.translate (s : State) (a : Word64) : Except (BitVec 32) Nat :=
  match s.pageAnswer a with
  | .mapped n _ => .ok n
  | .fault p v k => .error (pageFaultCode p (s.cpl == 3#2) v k)

/-- The kind of a physical byte: the first region that holds it says. -/
def findKind : List PhysRegion → Nat → MemKind
  | [], _ => .ordinary
  | r :: rest, a => if r.base ≤ a ∧ a < r.base + r.size then r.kind else findKind rest a

/-- The kind of a physical byte of this platform. -/
def State.kindAt (s : State) (a : Nat) : MemKind := findKind s.platform.memKinds a

/-! ### Reading an operand -/

/-- The page faults of the operand bytes `i < n` that `sel` picks: error code and linear address of each (R60). -/
def State.pageFaults (s : State) (m : Mode) (lin : Word64) (n : Nat) (sel : Nat → Bool) : List (BitVec 32 × Word64) :=
  (List.range n).filterMap fun i =>
    if sel i then
      match s.translate (linByte m lin i) with
      | .ok _ => none
      | .error c => some (c, linByte m lin i)
    else none

/-- The page fault reported: the only one, or a free choice among several (R60, U8; notes/assumptions/9.md). -/
def State.pickFault (s : State) : List (BitVec 32 × Word64) → Option Stop
  | [] => none
  | [(c, a)] => some (.exc (.pf c a))
  | (c, a) :: rest =>
    let q := ((c, a) :: rest).getD (Config.faultPick s.draws % (rest.length + 1)) (c, a)
    some (.exc (.pf q.1 q.2))

/-- Where a memory operand lies: its segment, whether an ignored override changed its being SS (R81), the linear address
of its first byte, and its size in bytes. -/
structure Place where
  seg : SegName
  ambiguous : Bool
  lin : Word64
  size : Nat
  deriving DecidableEq, Repr

/-- Steps (1) to (3) of R61 on the bytes that `sel` picks: canonical addresses (R56, R162, R163), the 16-byte alignment
of rows 2 and 4 where `align16` (R57), translation (R60). None when every picked byte passes. -/
def State.byteStop (s : State) (m : Mode) (p : Place) (align16 : Bool) (sel : Nat → Bool) : Option Stop :=
  if (List.range p.size).any (fun i => sel i && !canonical m s.platform.laBits (linByte m p.lin i)) then
    if p.ambiguous then some (.refuse .stackOrProtection)
    else if p.seg = .ss then some (.exc .ss)
    else some (.exc .gp)
  else if align16 && p.lin.extractLsb' 0 4 != 0#4 then some (.exc .gp)
  else s.pickFault (s.pageFaults m p.lin p.size sel)

/-- The linear address is a multiple of the operand's size. -/
def Place.aligned (p : Place) : Bool := p.lin.toNat % p.size == 0

/-- `Translate` of a byte that passed its checks. -/
def State.physOf (s : State) (a : Word64) : Nat :=
  match s.translate a with
  | .ok n => n
  | .error _ => 0

/-- The kinds of memory the operand's bytes lie in. -/
def State.operandHas (s : State) (m : Mode) (p : Place) (k : MemKind) : Bool :=
  (List.range p.size).any fun i => s.kindAt (s.physOf (linByte m p.lin i)) == k

/-- Byte `i` of the operand as one of its `n` independent reads (20_memory.md R62, R63): the byte memory holds, or, where
others write, what the oracle answers. -/
def State.operandByte (s : State) (m : Mode) (p : Place) (i : Nat) : Byte :=
  let a := s.physOf (linByte m p.lin i)
  if s.kindAt a = .shared then Config.readOracle (s.draws + i) else s.byteAt a

/-- An `N`-bit vector of `count` lanes of `w` bits, lane `j` being `f j` (00_scope.md R11). -/
def ofLanes (w N : Nat) (f : Nat → BitVec w) : Nat → BitVec N
  | 0 => 0#N
  | k + 1 => ofLanes w N f k ||| ((f k).setWidth N <<< (w * k))

/-- The operand as a bit vector, the byte at the lowest address in bits 7:0 (R52). -/
def State.operandValue (s : State) (m : Mode) (p : Place) (N : Nat) : BitVec N :=
  ofLanes 8 N (s.operandByte m p) p.size

/-- The state after an operand is read: the draws its shared bytes took. -/
def State.afterRead (s : State) (m : Mode) (p : Place) : State :=
  { s with draws := if s.operandHas m p .shared then s.draws + p.size else s.draws }

/-- `MemRead` of an operand that passed its checks; device memory is refused (R62, D8). -/
def State.readOperand (s : State) (m : Mode) (p : Place) (N : Nat) : Except Stop (BitVec N × State) :=
  if s.operandHas m p .device then .error (.refuse .deviceMemory) else .ok (s.operandValue m p N, s.afterRead m p)

/-! ### The program counter and the fetch -/

/-- `pc <- pc + L` (10_state.md R27), modulo the mode's width: 0 after a form that ends with the top byte of the address
space (DESIGN CHOICE, unsafe: notes/assumptions/35.md). -/
def State.advance (s : State) (m : Mode) (len : Nat) : State :=
  { s with pc := m.wrap (s.pc + BitVec.ofNat 64 len) }

/-- The physical address of the code byte at `pc + i`, or why it cannot be fetched (R27, D12, R65, R168 item 1): code is
mapped, executable and written by nobody (70_reset_and_hazards.md R194, P4). -/
def State.codeAddr (s : State) (m : Mode) (i : Nat) : Except Refusal Nat :=
  if m.top ≤ s.pc.toNat + i ∨ canonical m s.platform.laBits (linByte m s.pc i) = false then .error .codeAtBoundary
  else
    match s.pageAnswer (linByte m s.pc i) with
    | .fault _ _ _ => .error .codeNotMapped
    | .mapped _ false => .error .codeNotExecutable
    | .mapped a true => if s.kindAt a = .ordinary then .ok a else .error .codeNotPrivate

/-- The code bytes at `pc + i` onwards, at most `n`, and why they end early. -/
def State.fetchFrom (s : State) (m : Mode) : Nat → Nat → List Byte × Option Refusal
  | 0, _ => ([], none)
  | n + 1, i =>
    match s.codeAddr m i with
    | .error r => ([], some r)
    | .ok a =>
      let q := s.fetchFrom m n (i + 1)
      (s.byteAt a :: q.1, q.2)

/-- The bytes the decoder sees: those at `pc`, up to the longest instruction (30_encoding.md R70). -/
def State.fetchWindow (s : State) (m : Mode) : List Byte × Option Refusal := s.fetchFrom m maxInstrBytes 0

/-- Code is fetched through CS, which must be flat in 32-bit mode (R55, D7, premise P7). DESIGN CHOICE (unsafe): the other five are
not asked here (notes/assumptions/38.md). -/
def State.codeSegmentOk (s : State) (m : Mode) : Bool :=
  match m with
  | .m64 => true
  | .m32 => s.flatSegment .cs

/-! ### From reset to a program -/

/-- What software outside the instruction group does before a program of it can run (70_reset_and_hazards.md R192):
64-bit mode, `CR0.EM = CR0.TS = 0`, OSFXSR, OSXSAVE, XCR0, no pending x87 exception. notes/assumptions/20.md. -/
def State.launch64 (s : State) : State :=
  { s with
    cr0 := (s.cr0 ||| 0x80000001#64) &&& ~~~0xC#64
    cr4 := s.cr4 ||| 0x40200#64
    xcr0 := s.xcr0 ||| 0xE7#64
    efer := s.efer ||| 0x500#64
    fsw := s.fsw &&& ~~~0x80#16
    segs := { s.segs with cs := { s.segs.cs with long := true, big := false } } }

/-- Stores code bytes at `pc + i` onwards, each where the fetch reads it; a byte the fetch cannot read is left out. -/
def State.placeCode (s : State) (m : Mode) : List Byte → Nat → State
  | [], _ => s
  | b :: bs, i =>
    match s.codeAddr m i with
    | .error _ => s.placeCode m bs (i + 1)
    | .ok a => State.placeCode { s with mem := memWrite s.mem a b } m bs (i + 1)

end Sys2Proof.Machine
end

