-- ==== Sys2Proof/Machine/Operands.lean ====
section
/-! DEFINITION. Operands: the views of the register files, effective addresses, the second source operand of each class,
and the lane arithmetic (00_scope.md R9 to R11, 10_state.md R20 to R25, 30_encoding.md R78 to R82, R91, R96 to R98). -/

namespace Sys2Proof

/-- An extension bit counts in 64-bit mode only: in 32-bit mode there are registers 0 to 7 (R21, R78, R96). -/
def Mode.ext (m : Mode) (b : Bool) : Bool :=
  match m with
  | .m64 => b
  | .m32 => false

/-- CS, SS, DS or ES: an override that does not change the address in 64-bit mode (R81). -/
def SegName.ignoredIn64 (n : SegName) : Bool := !n.hasBase

/-- The address sizes (R80). -/
inductive AddrSize where
  | a16
  | a32
  | a64
  deriving DecidableEq, Repr

/-- The address size of a mode with or without a 67 prefix (R80). -/
def Mode.addrSize (m : Mode) (a67 : Bool) : AddrSize :=
  match m, a67 with
  | .m64, false => .a64
  | .m64, true => .a32
  | .m32, false => .a32
  | .m32, true => .a16

/-- Truncation to an address size, zero-extended (R78, R79). -/
def AddrSize.trunc (z : AddrSize) (a : Word64) : Word64 :=
  match z with
  | .a16 => (a.setWidth 16).setWidth 64
  | .a32 => (a.setWidth 32).setWidth 64
  | .a64 => a

/-- The displacement, sign-extended (R77); a one-byte one is multiplied by `scale`, which is 1 but under EVEX (R91). -/
def Disp.value (scale : Nat) : Disp → Word64
  | .none => 0#64
  | .disp8 d => d.signExtend 64 * BitVec.ofNat 64 scale
  | .disp16 d => d.signExtend 64
  | .disp32 d => d.signExtend 64

end Sys2Proof

namespace Sys2Proof.Machine

/-! ### Lanes and saturation -/

/-- `lane_w(X, j)` (R11). -/
def lane {N : Nat} (w : Nat) (X : BitVec N) (j : Nat) : BitVec w := X.extractLsb' (w * j) w

/-- Saturation to an unsigned `w`-bit integer: `SatUB` for `w = 8` (R9), `SatUW` for `w = 16` (R10). -/
def satU (w n : Nat) : BitVec w := if n ≤ 2 ^ w - 1 then BitVec.ofNat w n else BitVec.allOnes w

/-- The exact sum of two lanes, saturated (R11). -/
def addSat {N : Nat} (w : Nat) (A B : BitVec N) (j : Nat) : BitVec w := satU w ((lane w A j).toNat + (lane w B j).toNat)

/-- `AddUS_w(N, A, B)` (R11). -/
def addUS (w N : Nat) (A B : BitVec N) : BitVec N := ofLanes w N (addSat w A B) (N / w)

/-- Lane `j` is active (42_vpaddus_evex.md R131): no writemask, or bit `j` of the mask register is 1. -/
def laneActive (aaa : BitVec 3) (mask : Word64) (j : Nat) : Bool := aaa == 0#3 || mask.getLsbD j

/-- `EvexAddUS` up to the write of `v[d][VL-1:0]` (R132): active lanes are added, the others kept or zeroed. -/
def evexAddUS (w N : Nat) (aaa : BitVec 3) (z : Bool) (mask : Word64) (old A B : BitVec N) : BitVec N :=
  ofLanes w N
    (fun j => if laneActive aaa mask j then addSat w A B j else if z then 0#w else lane w old j) (N / w)

/-! ### Register files -/

/-- `v[i]` (R20). -/
def State.vreg (s : State) (i : BitVec 5) : VReg := s.v.get i.toFin

/-- `v[i] <- val`, all bits. -/
def State.setVreg (s : State) (i : BitVec 5) (y : VReg) : State := { s with v := s.v.set i.toNat y i.isLt }

/-- `mm[i]`, the low 64 bits of `fpr[i]` (R23). -/
def State.mm (s : State) (i : BitVec 3) : Word64 := (s.fpr.get i.toFin).setWidth 64

/-- Writes `mm[d]` with the x87 side effects of an MMX form (40_paddus_legacy.md R115): bits 79:64 of the register become
ones, `TOP` and the tag word become 0. -/
def State.writeMm (s : State) (d : BitVec 3) (y : Word64) : State :=
  { s with
    fpr := s.fpr.set d.toNat (0xFFFF#16 ++ y) d.isLt
    fsw := s.fsw &&& 0xC7FF#16
    ftw := 0#16 }

/-- `x[i]` (R25). -/
def State.gpr (s : State) (i : BitVec 4) : Word64 := s.x.get i.toFin

/-- `k[i]` (R24). -/
def State.mask (s : State) (i : BitVec 3) : Word64 := s.k.get i.toFin

/-- Bits 127:0 of `v[d]` written, the bits above kept (legacy SSE, R116). -/
def State.writeLow128 (s : State) (d : BitVec 5) (y : BitVec 128) : State :=
  s.setVreg d ((s.vreg d).extractLsb' 128 384 ++ y)

/-- Bits `N-1:0` of `v[d]` written, the bits from `N` up zeroed (VEX R125, EVEX R139). -/
def State.writeZeroing {N : Nat} (s : State) (d : BitVec 5) (y : BitVec N) : State := s.setVreg d (y.setWidth 512)

/-! ### Register numbers (R96 to R98) -/

/-- A four-bit register number `e:n`. -/
def regNum4 (m : Mode) (e : Bool) (n : BitVec 3) : BitVec 4 := BitVec.ofBool (m.ext e) ++ n

/-- A five-bit vector register number `h:e:n`. -/
def regNum5 (m : Mode) (h e : Bool) (n : BitVec 3) : BitVec 5 :=
  (BitVec.ofBool (m.ext h) ++ BitVec.ofBool (m.ext e) ++ n : BitVec 5)

/-- The first source register `h:vvvv`; in 32-bit mode only its low three bits (R21, R97, R98). -/
def vvvvNum (m : Mode) (h : Bool) (vvvv : BitVec 4) : BitVec 5 :=
  match m with
  | .m64 => (BitVec.ofBool h ++ vvvv : BitVec 5)
  | .m32 => (vvvv.setWidth 3).setWidth 5

/-- The fields of an absent REX are 0 (R73). -/
def rexFields : Option Rex → Rex
  | none => ⟨false, false, false, false⟩
  | some x => x

/-! ### Effective addresses -/

/-- What an operand's address is computed from besides the operand: the mode, the 67 prefix, the index and base extension
bits, the disp8 factor and the instruction's length. -/
structure AddrCtx where
  mode : Mode
  a67 : Bool
  xb : Bool
  bb : Bool
  scale : Nat
  len : Nat
  deriving DecidableEq, Repr

/-- An effective address, with whether its default segment is SS (R81). -/
structure EffAddr where
  ea : Word64
  stack : Bool
  deriving DecidableEq, Repr

/-- Register 4 (rSP) or 5 (rBP) as base takes the stack segment (R81). -/
def stackBase (n : BitVec 4) : Bool := n == 4#4 || n == 5#4

/-- The index part of a SIB address: none when the four-bit index is 0100 (R78). -/
def State.indexValue (s : State) (c : AddrCtx) (sb : Sib) : Word64 :=
  let z := c.mode.addrSize c.a67
  let n := regNum4 c.mode c.xb sb.index
  if n = 4#4 then 0#64 else z.trunc (s.gpr n) <<< sb.scale.toNat

/-- The effective address with 32- or 64-bit addressing (R78, R82). -/
def State.effAddrWide (s : State) (c : AddrCtx) (a : MemAddr) : EffAddr :=
  let z := c.mode.addrSize c.a67
  let d := a.disp.value c.scale
  match a.sib with
  | none =>
    if a.mod = 0#2 ∧ a.rm = 5#3 then
      match c.mode with
      | .m64 => ⟨z.trunc (s.pc + BitVec.ofNat 64 c.len + d), false⟩
      | .m32 => ⟨z.trunc d, false⟩
    else
      let n := regNum4 c.mode c.bb a.rm
      ⟨z.trunc (z.trunc (s.gpr n) + d), stackBase n⟩
  | some sb =>
    if sb.base = 5#3 ∧ a.mod = 0#2 then ⟨z.trunc (s.indexValue c sb + d), false⟩
    else
      let n := regNum4 c.mode c.bb sb.base
      ⟨z.trunc (z.trunc (s.gpr n) + s.indexValue c sb + d), stackBase n⟩

/-- The effective address with 16-bit addressing, by the table of R79: BX, BP, SI, DI are x[3], x[5], x[6], x[7]. -/
def State.effAddr16 (s : State) (a : MemAddr) : EffAddr :=
  let bx := s.gpr 3#4
  let bp := s.gpr 5#4
  let si := s.gpr 6#4
  let di := s.gpr 7#4
  let d := a.disp.value 1
  let t := AddrSize.trunc .a16
  if a.rm = 0#3 then ⟨t (bx + si + d), false⟩
  else if a.rm = 1#3 then ⟨t (bx + di + d), false⟩
  else if a.rm = 2#3 then ⟨t (bp + si + d), true⟩
  else if a.rm = 3#3 then ⟨t (bp + di + d), true⟩
  else if a.rm = 4#3 then ⟨t (si + d), false⟩
  else if a.rm = 5#3 then ⟨t (di + d), false⟩
  else if a.rm = 6#3 then (if a.mod = 0#2 then ⟨t d, false⟩ else ⟨t (bp + d), true⟩)
  else ⟨t (bx + d), false⟩

/-- The effective address of a memory operand (R78 to R80, R82). -/
def State.effAddr (s : State) (c : AddrCtx) (a : MemAddr) : EffAddr :=
  if c.mode.addr16 c.a67 then s.effAddr16 a else s.effAddrWide c a

/-- The operand's segment (R81): the override, else SS or DS by the base register. -/
def operandSegment (ov : Option SegName) (stack : Bool) : SegName :=
  match ov with
  | some n => n
  | none => if stack then .ss else .ds

/-- In 64-bit mode one of the four ignored overrides set the segment to SS or away from SS (R81, D15). -/
def overrideAmbiguous (m : Mode) (ov : Option SegName) (stack : Bool) : Bool :=
  match m, ov with
  | .m64, some n => n.ignoredIn64 && ((n == .ss) != stack)
  | _, _ => false

/-- Where the memory operand `a` of `size` bytes lies (R53, R78 to R82). -/
def State.place (s : State) (c : AddrCtx) (ov : Option SegName) (a : MemAddr) (size : Nat) : Place :=
  let e := s.effAddr c a
  let n := operandSegment ov e.stack
  ⟨n, overrideAmbiguous c.mode ov e.stack, s.linAddr c.mode n e.ea, size⟩

/-- The refusals of 32-bit mode on a memory operand (R55, D7): a segment that is not flat, an operand past 2^32. DESIGN CHOICE
(unsafe): only the operand's own segment is asked, here, and CS by the fetch; R55 says 'for all six' and 'refuses any other
segment state' (notes/assumptions/38.md). -/
def State.segmentStop (s : State) (c : AddrCtx) (ov : Option SegName) (a : MemAddr) (size : Nat) : Option Stop :=
  match c.mode with
  | .m64 => none
  | .m32 =>
    let e := s.effAddr c a
    if s.flatSegment (operandSegment ov e.stack) = false then some (.refuse .nonFlatSegment)
    else if 2 ^ 32 ≤ e.ea.toNat + size - 1 then some (.refuse .operandWraps)
    else none

/-! ### The memory operand of each class (20_memory.md R61, 42_vpaddus_evex.md R140) -/

/-- No byte is left out. -/
def allBytes : Nat → Bool := fun _ => true

/-- Rows 1 and 3: 8 bytes, any address, #AC(0) under alignment checking (R58). -/
def State.loadMm (s : State) (c : AddrCtx) (ov : Option SegName) (a : MemAddr) : Except Stop (Word64 × State) :=
  match s.segmentStop c ov a 8 with
  | some t => .error t
  | none =>
    let p := s.place c ov a 8
    match s.byteStop c.mode p false allBytes with
    | some t => .error t
    | none =>
      if s.alignmentChecking && !p.aligned then .error (.exc .ac) else s.readOperand c.mode p 64

/-- Rows 2 and 4: 16 bytes on a 16-byte boundary, else #GP(0) (R57). -/
def State.loadSse (s : State) (c : AddrCtx) (ov : Option SegName) (a : MemAddr) : Except Stop (BitVec 128 × State) :=
  match s.segmentStop c ov a 16 with
  | some t => .error t
  | none =>
    let p := s.place c ov a 16
    match s.byteStop c.mode p true allBytes with
    | some t => .error t
    | none => s.readOperand c.mode p 128

/-- The end of a VEX or EVEX load: a misaligned operand under alignment checking is refused (R59, D9). -/
def State.loadUnaligned (s : State) (m : Mode) (p : Place) (N : Nat) : Except Stop (BitVec N × State) :=
  if s.alignmentChecking && !p.aligned then .error (.refuse .alignmentUnderCheck) else s.readOperand m p N

/-- Rows 5 to 8: N/8 bytes at any address (R59). -/
def State.loadVex (s : State) (c : AddrCtx) (ov : Option SegName) (a : MemAddr) (N : Nat) :
    Except Stop (BitVec N × State) :=
  if c.mode.addr16 c.a67 then .error (.refuse .addressing16Vex)
  else
    match s.segmentStop c ov a (N / 8) with
    | some t => .error t
    | none =>
      let p := s.place c ov a (N / 8)
      match s.byteStop c.mode p false allBytes with
      | some t => .error t
      | none => s.loadUnaligned c.mode p N

/-- Byte `i` of the operand belongs to an active lane of `w` bits (R131, R140). -/
def byteActive (w : Nat) (aaa : BitVec 3) (mask : Word64) (i : Nat) : Bool := laneActive aaa mask (8 * i / w)

/-- Rows 9 to 14: N/8 bytes at any address; faults under a writemask by D17 (R140): a byte of an active lane fails, the
fault the bytes of the active lanes give (notes/assumptions/10.md); only masked-off bytes fail, no outcome; all bytes pass,
the load goes on. -/
def State.loadEvex (s : State) (c : AddrCtx) (ov : Option SegName) (a : MemAddr) (w N : Nat) (aaa : BitVec 3) :
    Except Stop (BitVec N × State) :=
  if c.mode.addr16 c.a67 then .error (.refuse .addressing16Vex)
  else
    match s.segmentStop c ov a (N / 8) with
    | some t => .error t
    | none =>
      let p := s.place c ov a (N / 8)
      match s.byteStop c.mode p false (byteActive w aaa (s.mask aaa)) with
      | some t => .error t
      | none =>
        match s.byteStop c.mode p false allBytes with
        | some _ => .error (.refuse .maskedLaneFault)
        | none => s.loadUnaligned c.mode p N

end Sys2Proof.Machine
end

