-- ==== Sys2Proof/Machine/Evex.lean ====
section
/-! DEFINITION. Rows 9 to 14: VPADDUSB and VPADDUSW under EVEX, with writemask (42_vpaddus_evex.md R130 to R142). -/

namespace Sys2Proof.Machine

/-- `SRC2` of an EVEX form of `N` bits (R98, R130): `v[X:B:r/m][N-1:0]`, or N/8 bytes of memory with disp8 scaled by N/8
(R91). -/
def State.sourceEvex (s : State) (m : Mode) (p : Prefixes) (v : Evex) (len w N : Nat) :
    RegMem → Except Stop (BitVec N × State)
  | .reg r => .ok ((s.vreg (regNum5 m v.x v.b r)).setWidth N, s)
  | .mem a => s.loadEvex ⟨m, p.a67, v.x, v.b, N / 8, len⟩ p.seg a w N v.aaa

/-- What rows 9 to 14 share (R132): #UD, #NM, then the operand, then the masked sum in bits N-1:0 and zeros above
(R139). -/
def runEvex (w N : Nat) (p : Prefixes) (v : Evex) (reg : BitVec 3) (rm : RegMem) (len : Nat) (s : State) : Result :=
  match s.mode with
  | none => .refused .modeOutOfScope
  | some m =>
    if s.udEvex (N == 512) v.z v.aaa then raise .ud s
    else if s.cr0TS then raise .nm s
    else
      match s.sourceEvex m p v len w N rm with
      | .error t => t.outcome s
      | .ok (y, s1) =>
        let d := regNum5 m v.rHi v.r reg
        let a := (s.vreg (vvvvNum m v.vHi v.vvvv)).setWidth N
        let old := (s.vreg d).setWidth N
        .next ((s1.writeZeroing d (evexAddUS w N v.aaa v.z (s.mask v.aaa) old a y)).advance m len)

/-- `VPADDUSB xmm1 {k1}{z}, xmm2, xmm3/m128` (R133). -/
def execVpaddusbXmmEvex (p : Prefixes) (v : Evex) (reg : BitVec 3) (rm : RegMem) (s : State) : Result :=
  runEvex 8 128 p v reg rm (Instr.vpaddusbXmmEvex p v reg rm).length s

/-- `VPADDUSB ymm1 {k1}{z}, ymm2, ymm3/m256` (R134). -/
def execVpaddusbYmmEvex (p : Prefixes) (v : Evex) (reg : BitVec 3) (rm : RegMem) (s : State) : Result :=
  runEvex 8 256 p v reg rm (Instr.vpaddusbYmmEvex p v reg rm).length s

/-- `VPADDUSB zmm1 {k1}{z}, zmm2, zmm3/m512` (R135). -/
def execVpaddusbZmmEvex (p : Prefixes) (v : Evex) (reg : BitVec 3) (rm : RegMem) (s : State) : Result :=
  runEvex 8 512 p v reg rm (Instr.vpaddusbZmmEvex p v reg rm).length s

/-- `VPADDUSW xmm1 {k1}{z}, xmm2, xmm3/m128` (R136). -/
def execVpadduswXmmEvex (p : Prefixes) (v : Evex) (reg : BitVec 3) (rm : RegMem) (s : State) : Result :=
  runEvex 16 128 p v reg rm (Instr.vpadduswXmmEvex p v reg rm).length s

/-- `VPADDUSW ymm1 {k1}{z}, ymm2, ymm3/m256` (R137). -/
def execVpadduswYmmEvex (p : Prefixes) (v : Evex) (reg : BitVec 3) (rm : RegMem) (s : State) : Result :=
  runEvex 16 256 p v reg rm (Instr.vpadduswYmmEvex p v reg rm).length s

/-- `VPADDUSW zmm1 {k1}{z}, zmm2, zmm3/m512` (R138). -/
def execVpadduswZmmEvex (p : Prefixes) (v : Evex) (reg : BitVec 3) (rm : RegMem) (s : State) : Result :=
  runEvex 16 512 p v reg rm (Instr.vpadduswZmmEvex p v reg rm).length s

end Sys2Proof.Machine
end

