-- ==== Sys2Proof/Machine/Legacy.lean ====
section
/-! DEFINITION. Rows 1 to 4: PADDUSB and PADDUSW on MMX and XMM registers (40_paddus_legacy.md R110 to R118). -/

namespace Sys2Proof.Machine

/-- `SRC` of an MMX form (R96, R110): `mm[r/m]`, or 8 bytes of memory; REX.B does not apply to the register. -/
def State.sourceMm (s : State) (m : Mode) (p : Prefixes) (x : Option Rex) (len : Nat) :
    RegMem → Except Stop (Word64 × State)
  | .reg r => .ok (s.mm r, s)
  | .mem a => s.loadMm ⟨m, p.a67, (rexFields x).x, (rexFields x).b, 1, len⟩ p.seg a

/-- `SRC` of a legacy SSE form (R96, R110): `v[B:r/m][127:0]`, or 16 bytes of memory. -/
def State.sourceSse (s : State) (m : Mode) (p : Prefixes) (x : Option Rex) (len : Nat) :
    RegMem → Except Stop (BitVec 128 × State)
  | .reg r => .ok ((s.vreg (regNum5 m false (rexFields x).b r)).setWidth 128, s)
  | .mem a => s.loadSse ⟨m, p.a67, (rexFields x).x, (rexFields x).b, 1, len⟩ p.seg a

/-- What rows 1 and 3 share (R111, R113): #UD, #NM, #MF in the order of R168, then the operand, then the sum with the x87
side effects of R115. -/
def runMmx (w : Nat) (p : Prefixes) (x : Option Rex) (reg : BitVec 3) (rm : RegMem) (len : Nat) (s : State) : Result :=
  match s.mode with
  | none => .refused .modeOutOfScope
  | some m =>
    if s.udMmx then raise .ud s
    else if s.cr0TS then raise .nm s
    else if s.x87Pending then (if s.cr0NE then raise .mf s else .refused .x87ExternalReport)
    else
      match s.sourceMm m p x len rm with
      | .error t => t.outcome s
      | .ok (y, s1) => .next ((s1.writeMm reg (addUS w 64 (s.mm reg) y)).advance m len)

/-- What rows 2 and 4 share (R112, R114): #UD, #NM, then the operand, then the sum in bits 127:0 (R116). -/
def runSse (w : Nat) (p : Prefixes) (x : Option Rex) (reg : BitVec 3) (rm : RegMem) (len : Nat) (s : State) : Result :=
  match s.mode with
  | none => .refused .modeOutOfScope
  | some m =>
    if s.udSse then raise .ud s
    else if s.cr0TS then raise .nm s
    else
      match s.sourceSse m p x len rm with
      | .error t => t.outcome s
      | .ok (y, s1) =>
        let d := regNum5 m false (rexFields x).r reg
        .next ((s1.writeLow128 d (addUS w 128 ((s.vreg d).setWidth 128) y)).advance m len)

/-- `PADDUSB mm, mm/m64` (R111). -/
def execPaddusbMm (p : Prefixes) (x : Option Rex) (reg : BitVec 3) (rm : RegMem) (s : State) : Result :=
  runMmx 8 p x reg rm (Instr.paddusbMm p x reg rm).length s

/-- `PADDUSB xmm1, xmm2/m128` (R112). -/
def execPaddusbXmm (p : Prefixes) (x : Option Rex) (reg : BitVec 3) (rm : RegMem) (s : State) : Result :=
  runSse 8 p x reg rm (Instr.paddusbXmm p x reg rm).length s

/-- `PADDUSW mm, mm/m64` (R113). -/
def execPadduswMm (p : Prefixes) (x : Option Rex) (reg : BitVec 3) (rm : RegMem) (s : State) : Result :=
  runMmx 16 p x reg rm (Instr.padduswMm p x reg rm).length s

/-- `PADDUSW xmm1, xmm2/m128` (R114). -/
def execPadduswXmm (p : Prefixes) (x : Option Rex) (reg : BitVec 3) (rm : RegMem) (s : State) : Result :=
  runSse 16 p x reg rm (Instr.padduswXmm p x reg rm).length s

end Sys2Proof.Machine
end

