-- ==== Sys2Proof/Machine/Vex.lean ====
section
/-! DEFINITION. Rows 5 to 8: VPADDUSB and VPADDUSW under VEX (41_vpaddus_vex.md R120 to R127), each in its two-byte and
its three-byte prefix (30_encoding.md R83, R84). -/

namespace Sys2Proof.Machine

/-- `SRC2` of a VEX form of `N` bits (R97, R120): `v[B:r/m][N-1:0]`, or N/8 bytes of memory. -/
def State.sourceVex (s : State) (m : Mode) (p : Prefixes) (v : Vex3) (len N : Nat) :
    RegMem → Except Stop (BitVec N × State)
  | .reg r => .ok ((s.vreg (regNum5 m false v.b r)).setWidth N, s)
  | .mem a => s.loadVex ⟨m, p.a67, v.x, v.b, 1, len⟩ p.seg a N

/-- What rows 5 to 8 share (R121 to R125): #UD, #NM, then the operand, then the sum in bits N-1:0 and zeros above. -/
def runVex (w N : Nat) (p : Prefixes) (v : Vex3) (reg : BitVec 3) (rm : RegMem) (len : Nat) (s : State) : Result :=
  match s.mode with
  | none => .refused .modeOutOfScope
  | some m =>
    if s.udVex (N == 256) then raise .ud s
    else if s.cr0TS then raise .nm s
    else
      match s.sourceVex m p v len N rm with
      | .error t => t.outcome s
      | .ok (y, s1) =>
        let a := (s.vreg (vvvvNum m false v.vvvv)).setWidth N
        .next ((s1.writeZeroing (regNum5 m false v.r reg) (addUS w N a y)).advance m len)

end Sys2Proof.Machine

namespace Sys2Proof

/-- The three-byte prefix a two-byte one stands for (30_encoding.md R84): X = B = 0, W = 0. -/
def Vex2.wide (v : Vex2) : Vex3 := ⟨v.r, false, false, false, v.vvvv⟩

end Sys2Proof

namespace Sys2Proof.Machine

/-- `VPADDUSB xmm1, xmm2, xmm3/m128`, three-byte prefix (R121). -/
def execVpaddusbXmmVex3 (p : Prefixes) (v : Vex3) (reg : BitVec 3) (rm : RegMem) (s : State) : Result :=
  runVex 8 128 p v reg rm (Instr.vpaddusbXmmVex3 p v reg rm).length s

/-- `VPADDUSB xmm1, xmm2, xmm3/m128`, two-byte prefix (R121). -/
def execVpaddusbXmmVex2 (p : Prefixes) (v : Vex2) (reg : BitVec 3) (rm : RegMem) (s : State) : Result :=
  runVex 8 128 p v.wide reg rm (Instr.vpaddusbXmmVex2 p v reg rm).length s

/-- `VPADDUSW xmm1, xmm2, xmm3/m128`, three-byte prefix (R122). -/
def execVpadduswXmmVex3 (p : Prefixes) (v : Vex3) (reg : BitVec 3) (rm : RegMem) (s : State) : Result :=
  runVex 16 128 p v reg rm (Instr.vpadduswXmmVex3 p v reg rm).length s

/-- `VPADDUSW xmm1, xmm2, xmm3/m128`, two-byte prefix (R122). -/
def execVpadduswXmmVex2 (p : Prefixes) (v : Vex2) (reg : BitVec 3) (rm : RegMem) (s : State) : Result :=
  runVex 16 128 p v.wide reg rm (Instr.vpadduswXmmVex2 p v reg rm).length s

/-- `VPADDUSB ymm1, ymm2, ymm3/m256`, three-byte prefix (R123). -/
def execVpaddusbYmmVex3 (p : Prefixes) (v : Vex3) (reg : BitVec 3) (rm : RegMem) (s : State) : Result :=
  runVex 8 256 p v reg rm (Instr.vpaddusbYmmVex3 p v reg rm).length s

/-- `VPADDUSB ymm1, ymm2, ymm3/m256`, two-byte prefix (R123). -/
def execVpaddusbYmmVex2 (p : Prefixes) (v : Vex2) (reg : BitVec 3) (rm : RegMem) (s : State) : Result :=
  runVex 8 256 p v.wide reg rm (Instr.vpaddusbYmmVex2 p v reg rm).length s

/-- `VPADDUSW ymm1, ymm2, ymm3/m256`, three-byte prefix (R124). -/
def execVpadduswYmmVex3 (p : Prefixes) (v : Vex3) (reg : BitVec 3) (rm : RegMem) (s : State) : Result :=
  runVex 16 256 p v reg rm (Instr.vpadduswYmmVex3 p v reg rm).length s

/-- `VPADDUSW ymm1, ymm2, ymm3/m256`, two-byte prefix (R124). -/
def execVpadduswYmmVex2 (p : Prefixes) (v : Vex2) (reg : BitVec 3) (rm : RegMem) (s : State) : Result :=
  runVex 16 256 p v.wide reg rm (Instr.vpadduswYmmVex2 p v reg rm).length s

end Sys2Proof.Machine
end

