-- ==== Sys2Proof/Machine/Dispatch.lean ====
section
/-! DEFINITION. The dispatch: one arm per constructor of Instr, each one direct call of its meaning. -/

namespace Sys2Proof.Machine

def exec (i : Instr) (s : State) : Host.Outcome State Fault Refusal :=
  match i with
  | .paddusbMm p x reg rm => Sys2Proof.Machine.execPaddusbMm p x reg rm s
  | .paddusbXmm p x reg rm => Sys2Proof.Machine.execPaddusbXmm p x reg rm s
  | .padduswMm p x reg rm => Sys2Proof.Machine.execPadduswMm p x reg rm s
  | .padduswXmm p x reg rm => Sys2Proof.Machine.execPadduswXmm p x reg rm s
  | .vpaddusbXmmVex3 p v reg rm => Sys2Proof.Machine.execVpaddusbXmmVex3 p v reg rm s
  | .vpaddusbXmmVex2 p v reg rm => Sys2Proof.Machine.execVpaddusbXmmVex2 p v reg rm s
  | .vpadduswXmmVex3 p v reg rm => Sys2Proof.Machine.execVpadduswXmmVex3 p v reg rm s
  | .vpadduswXmmVex2 p v reg rm => Sys2Proof.Machine.execVpadduswXmmVex2 p v reg rm s
  | .vpaddusbYmmVex3 p v reg rm => Sys2Proof.Machine.execVpaddusbYmmVex3 p v reg rm s
  | .vpaddusbYmmVex2 p v reg rm => Sys2Proof.Machine.execVpaddusbYmmVex2 p v reg rm s
  | .vpadduswYmmVex3 p v reg rm => Sys2Proof.Machine.execVpadduswYmmVex3 p v reg rm s
  | .vpadduswYmmVex2 p v reg rm => Sys2Proof.Machine.execVpadduswYmmVex2 p v reg rm s
  | .vpaddusbXmmEvex p v reg rm => Sys2Proof.Machine.execVpaddusbXmmEvex p v reg rm s
  | .vpaddusbYmmEvex p v reg rm => Sys2Proof.Machine.execVpaddusbYmmEvex p v reg rm s
  | .vpaddusbZmmEvex p v reg rm => Sys2Proof.Machine.execVpaddusbZmmEvex p v reg rm s
  | .vpadduswXmmEvex p v reg rm => Sys2Proof.Machine.execVpadduswXmmEvex p v reg rm s
  | .vpadduswYmmEvex p v reg rm => Sys2Proof.Machine.execVpadduswYmmEvex p v reg rm s
  | .vpadduswZmmEvex p v reg rm => Sys2Proof.Machine.execVpadduswZmmEvex p v reg rm s

end Sys2Proof.Machine
end

