-- ==== Sys2Proof/Machine/Step.lean ====
section
/-! DEFINITION. One step: fetch, decode, execute (00_scope.md R14), and the placing of an instruction where the next step
fetches it. -/

namespace Sys2Proof.Machine

/-- One step (R14): the mode (R34), the fetch at `pc`, the decoder's verdict on this processor (30_encoding.md R100, R101),
the instruction. An
instruction that needs a byte the fetch does not reach is refused for that byte before #UD is asked about; one that
fills the window of 15 bytes and goes on is #GP(0) (60_exceptions.md R168 items 1 to 3). -/
def step (s : State) : Host.Outcome State Fault Refusal :=
  match s.mode with
  | none => .refused .modeOutOfScope
  | some m =>
    if s.codeSegmentOk m = false then .refused .nonFlatSegment
    else
      let code := s.fetchWindow m
      match (decode m code.1).under s.feat with
      | .form i _ => exec i s
      | .ud => raise .ud s
      | .lengthGp => raise .gp s
      | .reject .truncated =>
        match code.2 with
        | some r => .refused r
        | none => raise .gp s
      | .reject r => .refused (.encoding r)
      | .barred r _ _ => .refused (.encoding r)

/-- The instruction whose bits are `w` stored where the next step fetches, so that the next step runs it. A state in no
mode of the spec, such as the state after reset, is first brought to 64-bit mode as software does before any program
of the instruction group (70_reset_and_hazards.md R192, notes/assumptions/20.md). -/
def State.withFetchWord (s : State) (nbits w : Nat) : State :=
  let s' := if s.mode.isSome then s else s.launch64
  match s'.mode with
  | none => s'
  | some m => s'.placeCode m (tableBytes nbits w) 0

end Sys2Proof.Machine
end

