-- ==== Sys2Proof/Machine/Program.lean ====
section
/-! DEFINITION. A program of the spec and its run (70_reset_and_hazards.md R200, D12). The step itself knows no program: at
the address after the last form it would fetch on. -/

namespace Sys2Proof.Machine

/-- A program: a finite sequence of forms at consecutive addresses (R200). -/
abbrev Program := List Instr

/-- The bytes of a program, form after form. DESIGN CHOICE (safe): the legacy prefixes of a form stand in the one order segment
override, 67, 66, where R71 and R72 of 30_encoding.md admit any (notes/assumptions/36.md). -/
def Program.bytes (p : Program) : List Byte := p.flatMap encode

/-- `a_{i+1} = a_i + L_i` (R200, 10_state.md R27). DESIGN CHOICE (unsafe) where a form ends with the top byte of the address
space: R200 asks for rising addresses and D12 refuses only bytes that cross, and the next address is 0 here, where the
program goes on or ends (notes/assumptions/35.md). -/
def addrAfter (m : Mode) (i : Instr) (a : Word64) : Word64 := m.wrap (a + BitVec.ofNat 64 i.length)

/-- `a_0, …, a_n`: the addresses of the forms of a program that starts at `a`, and the one past the last form (R200). -/
def Program.addresses (m : Mode) (a : Word64) : Program → List Word64
  | [] => [a]
  | i :: p => a :: Program.addresses m (addrAfter m i a) p

/-- `a_n`, the address just past the last form (R200). -/
def Program.endAt (m : Mode) (a : Word64) : Program → Word64
  | [] => a
  | i :: p => Program.endAt m (addrAfter m i a) p

/-- How a run ends: `finished` at `a_n` with no fault recorded, at the form that faults or has no outcome (R200), or not yet
when its steps are used up. -/
inductive RunEnd where
  | finished (s : State)
  | faulted (f : Fault)
  | refused (r : Refusal)
  | unfinished (s : State)
  deriving DecidableEq, Repr

/-- A run of at most `n` steps that ends when pc is `stop`; what lies at `stop` is not decoded (R200, D12). -/
def runTo (stop : Word64) : Nat → State → RunEnd
  | 0, s => if s.pc = stop then .finished s else .unfinished s
  | n + 1, s =>
    if s.pc = stop then .finished s
    else
      match step s with
      | .next t => runTo stop n t
      | .fault f => .faulted f
      | .refused r => .refused r

/-- The run of a program that stands at pc: from `a_0` to `a_n`, in at most as many steps as it has forms (R200). -/
def runProgram (m : Mode) (p : Program) (s : State) : RunEnd := runTo (p.endAt m s.pc) p.length s

end Sys2Proof.Machine
end

