-- ==== Sys2Proof/Safety.lean ====
section
/-! DEFINITION. The terms in which statements about the machine are written: classes of forms, enabling conditions in raw
bits, what a readable operand is, what a result is, and the invariant. -/

namespace Sys2Proof

/-- The four condition sets of the forms (60_exceptions.md R151). -/
inductive FormClass where
  /-- Rows 1 and 3. -/
  | mmx
  /-- Rows 2 and 4. -/
  | sse
  /-- Rows 5 to 8. -/
  | vex
  /-- Rows 9 to 14. -/
  | evex
  deriving DecidableEq, Repr

/-- The class of an instruction. -/
def Instr.formClass : Instr → FormClass
  | .paddusbMm _ _ _ _ => .mmx
  | .paddusbXmm _ _ _ _ => .sse
  | .padduswMm _ _ _ _ => .mmx
  | .padduswXmm _ _ _ _ => .sse
  | .vpaddusbXmmVex3 _ _ _ _ => .vex
  | .vpaddusbXmmVex2 _ _ _ _ => .vex
  | .vpadduswXmmVex3 _ _ _ _ => .vex
  | .vpadduswXmmVex2 _ _ _ _ => .vex
  | .vpaddusbYmmVex3 _ _ _ _ => .vex
  | .vpaddusbYmmVex2 _ _ _ _ => .vex
  | .vpadduswYmmVex3 _ _ _ _ => .vex
  | .vpadduswYmmVex2 _ _ _ _ => .vex
  | .vpaddusbXmmEvex _ _ _ _ => .evex
  | .vpaddusbYmmEvex _ _ _ _ => .evex
  | .vpaddusbZmmEvex _ _ _ _ => .evex
  | .vpadduswXmmEvex _ _ _ _ => .evex
  | .vpadduswYmmEvex _ _ _ _ => .evex
  | .vpadduswZmmEvex _ _ _ _ => .evex

/-- The `r/m` operand of an instruction. -/
def Instr.regMem : Instr → RegMem
  | .paddusbMm _ _ _ rm => rm
  | .paddusbXmm _ _ _ rm => rm
  | .padduswMm _ _ _ rm => rm
  | .padduswXmm _ _ _ rm => rm
  | .vpaddusbXmmVex3 _ _ _ rm => rm
  | .vpaddusbXmmVex2 _ _ _ rm => rm
  | .vpadduswXmmVex3 _ _ _ rm => rm
  | .vpadduswXmmVex2 _ _ _ rm => rm
  | .vpaddusbYmmVex3 _ _ _ rm => rm
  | .vpaddusbYmmVex2 _ _ _ rm => rm
  | .vpadduswYmmVex3 _ _ _ rm => rm
  | .vpadduswYmmVex2 _ _ _ rm => rm
  | .vpaddusbXmmEvex _ _ _ rm => rm
  | .vpaddusbYmmEvex _ _ _ rm => rm
  | .vpaddusbZmmEvex _ _ _ rm => rm
  | .vpadduswXmmEvex _ _ _ rm => rm
  | .vpadduswYmmEvex _ _ _ rm => rm
  | .vpadduswZmmEvex _ _ _ rm => rm

/-- The vector length of an instruction in bits (00_scope.md R3). -/
def Instr.vectorBits : Instr → Nat
  | .paddusbMm _ _ _ _ => 64
  | .paddusbXmm _ _ _ _ => 128
  | .padduswMm _ _ _ _ => 64
  | .padduswXmm _ _ _ _ => 128
  | .vpaddusbXmmVex3 _ _ _ _ => 128
  | .vpaddusbXmmVex2 _ _ _ _ => 128
  | .vpadduswXmmVex3 _ _ _ _ => 128
  | .vpadduswXmmVex2 _ _ _ _ => 128
  | .vpaddusbYmmVex3 _ _ _ _ => 256
  | .vpaddusbYmmVex2 _ _ _ _ => 256
  | .vpadduswYmmVex3 _ _ _ _ => 256
  | .vpadduswYmmVex2 _ _ _ _ => 256
  | .vpaddusbXmmEvex _ _ _ _ => 128
  | .vpaddusbYmmEvex _ _ _ _ => 256
  | .vpaddusbZmmEvex _ _ _ _ => 512
  | .vpadduswXmmEvex _ _ _ _ => 128
  | .vpadduswYmmEvex _ _ _ _ => 256
  | .vpadduswZmmEvex _ _ _ _ => 512

/-- The lane width of an instruction in bits (00_scope.md R11). -/
def Instr.laneBits : Instr → Nat
  | .paddusbMm _ _ _ _ => 8
  | .paddusbXmm _ _ _ _ => 8
  | .padduswMm _ _ _ _ => 16
  | .padduswXmm _ _ _ _ => 16
  | .vpaddusbXmmVex3 _ _ _ _ => 8
  | .vpaddusbXmmVex2 _ _ _ _ => 8
  | .vpadduswXmmVex3 _ _ _ _ => 16
  | .vpadduswXmmVex2 _ _ _ _ => 16
  | .vpaddusbYmmVex3 _ _ _ _ => 8
  | .vpaddusbYmmVex2 _ _ _ _ => 8
  | .vpadduswYmmVex3 _ _ _ _ => 16
  | .vpadduswYmmVex2 _ _ _ _ => 16
  | .vpaddusbXmmEvex _ _ _ _ => 8
  | .vpaddusbYmmEvex _ _ _ _ => 8
  | .vpaddusbZmmEvex _ _ _ _ => 8
  | .vpadduswXmmEvex _ _ _ _ => 16
  | .vpadduswYmmEvex _ _ _ _ => 16
  | .vpadduswZmmEvex _ _ _ _ => 16

/-- `z = 1` without a writemask, which only an ill-formed EVEX term has (30_encoding.md R93). -/
def Instr.zeroingUnmasked : Instr → Bool
  | .paddusbMm _ _ _ _ => false
  | .paddusbXmm _ _ _ _ => false
  | .padduswMm _ _ _ _ => false
  | .padduswXmm _ _ _ _ => false
  | .vpaddusbXmmVex3 _ _ _ _ => false
  | .vpaddusbXmmVex2 _ _ _ _ => false
  | .vpadduswXmmVex3 _ _ _ _ => false
  | .vpadduswXmmVex2 _ _ _ _ => false
  | .vpaddusbYmmVex3 _ _ _ _ => false
  | .vpaddusbYmmVex2 _ _ _ _ => false
  | .vpadduswYmmVex3 _ _ _ _ => false
  | .vpadduswYmmVex2 _ _ _ _ => false
  | .vpaddusbXmmEvex _ v _ _ => v.z && v.aaa == 0#3
  | .vpaddusbYmmEvex _ v _ _ => v.z && v.aaa == 0#3
  | .vpaddusbZmmEvex _ v _ _ => v.z && v.aaa == 0#3
  | .vpadduswXmmEvex _ v _ _ => v.z && v.aaa == 0#3
  | .vpadduswYmmEvex _ v _ _ => v.z && v.aaa == 0#3
  | .vpadduswZmmEvex _ v _ _ => v.z && v.aaa == 0#3

/-- The prefixes an instruction keeps: segment override and 67 (30_encoding.md R71). -/
def Instr.prefixes : Instr → Prefixes
  | .paddusbMm p _ _ _ => p
  | .paddusbXmm p _ _ _ => p
  | .padduswMm p _ _ _ => p
  | .padduswXmm p _ _ _ => p
  | .vpaddusbXmmVex3 p _ _ _ => p
  | .vpaddusbXmmVex2 p _ _ _ => p
  | .vpadduswXmmVex3 p _ _ _ => p
  | .vpadduswXmmVex2 p _ _ _ => p
  | .vpaddusbYmmVex3 p _ _ _ => p
  | .vpaddusbYmmVex2 p _ _ _ => p
  | .vpadduswYmmVex3 p _ _ _ => p
  | .vpadduswYmmVex2 p _ _ _ => p
  | .vpaddusbXmmEvex p _ _ _ => p
  | .vpaddusbYmmEvex p _ _ _ => p
  | .vpaddusbZmmEvex p _ _ _ => p
  | .vpadduswXmmEvex p _ _ _ => p
  | .vpadduswYmmEvex p _ _ _ => p
  | .vpadduswZmmEvex p _ _ _ => p

/-- The index and base extension bits X and B of an instruction (30_encoding.md R78). -/
def Instr.indexBase : Instr → Bool × Bool
  | .paddusbMm _ x _ _ => ((Machine.rexFields x).x, (Machine.rexFields x).b)
  | .paddusbXmm _ x _ _ => ((Machine.rexFields x).x, (Machine.rexFields x).b)
  | .padduswMm _ x _ _ => ((Machine.rexFields x).x, (Machine.rexFields x).b)
  | .padduswXmm _ x _ _ => ((Machine.rexFields x).x, (Machine.rexFields x).b)
  | .vpaddusbXmmVex3 _ v _ _ => (v.x, v.b)
  | .vpaddusbXmmVex2 _ _ _ _ => (false, false)
  | .vpadduswXmmVex3 _ v _ _ => (v.x, v.b)
  | .vpadduswXmmVex2 _ _ _ _ => (false, false)
  | .vpaddusbYmmVex3 _ v _ _ => (v.x, v.b)
  | .vpaddusbYmmVex2 _ _ _ _ => (false, false)
  | .vpadduswYmmVex3 _ v _ _ => (v.x, v.b)
  | .vpadduswYmmVex2 _ _ _ _ => (false, false)
  | .vpaddusbXmmEvex _ v _ _ => (v.x, v.b)
  | .vpaddusbYmmEvex _ v _ _ => (v.x, v.b)
  | .vpaddusbZmmEvex _ v _ _ => (v.x, v.b)
  | .vpadduswXmmEvex _ v _ _ => (v.x, v.b)
  | .vpadduswYmmEvex _ v _ _ => (v.x, v.b)
  | .vpadduswZmmEvex _ v _ _ => (v.x, v.b)

/-- The `aaa` field of an EVEX form (30_encoding.md R92); 000, no writemask, of every other form. -/
def Instr.opmask : Instr → BitVec 3
  | .paddusbMm _ _ _ _ => 0#3
  | .paddusbXmm _ _ _ _ => 0#3
  | .padduswMm _ _ _ _ => 0#3
  | .padduswXmm _ _ _ _ => 0#3
  | .vpaddusbXmmVex3 _ _ _ _ => 0#3
  | .vpaddusbXmmVex2 _ _ _ _ => 0#3
  | .vpadduswXmmVex3 _ _ _ _ => 0#3
  | .vpadduswXmmVex2 _ _ _ _ => 0#3
  | .vpaddusbYmmVex3 _ _ _ _ => 0#3
  | .vpaddusbYmmVex2 _ _ _ _ => 0#3
  | .vpadduswYmmVex3 _ _ _ _ => 0#3
  | .vpadduswYmmVex2 _ _ _ _ => 0#3
  | .vpaddusbXmmEvex _ v _ _ => v.aaa
  | .vpaddusbYmmEvex _ v _ _ => v.aaa
  | .vpaddusbZmmEvex _ v _ _ => v.aaa
  | .vpadduswXmmEvex _ v _ _ => v.aaa
  | .vpadduswYmmEvex _ v _ _ => v.aaa
  | .vpadduswZmmEvex _ v _ _ => v.aaa

/-- The vector register an instruction writes (30_encoding.md R96 to R98); none for rows 1 and 3. -/
def Instr.vectorDest (m : Mode) : Instr → Option (BitVec 5)
  | .paddusbMm _ _ _ _ => none
  | .paddusbXmm _ x reg _ => some (Machine.regNum5 m false (Machine.rexFields x).r reg)
  | .padduswMm _ _ _ _ => none
  | .padduswXmm _ x reg _ => some (Machine.regNum5 m false (Machine.rexFields x).r reg)
  | .vpaddusbXmmVex3 _ v reg _ => some (Machine.regNum5 m false v.r reg)
  | .vpaddusbXmmVex2 _ v reg _ => some (Machine.regNum5 m false v.r reg)
  | .vpadduswXmmVex3 _ v reg _ => some (Machine.regNum5 m false v.r reg)
  | .vpadduswXmmVex2 _ v reg _ => some (Machine.regNum5 m false v.r reg)
  | .vpaddusbYmmVex3 _ v reg _ => some (Machine.regNum5 m false v.r reg)
  | .vpaddusbYmmVex2 _ v reg _ => some (Machine.regNum5 m false v.r reg)
  | .vpadduswYmmVex3 _ v reg _ => some (Machine.regNum5 m false v.r reg)
  | .vpadduswYmmVex2 _ v reg _ => some (Machine.regNum5 m false v.r reg)
  | .vpaddusbXmmEvex _ v reg _ => some (Machine.regNum5 m v.rHi v.r reg)
  | .vpaddusbYmmEvex _ v reg _ => some (Machine.regNum5 m v.rHi v.r reg)
  | .vpaddusbZmmEvex _ v reg _ => some (Machine.regNum5 m v.rHi v.r reg)
  | .vpadduswXmmEvex _ v reg _ => some (Machine.regNum5 m v.rHi v.r reg)
  | .vpadduswYmmEvex _ v reg _ => some (Machine.regNum5 m v.rHi v.r reg)
  | .vpadduswZmmEvex _ v reg _ => some (Machine.regNum5 m v.rHi v.r reg)

/-- The MMX register an instruction writes (30_encoding.md R96); none but for rows 1 and 3. -/
def Instr.mmxDest : Instr → Option (BitVec 3)
  | .paddusbMm _ _ reg _ => some reg
  | .paddusbXmm _ _ _ _ => none
  | .padduswMm _ _ reg _ => some reg
  | .padduswXmm _ _ _ _ => none
  | .vpaddusbXmmVex3 _ _ _ _ => none
  | .vpaddusbXmmVex2 _ _ _ _ => none
  | .vpadduswXmmVex3 _ _ _ _ => none
  | .vpadduswXmmVex2 _ _ _ _ => none
  | .vpaddusbYmmVex3 _ _ _ _ => none
  | .vpaddusbYmmVex2 _ _ _ _ => none
  | .vpadduswYmmVex3 _ _ _ _ => none
  | .vpadduswYmmVex2 _ _ _ _ => none
  | .vpaddusbXmmEvex _ _ _ _ => none
  | .vpaddusbYmmEvex _ _ _ _ => none
  | .vpaddusbZmmEvex _ _ _ _ => none
  | .vpadduswXmmEvex _ _ _ _ => none
  | .vpadduswYmmEvex _ _ _ _ => none
  | .vpadduswZmmEvex _ _ _ _ => none

/-- The processor has the CPUID flags the instruction needs (00_scope.md R6, 60_exceptions.md R156 to R159). -/
def Instr.supportedBy (f : Features) (i : Instr) : Bool :=
  match i.formClass with
  | .mmx => f.mmx
  | .sse => f.sse2
  | .vex => if i.vectorBits = 256 then f.avx2 else f.avx
  | .evex => f.avx512bw && (i.vectorBits == 512 || f.avx512vl)

end Sys2Proof

namespace Sys2Proof.Machine

/-! ### Enabling conditions, in raw bits (70_reset_and_hazards.md R192, 60_exceptions.md R156 to R161) -/

/-- Rows 1 and 3 run: MMX present, `CR0.EM = 0`, `CR0.TS = 0`, no x87 exception pending. -/
def State.MmxEnabled (s : State) : Prop :=
  s.feat.mmx = true ∧ s.cr0.getLsbD 2 = false ∧ s.cr0.getLsbD 3 = false ∧ s.fsw.getLsbD 7 = false

/-- Rows 2 and 4 run: SSE2 present, `CR0.EM = 0`, `CR0.TS = 0`, `CR4.OSFXSR = 1`. -/
def State.SseEnabled (s : State) : Prop :=
  s.feat.sse2 = true ∧ s.cr0.getLsbD 2 = false ∧ s.cr0.getLsbD 3 = false ∧ s.cr4.getLsbD 9 = true

/-- Rows 5 to 8 run: the form's flag present, `CR0.TS = 0`, `CR4.OSXSAVE = 1`, `XCR0[2:1] = 11b`. -/
def State.VexEnabled (s : State) (ymm : Bool) : Prop :=
  (if ymm then s.feat.avx2 else s.feat.avx) = true ∧ s.cr0.getLsbD 3 = false ∧ s.cr4.getLsbD 18 = true ∧
    s.xcr0.getLsbD 1 = true ∧ s.xcr0.getLsbD 2 = true

/-- Rows 9 to 14 run: AVX512BW, and AVX512VL below 512 bits, `CR0.TS = 0`, `CR4.OSXSAVE = 1`, `XCR0[2:1] = 11b`,
`XCR0[7:5] = 111b`. -/
def State.EvexEnabled (s : State) (zmm : Bool) : Prop :=
  s.feat.avx512bw = true ∧ (zmm = true ∨ s.feat.avx512vl = true) ∧ s.cr0.getLsbD 3 = false ∧ s.cr4.getLsbD 18 = true ∧
    s.xcr0.getLsbD 1 = true ∧ s.xcr0.getLsbD 2 = true ∧ s.xcr0.getLsbD 5 = true ∧ s.xcr0.getLsbD 6 = true ∧
    s.xcr0.getLsbD 7 = true

/-- The enabling condition of an instruction. -/
def State.Enabled (s : State) (i : Instr) : Prop :=
  match i.formClass with
  | .mmx => s.MmxEnabled
  | .sse => s.SseEnabled
  | .vex => s.VexEnabled (i.vectorBits == 256)
  | .evex => s.EvexEnabled (i.vectorBits == 512) ∧ i.zeroingUnmasked = false

/-- Premise P2 of 70_reset_and_hazards.md R194 for one form: steps 2 to 6 of R192. Step 8 is none of them: in such a state an
x87 exception may be pending, with which rows 1 and 3 are #MF or have no outcome (R160). Of step 5 it is `CR0.TS = 0`, since
the handler it admits instead is out of scope (00_scope.md R5 (c), notes/assumptions/39.md). -/
def State.Booted (s : State) (i : Instr) : Prop :=
  match i.formClass with
  | .mmx => s.feat.mmx = true ∧ s.cr0.getLsbD 2 = false ∧ s.cr0.getLsbD 3 = false
  | .sse => s.SseEnabled
  | .vex => s.VexEnabled (i.vectorBits == 256)
  | .evex => s.EvexEnabled (i.vectorBits == 512)

/-! ### Operands -/

/-- The address context of a legacy form: X and B of its REX prefix, if any (30_encoding.md R78, R96). -/
def legacyCtx (m : Mode) (p : Prefixes) (x : Option Rex) (i : Instr) : AddrCtx :=
  ⟨m, p.a67, (rexFields x).x, (rexFields x).b, 1, i.length⟩

/-- The address context of a VEX form (R97). -/
def vexCtx (m : Mode) (p : Prefixes) (v : Vex3) (i : Instr) : AddrCtx := ⟨m, p.a67, v.x, v.b, 1, i.length⟩

/-- The address context of an EVEX form: disp8 is scaled by the operand's size (R91, R98). -/
def evexCtx (m : Mode) (p : Prefixes) (v : Evex) (i : Instr) : AddrCtx :=
  ⟨m, p.a67, v.x, v.b, i.vectorBits / 8, i.length⟩

/-- The address context of an instruction's memory operand, whatever its class (30_encoding.md R78, R91). -/
def instrCtx (m : Mode) (i : Instr) : AddrCtx :=
  ⟨m, i.prefixes.a67, i.indexBase.1, i.indexBase.2, if i.formClass = .evex then i.vectorBits / 8 else 1, i.length⟩

/-- Where the memory operand `a` of an instruction lies. -/
def State.operandPlace (s : State) (m : Mode) (i : Instr) (a : MemAddr) : Place :=
  s.place (instrCtx m i) i.prefixes.seg a (i.vectorBits / 8)

/-- In 32-bit mode the operand's segment is flat and the operand does not pass 2^32 (20_memory.md R55, D7); 64-bit mode
asks nothing (R54). -/
def State.SegmentOk (s : State) (c : AddrCtx) (seg : Option SegName) (a : MemAddr) (n : Nat) : Prop :=
  c.mode = .m32 →
    s.flatSegment (operandSegment seg (s.effAddr c a).stack) = true ∧ (s.effAddr c a).ea.toNat + n ≤ 2 ^ 32

/-- The memory operand of an instruction may be addressed: not with 16-bit addressing under VEX and EVEX (D16), and with
`SegmentOk`. -/
def State.Addressable (s : State) (m : Mode) (i : Instr) (a : MemAddr) : Prop :=
  (i.formClass = .vex ∨ i.formClass = .evex → m.addr16 i.prefixes.a67 = false) ∧
    s.SegmentOk (instrCtx m i) i.prefixes.seg a (i.vectorBits / 8)

/-- Byte `k` of the memory operand belongs to an active lane (42_vpaddus_evex.md R131, R140); without a writemask every byte
does. -/
def State.ActiveByte (s : State) (i : Instr) (k : Nat) : Prop :=
  i.opmask = 0#3 ∨ (s.mask i.opmask).getLsbD (8 * k / i.laneBits) = true

/-- Every byte of the operand is canonical (R56). -/
def State.AllCanonical (s : State) (m : Mode) (p : Place) : Prop :=
  ∀ k < p.size, canonical m s.platform.laBits (linByte m p.lin k) = true

/-- Byte `k` of the operand does not translate, with error code `e` (R60). -/
def State.FaultsAt (s : State) (m : Mode) (p : Place) (k : Nat) (e : BitVec 32) : Prop :=
  s.translate (linByte m p.lin k) = .error e

/-- Every byte of the operand that translates lies in memory private to the program (R63). -/
def State.Private (s : State) (m : Mode) (p : Place) : Prop :=
  ∀ k < p.size, ∀ a, s.translate (linByte m p.lin k) = .ok a → s.kindAt a = .ordinary

/-- Byte `i` of the operand passes the canonical test and translates to memory that is no device (R56, R60, R62). -/
def State.ByteReadable (s : State) (m : Mode) (p : Place) (i : Nat) : Prop :=
  canonical m s.platform.laBits (linByte m p.lin i) = true ∧
    ∃ a, s.translate (linByte m p.lin i) = .ok a ∧ s.kindAt a ≠ .device

/-- Every byte of the operand is readable. -/
def State.Readable (s : State) (m : Mode) (p : Place) : Prop := ∀ i < p.size, s.ByteReadable m p i

/-- `V` is what the memory operand holds: byte `i` of the operand is bits 8i+7:8i (R52), read from ordinary memory; bytes
that other agents write may be anything (R63). `n` is the model's draw counter after the read, unchanged where every
byte is ordinary memory. -/
def State.Reads (s : State) (m : Mode) (p : Place) {N : Nat} (V : BitVec N) (n : Nat) : Prop :=
  (∀ i < p.size, ∀ a, s.translate (linByte m p.lin i) = .ok a → s.kindAt a = .ordinary →
      V.extractLsb' (8 * i) 8 = s.byteAt a) ∧
    ((∀ i < p.size, ∀ a, s.translate (linByte m p.lin i) = .ok a → s.kindAt a = .ordinary) → n = s.draws)

/-! ### Results -/

/-- Every lane of `R` is the sum of the lanes of `A` and `B`, or all ones where the sum exceeds it (R11, R12 (a)). -/
def SumOf (w : Nat) {N : Nat} (R A B : BitVec N) : Prop :=
  ∀ j < N / w, (lane w R j).toNat = min ((lane w A j).toNat + (lane w B j).toNat) (2 ^ w - 1)

/-- The masked sum (42_vpaddus_evex.md R131, R132): lane `j` is the saturated sum where there is no writemask or bit `j`
of the mask is 1, else 0 under zeroing, else the lane of `old`. -/
def MaskedSumOf (w : Nat) {N : Nat} (aaa : BitVec 3) (z : Bool) (mask : Word64) (R old A B : BitVec N) : Prop :=
  ∀ j < N / w,
    if aaa = 0#3 ∨ mask.getLsbD j = true then
      (lane w R j).toNat = min ((lane w A j).toNat + (lane w B j).toNat) (2 ^ w - 1)
    else if z then lane w R j = 0#w
    else lane w R j = lane w old j

/-- The address after the instruction (10_state.md R27); 0 after one that ends with the top byte of the address space, the
model's choice (notes/assumptions/35.md). -/
def State.nextPc (s : State) (m : Mode) (i : Instr) : Word64 := m.wrap (s.pc + BitVec.ofNat 64 i.length)

/-- An MMX form completes with `mm[d]` and `src` summed into `mm[d]`, the x87 side effects of R115, pc past the instruction,
the draw counter at `n`, and nothing else changed. -/
def MmxResult (i : Instr) (d : BitVec 3) (src : Word64) (n : Nat) (s : State) (m : Mode) : Prop :=
  ∃ u : BitVec 64, SumOf i.laneBits u (s.mm d) src ∧
    exec i s = .next
      { s with
        fpr := s.fpr.set d.toNat (0xFFFF#16 ++ u) d.isLt
        fsw := s.fsw &&& 0xC7FF#16
        ftw := 0#16
        pc := s.nextPc m i
        draws := n }

/-- A legacy SSE form completes with bits 127:0 of `v[d]` and `src` summed into bits 127:0 of `v[d]`, the bits above kept
(R116), and nothing else changed but pc and the draw counter. -/
def SseResult (i : Instr) (d : BitVec 5) (src : BitVec 128) (n : Nat) (s : State) (m : Mode) : Prop :=
  ∃ u : BitVec 128, SumOf i.laneBits u ((s.vreg d).setWidth 128) src ∧
    exec i s = .next
      { s with
        v := s.v.set d.toNat ((s.vreg d).extractLsb' 128 384 ++ u) d.isLt
        pc := s.nextPc m i
        draws := n }

/-- A VEX form completes with `v[s1]` and `src` summed into the low bits of `v[d]`, the bits above zero (R125), and nothing
else changed but pc and the draw counter. -/
def VexResult (i : Instr) (d s1 : BitVec 5) {N : Nat} (src : BitVec N) (n : Nat) (s : State) (m : Mode) : Prop :=
  ∃ u : BitVec N, SumOf i.laneBits u ((s.vreg s1).setWidth N) src ∧
    exec i s = .next
      { s with
        v := s.v.set d.toNat (u.setWidth 512) d.isLt
        pc := s.nextPc m i
        draws := n }

/-- An EVEX form completes with the masked sum (R132) in the low bits of `v[d]`, the bits above zero (R139), and nothing
else changed but pc and the draw counter. -/
def EvexResult (i : Instr) (v : Evex) (d s1 : BitVec 5) {N : Nat} (src : BitVec N) (n : Nat) (s : State) (m : Mode) :
    Prop :=
  ∃ u : BitVec N,
    MaskedSumOf i.laneBits v.aaa v.z (s.mask v.aaa) u ((s.vreg d).setWidth N) ((s.vreg s1).setWidth N) src ∧
    exec i s = .next
      { s with
        v := s.v.set d.toNat (u.setWidth 512) d.isLt
        pc := s.nextPc m i
        draws := n }

/-- An MMX form with a memory operand completes, whatever its segment, address form and memory kind. -/
def MmxMemoryResult (i : Instr) (p : Prefixes) (x : Option Rex) (d : BitVec 3) (a : MemAddr) (s : State) (m : Mode) :
    Prop :=
  let c := legacyCtx m p x i
  let q := s.place c p.seg a 8
  s.SegmentOk c p.seg a 8 → s.Readable m q → (s.alignmentChecking = true → q.lin.toNat % 8 = 0) →
    ∃ (V : BitVec 64) (n : Nat), s.Reads m q V n ∧ MmxResult i d V n s m

/-- A legacy SSE form with a memory operand on a 16-byte boundary completes. -/
def SseMemoryResult (i : Instr) (p : Prefixes) (x : Option Rex) (d : BitVec 5) (a : MemAddr) (s : State) (m : Mode) :
    Prop :=
  let c := legacyCtx m p x i
  let q := s.place c p.seg a 16
  s.SegmentOk c p.seg a 16 → s.Readable m q → q.lin.toNat % 16 = 0 →
    ∃ (V : BitVec 128) (n : Nat), s.Reads m q V n ∧ SseResult i d V n s m

/-- A VEX form with a memory operand completes, at any address unless alignment checking is on. -/
def VexMemoryResult (N : Nat) (i : Instr) (p : Prefixes) (v : Vex3) (d s1 : BitVec 5) (a : MemAddr) (s : State)
    (m : Mode) : Prop :=
  let c := vexCtx m p v i
  let q := s.place c p.seg a (N / 8)
  m.addr16 p.a67 = false → s.SegmentOk c p.seg a (N / 8) → s.Readable m q →
    (s.alignmentChecking = true → q.lin.toNat % (N / 8) = 0) →
    ∃ (V : BitVec N) (n : Nat), s.Reads m q V n ∧ VexResult i d s1 V n s m

/-- An EVEX form with a memory operand all of whose bytes are readable completes, at any address unless alignment checking
is on (R140, D17 (a)). -/
def EvexMemoryResult (N : Nat) (i : Instr) (p : Prefixes) (v : Evex) (d s1 : BitVec 5) (a : MemAddr) (s : State)
    (m : Mode) : Prop :=
  let c := evexCtx m p v i
  let q := s.place c p.seg a (N / 8)
  m.addr16 p.a67 = false → s.SegmentOk c p.seg a (N / 8) → s.Readable m q →
    (s.alignmentChecking = true → q.lin.toNat % (N / 8) = 0) →
    ∃ (V : BitVec N) (n : Nat), s.Reads m q V n ∧ EvexResult i v d s1 V n s m

/-- Two outcomes stop in the same way, or both go on: the same refusal, or the same exception with the same error code and
CR2. -/
def SameKind : Result → Result → Prop
  | .next _, .next _ => True
  | .fault f, .fault g => f.vector = g.vector ∧ f.errorCode = g.errorCode ∧ f.after.cr2 = g.after.cr2
  | .refused r, .refused q => r = q
  | _, _ => False

/-! ### The invariant -/

/-- The legal values of XCR0 (10_state.md R32). -/
def xcr0Legal (x : Word64) : Bool :=
  x.getLsbD 0 && (!x.getLsbD 2 || x.getLsbD 1) && (x.getLsbD 5 == x.getLsbD 6) && (x.getLsbD 6 == x.getLsbD 7)
    && (!x.getLsbD 5 || x.getLsbD 2)

/-- What holds of every state of a machine started in a legal state: the feature set obeys
R6; XCR0 is legal (R32); the upper half of CR0 is 0, and PE and PG are 1 in 64-bit and 32-bit mode (R30); in 32-bit mode
pc is below 2^32 (R27). The model's own clauses: memory is in canonical form (notes/assumptions/6.md), and the stored bits
of a vector register from MAXVL up, and registers the processor lacks, are 0 (notes/assumptions/22.md). -/
def State.Inv (s : State) : Prop :=
  Memory.wf s.mem = true ∧
  featuresConsistent s.feat = true ∧
  (s.mode = some .m64 → s.feat.mmx = true ∧ s.feat.sse2 = true) ∧
  (∀ i : BitVec 5, s.vreg i >>> maxVl s.feat = 0#512) ∧
  (∀ i : BitVec 5, vectorRegs s.feat ≤ i.toNat → s.vreg i = 0#512) ∧
  xcr0Legal s.xcr0 = true ∧
  s.cr0.toNat < 2 ^ 32 ∧
  (s.mode ≠ none → s.cr0.getLsbD 0 = true ∧ s.cr0.getLsbD 31 = true) ∧
  (s.mode = some .m32 → s.pc.toNat < 2 ^ 32)

/-! ### The launch state -/

/-- The launch premises of 70_reset_and_hazards.md R194 (D11) for the program `prog` at pc, with R30. P3 (no fault is recorded)
holds of every state: a fault is an outcome that ends the run (60_exceptions.md R172). P6, and the breakpoints of P5, are
events the model has none of (notes/assumptions/16.md). -/
structure State.Launch (s : State) (m : Mode) (prog : Program) : Prop where
  /-- P1. -/
  mode : s.mode = some m
  /-- R30. -/
  pagedProtected : s.cr0PE = true ∧ s.cr0PG = true
  /-- P2; no form changes the enabling bits. -/
  booted : ∀ i ∈ prog, i.wellFormed m = true ∧ s.Booted i
  /-- P4: each code byte is mapped, executable and private, and pc is where it says. DESIGN CHOICE (safe): the bytes are those of
  `Program.bytes`, each form's legacy prefixes in one order (notes/assumptions/36.md). -/
  code : ∀ (k : Nat) (h : k < prog.bytes.length), ∃ a, s.codeAddr m k = .ok a ∧ s.byteAt a = prog.bytes[k]
  /-- P5. -/
  noTrap : s.rflags.getLsbD 8 = false
  /-- P7. -/
  flat : m = .m32 → ∀ n, s.flatSegment n = true
  /-- P8: the operand bytes of each form, at its own address, are memory without read side effects. -/
  operands : ∀ (j : Nat) (i : Instr) (c : Word64) (a : MemAddr), prog[j]? = some i →
    (prog.addresses m s.pc)[j]? = some c → i.regMem = .mem a →
    let q := ({ s with pc := c } : State).operandPlace m i a
    ∀ k < q.size, ∀ b, s.translate (linByte m q.lin k) = .ok b → s.kindAt b ≠ .device

end Sys2Proof.Machine
end

