-- ==== Sys2Proof/Certificates/Slice0/Obligations.lean ====
section
/-! DEFINITION. The statements for the provers: each says what the machine of spec/ does, over all states, operands and
forms it names. -/

open Sys2Proof Sys2Proof.Machine

/-! ### Encoding -/

/-- 30_encoding.md R70 to R100: the bytes of a well-formed instruction, whatever follows them, decode to it, with every
operand at every value the encoding admits, in both modes; the length is the number of its bytes (R27). -/
def Obligations.Decode_of_encode : Prop :=
  ∀ (m : Mode) (i : Instr) (rest : List Byte), i.wellFormed m = true → decode m (encode i ++ rest) = .form i i.length

/-- R73, R75 to R77, R86, R88, R93: what the decoder gives is an instruction the encoding admits in that mode; and the bytes
it takes are that instruction's encoding (R85, R89, R103: map, `pp`, opcode byte and every field), but for the order of its
legacy prefixes (R71). -/
def Obligations.Decoded_is_well_formed : Prop :=
  ∀ (m : Mode) (bs : List Byte) (i : Instr) (n : Nat), decode m bs = .form i n →
    i.wellFormed m = true ∧
    ∃ ps own body, encode i = own ++ body ∧ bs.take n = ps ++ body ∧ ps.Perm own ∧ ∀ b ∈ ps, (prefixOf b).isSome = true

/-- R70, R100 step 5, R27: the decoded length is the instruction's own, whatever the order of its prefixes, lies
between 3 and 15 and within the bytes given. -/
def Obligations.Decoded_length : Prop :=
  ∀ (m : Mode) (bs : List Byte) (i : Instr) (n : Nat), decode m bs = .form i n →
    n = i.length ∧ 3 ≤ n ∧ n ≤ 15 ∧ n ≤ bs.length

/-- R100 ("Decoding, left to right from the byte at pc"): the bytes after the instruction play no part. -/
def Obligations.Decode_ignores_later_bytes : Prop :=
  ∀ (m : Mode) (bs rest : List Byte) (i : Instr) (n : Nat), decode m bs = .form i n →
    decode m (bs.take n ++ rest) = .form i n

/-- R101 rows 1 to 3, R100 (its last paragraph): LOCK anywhere before a form, and 66, F2, F3 or, in 64-bit mode, a REX byte
anywhere before a VEX or EVEX form is #UD; longer than 15 bytes it is #GP(0) (R70, R168). That this holds whatever other
prefixes stand there, repeated or not, is the model's reading of D15, which refuses a repeated prefix unless R101 lists the
encoding, where R100 step 1 and R71 refuse it (notes/assumptions/29.md); that it holds of a REX byte before VEX or EVEX which
a legacy prefix follows is its choice (notes/assumptions/37.md). A 67 in 32-bit mode before a memory operand is one of the
form's own (R79). -/
def Obligations.Illegal_prefix_is_invalid_opcode : Prop :=
  ∀ (m : Mode) (i : Instr) (ps rest : List Byte), i.wellFormed m = true →
    (∀ b ∈ ps, (prefixOf b).isSome = true ∨ (m = .m64 ∧ b.extractLsb' 4 4 = 4#4)) →
    (0x67#8 ∈ ps → m = .m64 ∨ i.prefixes.a67 = true ∨ ∃ r, i.regMem = .reg r) →
    (0xF0#8 ∈ ps ∨ ((i.formClass = .vex ∨ i.formClass = .evex) ∧
      ∃ b ∈ ps, b ∈ [0x66#8, 0xF2#8, 0xF3#8] ∨ b.extractLsb' 4 4 = 4#4)) →
    decode m (ps ++ (encode i ++ rest)) = if ps.length + i.length ≤ 15 then .ud else .lengthGp

/-- R94, R90, R93, R101 rows 5, 7, 8: an EVEX encoding of either opcode byte whose other fields are well formed is #UD
when `b = 1`, when `L'L = 11`, and when `z = 1` with `aaa = 000` (the last where R93 lets a model choose:
notes/assumptions/13.md), whatever its operand, of the address size in force, whose bytes are all there (R168 items 1 to 3);
longer than 15 bytes it is #GP(0). That this holds whatever prefixes stand before it, redundant ones too, is the model's
reading of D15, which refuses these unless R101 lists the encoding (notes/assumptions/29.md); so is that 67 in 32-bit mode
gives the operand of such an encoding 16-bit addressing. -/
def Obligations.Illegal_evex_payload_is_invalid_opcode : Prop :=
  ∀ (m : Mode) (v : Evex) (p2 : Byte) (word : Bool) (reg : BitVec 3) (rm : RegMem) (ps rest : List Byte),
    (m = .m64 ∨ (v.r = false ∧ v.x = false ∧ v.b = false ∧ v.rHi = false ∧ v.vHi = false ∧ v.vvvv.msb = false ∧
      p2.getLsbD 3 = true)) →
    rm.wellFormed (m.addr16 (decide (0x67#8 ∈ ps))) = true →
    (∀ b ∈ ps, (prefixOf b).isSome = true ∨ (m = .m64 ∧ b.extractLsb' 4 4 = 4#4)) →
    (p2.getLsbD 4 = true ∨ p2.extractLsb' 5 2 = 3#2 ∨ (p2.getLsbD 7 = true ∧ p2.extractLsb' 0 3 = 0#3)) →
    decode m (ps ++ 0x62#8 :: evexByte0 v :: evexByte1 v :: p2 :: opcodeByte word :: (encodeRegMem reg rm ++ rest)) =
      if ps.length + 5 + (encodeRegMem reg rm).length ≤ 15 then .ud else .lengthGp

/-- D15 (the spec's own decision; R71 to R73; notes/assumptions/28.md): what R101 does not make #UD is refused. Two prefixes
of one group before a form, the same byte or not and adjacent or not; F2 or F3 before a legacy form, among other prefixes;
and, in 64-bit mode, a REX byte that a legacy prefix or another REX byte follows, before a legacy form. LOCK is in none of
them, and 66, F2, F3 and REX before no VEX or EVEX form. Where the processor lacks the CPUID flag of the form the prefixes
select (R101 rows 4, 6, 10) the first and the third are #UD, past 15 bytes #GP(0); not so where F2 or F3 makes it another map
entry, nor with 16-bit addressing under VEX or EVEX, which D16 refuses (notes/assumptions/29.md). -/
def Obligations.Redundant_prefixes_are_refused : Prop :=
  let groups : List (List Byte) :=
    [[0xF2#8, 0xF3#8], [0x2E#8, 0x36#8, 0x3E#8, 0x26#8, 0x64#8, 0x65#8], [0x66#8], [0x67#8]]
  let has := fun (f : Features) (i : Instr) (ps : List Byte) =>
    if i.formClass = .mmx ∧ 0x66#8 ∈ ps then f.sse2 else i.supportedBy f
  let rep := fun ps : List Byte => 0xF2#8 ∈ ps ∨ 0xF3#8 ∈ ps
  (∀ (f : Features) (m : Mode) (i : Instr) (pre mid post rest : List Byte) (b c : Byte) (g : List Byte),
    i.wellFormed m = true → g ∈ groups → b ∈ g → c ∈ g →
    let ps := pre ++ b :: (mid ++ c :: post)
    let v := (decode m (ps ++ (encode i ++ rest))).under f
    let mem16 := m = .m32 ∧ 0x67#8 ∈ ps ∧ ∃ a, i.regMem = .mem a
    (∀ x ∈ ps, (prefixOf x).isSome = true ∧ x ≠ 0xF0#8) →
    (i.formClass = .vex ∨ i.formClass = .evex → ∀ x ∈ ps, x ∉ [0x66#8, 0xF2#8, 0xF3#8]) →
    (has f i ps = true ∨ rep ps ∨ ((i.formClass = .vex ∨ i.formClass = .evex) ∧ mem16) →
      v = .reject .redundantPrefix) ∧
    (has f i ps = false → ¬ rep ps → (mem16 → i.prefixes.a67 = true) →
      v = if ps.length + i.length ≤ 15 then .ud else .lengthGp)) ∧
  (∀ (m : Mode) (i : Instr) (ps rest : List Byte), i.wellFormed m = true → i.formClass = .mmx →
    i.prefixes = ⟨none, false⟩ → (∀ x ∈ ps, (prefixOf x).isSome = true ∧ x ≠ 0xF0#8) →
    ps.Pairwise (fun x y => ∀ g ∈ groups, ¬ (x ∈ g ∧ y ∈ g)) → rep ps →
    decode m (ps ++ (encode i ++ rest)) = .reject .reservedMapEntry) ∧
  (∀ (f : Features) (i : Instr) (pre post rest : List Byte) (b c : Byte), i.wellFormed .m64 = true →
    i.formClass = .mmx ∨ i.formClass = .sse →
    let ps := pre ++ b :: c :: post
    let v := (decode .m64 (ps ++ (encode i ++ rest))).under f
    (∀ x ∈ ps, ((prefixOf x).isSome = true ∨ x.extractLsb' 4 4 = 4#4) ∧ x ≠ 0xF0#8) → b.extractLsb' 4 4 = 4#4 →
    (has f i ps = true ∨ rep ps → v = .reject .rexMisplaced) ∧
    (has f i ps = false → ¬ rep ps → v = if ps.length + i.length ≤ 15 then .ud else .lengthGp))

/-- A few words of 95_test_vectors.md section 4, one of each layout and vector length, decode to what is written
there. -/
def Obligations.Spec_words_decode : Prop :=
  decode .m64 [0x0F#8, 0xDC#8, 0xC1#8] = .form (.paddusbMm ⟨none, false⟩ none 0#3 (.reg 1#3)) 3 ∧
  decode .m64 [0x66#8, 0x45#8, 0x0F#8, 0xDD#8, 0xC8#8] =
    .form (.padduswXmm ⟨none, false⟩ (some ⟨false, true, false, true⟩) 1#3 (.reg 0#3)) 5 ∧
  decode .m32 [0xC5#8, 0xE9#8, 0xDC#8, 0xCB#8] = .form (.vpaddusbXmmVex2 ⟨none, false⟩ ⟨false, 2#4⟩ 1#3 (.reg 3#3)) 4 ∧
  decode .m64 [0xC4#8, 0xE1#8, 0x69#8, 0xDC#8, 0xCB#8] =
    .form (.vpaddusbXmmVex3 ⟨none, false⟩ ⟨false, false, false, false, 2#4⟩ 1#3 (.reg 3#3)) 5 ∧
  decode .m64 [0x62#8, 0xF1#8, 0x6D#8, 0x28#8, 0xDD#8, 0xCB#8] =
    .form (.vpadduswYmmEvex ⟨none, false⟩ ⟨false, false, false, false, false, 2#4, false, false, 0#3⟩ 1#3 (.reg 3#3)) 6 ∧
  decode .m64 [0x62#8, 0xF1#8, 0x6D#8, 0x48#8, 0xDD#8, 0xCB#8] =
    .form (.vpadduswZmmEvex ⟨none, false⟩ ⟨false, false, false, false, false, 2#4, false, false, 0#3⟩ 1#3 (.reg 3#3)) 6

/-! ### The step -/

/-- 00_scope.md R14: when the bytes at pc decode to an instruction, the step is that instruction's execution at that
state; its pc is still the instruction's own address (10_state.md R27). That only the segments an instruction uses
must be flat in 32-bit mode, asked where it uses them, is the model's choice (notes/assumptions/38.md). -/
def Obligations.Step_runs_decoded_instruction : Prop :=
  ∀ (s : State) (m : Mode) (i : Instr) (n : Nat), s.mode = some m → s.codeSegmentOk m = true →
    decode m (s.fetchWindow m).1 = .form i n → i.wellFormed m = true → step s = exec i s

/-- R14, R50, R100: when memory at pc holds the bytes of a well-formed instruction, each fetchable, the step runs it,
whatever lies behind it. That only the segments an instruction uses must be flat in 32-bit mode, asked where it uses
them, is the model's choice (notes/assumptions/38.md). -/
def Obligations.Step_runs_instruction_in_memory : Prop :=
  ∀ (s : State) (m : Mode) (i : Instr), s.mode = some m → s.codeSegmentOk m = true → i.wellFormed m = true →
    (∀ (k : Nat) (h : k < (encode i).length), ∃ a, s.codeAddr m k = .ok a ∧ s.byteAt a = (encode i)[k]) →
    step s = exec i s

/-- 30_encoding.md R101, R70, R100, 60_exceptions.md R168 items 1 to 3, R170: bytes the decoder finds illegal on this
processor raise #UD at that state; an instruction that takes all 15 bytes the fetch gives and needs more is longer
than 15 bytes, #GP(0), whether or not its sixteenth byte could be fetched (the model's reading,
notes/assumptions/27.md); one that needs a byte the fetch does not reach has no outcome, whatever #UD would say of it
(notes/assumptions/19.md, 29.md); and what the decoder refuses has none (D14 to D16, notes/assumptions/28.md). That
only the segments an instruction uses must be flat in 32-bit mode, asked where it uses them, is the model's choice
(notes/assumptions/38.md). -/
def Obligations.Step_raises_decode_faults : Prop :=
  ∀ (s : State) (m : Mode), s.mode = some m → s.codeSegmentOk m = true →
    let v := (decode m (s.fetchWindow m).1).under s.feat
    (v = .ud → step s = .fault (.invalidOpcode s)) ∧
    (v = .reject .truncated →
      ((s.fetchWindow m).1.length = 15 → step s = .fault (.generalProtection s)) ∧
      ((s.fetchWindow m).1.length < 15 → ∃ r, s.codeAddr m (s.fetchWindow m).1.length = .error r ∧ step s = .refused r)) ∧
    (∀ r, r ≠ .truncated → v = .reject r → step s = .refused (.encoding r))

/-- D4 (the spec's own decision; R5 (b), R34; notes/assumptions/1.md): in a mode that is neither M64 nor M32 the step
and every instruction are refused. -/
def Obligations.Other_modes_are_refused : Prop :=
  ∀ (s : State) (i : Instr), s.mode = none → step s = .refused .modeOutOfScope ∧ exec i s = .refused .modeOutOfScope

/-- 10_state.md R34: 64-bit mode, 32-bit mode by compatibility, 32-bit mode by protection, and neither. -/
def Obligations.Mode_by_control_bits : Prop :=
  ∀ s : State,
    (s.mode = some .m64 ↔ s.efer.getLsbD 10 = true ∧ s.segs.cs.long = true) ∧
    (s.mode = some .m32 ↔
      (s.efer.getLsbD 10 = true ∧ s.segs.cs.long = false ∧ s.segs.cs.big = true) ∨
      (s.efer.getLsbD 10 = false ∧ s.cr0.getLsbD 0 = true ∧ s.rflags.getLsbD 17 = false ∧ s.segs.cs.big = true))

/-- D12 (the spec's own decision; R27; notes/assumptions/19.md): no step is taken from an address the code space
lacks: outside the canonical addresses in 64-bit mode, from 2^32 up in 32-bit mode; nor is an instruction run whose first
bytes are fetched and one of whose later bytes lies there. -/
def Obligations.Fetch_outside_code_space_is_refused : Prop :=
  ∀ (s : State) (m : Mode), s.mode = some m → s.codeSegmentOk m = true →
    let outside := fun j => (m = .m64 → canonical .m64 s.platform.laBits (s.pc + BitVec.ofNat 64 j) = false ∨
      2 ^ 64 ≤ s.pc.toNat + j) ∧ (m = .m32 → 2 ^ 32 ≤ s.pc.toNat + j)
    (outside 0 → step s = .refused .codeAtBoundary) ∧
    (∀ (i : Instr) (j : Nat) (hj : j < (encode i).length), i.wellFormed m = true →
      (∀ (k : Nat) (hk : k < j), ∃ a, s.codeAddr m k = .ok a ∧ s.byteAt a = (encode i)[k]) → outside j →
      step s = .refused .codeAtBoundary)

/-! ### Whole-machine rules -/

/-- Every step keeps `State.Inv`: 00_scope.md R6 (the feature set), 10_state.md R32 (XCR0), R30 (the upper half of CR0, PE
and PG), R27 (pc in 32-bit mode). Two of its clauses are the model's own: memory stays in its canonical form
(notes/assumptions/6.md), and the stored bits of a vector register from MAXVL up and the registers the processor lacks
stay 0 (notes/assumptions/22.md; R20 and R21 only say that they do not exist). That R30 is held by the invariant and not
by the mode is notes/assumptions/34.md. -/
def Obligations.Step_keeps_invariant : Prop :=
  ∀ s t : State, s.Inv → step s = .next t → t.Inv

/-- The state after reset meets the invariant. Its feature set is the model's choice (notes/assumptions/3.md). -/
def Obligations.Reset_meets_invariant : Prop := State.reset.Inv

/-- 10_state.md R37 ("No form writes memory, a general register, a segment register, an opmask register, EFLAGS, MXCSR
or a control register"), R40: a step changes nothing but the vector or MMX register its instruction names as destination,
pc and the model's draw counter, and, for rows 1 and 3 alone, the tag word and `TOP` (40_paddus_legacy.md R115): every
other vector and x87 register, and every other bit of the status word, keeps its value. -/
def Obligations.Step_writes_only_destinations : Prop :=
  ∀ s t : State, step s = .next t →
    t = { s with v := t.v, fpr := t.fpr, fsw := t.fsw, ftw := t.ftw, pc := t.pc, draws := t.draws } ∧
    (∀ a, t.byteAt a = s.byteAt a) ∧ t.mode = s.mode ∧
    ∃ (m : Mode) (i : Instr) (n : Nat), s.mode = some m ∧ decode m (s.fetchWindow m).1 = .form i n ∧
      (∀ r : BitVec 5, i.vectorDest m ≠ some r → t.vreg r = s.vreg r) ∧
      (∀ r : BitVec 3, i.mmxDest ≠ some r → t.fpr.get r.toFin = s.fpr.get r.toFin) ∧
      (i.formClass ≠ .mmx → t.fsw = s.fsw ∧ t.ftw = s.ftw) ∧
      (∀ k, ¬ (11 ≤ k ∧ k ≤ 13) → t.fsw.getLsbD k = s.fsw.getLsbD k)

/-- R27 (`pc <- pc + L`, `L` the length of the instruction), 70_reset_and_hazards.md R200: a step that completes moves pc
past the instruction the bytes at pc decode to, which has 3 to 15 bytes, modulo the width of the mode, and in no other
way. That pc is 0 after an instruction that ends with the top byte of the address space is the model's choice
(notes/assumptions/35.md). -/
def Obligations.Step_advances_pc_by_length : Prop :=
  ∀ s t : State, step s = .next t →
    ∃ (m : Mode) (i : Instr) (n : Nat), s.mode = some m ∧ decode m (s.fetchWindow m).1 = .form i n ∧ n = i.length ∧
      3 ≤ n ∧ n ≤ 15 ∧ t.pc = m.wrap (s.pc + BitVec.ofNat 64 n)

/-- 60_exceptions.md R171: a step that faults leaves every register, flag, memory byte and pc as they were, but for
CR2 on #PF. -/
def Obligations.Faults_leave_state_unchanged : Prop :=
  ∀ (s : State) (f : Fault), step s = .fault f →
    (f.vector ≠ 14 → f.after = s) ∧ (f.vector = 14 → f.after = { s with cr2 := f.after.cr2 })

/-- 60_exceptions.md R152, R160, R165: an instruction raises the exceptions R152 lists with their error codes and no
others (for register operands section 3 infers it from R162 to R165); #MF and #AC are raised by rows 1 and 3 only;
with a register operand there is #UD, #NM or (rows 1 and 3) #MF only. -/
def Obligations.Exceptions_an_instruction_raises : Prop :=
  ∀ (i : Instr) (s : State) (f : Fault), exec i s = .fault f →
    ((f.vector = 6 ∧ f.errorCode = none) ∨ (f.vector = 7 ∧ f.errorCode = none) ∨
      (f.vector = 12 ∧ f.errorCode = some 0#32) ∨ (f.vector = 13 ∧ f.errorCode = some 0#32) ∨ f.vector = 14 ∨
      (f.vector = 16 ∧ f.errorCode = none) ∨ (f.vector = 17 ∧ f.errorCode = some 0#32)) ∧
    (f.vector = 16 ∨ f.vector = 17 → i.formClass = .mmx) ∧
    (∀ r, i.regMem = .reg r → f.vector = 6 ∨ f.vector = 7 ∨ f.vector = 16)

/-- "Completion never depends on the data values" (60_exceptions.md section 3, which marks it as its own inference):
two states that differ only in vector registers, the data of the x87 registers and memory bytes end an instruction in
the same kind of outcome, with the same exception. -/
def Obligations.Completion_independent_of_data : Prop :=
  ∀ (i : Instr) (s : State) (v : Vector VReg 32) (fpr : Vector FReg 8) (mem : List Host.Cell),
    SameKind (exec i s) (exec i { s with v := v, fpr := fpr, mem := mem })

/-! ### Enabling conditions -/

/-- R156, R157: rows 1 and 3 raise #UD exactly when `CR0.EM = 1` or MMX is absent, rows 2 and 4 exactly when `CR0.EM =
1`, `CR4.OSFXSR = 0`, or SSE2 is absent. That only the segments an instruction uses must be flat in 32-bit mode, asked
where it uses them, is the model's choice (notes/assumptions/38.md). -/
def Obligations.Legacy_invalid_opcode_iff : Prop :=
  ∀ (i : Instr) (s : State) (m : Mode), s.mode = some m →
    (i.formClass = .mmx →
      (exec i s = .fault (.invalidOpcode s) ↔ s.cr0.getLsbD 2 = true ∨ s.feat.mmx = false)) ∧
    (i.formClass = .sse →
      (exec i s = .fault (.invalidOpcode s) ↔
        s.cr0.getLsbD 2 = true ∨ s.cr4.getLsbD 9 = false ∨ s.feat.sse2 = false))

/-- R158: rows 5 to 8 raise #UD exactly when `CR4.OSXSAVE = 0`, `XCR0[2:1]` is not 11b, or AVX (128 bits) or AVX2 (256
bits) is absent. That only the segments an instruction uses must be flat in 32-bit mode, asked where it uses them, is
the model's choice (notes/assumptions/38.md). -/
def Obligations.Vex_invalid_opcode_iff : Prop :=
  ∀ (i : Instr) (s : State) (m : Mode), i.formClass = .vex → s.mode = some m →
    (exec i s = .fault (.invalidOpcode s) ↔
      s.cr4.getLsbD 18 = false ∨ s.xcr0.getLsbD 1 = false ∨ s.xcr0.getLsbD 2 = false ∨
      (i.vectorBits = 128 ∧ s.feat.avx = false) ∨ (i.vectorBits = 256 ∧ s.feat.avx2 = false))

/-- R159: rows 9 to 14 raise #UD exactly when `CR4.OSXSAVE = 0`, `XCR0[2:1]` is not 11b, `XCR0[7:5]` is not 111b,
AVX512BW is absent, AVX512VL is absent at 128 or 256 bits, or `z = 1` stands without a writemask
(notes/assumptions/13.md). That only the segments an instruction uses must be flat in 32-bit mode, asked where it uses
them, is the model's choice (notes/assumptions/38.md). -/
def Obligations.Evex_invalid_opcode_iff : Prop :=
  ∀ (i : Instr) (s : State) (m : Mode), i.formClass = .evex → s.mode = some m →
    (exec i s = .fault (.invalidOpcode s) ↔
      s.cr4.getLsbD 18 = false ∨ s.xcr0.getLsbD 1 = false ∨ s.xcr0.getLsbD 2 = false ∨ s.xcr0.getLsbD 5 = false ∨
      s.xcr0.getLsbD 6 = false ∨ s.xcr0.getLsbD 7 = false ∨ s.feat.avx512bw = false ∨
      (i.vectorBits ≠ 512 ∧ s.feat.avx512vl = false) ∨ i.zeroingUnmasked = true)

/-- R161: every form raises #NM exactly when `CR0.TS = 1` and it does not raise #UD; `CR0.MP` (bit 1) plays no part.
That only the segments an instruction uses must be flat in 32-bit mode, asked where it uses them, is the model's
choice (notes/assumptions/38.md). -/
def Obligations.Device_not_available_iff : Prop :=
  ∀ (i : Instr) (s : State) (m : Mode), s.mode = some m →
    (exec i s = .fault (.deviceNotAvailable s) ↔
      s.cr0.getLsbD 3 = true ∧ exec i s ≠ .fault (.invalidOpcode s)) ∧
    (let q := { s with cr0 := s.cr0 ^^^ 2#64 }
     exec i q = .fault (.deviceNotAvailable q) ↔ exec i s = .fault (.deviceNotAvailable s))

/-- R160, R168, D19 (its refusal the spec's own decision): past #UD and #NM, a pending x87 exception is #MF for rows 1
and 3 with `CR0.NE = 1`, no outcome with `CR0.NE = 0`; the other rows never test it: they end in the same way whatever
the x87 status word is, and complete with the same next state but for that word itself. That only the segments an
instruction uses must be flat in 32-bit mode, asked where it uses them, is the model's choice
(notes/assumptions/38.md). -/
def Obligations.Pending_x87_exception : Prop :=
  (∀ (i : Instr) (s : State) (m : Mode), i.formClass = .mmx → s.mode = some m → s.feat.mmx = true →
    s.cr0.getLsbD 2 = false → s.cr0.getLsbD 3 = false → s.fsw.getLsbD 7 = true →
      (s.cr0.getLsbD 5 = true → exec i s = .fault (.x87Error s)) ∧
      (s.cr0.getLsbD 5 = false → exec i s = .refused .x87ExternalReport)) ∧
  (∀ (i : Instr) (s : State) (fsw : BitVec 16), i.formClass ≠ .mmx →
    SameKind (exec i s) (exec i { s with fsw := fsw }) ∧
    ∀ t, exec i s = .next t → exec i { s with fsw := fsw } = .next { t with fsw := fsw })

/-! ### Results of register forms -/

/-- 40_paddus_legacy.md R111, R113, R115: PADDUSB and PADDUSW on MMX registers, with every prefix and REX byte. That
pc is 0 after an instruction that ends with the top byte of the address space is the model's choice
(notes/assumptions/35.md). That only the segments an instruction uses must be flat in 32-bit mode, asked where it uses
them, is the model's choice (notes/assumptions/38.md). -/
def Obligations.Mmx_register_result : Prop :=
  ∀ (p : Prefixes) (x : Option Rex) (reg r : BitVec 3) (s : State) (m : Mode), s.mode = some m → s.MmxEnabled →
    MmxResult (.paddusbMm p x reg (.reg r)) reg (s.mm r) s.draws s m ∧
    MmxResult (.padduswMm p x reg (.reg r)) reg (s.mm r) s.draws s m

/-- R112, R114, R116: PADDUSB and PADDUSW on XMM registers. That pc is 0 after an instruction that ends with the top
byte of the address space is the model's choice (notes/assumptions/35.md). That only the segments an instruction uses
must be flat in 32-bit mode, asked where it uses them, is the model's choice (notes/assumptions/38.md). -/
def Obligations.Sse_register_result : Prop :=
  ∀ (p : Prefixes) (x : Option Rex) (reg r : BitVec 3) (s : State) (m : Mode), s.mode = some m → s.SseEnabled →
    let d := regNum5 m false (rexFields x).r reg
    let src := (s.vreg (regNum5 m false (rexFields x).b r)).setWidth 128
    SseResult (.paddusbXmm p x reg (.reg r)) d src s.draws s m ∧
    SseResult (.padduswXmm p x reg (.reg r)) d src s.draws s m

/-- 41_vpaddus_vex.md R121 to R125: the 128- and 256-bit VEX forms on registers, in both prefixes. That pc is 0 after
an instruction that ends with the top byte of the address space is the model's choice (notes/assumptions/35.md). That
only the segments an instruction uses must be flat in 32-bit mode, asked where it uses them, is the model's choice
(notes/assumptions/38.md). -/
def Obligations.Vex_register_result : Prop :=
  ∀ (p : Prefixes) (v : Vex3) (v2 : Vex2) (reg r : BitVec 3) (s : State) (m : Mode), s.mode = some m →
    let d := regNum5 m false v.r reg
    let a := vvvvNum m false v.vvvv
    let b := s.vreg (regNum5 m false v.b r)
    let d2 := regNum5 m false v2.r reg
    let a2 := vvvvNum m false v2.vvvv
    let b2 := s.vreg (regNum5 m false false r)
    (s.VexEnabled false →
      VexResult (.vpaddusbXmmVex3 p v reg (.reg r)) d a (b.setWidth 128) s.draws s m ∧
      VexResult (.vpadduswXmmVex3 p v reg (.reg r)) d a (b.setWidth 128) s.draws s m ∧
      VexResult (.vpaddusbXmmVex2 p v2 reg (.reg r)) d2 a2 (b2.setWidth 128) s.draws s m ∧
      VexResult (.vpadduswXmmVex2 p v2 reg (.reg r)) d2 a2 (b2.setWidth 128) s.draws s m) ∧
    (s.VexEnabled true →
      VexResult (.vpaddusbYmmVex3 p v reg (.reg r)) d a (b.setWidth 256) s.draws s m ∧
      VexResult (.vpadduswYmmVex3 p v reg (.reg r)) d a (b.setWidth 256) s.draws s m ∧
      VexResult (.vpaddusbYmmVex2 p v2 reg (.reg r)) d2 a2 (b2.setWidth 256) s.draws s m ∧
      VexResult (.vpadduswYmmVex2 p v2 reg (.reg r)) d2 a2 (b2.setWidth 256) s.draws s m)

/-- 42_vpaddus_evex.md R133 to R139: the six EVEX forms on registers, masked, merging and zeroing. That pc is 0 after
an instruction that ends with the top byte of the address space is the model's choice (notes/assumptions/35.md). That
only the segments an instruction uses must be flat in 32-bit mode, asked where it uses them, is the model's choice
(notes/assumptions/38.md). -/
def Obligations.Evex_register_result : Prop :=
  ∀ (p : Prefixes) (v : Evex) (reg r : BitVec 3) (s : State) (m : Mode), s.mode = some m →
    (v.z && v.aaa == 0#3) = false →
    let d := regNum5 m v.rHi v.r reg
    let a := vvvvNum m v.vHi v.vvvv
    let b := s.vreg (regNum5 m v.x v.b r)
    (s.EvexEnabled false →
      EvexResult (.vpaddusbXmmEvex p v reg (.reg r)) v d a (b.setWidth 128) s.draws s m ∧
      EvexResult (.vpadduswXmmEvex p v reg (.reg r)) v d a (b.setWidth 128) s.draws s m ∧
      EvexResult (.vpaddusbYmmEvex p v reg (.reg r)) v d a (b.setWidth 256) s.draws s m ∧
      EvexResult (.vpadduswYmmEvex p v reg (.reg r)) v d a (b.setWidth 256) s.draws s m) ∧
    (s.EvexEnabled true →
      EvexResult (.vpaddusbZmmEvex p v reg (.reg r)) v d a (b.setWidth 512) s.draws s m ∧
      EvexResult (.vpadduswZmmEvex p v reg (.reg r)) v d a (b.setWidth 512) s.draws s m)

/-! ### Results of memory forms -/

/-- R111, R113, 20_memory.md R51, R52, R58: rows 1 and 3 with a readable memory operand, aligned where alignment
checking is on. That an operand whose bytes wrap past the top of the linear addresses is read on both sides of it is
the model's choice (notes/assumptions/32.md, 33.md). That pc is 0 after an instruction that ends with the top byte of
the address space is the model's choice (notes/assumptions/35.md). That only the segments an instruction uses must be
flat in 32-bit mode, asked where it uses them, is the model's choice (notes/assumptions/38.md). -/
def Obligations.Mmx_memory_result : Prop :=
  ∀ (p : Prefixes) (x : Option Rex) (reg : BitVec 3) (a : MemAddr) (s : State) (m : Mode), s.mode = some m →
    s.MmxEnabled →
    MmxMemoryResult (.paddusbMm p x reg (.mem a)) p x reg a s m ∧
    MmxMemoryResult (.padduswMm p x reg (.mem a)) p x reg a s m

/-- R112, R114, R57: rows 2 and 4 with a readable memory operand on a 16-byte boundary. That pc is 0 after an
instruction that ends with the top byte of the address space is the model's choice (notes/assumptions/35.md). That
only the segments an instruction uses must be flat in 32-bit mode, asked where it uses them, is the model's choice
(notes/assumptions/38.md). -/
def Obligations.Sse_memory_result : Prop :=
  ∀ (p : Prefixes) (x : Option Rex) (reg : BitVec 3) (a : MemAddr) (s : State) (m : Mode), s.mode = some m →
    s.SseEnabled →
    let d := regNum5 m false (rexFields x).r reg
    SseMemoryResult (.paddusbXmm p x reg (.mem a)) p x d a s m ∧
    SseMemoryResult (.padduswXmm p x reg (.mem a)) p x d a s m

/-- R121 to R125, R59: rows 5 to 8 with a readable memory operand at any address, in both prefixes. That an operand
whose bytes wrap past the top of the linear addresses is read on both sides of it is the model's choice
(notes/assumptions/32.md, 33.md). That pc is 0 after an instruction that ends with the top byte of the address space
is the model's choice (notes/assumptions/35.md). That only the segments an instruction uses must be flat in 32-bit
mode, asked where it uses them, is the model's choice (notes/assumptions/38.md). -/
def Obligations.Vex_memory_result : Prop :=
  ∀ (p : Prefixes) (v : Vex3) (v2 : Vex2) (reg : BitVec 3) (a : MemAddr) (s : State) (m : Mode), s.mode = some m →
    let d := regNum5 m false v.r reg
    let b := vvvvNum m false v.vvvv
    let d2 := regNum5 m false v2.r reg
    let b2 := vvvvNum m false v2.vvvv
    (s.VexEnabled false →
      VexMemoryResult 128 (.vpaddusbXmmVex3 p v reg (.mem a)) p v d b a s m ∧
      VexMemoryResult 128 (.vpadduswXmmVex3 p v reg (.mem a)) p v d b a s m ∧
      VexMemoryResult 128 (.vpaddusbXmmVex2 p v2 reg (.mem a)) p v2.wide d2 b2 a s m ∧
      VexMemoryResult 128 (.vpadduswXmmVex2 p v2 reg (.mem a)) p v2.wide d2 b2 a s m) ∧
    (s.VexEnabled true →
      VexMemoryResult 256 (.vpaddusbYmmVex3 p v reg (.mem a)) p v d b a s m ∧
      VexMemoryResult 256 (.vpadduswYmmVex3 p v reg (.mem a)) p v d b a s m ∧
      VexMemoryResult 256 (.vpaddusbYmmVex2 p v2 reg (.mem a)) p v2.wide d2 b2 a s m ∧
      VexMemoryResult 256 (.vpadduswYmmVex2 p v2 reg (.mem a)) p v2.wide d2 b2 a s m)

/-- R133 to R140 (D17 (a)): rows 9 to 14 with a readable memory operand at any address. That an operand whose bytes
wrap past the top of the linear addresses is read on both sides of it is the model's choice (notes/assumptions/32.md,
33.md). That pc is 0 after an instruction that ends with the top byte of the address space is the model's choice
(notes/assumptions/35.md). That only the segments an instruction uses must be flat in 32-bit mode, asked where it uses
them, is the model's choice (notes/assumptions/38.md). -/
def Obligations.Evex_memory_result : Prop :=
  ∀ (p : Prefixes) (v : Evex) (reg : BitVec 3) (a : MemAddr) (s : State) (m : Mode), s.mode = some m →
    (v.z && v.aaa == 0#3) = false →
    let d := regNum5 m v.rHi v.r reg
    let b := vvvvNum m v.vHi v.vvvv
    (s.EvexEnabled false →
      EvexMemoryResult 128 (.vpaddusbXmmEvex p v reg (.mem a)) p v d b a s m ∧
      EvexMemoryResult 128 (.vpadduswXmmEvex p v reg (.mem a)) p v d b a s m ∧
      EvexMemoryResult 256 (.vpaddusbYmmEvex p v reg (.mem a)) p v d b a s m ∧
      EvexMemoryResult 256 (.vpadduswYmmEvex p v reg (.mem a)) p v d b a s m) ∧
    (s.EvexEnabled true →
      EvexMemoryResult 512 (.vpaddusbZmmEvex p v reg (.mem a)) p v d b a s m ∧
      EvexMemoryResult 512 (.vpadduswZmmEvex p v reg (.mem a)) p v d b a s m)

/-! ### Memory faults -/

/-- R57, R162 (c): past #UD and #NM, with every byte canonical, a memory operand of rows 2 and 4 off a 16-byte
boundary is #GP(0). That this holds of an operand that does not translate as well is the order D13 decides, which D13
lets a model weaken: the model's choice, notes/assumptions/23.md. So is that the bytes of an operand that wraps past
the top of the linear addresses count as canonical (notes/assumptions/32.md, 33.md). That only the segments an
instruction uses must be flat in 32-bit mode, asked where it uses them, is the model's choice
(notes/assumptions/38.md). -/
def Obligations.Sse_misaligned_operand_faults : Prop :=
  ∀ (i : Instr) (p : Prefixes) (x : Option Rex) (reg : BitVec 3) (a : MemAddr) (s : State) (m : Mode),
    i = .paddusbXmm p x reg (.mem a) ∨ i = .padduswXmm p x reg (.mem a) → s.mode = some m → s.SseEnabled →
    let c := legacyCtx m p x i
    let q := s.place c p.seg a 16
    s.SegmentOk c p.seg a 16 → (∀ k < 16, canonical m s.platform.laBits (linByte m q.lin k) = true) →
    q.lin.toNat % 16 ≠ 0 → exec i s = .fault (.generalProtection s)

/-- R58, R165: a readable memory operand of rows 1 and 3 that is not 8-byte aligned is #AC(0) under alignment
checking; CPL is the low bits of the CS selector (notes/assumptions/24.md). That an operand that wraps past the top of
the linear addresses is readable so is the model's choice (notes/assumptions/32.md, 33.md). That only the segments an
instruction uses must be flat in 32-bit mode, asked where it uses them, is the model's choice
(notes/assumptions/38.md). -/
def Obligations.Mmx_alignment_check : Prop :=
  ∀ (i : Instr) (p : Prefixes) (x : Option Rex) (reg : BitVec 3) (a : MemAddr) (s : State) (m : Mode),
    i = .paddusbMm p x reg (.mem a) ∨ i = .padduswMm p x reg (.mem a) → s.mode = some m → s.MmxEnabled →
    let c := legacyCtx m p x i
    let q := s.place c p.seg a 8
    s.SegmentOk c p.seg a 8 → s.Readable m q → q.lin.toNat % 8 ≠ 0 →
    s.cr0.getLsbD 18 = true → s.rflags.getLsbD 18 = true → s.segs.cs.selector.extractLsb' 0 2 = 3#2 →
    exec i s = .fault (.alignmentCheck s)

/-- D9 (the spec's own decision; R59; notes/assumptions/11.md): a readable but misaligned memory operand of a VEX
form, in either prefix, or of an EVEX form has no outcome under alignment checking, an operand that wraps past the top
of the linear addresses too (notes/assumptions/32.md, 33.md). That only the segments an instruction uses must be flat
in 32-bit mode, asked where it uses them, is the model's choice (notes/assumptions/38.md). -/
def Obligations.Vex_alignment_check_is_refused : Prop :=
  ∀ (i : Instr) (a : MemAddr) (s : State) (m : Mode),
    i.formClass = .vex ∨ i.formClass = .evex → i.regMem = .mem a → s.mode = some m → s.Enabled i →
    s.Addressable m i a → s.Readable m (s.operandPlace m i a) →
    (s.operandPlace m i a).lin.toNat % (i.vectorBits / 8) ≠ 0 →
    s.cr0.getLsbD 18 = true → s.rflags.getLsbD 18 = true → s.segs.cs.selector.extractLsb' 0 2 = 3#2 →
    exec i s = .refused .alignmentUnderCheck

/-- R56, R162 (a), R163 (a): in 64-bit mode a memory operand with a non-canonical byte, of an active lane under a
writemask (R140, D17 (b)), is #SS(0) when its segment is SS and #GP(0) otherwise (R81), for every row. Where one of the
four ignored overrides set the segment to SS or away from SS there is no outcome (D15; an override that names what the
default is anyway does not count, notes/assumptions/18.md). That a VEX or EVEX operand that is misaligned under alignment
checking as well faults so is notes/assumptions/11.md, where R59 gives no outcome. -/
def Obligations.Non_canonical_operand_faults : Prop :=
  ∀ (i : Instr) (a : MemAddr) (s : State), i.regMem = .mem a → s.mode = some .m64 → s.Enabled i →
    let q := s.operandPlace .m64 i a
    let stack := (s.effAddr (instrCtx .m64 i) a).stack
    let ignored := ∃ n ∈ [SegName.cs, SegName.ss, SegName.ds, SegName.es],
      i.prefixes.seg = some n ∧ (n = .ss ↔ stack = false)
    (∃ k < i.vectorBits / 8, s.ActiveByte i k ∧ canonical .m64 s.platform.laBits (linByte .m64 q.lin k) = false) →
    (ignored → exec i s = .refused .stackOrProtection) ∧
    (¬ ignored →
      exec i s = if operandSegment i.prefixes.seg stack = .ss then .fault (.stackSegment s)
        else .fault (.generalProtection s))

/-- R60, R164, U8: a memory operand of rows 1 to 8 whose bytes are canonical (and which is on a 16-byte boundary for
rows 2 and 4), some byte of which does not translate, is #PF with the error code and the address of one such byte; CR2
receives the address. Which byte is left free (notes/assumptions/9.md). That a VEX operand that is misaligned under
alignment checking as well faults so is notes/assumptions/11.md, where R59 gives no outcome; that the bytes of an
operand that wraps past the top of the linear addresses translate as those from 0 on is the model's choice
(notes/assumptions/32.md, 33.md). That only the segments an instruction uses must be flat in 32-bit mode, asked where
it uses them, is the model's choice (notes/assumptions/38.md). -/
def Obligations.Page_fault_reports_a_faulting_byte : Prop :=
  ∀ (i : Instr) (a : MemAddr) (s : State) (m : Mode),
    i.formClass ≠ .evex → i.regMem = .mem a → s.mode = some m → s.Enabled i → s.Addressable m i a →
    let q := s.operandPlace m i a
    s.AllCanonical m q → (i.formClass = .sse → q.lin.toNat % 16 = 0) →
    (∃ k < i.vectorBits / 8, ∃ e, s.FaultsAt m q k e) →
    ∃ k < i.vectorBits / 8, ∃ e, s.FaultsAt m q k e ∧
      exec i s = .fault (.pageFault e { s with cr2 := linByte m q.lin k })

/-- R60: the bits of a data page fault's error code: P, W/R = 0, U/S = (CPL = 3), RSVD, I/D = 0, PK, others 0. The
form of the translation and the place of CPL are the model's (notes/assumptions/24.md, 25.md). -/
def Obligations.Page_fault_code_bits : Prop :=
  ∀ (s : State) (a : Word64) (e : BitVec 32), s.translate a = .error e →
    (e.getLsbD 2 = true ↔ s.segs.cs.selector.extractLsb' 0 2 = 3#2) ∧ e.getLsbD 1 = false ∧ e.getLsbD 4 = false ∧
    e.toNat < 64 ∧
    ∃ r ∈ s.platform.translation, ∃ pr rs pk, r.base ≤ a.toNat ∧ a.toNat < r.base + r.size ∧
      (if s.segs.cs.selector.extractLsb' 0 2 = 3#2 then r.user else r.supervisor) = .fault pr rs pk ∧
      e.getLsbD 0 = pr ∧ e.getLsbD 3 = rs ∧ e.getLsbD 5 = pk

/-- D17 (b), (c) (the spec's own decision; 42_vpaddus_evex.md R140; notes/assumptions/9.md, 10.md): where every byte
of an active lane of an EVEX operand is canonical and one of them fails to translate, it is #PF for such a byte,
whatever the masked-off lanes do; where bytes fail, by not being canonical or by not translating, and none of them is
of an active lane, there is no outcome. That both hold of an operand that is misaligned under alignment checking as
well is notes/assumptions/11.md, where R59 gives no outcome; that the bytes of an operand that wraps past the top of
the linear addresses are those from 0 on is the model's choice (notes/assumptions/32.md, 33.md). That only the
segments an instruction uses must be flat in 32-bit mode, asked where it uses them, is the model's choice
(notes/assumptions/38.md). -/
def Obligations.Page_fault_under_writemask : Prop :=
  ∀ (vl : EvexLen) (w : Bool) (p : Prefixes) (v : Evex) (reg : BitVec 3) (a : MemAddr) (s : State) (m : Mode),
    let i := evexInstr vl w p v reg (.mem a)
    let n := i.vectorBits / 8
    let q := s.operandPlace m i a
    let canon := fun k => canonical m s.platform.laBits (linByte m q.lin k) = true
    let faults := fun k => ∃ e, s.FaultsAt m q k e
    s.mode = some m → s.Enabled i → s.Addressable m i a →
    ((∀ k < n, s.ActiveByte i k → canon k) → (∃ k < n, s.ActiveByte i k ∧ faults k) →
      ∃ k < n, s.ActiveByte i k ∧ ∃ e, s.FaultsAt m q k e ∧
        exec i s = .fault (.pageFault e { s with cr2 := linByte m q.lin k })) ∧
    ((∃ k < n, ¬ canon k ∨ faults k) → (∀ k < n, s.ActiveByte i k → canon k ∧ ¬ faults k) →
      exec i s = .refused .maskedLaneFault)

/-- D8 (the spec's own decision; R62): an operand that passes its checks and touches a device is refused, in every
row; the operand is on a 16-byte boundary for rows 2 and 4, and aligned to its own size under alignment checking. That
the refusal comes after the other checks is notes/assumptions/15.md; an operand that wraps past the top of the linear
addresses is one too (notes/assumptions/32.md, 33.md). That only the segments an instruction uses must be flat in
32-bit mode, asked where it uses them, is the model's choice (notes/assumptions/38.md). -/
def Obligations.Device_operand_is_refused : Prop :=
  ∀ (i : Instr) (a : MemAddr) (s : State) (m : Mode),
    i.regMem = .mem a → s.mode = some m → s.Enabled i → s.Addressable m i a →
    let q := s.operandPlace m i a
    s.AllCanonical m q → (∀ k < i.vectorBits / 8, ∃ b, s.translate (linByte m q.lin k) = .ok b) →
    (i.formClass = .sse → q.lin.toNat % 16 = 0) →
    (s.alignmentChecking = true → q.lin.toNat % (i.vectorBits / 8) = 0) →
    (∃ k < i.vectorBits / 8, ∃ b, s.translate (linByte m q.lin k) = .ok b ∧ s.kindAt b = .device) →
    exec i s = .refused .deviceMemory

/-! ### Lane arithmetic -/

/-- 00_scope.md R9: `SatUB`. -/
def Obligations.SatUB_value : Prop :=
  ∀ n : Nat, (n ≤ 255 → (satU 8 n).toNat = n) ∧ (255 < n → satU 8 n = 0xFF#8)

/-- 00_scope.md R10: `SatUW`. -/
def Obligations.SatUW_value : Prop :=
  ∀ n : Nat, (n ≤ 65535 → (satU 16 n).toNat = n) ∧ (65535 < n → satU 16 n = 0xFFFF#16)

/-- 00_scope.md R11: lane `j` of `AddUS_w` is the saturated exact sum, and depends on lane `j` of each operand and on
nothing else. -/
def Obligations.AddUS_lanes_are_independent : Prop :=
  ∀ (w N : Nat) (A A' B B' : BitVec N) (j : Nat), 0 < w → j < N / w →
    lane w (addUS w N A B) j = satU w ((lane w A j).toNat + (lane w B j).toNat) ∧
    (lane w A j = lane w A' j → lane w B j = lane w B' j →
      lane w (addUS w N A B) j = lane w (addUS w N A' B') j)

/-- The laws (a) to (i) that 00_scope.md section 5 derives from R9 to R11 (its own inference, R12), at every lane
width that divides the vector: the saturated sum, commutative, zero the identity and all ones absorbing lane by lane,
never below an operand, equal to the wrapping sum exactly where it does not saturate, monotone, associative, saturated
exactly where bit `w` of the `w + 1`-bit sum is set. -/
def Obligations.AddUS_laws : Prop :=
  ∀ (w N : Nat) (A B C : BitVec N), 0 < w → w * (N / w) = N →
    SumOf w (addUS w N A B) A B ∧
    addUS w N A B = addUS w N B A ∧
    addUS w N (addUS w N A B) C = addUS w N A (addUS w N B C) ∧
    ∀ j < N / w,
      (lane w B j = 0#w → lane w (addUS w N A B) j = lane w A j) ∧
      (lane w B j = BitVec.allOnes w → lane w (addUS w N A B) j = BitVec.allOnes w) ∧
      ((lane w A j).toNat ≤ (lane w (addUS w N A B) j).toNat ∧
        (lane w B j).toNat ≤ (lane w (addUS w N A B) j).toNat) ∧
      (lane w (addUS w N A B) j = lane w A j + lane w B j ↔
        (lane w A j).toNat + (lane w B j).toNat ≤ 2 ^ w - 1) ∧
      ((lane w A j).toNat ≤ (lane w C j).toNat →
        (lane w (addUS w N A B) j).toNat ≤ (lane w (addUS w N C B) j).toNat) ∧
      ((lane w (addUS w N A B) j).toNat ≠ (lane w A j).toNat + (lane w B j).toNat ↔
        ((lane w A j).setWidth (w + 1) + (lane w B j).setWidth (w + 1)).getLsbD w = true)

/-! ### Upper bits, masks, agreement of encodings -/

/-- 40_paddus_legacy.md R116: a legacy SSE form that completes leaves the bits from 128 up of its destination as they
were, and its low 128 bits do not depend on the bits from 128 up of a source register. -/
def Obligations.Legacy_sse_keeps_upper_bits : Prop :=
  ∀ (w : Bool) (p : Prefixes) (x : Option Rex) (reg : BitVec 3) (rm : RegMem) (s t : State) (m : Mode),
    s.mode = some m → exec (legacyInstr true w p x reg rm) s = .next t →
    let d := regNum5 m false (rexFields x).r reg
    (t.vreg d).extractLsb' 128 384 = (s.vreg d).extractLsb' 128 384 ∧
    (∀ (r : BitVec 3) (e : BitVec 5) (y : VReg) (t' : State), rm = .reg r → y.setWidth 128 = (s.vreg e).setWidth 128 →
      exec (legacyInstr true w p x reg rm) (s.setVreg e y) = .next t' →
      (t'.vreg d).setWidth 128 = (t.vreg d).setWidth 128)

/-- 42_vpaddus_evex.md R139: an EVEX form that completes leaves zeros from its vector length up, under both kinds of
masking and with any mask; with an all-zero mask and merging the bits below are unchanged. -/
def Obligations.Evex_zeroes_upper_bits : Prop :=
  ∀ (vl : EvexLen) (w : Bool) (p : Prefixes) (v : Evex) (reg : BitVec 3) (rm : RegMem) (s t : State) (m : Mode),
    s.mode = some m → exec (evexInstr vl w p v reg rm) s = .next t →
    let d := regNum5 m v.rHi v.r reg
    let N := (evexInstr vl w p v reg rm).vectorBits
    t.vreg d >>> N = 0#512 ∧
    (v.aaa ≠ 0#3 → v.z = false → s.mask v.aaa = 0#64 → (t.vreg d).setWidth N = (s.vreg d).setWidth N)

/-- 42_vpaddus_evex.md R131: only bits KL-1:0 of the mask register are looked at, KL being the number of lanes: a form that
completes, with a register or a memory operand, completes under any mask that agrees on them, with the same vector
registers; the mask register is not modified. -/
def Obligations.Mask_bits_above_lanes_ignored : Prop :=
  ∀ (vl : EvexLen) (w : Bool) (p : Prefixes) (v : Evex) (reg : BitVec 3) (rm : RegMem) (s t : State)
    (k : Vector Word64 8),
    let i := evexInstr vl w p v reg rm
    (∀ j < i.vectorBits / i.laneBits, (s.mask v.aaa).getLsbD j = (k.get v.aaa.toFin).getLsbD j) →
    exec i s = .next t → t.k = s.k ∧ ∃ t', exec i { s with k := k } = .next t' ∧ t'.v = t.v ∧ t'.k = k

/-- 41_vpaddus_vex.md section 3 (its own inference, R126): on the same operands `VPADDUSB xmm1, xmm1, xmm2/m128`, in either
prefix, and the legacy `PADDUSB xmm1, xmm2/m128` give the same low 128 bits; the VEX form zeroes the bits above, the
legacy form keeps them. Likewise for words. A memory operand is one both place alike, in memory private to the
program. -/
def Obligations.Vex_agrees_with_legacy : Prop :=
  ∀ (w : Bool) (p : Prefixes) (x : Option Rex) (v : Vex3) (reg : BitVec 3) (rm : RegMem) (s t u : State) (m : Mode)
    (j : Instr),
    let i := legacyInstr true w p x reg rm
    (j = vex3Instr false w p v reg rm ∨ ∃ v2 : Vex2, v2.wide = v ∧ j = vex2Instr false w p v2 reg rm) →
    s.mode = some m → v.r = (rexFields x).r →
    (∀ r, rm = .reg r → v.b = (rexFields x).b) →
    (∀ a, rm = .mem a → s.operandPlace m i a = s.operandPlace m j a ∧ s.Private m (s.operandPlace m i a)) →
    let d := regNum5 m false v.r reg
    vvvvNum m false v.vvvv = d →
    exec i s = .next t → exec j s = .next u →
    (u.vreg d).setWidth 128 = (t.vreg d).setWidth 128 ∧ u.vreg d >>> 128 = 0#512 ∧
      t.vreg d >>> 128 = s.vreg d >>> 128

/-- 42_vpaddus_evex.md section 3 (its own inference, R141): with no writemask and registers below 16 an EVEX form at
128 or 256 bits and the VEX form of the same mnemonic and length, in either prefix, leave the same vector registers, on
all bits. A memory operand is one both place alike, in memory private to the program. -/
def Obligations.Evex_agrees_with_vex : Prop :=
  ∀ (l w : Bool) (p : Prefixes) (v : Vex3) (e : Evex) (reg : BitVec 3) (rm : RegMem) (s t u : State) (m : Mode)
    (i : Instr),
    let j := evexInstr (if l then .vl256 else .vl128) w p e reg rm
    (i = vex3Instr l w p v reg rm ∨ ∃ v2 : Vex2, v2.wide = v ∧ i = vex2Instr l w p v2 reg rm) →
    s.mode = some m → e.aaa = 0#3 → e.r = v.r → e.vvvv = v.vvvv → e.rHi = false → e.vHi = false →
    (∀ r, rm = .reg r → e.b = v.b ∧ e.x = false) →
    (∀ a, rm = .mem a → s.operandPlace m i a = s.operandPlace m j a ∧ s.Private m (s.operandPlace m i a)) →
    exec i s = .next t → exec j s = .next u →
    u.v = t.v

/-- 40_paddus_legacy.md R115: a completed MMX form has `TOP = 0`, all tags valid, ones in bits 79:64 of the register
written, whose bits 63:0 are the new `mm[d]`; every other x87 register, the source among them, keeps all its bits, and
the status word its other bits. A form that faults has none of these effects. -/
def Obligations.Mmx_x87_side_effects : Prop :=
  ∀ (w : Bool) (p : Prefixes) (x : Option Rex) (reg : BitVec 3) (rm : RegMem) (s : State),
    (∀ t, exec (legacyInstr false w p x reg rm) s = .next t →
      t.top = 0#3 ∧ t.ftw = 0#16 ∧ t.fpr.get reg.toFin = 0xFFFF#16 ++ t.mm reg ∧
      (∀ k, ¬ (11 ≤ k ∧ k ≤ 13) → t.fsw.getLsbD k = s.fsw.getLsbD k) ∧
      (∀ e : BitVec 3, e ≠ reg → t.fpr.get e.toFin = s.fpr.get e.toFin)) ∧
    (∀ f, exec (legacyInstr false w p x reg rm) s = .fault f →
      f.after.fpr = s.fpr ∧ f.after.fsw = s.fsw ∧ f.after.ftw = s.ftw)

/-! ### Register numbers and addresses -/

/-- 30_encoding.md R96 to R98, R21: register numbers put together from extension bits and fields; in 32-bit mode only
registers 0 to 7 are reached. -/
def Obligations.Register_numbers : Prop :=
  ∀ (h e : Bool) (n : BitVec 3) (vv : BitVec 4),
    (regNum5 .m64 h e n).toNat = 16 * h.toNat + 8 * e.toNat + n.toNat ∧ (regNum5 .m32 h e n).toNat = n.toNat ∧
    (regNum4 .m64 e n).toNat = 8 * e.toNat + n.toNat ∧ (regNum4 .m32 e n).toNat = n.toNat ∧
    (vvvvNum .m64 h vv).toNat = 16 * h.toNat + vv.toNat ∧ (vvvvNum .m32 h vv).toNat = vv.toNat % 8

/-- 30_encoding.md R78, R81, R77, R91: 32- and 64-bit addressing, in both modes and with and without 67: with `r(n)` a
register truncated to the address size, an operand without a SIB byte (other than `mod = 00, r/m = 101`) is base plus
displacement; with a SIB byte it is base, scaled index and displacement; with `base = 101` and `mod = 00` there is no
base. A one-byte displacement is multiplied by the form's factor; index 4 (X = 0) is no index and 12 is one; extension
bits count in 64-bit mode only; the sum is truncated to the address size; rSP and rBP as base, and no other register,
take SS. -/
def Obligations.Effective_address_base_index : Prop :=
  ∀ (s : State) (c : AddrCtx) (mod : BitVec 2) (rm : BitVec 3) (sb : Sib) (d : Disp), c.mode.addr16 c.a67 = false →
    let cut := fun y : Word64 => if c.mode = .m64 ∧ c.a67 = false then y else BitVec.setWidth 64 (y.setWidth 32)
    let num : Bool → BitVec 3 → BitVec 4 := fun e n => BitVec.ofBool (c.mode == .m64 && e) ++ n
    let disp : Word64 := match d with
      | .none => 0#64
      | .disp8 b => b.signExtend 64 * BitVec.ofNat 64 c.scale
      | .disp16 b => b.signExtend 64
      | .disp32 b => b.signExtend 64
    let index := if num c.xb sb.index = 4#4 then 0#64
      else cut (s.gpr (num c.xb sb.index)) * BitVec.ofNat 64 (2 ^ sb.scale.toNat)
    (¬ (mod = 0#2 ∧ rm = 5#3) →
      s.effAddr c ⟨mod, rm, none, d⟩ =
        ⟨cut (cut (s.gpr (num c.bb rm)) + disp), num c.bb rm == 4#4 || num c.bb rm == 5#4⟩) ∧
    (¬ (mod = 0#2 ∧ sb.base = 5#3) →
      s.effAddr c ⟨mod, 4#3, some sb, d⟩ =
        ⟨cut (cut (s.gpr (num c.bb sb.base)) + index + disp), num c.bb sb.base == 4#4 || num c.bb sb.base == 5#4⟩) ∧
    (mod = 0#2 → sb.base = 5#3 → s.effAddr c ⟨mod, 4#3, some sb, d⟩ = ⟨cut (index + disp), false⟩)

/-- 30_encoding.md R79, R80: 16-bit addressing, in 32-bit mode with a 67 prefix: the eight rows of the table, with a
one-byte and a two-byte displacement and without one, and the default segment SS where BP is used. -/
def Obligations.Effective_address_16_bit : Prop :=
  ∀ (s : State) (c : AddrCtx) (d : BitVec 8) (e : BitVec 16), c.mode = .m32 → c.a67 = true →
    let bx := (s.gpr 3#4).setWidth 16
    let bp := (s.gpr 5#4).setWidth 16
    let si := (s.gpr 6#4).setWidth 16
    let di := (s.gpr 7#4).setWidth 16
    let sum : BitVec 3 → BitVec 16 × Bool := fun rm =>
      if rm = 0#3 then (bx + si, false) else if rm = 1#3 then (bx + di, false)
      else if rm = 2#3 then (bp + si, true) else if rm = 3#3 then (bp + di, true)
      else if rm = 4#3 then (si, false) else if rm = 5#3 then (di, false)
      else if rm = 6#3 then (bp, true) else (bx, false)
    (∀ rm, s.effAddr c ⟨1#2, rm, none, .disp8 d⟩ =
      ⟨((sum rm).1 + d.signExtend 16).setWidth 64, (sum rm).2⟩) ∧
    (∀ rm, s.effAddr c ⟨2#2, rm, none, .disp16 e⟩ = ⟨((sum rm).1 + e).setWidth 64, (sum rm).2⟩) ∧
    (∀ rm, rm ≠ 6#3 → s.effAddr c ⟨0#2, rm, none, .none⟩ = ⟨(sum rm).1.setWidth 64, (sum rm).2⟩) ∧
    s.effAddr c ⟨0#2, 6#3, none, .disp16 e⟩ = ⟨e.setWidth 64, false⟩

/-- 30_encoding.md R82: RIP-relative addressing counts from the next instruction; with a 67 prefix the sum is
truncated to 32 bits; its segment is not SS. In 32-bit mode the same bytes are an absolute displacement (R78). -/
def Obligations.Effective_address_rip_relative : Prop :=
  ∀ (s : State) (c : AddrCtx) (d : BitVec 32),
    let e := s.effAddr c ⟨0#2, 5#3, none, .disp32 d⟩
    (c.mode = .m64 → c.a67 = false →
      e = ⟨s.pc + BitVec.ofNat 64 c.len + d.signExtend 64, false⟩) ∧
    (c.mode = .m64 → c.a67 = true →
      e = ⟨((s.pc + BitVec.ofNat 64 c.len + d.signExtend 64).setWidth 32).setWidth 64, false⟩) ∧
    (c.mode = .m32 → c.a67 = false → e = ⟨d.setWidth 64, false⟩)

/-- 20_memory.md R54, R55, R56, 30_encoding.md R81: an operand lies in the segment its override names, else in SS where its
base is rSP or rBP and in DS otherwise; in 64-bit mode the bases of CS, SS, DS, ES do not count and those
of FS and GS do, modulo 2^64; in 32-bit mode the sum is modulo 2^32 (FS and GS with their base:
notes/assumptions/17.md); an address is canonical exactly when its bits from LA_BITS-1 up are equal. -/
def Obligations.Linear_address : Prop :=
  ∀ (s : State) (ea : Word64),
    (∀ (c : AddrCtx) (ov : Option SegName) (a : MemAddr) (n : Nat),
      let q := s.place c ov a n
      (∀ g, ov = some g → q.seg = g) ∧
      (ov = none → (q.seg = .ss ↔ (s.effAddr c a).stack = true) ∧ (q.seg = .ds ↔ (s.effAddr c a).stack = false)) ∧
      q.lin = s.linAddr c.mode q.seg (s.effAddr c a).ea) ∧
    (∀ n ∈ [SegName.cs, SegName.ss, SegName.ds, SegName.es], s.linAddr .m64 n ea = ea) ∧
    s.linAddr .m64 .fs ea = s.segs.fs.base + ea ∧ s.linAddr .m64 .gs ea = s.segs.gs.base + ea ∧
    (∀ n, (s.linAddr .m32 n ea).toNat = (s.segBase n + ea).toNat % 2 ^ 32) ∧
    (∀ (la : LaBits) (a : Word64), canonical .m64 la a = true ↔
      ∀ j, la.toNat - 1 ≤ j → j < 64 → a.getLsbD j = a.getLsbD 63)

/-! ### Reset -/

/-- 10_state.md R39: the values the table gives for power-up or RESET. EAX is 0 as after a passed self test, and RDX is
stated only as far as `000n06xxH` goes (notes/assumptions/4.md); values the model chose (notes/assumptions/3.md, 5.md,
6.md) are not stated here. -/
def Obligations.Reset_values : Prop :=
  (∀ i : BitVec 5, State.reset.vreg i = 0#512) ∧ (∀ i : BitVec 3, State.reset.mask i = 0#64) ∧
  (∀ i : BitVec 3, State.reset.mm i = 0#64 ∧ State.reset.fpr.get i.toFin = 0#80) ∧
  State.reset.ftw = 0x5555#16 ∧ State.reset.fsw = 0#16 ∧ State.reset.fcw = 0x0040#16 ∧ State.reset.mxcsr = 0x1F80#32 ∧
  (∀ i : BitVec 4, i ≠ 2#4 → State.reset.gpr i = 0#64) ∧ State.reset.gpr 2#4 &&& 0xFFFFFFFFFFF0FF00#64 = 0x600#64 ∧
  State.reset.rflags = 0x2#64 ∧ State.reset.pc = 0xFFF0#64 ∧ State.reset.segs.cs.selector = 0xF000#16 ∧
  State.reset.segs.cs.base = 0xFFFF0000#64 ∧ State.reset.segs.cs.limit = 0xFFFF#32 ∧
  (∀ n ∈ [SegName.ss, SegName.ds, SegName.es, SegName.fs, SegName.gs],
    (State.reset.segs.get n).selector = 0#16 ∧ (State.reset.segs.get n).base = 0#64 ∧
      (State.reset.segs.get n).limit = 0xFFFF#32) ∧
  State.reset.cr0 = 0x60000010#64 ∧ State.reset.cr2 = 0#64 ∧ State.reset.cr3 = 0#64 ∧ State.reset.cr4 = 0#64 ∧
  State.reset.xcr0 = 1#64 ∧ State.reset.efer = 0#64 ∧ State.reset.cpl = 0#2

/-! ### Refusals of 32-bit mode -/

/-- D7 (the spec's own decision; R55): in 32-bit mode a memory operand of any row is refused when its segment (R81) is
null, not present, not readable, has a limit other than FFFFFFFFH or, but for FS and GS (notes/assumptions/17.md), a
base other than 0; and when the segment is flat and the operand passes 2^32. That only the segments an instruction
uses must be flat in 32-bit mode, asked where it uses them, is the model's choice (notes/assumptions/38.md). -/
def Obligations.Operand_refusals_in_32_bit_mode : Prop :=
  ∀ (i : Instr) (a : MemAddr) (s : State), i.regMem = .mem a → s.mode = some .m32 → s.Enabled i →
    (i.formClass = .vex ∨ i.formClass = .evex → i.prefixes.a67 = false) →
    let e := s.effAddr (instrCtx .m32 i) a
    let n := operandSegment i.prefixes.seg e.stack
    let r := s.segs.get n
    let flat := r.selector.extractLsb' 2 14 ≠ 0#14 ∧ r.present = true ∧ r.readable = true ∧ r.limit = 0xFFFFFFFF#32 ∧
      (n = .fs ∨ n = .gs ∨ r.base = 0#64)
    (¬ flat → exec i s = .refused .nonFlatSegment) ∧
    (flat → 2 ^ 32 < e.ea.toNat + i.vectorBits / 8 → exec i s = .refused .operandWraps)

/-- D14, D16 (the spec's own decisions; R79, R86, R88): in 32-bit mode, after any segment override and 67: `C4`, `C5` and
`62` are another instruction unless bits 7:6 of the next byte are 11; `C4` with B or the top bit of vvvv, and `62` with
B, R', V' or the top bit of vvvv, not in their inverted-1 state are refused; and a memory operand of a VEX or EVEX form
with 67 is refused. -/
def Obligations.Decoder_refusals_in_32_bit_mode : Prop :=
  (∀ (p : Prefixes) (b next : Byte) (rest : List Byte), b ∈ [0xC4#8, 0xC5#8, 0x62#8] → next.extractLsb' 6 2 ≠ 3#2 →
    decode .m32 (encodePrefixes p ++ b :: next :: rest) = .reject .otherInstruction) ∧
  (∀ (p : Prefixes) (v1 v2 opc : Byte) (rest : List Byte), v1.extractLsb' 6 2 = 3#2 →
    v1.getLsbD 5 = false ∨ v2.getLsbD 6 = false →
    decode .m32 (encodePrefixes p ++ 0xC4#8 :: v1 :: v2 :: opc :: rest) = .reject .extensionBitsIn32) ∧
  (∀ (p : Prefixes) (p0 p1 p2 opc : Byte) (rest : List Byte), p0.extractLsb' 6 2 = 3#2 →
    p0.getLsbD 5 = false ∨ p0.getLsbD 4 = false ∨ p1.getLsbD 6 = false ∨ p2.getLsbD 3 = false →
    decode .m32 (encodePrefixes p ++ 0x62#8 :: p0 :: p1 :: p2 :: opc :: rest) = .reject .extensionBitsIn32) ∧
  (∀ (l w : Bool) (vl : EvexLen) (seg : Option SegName) (v2 : Vex2) (v3 : Vex3) (v : Evex) (reg : BitVec 3) (a : MemAddr)
    (rest : List Byte) (f : RegMem → Instr),
    f ∈ [vex2Instr l w ⟨seg, true⟩ v2 reg, vex3Instr l w ⟨seg, true⟩ v3 reg, evexInstr vl w ⟨seg, true⟩ v reg] →
    (f (.reg 0#3)).wellFormed .m32 = true → a.mod ≠ 3#2 →
    decode .m32 (encode (f (.mem a)) ++ rest) = .reject .addressing16Vex)
end

