-- ==== Sys2Proof/Laws/Lanes.lean ====
section
/-! SUPPORT. Laws of lanes and of saturation (00_scope.md R9 to R11): what each lane of a built vector holds. -/

namespace Sys2Proof.Machine

/-- Bit `i` of a vector built from lanes: bit `i % w` of lane `i / w`. -/
theorem ofLanes_getLsbD (w N : Nat) (f : Nat → BitVec w) (k i : Nat) (hw : 0 < w) :
    (ofLanes w N f k).getLsbD i = (decide (i < w * k) && decide (i < N) && (f (i / w)).getLsbD (i % w)) := by
  induction k with
  | zero => simp [ofLanes]
  | succ k ih =>
    simp only [ofLanes, BitVec.getLsbD_or, ih, BitVec.getLsbD_shiftLeft, BitVec.getLsbD_setWidth]
    by_cases hN : i < N
    · by_cases hlow : i < w * k
      · have hlt : i < w * (k + 1) := by rw [Nat.mul_succ]; omega
        simp [hN, hlow, hlt]
      · by_cases hhi : i < w * (k + 1)
        · have hlt : i - w * k < w := by rw [Nat.mul_succ] at hhi; omega
          have hdiv : i / w = k := by
            apply Nat.div_eq_of_lt_le
            · rw [Nat.mul_comm]; omega
            · rw [Nat.mul_comm]; exact hhi
          have hmod : i % w = i - w * k := by
            have := Nat.div_add_mod i w
            rw [hdiv] at this
            omega
          have hN' : i - w * k < N := by omega
          simp [hN, hlow, hhi, hdiv, hmod, hN']
        · have : w ≤ i - w * k := by rw [Nat.mul_succ] at hhi; omega
          simp [hN, hlow, hhi, BitVec.getLsbD_of_ge _ _ this]
    · simp [hN]

/-- Lane `j` of a vector built from lanes is the lane given. -/
theorem lane_ofLanes (w N : Nat) (f : Nat → BitVec w) (k j : Nat) (hw : 0 < w) (hj : j < k) (hN : w * k ≤ N) :
    lane w (ofLanes w N f k) j = f j := by
  apply BitVec.eq_of_getLsbD_eq
  intro i hi
  have h1 : w * j + i < w * (j + 1) := by rw [Nat.mul_succ]; omega
  have h2 : w * (j + 1) ≤ w * k := Nat.mul_le_mul_left w hj
  have hdiv : (w * j + i) / w = j := by
    rw [Nat.mul_add_div hw, Nat.div_eq_of_lt hi, Nat.add_zero]
  have hmod : (w * j + i) % w = i := by
    rw [Nat.mul_add_mod, Nat.mod_eq_of_lt hi]
  have h3 : w * j + i < w * k := by omega
  have h4 : w * j + i < N := by omega
  rw [lane, BitVec.getLsbD_extractLsb', ofLanes_getLsbD _ _ _ _ _ hw, hdiv, hmod]
  simp [h3, h4, hi]

/-- Two vectors of whole lanes are equal when their lanes are. -/
theorem eq_of_lanes (w N : Nat) (hw : 0 < w) (hN : w * (N / w) = N) (A B : BitVec N)
    (h : ∀ j < N / w, lane w A j = lane w B j) : A = B := by
  apply BitVec.eq_of_getLsbD_eq
  intro i hi
  have hj : i / w < N / w := by
    apply Nat.div_lt_of_lt_mul
    omega
  have hb := congrArg (fun X : BitVec w => X.getLsbD (i % w)) (h _ hj)
  have hm : i % w < w := Nat.mod_lt _ hw
  simpa [lane, BitVec.getLsbD_extractLsb', hm, Nat.div_add_mod] using hb

/-- The saturated value as a number: the smaller of the sum and the greatest lane value (R9, R10, R12 (a)). -/
theorem satU_toNat (w n : Nat) : (satU w n).toNat = min n (2 ^ w - 1) := by
  unfold satU
  have := Nat.two_pow_pos w
  split
  · rw [BitVec.toNat_ofNat, Nat.mod_eq_of_lt (by omega)]; omega
  · rw [BitVec.toNat_allOnes]; omega

/-- Lane `j` of `AddUS_w` (R11). -/
theorem lane_addUS (w N : Nat) (A B : BitVec N) (j : Nat) (hw : 0 < w) (hj : j < N / w) :
    lane w (addUS w N A B) j = addSat w A B j :=
  lane_ofLanes w N _ _ j hw hj (Nat.mul_div_le N w)

/-- Lane `j` of `AddUS_w` as a number (R12 (a)). -/
theorem lane_addUS_toNat (w N : Nat) (A B : BitVec N) (j : Nat) (hw : 0 < w) (hj : j < N / w) :
    (lane w (addUS w N A B) j).toNat = min ((lane w A j).toNat + (lane w B j).toNat) (2 ^ w - 1) := by
  rw [lane_addUS w N A B j hw hj, addSat, satU_toNat]

/-- Lane `j` of the masked sum (R132). -/
theorem lane_evexAddUS (w N : Nat) (aaa : BitVec 3) (z : Bool) (mask : Word64) (old A B : BitVec N) (j : Nat)
    (hw : 0 < w) (hj : j < N / w) :
    lane w (evexAddUS w N aaa z mask old A B) j =
      if laneActive aaa mask j then addSat w A B j else if z then 0#w else lane w old j :=
  lane_ofLanes w N _ _ j hw hj (Nat.mul_div_le N w)

end Sys2Proof.Machine
end

