-- ==== Sys2Proof/Laws/Memory.lean ====
section
/-! SUPPORT. Laws of memory: a read after a write, and the canonical form every operation keeps. -/

namespace Sys2Proof.Machine

/-- A list above a bound is above every smaller bound. -/
theorem memWfAbove_weaken (lo lo' : Nat) (m : List Host.Cell) (h : memWfAbove (some lo) m = true) (hl : lo' ≤ lo) :
    memWfAbove (some lo') m = true := by
  cases m with
  | nil => rfl
  | cons c rest =>
    simp only [memWfAbove, aboveBound, Bool.and_eq_true, decide_eq_true_eq] at h ⊢
    exact ⟨⟨by omega, h.1.2⟩, h.2⟩

/-- A list above a bound, without the bound. -/
theorem memWfAbove_none (lo : Nat) (m : List Host.Cell) (h : memWfAbove (some lo) m = true) :
    memWfAbove none m = true := by
  cases m with
  | nil => rfl
  | cons c rest =>
    simp only [memWfAbove, Bool.and_eq_true] at h ⊢
    exact ⟨⟨rfl, h.1.2⟩, h.2⟩

/-- Below the bound nothing is listed. -/
theorem memRead_below (lo : Nat) (m : List Host.Cell) (h : memWfAbove (some lo) m = true) (a : Nat) (ha : a ≤ lo) :
    memRead m a = defaultByte := by
  induction m generalizing lo with
  | nil => rfl
  | cons c rest ih =>
    simp only [memWfAbove, aboveBound, Bool.and_eq_true, decide_eq_true_eq] at h
    have : a ≠ c.1 := by omega
    simp only [memRead, this, if_false]
    exact ih c.1 h.2 (by omega)

/-- A write keeps a list above a bound that its address is above. -/
theorem memWrite_wfAbove (lo : Option Nat) (m : List Host.Cell) (a : Nat) (x : Byte) (h : memWfAbove lo m = true)
    (ha : aboveBound lo a = true) : memWfAbove lo (memWrite m a x) = true := by
  induction m generalizing lo with
  | nil => by_cases hx : x = defaultByte <;> simp [memWrite, memWfAbove, hx, ha]
  | cons c rest ih =>
    obtain ⟨b, y⟩ := c
    have h0 := h
    simp only [memWfAbove, Bool.and_eq_true] at h0
    obtain ⟨⟨h1, h2⟩, h3⟩ := h0
    by_cases h4 : a < b
    · by_cases hx : x = defaultByte
      · simpa [memWrite, h4, hx] using h
      · have h6 : aboveBound (some a) b = true := by simpa [aboveBound] using h4
        simp [memWrite, h4, hx, memWfAbove, ha, h3, h2, h6]
    · by_cases h5 : a = b
      · subst h5
        by_cases hx : x = defaultByte
        · have goal : memWfAbove lo rest = true := by
            cases lo with
            | none => exact memWfAbove_none a rest h3
            | some l => exact memWfAbove_weaken a l rest h3 (by simp [aboveBound] at ha; omega)
          simpa [memWrite, hx] using goal
        · simp [memWrite, hx, memWfAbove, ha, h3]
      · have h6 := ih (some b) h3 (by simp [aboveBound]; omega)
        simp [memWrite, h4, h5, memWfAbove, h1, h2, h6]

/-- A write keeps the canonical form. -/
theorem memWrite_wf (m : List Host.Cell) (a : Nat) (x : Byte) (h : Memory.wf m = true) :
    Memory.wf (memWrite m a x) = true :=
  memWrite_wfAbove none m a x h rfl

/-- The empty memory is in canonical form. -/
theorem memory_wf_nil : Memory.wf [] = true := rfl

/-- Memory after reset is in canonical form. -/
theorem reset_mem_wf : Memory.wf State.reset.mem = true := rfl

/-- A read after a write: the byte written at its address, elsewhere what was there. -/
theorem memRead_memWrite (m : List Host.Cell) (a : Nat) (x : Byte) (h : Memory.wf m = true) (b : Nat) :
    memRead (memWrite m a x) b = if b = a then x else memRead m b := by
  unfold Memory.wf at h
  induction m with
  | nil =>
    by_cases hx : x = defaultByte <;> by_cases hb : b = a <;> simp [memWrite, memRead, hx, hb]
  | cons c rest ih =>
    obtain ⟨d, y⟩ := c
    simp only [memWfAbove, Bool.and_eq_true] at h
    have h3 := h.2
    by_cases h4 : a < d
    · by_cases hx : x = defaultByte
      · by_cases hb : b = a
        · have h6 : b ≠ d := by omega
          simp [memWrite, memRead, h4, hx, hb, show a ≠ d by omega, memRead_below d rest h3 a (by omega)]
        · simp [memWrite, memRead, h4, hx, hb]
      · by_cases hb : b = a <;> simp [memWrite, memRead, h4, hx, hb]
    · by_cases h5 : a = d
      · subst h5
        by_cases hx : x = defaultByte
        · by_cases hb : b = a
          · simp [memWrite, hx, hb, memRead_below a rest h3 a (by omega)]
          · simp [memWrite, memRead, hx, hb]
        · by_cases hb : b = a <;> simp [memWrite, memRead, hx, hb]
      · have h7 := ih (memWfAbove_none d rest h3)
        by_cases hb : b = d
        · simp [memWrite, memRead, h4, h5, hb, show d ≠ a by omega]
        · simp [memWrite, memRead, h4, h5, hb, h7]

/-- Placing code keeps the canonical form. -/
theorem placeCode_wf (s : State) (m : Mode) (bs : List Byte) (i : Nat) (h : Memory.wf s.mem = true) :
    Memory.wf (s.placeCode m bs i).mem = true := by
  induction bs generalizing s i with
  | nil => exact h
  | cons b bs ih =>
    unfold State.placeCode
    split
    · exact ih s (i + 1) h
    · exact ih _ (i + 1) (memWrite_wf s.mem _ b h)

end Sys2Proof.Machine
end

