-- ==== Sys2Proof/Laws/State.lean ====
section
/-! SUPPORT. Small lemmas about State: one per field per update, and the register views after a write. -/

namespace Sys2Proof.Machine

/-! ### Fields an update leaves alone -/

@[simp] theorem setVreg_fpr (s : State) (i : BitVec 5) (y : VReg) : (s.setVreg i y).fpr = s.fpr := rfl
@[simp] theorem setVreg_fsw (s : State) (i : BitVec 5) (y : VReg) : (s.setVreg i y).fsw = s.fsw := rfl
@[simp] theorem setVreg_ftw (s : State) (i : BitVec 5) (y : VReg) : (s.setVreg i y).ftw = s.ftw := rfl
@[simp] theorem setVreg_fcw (s : State) (i : BitVec 5) (y : VReg) : (s.setVreg i y).fcw = s.fcw := rfl
@[simp] theorem setVreg_mxcsr (s : State) (i : BitVec 5) (y : VReg) : (s.setVreg i y).mxcsr = s.mxcsr := rfl
@[simp] theorem setVreg_k (s : State) (i : BitVec 5) (y : VReg) : (s.setVreg i y).k = s.k := rfl
@[simp] theorem setVreg_x (s : State) (i : BitVec 5) (y : VReg) : (s.setVreg i y).x = s.x := rfl
@[simp] theorem setVreg_pc (s : State) (i : BitVec 5) (y : VReg) : (s.setVreg i y).pc = s.pc := rfl
@[simp] theorem setVreg_rflags (s : State) (i : BitVec 5) (y : VReg) : (s.setVreg i y).rflags = s.rflags := rfl
@[simp] theorem setVreg_segs (s : State) (i : BitVec 5) (y : VReg) : (s.setVreg i y).segs = s.segs := rfl
@[simp] theorem setVreg_cr0 (s : State) (i : BitVec 5) (y : VReg) : (s.setVreg i y).cr0 = s.cr0 := rfl
@[simp] theorem setVreg_cr2 (s : State) (i : BitVec 5) (y : VReg) : (s.setVreg i y).cr2 = s.cr2 := rfl
@[simp] theorem setVreg_cr3 (s : State) (i : BitVec 5) (y : VReg) : (s.setVreg i y).cr3 = s.cr3 := rfl
@[simp] theorem setVreg_cr4 (s : State) (i : BitVec 5) (y : VReg) : (s.setVreg i y).cr4 = s.cr4 := rfl
@[simp] theorem setVreg_xcr0 (s : State) (i : BitVec 5) (y : VReg) : (s.setVreg i y).xcr0 = s.xcr0 := rfl
@[simp] theorem setVreg_efer (s : State) (i : BitVec 5) (y : VReg) : (s.setVreg i y).efer = s.efer := rfl
@[simp] theorem setVreg_mem (s : State) (i : BitVec 5) (y : VReg) : (s.setVreg i y).mem = s.mem := rfl
@[simp] theorem setVreg_platform (s : State) (i : BitVec 5) (y : VReg) : (s.setVreg i y).platform = s.platform := rfl
@[simp] theorem setVreg_draws (s : State) (i : BitVec 5) (y : VReg) : (s.setVreg i y).draws = s.draws := rfl

@[simp] theorem writeMm_v (s : State) (d : BitVec 3) (y : Word64) : (s.writeMm d y).v = s.v := rfl
@[simp] theorem writeMm_fcw (s : State) (d : BitVec 3) (y : Word64) : (s.writeMm d y).fcw = s.fcw := rfl
@[simp] theorem writeMm_mxcsr (s : State) (d : BitVec 3) (y : Word64) : (s.writeMm d y).mxcsr = s.mxcsr := rfl
@[simp] theorem writeMm_k (s : State) (d : BitVec 3) (y : Word64) : (s.writeMm d y).k = s.k := rfl
@[simp] theorem writeMm_x (s : State) (d : BitVec 3) (y : Word64) : (s.writeMm d y).x = s.x := rfl
@[simp] theorem writeMm_pc (s : State) (d : BitVec 3) (y : Word64) : (s.writeMm d y).pc = s.pc := rfl
@[simp] theorem writeMm_rflags (s : State) (d : BitVec 3) (y : Word64) : (s.writeMm d y).rflags = s.rflags := rfl
@[simp] theorem writeMm_segs (s : State) (d : BitVec 3) (y : Word64) : (s.writeMm d y).segs = s.segs := rfl
@[simp] theorem writeMm_cr0 (s : State) (d : BitVec 3) (y : Word64) : (s.writeMm d y).cr0 = s.cr0 := rfl
@[simp] theorem writeMm_cr2 (s : State) (d : BitVec 3) (y : Word64) : (s.writeMm d y).cr2 = s.cr2 := rfl
@[simp] theorem writeMm_cr3 (s : State) (d : BitVec 3) (y : Word64) : (s.writeMm d y).cr3 = s.cr3 := rfl
@[simp] theorem writeMm_cr4 (s : State) (d : BitVec 3) (y : Word64) : (s.writeMm d y).cr4 = s.cr4 := rfl
@[simp] theorem writeMm_xcr0 (s : State) (d : BitVec 3) (y : Word64) : (s.writeMm d y).xcr0 = s.xcr0 := rfl
@[simp] theorem writeMm_efer (s : State) (d : BitVec 3) (y : Word64) : (s.writeMm d y).efer = s.efer := rfl
@[simp] theorem writeMm_mem (s : State) (d : BitVec 3) (y : Word64) : (s.writeMm d y).mem = s.mem := rfl
@[simp] theorem writeMm_platform (s : State) (d : BitVec 3) (y : Word64) : (s.writeMm d y).platform = s.platform := rfl
@[simp] theorem writeMm_draws (s : State) (d : BitVec 3) (y : Word64) : (s.writeMm d y).draws = s.draws := rfl

@[simp] theorem advance_v (s : State) (m : Mode) (len : Nat) : (s.advance m len).v = s.v := rfl
@[simp] theorem advance_fpr (s : State) (m : Mode) (len : Nat) : (s.advance m len).fpr = s.fpr := rfl
@[simp] theorem advance_fsw (s : State) (m : Mode) (len : Nat) : (s.advance m len).fsw = s.fsw := rfl
@[simp] theorem advance_ftw (s : State) (m : Mode) (len : Nat) : (s.advance m len).ftw = s.ftw := rfl
@[simp] theorem advance_fcw (s : State) (m : Mode) (len : Nat) : (s.advance m len).fcw = s.fcw := rfl
@[simp] theorem advance_mxcsr (s : State) (m : Mode) (len : Nat) : (s.advance m len).mxcsr = s.mxcsr := rfl
@[simp] theorem advance_k (s : State) (m : Mode) (len : Nat) : (s.advance m len).k = s.k := rfl
@[simp] theorem advance_x (s : State) (m : Mode) (len : Nat) : (s.advance m len).x = s.x := rfl
@[simp] theorem advance_rflags (s : State) (m : Mode) (len : Nat) : (s.advance m len).rflags = s.rflags := rfl
@[simp] theorem advance_segs (s : State) (m : Mode) (len : Nat) : (s.advance m len).segs = s.segs := rfl
@[simp] theorem advance_cr0 (s : State) (m : Mode) (len : Nat) : (s.advance m len).cr0 = s.cr0 := rfl
@[simp] theorem advance_cr2 (s : State) (m : Mode) (len : Nat) : (s.advance m len).cr2 = s.cr2 := rfl
@[simp] theorem advance_cr3 (s : State) (m : Mode) (len : Nat) : (s.advance m len).cr3 = s.cr3 := rfl
@[simp] theorem advance_cr4 (s : State) (m : Mode) (len : Nat) : (s.advance m len).cr4 = s.cr4 := rfl
@[simp] theorem advance_xcr0 (s : State) (m : Mode) (len : Nat) : (s.advance m len).xcr0 = s.xcr0 := rfl
@[simp] theorem advance_efer (s : State) (m : Mode) (len : Nat) : (s.advance m len).efer = s.efer := rfl
@[simp] theorem advance_mem (s : State) (m : Mode) (len : Nat) : (s.advance m len).mem = s.mem := rfl
@[simp] theorem advance_platform (s : State) (m : Mode) (len : Nat) : (s.advance m len).platform = s.platform := rfl
@[simp] theorem advance_draws (s : State) (m : Mode) (len : Nat) : (s.advance m len).draws = s.draws := rfl

@[simp] theorem afterRead_v (s : State) (m : Mode) (p : Place) : (s.afterRead m p).v = s.v := rfl
@[simp] theorem afterRead_fpr (s : State) (m : Mode) (p : Place) : (s.afterRead m p).fpr = s.fpr := rfl
@[simp] theorem afterRead_fsw (s : State) (m : Mode) (p : Place) : (s.afterRead m p).fsw = s.fsw := rfl
@[simp] theorem afterRead_ftw (s : State) (m : Mode) (p : Place) : (s.afterRead m p).ftw = s.ftw := rfl
@[simp] theorem afterRead_fcw (s : State) (m : Mode) (p : Place) : (s.afterRead m p).fcw = s.fcw := rfl
@[simp] theorem afterRead_mxcsr (s : State) (m : Mode) (p : Place) : (s.afterRead m p).mxcsr = s.mxcsr := rfl
@[simp] theorem afterRead_k (s : State) (m : Mode) (p : Place) : (s.afterRead m p).k = s.k := rfl
@[simp] theorem afterRead_x (s : State) (m : Mode) (p : Place) : (s.afterRead m p).x = s.x := rfl
@[simp] theorem afterRead_pc (s : State) (m : Mode) (p : Place) : (s.afterRead m p).pc = s.pc := rfl
@[simp] theorem afterRead_rflags (s : State) (m : Mode) (p : Place) : (s.afterRead m p).rflags = s.rflags := rfl
@[simp] theorem afterRead_segs (s : State) (m : Mode) (p : Place) : (s.afterRead m p).segs = s.segs := rfl
@[simp] theorem afterRead_cr0 (s : State) (m : Mode) (p : Place) : (s.afterRead m p).cr0 = s.cr0 := rfl
@[simp] theorem afterRead_cr2 (s : State) (m : Mode) (p : Place) : (s.afterRead m p).cr2 = s.cr2 := rfl
@[simp] theorem afterRead_cr3 (s : State) (m : Mode) (p : Place) : (s.afterRead m p).cr3 = s.cr3 := rfl
@[simp] theorem afterRead_cr4 (s : State) (m : Mode) (p : Place) : (s.afterRead m p).cr4 = s.cr4 := rfl
@[simp] theorem afterRead_xcr0 (s : State) (m : Mode) (p : Place) : (s.afterRead m p).xcr0 = s.xcr0 := rfl
@[simp] theorem afterRead_efer (s : State) (m : Mode) (p : Place) : (s.afterRead m p).efer = s.efer := rfl
@[simp] theorem afterRead_mem (s : State) (m : Mode) (p : Place) : (s.afterRead m p).mem = s.mem := rfl
@[simp] theorem afterRead_platform (s : State) (m : Mode) (p : Place) : (s.afterRead m p).platform = s.platform := rfl

@[simp] theorem writeLow128_fpr (s : State) (d : BitVec 5) (y : BitVec 128) : (s.writeLow128 d y).fpr = s.fpr := rfl
@[simp] theorem writeLow128_fsw (s : State) (d : BitVec 5) (y : BitVec 128) : (s.writeLow128 d y).fsw = s.fsw := rfl
@[simp] theorem writeLow128_ftw (s : State) (d : BitVec 5) (y : BitVec 128) : (s.writeLow128 d y).ftw = s.ftw := rfl
@[simp] theorem writeLow128_fcw (s : State) (d : BitVec 5) (y : BitVec 128) : (s.writeLow128 d y).fcw = s.fcw := rfl
@[simp] theorem writeLow128_mxcsr (s : State) (d : BitVec 5) (y : BitVec 128) : (s.writeLow128 d y).mxcsr = s.mxcsr := rfl
@[simp] theorem writeLow128_k (s : State) (d : BitVec 5) (y : BitVec 128) : (s.writeLow128 d y).k = s.k := rfl
@[simp] theorem writeLow128_x (s : State) (d : BitVec 5) (y : BitVec 128) : (s.writeLow128 d y).x = s.x := rfl
@[simp] theorem writeLow128_pc (s : State) (d : BitVec 5) (y : BitVec 128) : (s.writeLow128 d y).pc = s.pc := rfl
@[simp] theorem writeLow128_rflags (s : State) (d : BitVec 5) (y : BitVec 128) : (s.writeLow128 d y).rflags = s.rflags := rfl
@[simp] theorem writeLow128_segs (s : State) (d : BitVec 5) (y : BitVec 128) : (s.writeLow128 d y).segs = s.segs := rfl
@[simp] theorem writeLow128_cr0 (s : State) (d : BitVec 5) (y : BitVec 128) : (s.writeLow128 d y).cr0 = s.cr0 := rfl
@[simp] theorem writeLow128_cr2 (s : State) (d : BitVec 5) (y : BitVec 128) : (s.writeLow128 d y).cr2 = s.cr2 := rfl
@[simp] theorem writeLow128_cr3 (s : State) (d : BitVec 5) (y : BitVec 128) : (s.writeLow128 d y).cr3 = s.cr3 := rfl
@[simp] theorem writeLow128_cr4 (s : State) (d : BitVec 5) (y : BitVec 128) : (s.writeLow128 d y).cr4 = s.cr4 := rfl
@[simp] theorem writeLow128_xcr0 (s : State) (d : BitVec 5) (y : BitVec 128) : (s.writeLow128 d y).xcr0 = s.xcr0 := rfl
@[simp] theorem writeLow128_efer (s : State) (d : BitVec 5) (y : BitVec 128) : (s.writeLow128 d y).efer = s.efer := rfl
@[simp] theorem writeLow128_mem (s : State) (d : BitVec 5) (y : BitVec 128) : (s.writeLow128 d y).mem = s.mem := rfl
@[simp] theorem writeLow128_platform (s : State) (d : BitVec 5) (y : BitVec 128) : (s.writeLow128 d y).platform = s.platform := rfl
@[simp] theorem writeLow128_draws (s : State) (d : BitVec 5) (y : BitVec 128) : (s.writeLow128 d y).draws = s.draws := rfl

@[simp] theorem writeZeroing_fpr (s : State) {N : Nat} (d : BitVec 5) (y : BitVec N) : (s.writeZeroing d y).fpr = s.fpr := rfl
@[simp] theorem writeZeroing_fsw (s : State) {N : Nat} (d : BitVec 5) (y : BitVec N) : (s.writeZeroing d y).fsw = s.fsw := rfl
@[simp] theorem writeZeroing_ftw (s : State) {N : Nat} (d : BitVec 5) (y : BitVec N) : (s.writeZeroing d y).ftw = s.ftw := rfl
@[simp] theorem writeZeroing_fcw (s : State) {N : Nat} (d : BitVec 5) (y : BitVec N) : (s.writeZeroing d y).fcw = s.fcw := rfl
@[simp] theorem writeZeroing_mxcsr (s : State) {N : Nat} (d : BitVec 5) (y : BitVec N) : (s.writeZeroing d y).mxcsr = s.mxcsr := rfl
@[simp] theorem writeZeroing_k (s : State) {N : Nat} (d : BitVec 5) (y : BitVec N) : (s.writeZeroing d y).k = s.k := rfl
@[simp] theorem writeZeroing_x (s : State) {N : Nat} (d : BitVec 5) (y : BitVec N) : (s.writeZeroing d y).x = s.x := rfl
@[simp] theorem writeZeroing_pc (s : State) {N : Nat} (d : BitVec 5) (y : BitVec N) : (s.writeZeroing d y).pc = s.pc := rfl
@[simp] theorem writeZeroing_rflags (s : State) {N : Nat} (d : BitVec 5) (y : BitVec N) : (s.writeZeroing d y).rflags = s.rflags := rfl
@[simp] theorem writeZeroing_segs (s : State) {N : Nat} (d : BitVec 5) (y : BitVec N) : (s.writeZeroing d y).segs = s.segs := rfl
@[simp] theorem writeZeroing_cr0 (s : State) {N : Nat} (d : BitVec 5) (y : BitVec N) : (s.writeZeroing d y).cr0 = s.cr0 := rfl
@[simp] theorem writeZeroing_cr2 (s : State) {N : Nat} (d : BitVec 5) (y : BitVec N) : (s.writeZeroing d y).cr2 = s.cr2 := rfl
@[simp] theorem writeZeroing_cr3 (s : State) {N : Nat} (d : BitVec 5) (y : BitVec N) : (s.writeZeroing d y).cr3 = s.cr3 := rfl
@[simp] theorem writeZeroing_cr4 (s : State) {N : Nat} (d : BitVec 5) (y : BitVec N) : (s.writeZeroing d y).cr4 = s.cr4 := rfl
@[simp] theorem writeZeroing_xcr0 (s : State) {N : Nat} (d : BitVec 5) (y : BitVec N) : (s.writeZeroing d y).xcr0 = s.xcr0 := rfl
@[simp] theorem writeZeroing_efer (s : State) {N : Nat} (d : BitVec 5) (y : BitVec N) : (s.writeZeroing d y).efer = s.efer := rfl
@[simp] theorem writeZeroing_mem (s : State) {N : Nat} (d : BitVec 5) (y : BitVec N) : (s.writeZeroing d y).mem = s.mem := rfl
@[simp] theorem writeZeroing_platform (s : State) {N : Nat} (d : BitVec 5) (y : BitVec N) : (s.writeZeroing d y).platform = s.platform := rfl
@[simp] theorem writeZeroing_draws (s : State) {N : Nat} (d : BitVec 5) (y : BitVec N) : (s.writeZeroing d y).draws = s.draws := rfl

/-! ### Fields an update writes -/

@[simp] theorem setVreg_v (s : State) (i : BitVec 5) (y : VReg) : (s.setVreg i y).v = s.v.set i.toNat y i.isLt := rfl

@[simp] theorem writeMm_fpr (s : State) (d : BitVec 3) (y : Word64) :
    (s.writeMm d y).fpr = s.fpr.set d.toNat (0xFFFF#16 ++ y) d.isLt := rfl

@[simp] theorem writeMm_fsw (s : State) (d : BitVec 3) (y : Word64) : (s.writeMm d y).fsw = s.fsw &&& 0xC7FF#16 := rfl

@[simp] theorem writeMm_ftw (s : State) (d : BitVec 3) (y : Word64) : (s.writeMm d y).ftw = 0#16 := rfl

@[simp] theorem advance_pc (s : State) (m : Mode) (len : Nat) :
    (s.advance m len).pc = m.wrap (s.pc + BitVec.ofNat 64 len) := rfl

@[simp] theorem afterRead_draws (s : State) (m : Mode) (p : Place) :
    (s.afterRead m p).draws = if s.operandHas m p .shared then s.draws + p.size else s.draws := rfl

theorem writeLow128_eq (s : State) (d : BitVec 5) (y : BitVec 128) :
    s.writeLow128 d y = s.setVreg d ((s.vreg d).extractLsb' 128 384 ++ y) := rfl

theorem writeZeroing_eq {N : Nat} (s : State) (d : BitVec 5) (y : BitVec N) :
    s.writeZeroing d y = s.setVreg d (y.setWidth 512) := rfl

/-! ### Register views after a write -/

theorem vreg_setVreg (s : State) (i j : BitVec 5) (y : VReg) :
    (s.setVreg i y).vreg j = if i = j then y else s.vreg j := by
  have hj : j.toNat < 32 := j.isLt
  by_cases h : i = j
  · subst h
    simp [State.vreg, State.setVreg, Vector.get_eq_getElem]
  · have h' : i.toNat ≠ j.toNat := fun e => h (BitVec.eq_of_toNat_eq e)
    simp [State.vreg, State.setVreg, Vector.get_eq_getElem, h, h']

@[simp] theorem vreg_setVreg_same (s : State) (i : BitVec 5) (y : VReg) : (s.setVreg i y).vreg i = y := by
  simp [vreg_setVreg]

theorem vreg_setVreg_other (s : State) (i j : BitVec 5) (y : VReg) (h : i ≠ j) : (s.setVreg i y).vreg j = s.vreg j := by
  simp [vreg_setVreg, h]

@[simp] theorem vreg_writeMm (s : State) (d : BitVec 3) (y : Word64) (j : BitVec 5) : (s.writeMm d y).vreg j = s.vreg j := rfl

@[simp] theorem vreg_advance (s : State) (m : Mode) (n : Nat) (j : BitVec 5) : (s.advance m n).vreg j = s.vreg j := rfl

@[simp] theorem vreg_afterRead (s : State) (m : Mode) (p : Place) (j : BitVec 5) : (s.afterRead m p).vreg j = s.vreg j := rfl

@[simp] theorem mm_setVreg (s : State) (i : BitVec 5) (y : VReg) (j : BitVec 3) : (s.setVreg i y).mm j = s.mm j := rfl

@[simp] theorem mm_advance (s : State) (m : Mode) (n : Nat) (j : BitVec 3) : (s.advance m n).mm j = s.mm j := rfl

theorem mm_writeMm (s : State) (i j : BitVec 3) (y : Word64) :
    (s.writeMm i y).mm j = if i = j then y else s.mm j := by
  have hj : j.toNat < 8 := j.isLt
  by_cases h : i = j
  · subst h
    simp only [State.mm, State.writeMm, Vector.get_eq_getElem, BitVec.val_toFin, Vector.getElem_set_self, if_true]
    exact BitVec.setWidth_append_eq_right
  · have h' : i.toNat ≠ j.toNat := fun e => h (BitVec.eq_of_toNat_eq e)
    simp [State.mm, State.writeMm, Vector.get_eq_getElem, h, h']

/-! ### The mode and the enabling conditions read control state only -/

@[simp] theorem mode_setVreg (s : State) (i : BitVec 5) (y : VReg) : (s.setVreg i y).mode = s.mode := rfl
@[simp] theorem mode_writeMm (s : State) (d : BitVec 3) (y : Word64) : (s.writeMm d y).mode = s.mode := rfl
@[simp] theorem mode_advance (s : State) (m : Mode) (n : Nat) : (s.advance m n).mode = s.mode := rfl
@[simp] theorem mode_afterRead (s : State) (m : Mode) (p : Place) : (s.afterRead m p).mode = s.mode := rfl

/-! ### Taking an exception -/

/-- What a fault leaves: the state before, but for CR2 (R171). -/
theorem raise_eq_fault (e : Exc) (s : State) :
    ∃ f : Fault, raise e s = .fault f ∧ f.after = { s with cr2 := f.after.cr2 } ∧ (f.vector ≠ 14 → f.after = s) := by
  cases e <;> exact ⟨_, rfl, rfl, by simp [Fault.vector, Fault.after]⟩

theorem raise_ne_next (e : Exc) (s t : State) : raise e s ≠ .next t := by
  cases e <;> simp [raise]

theorem stop_outcome_ne_next (st : Stop) (s t : State) : st.outcome s ≠ .next t := by
  cases st with
  | exc e => exact raise_ne_next e s t
  | refuse r => simp [Stop.outcome]

end Sys2Proof.Machine
end

