-- ==== Sys2Proof/Laws/Ops.lean ====
section
/-! SUPPORT. One lemma per shared operation that says once what it can do: decoding an illegal encoding, translating and
fetching a byte, reading an operand, and the four runs. -/

namespace Sys2Proof

/-- The end of an illegal encoding is never a form: its bytes are there, and it is #UD or too long, or they are not. -/
theorem finishIllegal_cases (total : Nat) (a16 : Bool) (bs : List Byte) :
    finishIllegal total a16 bs = .reject .truncated ∧ takeRegMem a16 bs = none ∨
      ∃ reg rm rest, takeRegMem a16 bs = some (reg, rm, rest) ∧
        finishIllegal total a16 bs = if total - rest.length > 15 then .lengthGp else .ud := by
  unfold finishIllegal extent
  split
  · next h => exact .inl ⟨rfl, h⟩
  · next h => exact .inr ⟨_, _, _, h, rfl⟩

/-- What an illegal encoding's length makes of it. -/
theorem illegalOfLength_cases (len : Option Nat) :
    len = none ∧ illegalOfLength len = .reject .truncated ∨
      ∃ n, len = some n ∧ illegalOfLength len = if n > 15 then .lengthGp else .ud := by
  cases len with
  | none => exact .inl ⟨rfl, rfl⟩
  | some n => exact .inr ⟨n, rfl, rfl⟩

/-- On a processor a form that prefixes bar is refused, or, without the flags it needs, illegal. -/
@[simp] theorem under_barred (f : Features) (r : Reject) (need : FeatureNeed) (len : Option Nat) :
    (Verdict.barred r need len).under f = if f.has need then .reject r else illegalOfLength len := rfl

/-- Which processor it is does not make a form of what is none, nor none of a form. -/
@[simp] theorem under_eq_form_iff (f : Features) (v : Verdict) (i : Instr) (n : Nat) :
    v.under f = .form i n ↔ v = .form i n := by
  cases v with
  | barred r need len =>
    cases len <;> simp only [Verdict.under, illegalOfLength] <;> repeat' split
    all_goals simp
  | _ => rfl

/-- No verdict on a processor is left open. -/
theorem under_ne_barred (f : Features) (v : Verdict) (r : Reject) (need : FeatureNeed) (len : Option Nat) :
    v.under f ≠ .barred r need len := by
  cases v with
  | barred r' need' len' =>
    cases len' <;> simp only [Verdict.under, illegalOfLength] <;> repeat' split
    all_goals simp
  | _ => exact nofun

end Sys2Proof

namespace Sys2Proof.Machine

/-! ### Enabling and launching -/

/-- What an instruction asks beyond launch premise P2 (70_reset_and_hazards.md R192 step 8, 30_encoding.md R93). -/
theorem enabled_iff_booted (s : State) (i : Instr) :
    s.Enabled i ↔ s.Booted i ∧ (i.formClass = .mmx → s.fsw.getLsbD 7 = false) ∧
      (i.formClass = .evex → i.zeroingUnmasked = false) := by
  unfold State.Enabled State.Booted
  cases i.formClass <;> simp [State.MmxEnabled, and_assoc]

/-! ### Translating and fetching a byte -/

/-- A linear byte reads from a physical address exactly where its page answer maps it there, executable or not. -/
theorem translate_eq_ok_iff (s : State) (a : Word64) (n : Nat) :
    s.translate a = .ok n ↔ ∃ x, s.pageAnswer a = .mapped n x := by
  unfold State.translate
  cases s.pageAnswer a <;> simp

/-- A linear byte faults exactly where its page answer is a fault, with the error code of its bits. -/
theorem translate_eq_error_iff (s : State) (a : Word64) (e : BitVec 32) :
    s.translate a = .error e ↔
      ∃ p v k, s.pageAnswer a = .fault p v k ∧ e = pageFaultCode p (s.cpl == 3#2) v k := by
  unfold State.translate
  cases s.pageAnswer a with
  | mapped n x => simp only [reduceCtorEq, false_and, exists_false]
  | fault p v k =>
    constructor
    · rintro ⟨⟩
      exact ⟨p, v, k, rfl, rfl⟩
    · rintro ⟨_, _, _, ⟨⟩, rfl⟩
      rfl

/-- A code byte that can be fetched lies in the code space and is mapped, executable and private (R194, P4). -/
theorem codeAddr_eq_ok_iff (s : State) (m : Mode) (i a : Nat) :
    s.codeAddr m i = .ok a ↔
      s.pc.toNat + i < m.top ∧ canonical m s.platform.laBits (linByte m s.pc i) = true ∧
        s.pageAnswer (linByte m s.pc i) = .mapped a true ∧ s.kindAt a = .ordinary := by
  unfold State.codeAddr
  split
  · next h =>
    simp only [reduceCtorEq, false_iff, not_and]
    intro h1 h2
    rcases h with h | h
    · omega
    · rw [h2] at h; cases h
  · next h =>
    simp only [not_or, Nat.not_le, Bool.not_eq_false] at h
    cases s.pageAnswer (linByte m s.pc i) with
    | fault p v k => simp
    | mapped n x =>
      cases x with
      | false => simp
      | true =>
        by_cases hk : s.kindAt n = .ordinary
        · simp only [if_pos hk, Except.ok.injEq, PageAnswer.mapped.injEq, and_true]
          exact ⟨fun e => ⟨h.1, h.2, e, e ▸ hk⟩, fun e => e.2.2.1⟩
        · simp only [if_neg hk, reduceCtorEq, PageAnswer.mapped.injEq, and_true, false_iff, not_and]
          rintro - - rfl
          exact hk

/-! ### Reading an operand -/

/-- Bytes that all pass their checks: canonical, aligned where that is asked, translated. -/
theorem byteStop_eq_none_iff (s : State) (m : Mode) (p : Place) (al : Bool) (sel : Nat → Bool) :
    s.byteStop m p al sel = none ↔
      (∀ i < p.size, sel i = true → canonical m s.platform.laBits (linByte m p.lin i) = true) ∧
      (al = true → p.lin.extractLsb' 0 4 = 0#4) ∧
      (∀ i < p.size, sel i = true → ∃ a, s.translate (linByte m p.lin i) = .ok a) := by
  have hpick : ∀ l, s.pickFault l = none ↔ l = [] := by
    intro l
    match l with
    | [] => simp [State.pickFault]
    | [(c, a)] => simp [State.pickFault]
    | (c, a) :: _ :: _ => simp [State.pickFault]
  have hpf : s.pageFaults m p.lin p.size sel = [] ↔
      ∀ i < p.size, sel i = true → ∃ a, s.translate (linByte m p.lin i) = .ok a := by
    rw [State.pageFaults, List.filterMap_eq_nil_iff]
    constructor
    · intro h i hi hs
      have := h i (List.mem_range.mpr hi)
      rw [if_pos hs] at this
      cases ht : s.translate (linByte m p.lin i) with
      | ok a => exact ⟨a, rfl⟩
      | error c => rw [ht] at this; simp at this
    · intro h i hi
      by_cases hs : sel i = true
      · obtain ⟨a, ha⟩ := h i (List.mem_range.mp hi) hs
        simp [hs, ha]
      · simp [hs]
  have hany : ((List.range p.size).any fun i => sel i && !canonical m s.platform.laBits (linByte m p.lin i)) = false ↔
      ∀ i < p.size, sel i = true → canonical m s.platform.laBits (linByte m p.lin i) = true := by
    rw [List.any_eq_false]
    constructor
    · intro h i hi hs
      have := h i (List.mem_range.mpr hi)
      simpa [hs] using this
    · intro h i hi
      by_cases hs : sel i = true
      · simp [hs, h i (List.mem_range.mp hi) hs]
      · simp [hs]
  unfold State.byteStop
  by_cases h1 : ((List.range p.size).any fun i =>
      sel i && !canonical m s.platform.laBits (linByte m p.lin i)) = true
  · rw [if_pos h1]
    constructor
    · split <;> (try split) <;> simp
    · rintro ⟨h, -⟩
      rw [hany.mpr h] at h1
      cases h1
  · rw [if_neg h1]
    rw [Bool.not_eq_true] at h1
    by_cases h2 : (al && p.lin.extractLsb' 0 4 != 0#4) = true
    · rw [if_pos h2]
      simp only [Bool.and_eq_true, bne_iff_ne] at h2
      constructor
      · simp
      · rintro ⟨-, h, -⟩
        exact absurd (h h2.1) h2.2
    · rw [if_neg h2, hpick, hpf]
      simp only [Bool.and_eq_true, bne_iff_ne, not_and, not_not] at h2
      exact ⟨fun h => ⟨hany.mp h1, h2, h⟩, fun h => h.2.2⟩

/-- A page fault picked from a list is one of the list, as an exception. -/
theorem pickFault_mem (s : State) (l : List (BitVec 32 × Word64)) (t : Stop) (h : s.pickFault l = some t) :
    ∃ q ∈ l, t = .exc (.pf q.1 q.2) := by
  match l with
  | [] => simp [State.pickFault] at h
  | [(c, a)] =>
    simp only [State.pickFault, Option.some.injEq] at h
    exact ⟨(c, a), by simp, h.symm⟩
  | (c, a) :: b :: r =>
    simp only [State.pickFault, Option.some.injEq] at h
    refine ⟨_, ?_, h.symm⟩
    rw [List.getD_eq_getElem?_getD]
    have hlt : Config.faultPick s.draws % ((b :: r).length + 1) < ((c, a) :: b :: r).length :=
      Nat.mod_lt _ (by simp)
    rw [List.getElem?_eq_getElem hlt]
    exact List.getElem_mem hlt

/-- The page faults of an operand are its picked bytes that do not translate. -/
theorem mem_pageFaults (s : State) (m : Mode) (lin : Word64) (n : Nat) (sel : Nat → Bool) (q : BitVec 32 × Word64) :
    q ∈ s.pageFaults m lin n sel ↔
      ∃ i < n, sel i = true ∧ q.2 = linByte m lin i ∧ s.translate (linByte m lin i) = .error q.1 := by
  simp only [State.pageFaults, List.mem_filterMap, List.mem_range]
  constructor
  · rintro ⟨i, hi, h⟩
    by_cases hs : sel i = true
    · rw [if_pos hs] at h
      cases ht : s.translate (linByte m lin i) with
      | ok a => rw [ht] at h; simp at h
      | error c =>
        rw [ht] at h
        simp only [Option.some.injEq] at h
        exact ⟨i, hi, hs, by rw [← h], by rw [← h, ht]⟩
    · rw [if_neg hs] at h
      cases h
  · rintro ⟨i, hi, hs, h1, h2⟩
    exact ⟨i, hi, by rw [if_pos hs, h2, ← h1]⟩

/-- An operand that passes on more bytes passes on fewer. -/
theorem byteStop_none_mono (s : State) (m : Mode) (p : Place) (al : Bool) (sel sel' : Nat → Bool)
    (hsub : ∀ i, sel' i = true → sel i = true) (h : s.byteStop m p al sel = none) : s.byteStop m p al sel' = none := by
  rw [byteStop_eq_none_iff] at h ⊢
  exact ⟨fun i hi hs => h.1 i hi (hsub i hs), h.2.1, fun i hi hs => h.2.2 i hi (hsub i hs)⟩

/-- With the picked bytes canonical and no alignment rule broken, a stop of the picked bytes is a page fault of one of them. -/
theorem byteStop_pageFault (s : State) (m : Mode) (p : Place) (al : Bool) (sel : Nat → Bool) (t : Stop)
    (hc : ∀ i < p.size, sel i = true → canonical m s.platform.laBits (linByte m p.lin i) = true)
    (ha : al = true → p.lin.extractLsb' 0 4 = 0#4) (h : s.byteStop m p al sel = some t) :
    ∃ i < p.size, sel i = true ∧ ∃ e, s.translate (linByte m p.lin i) = .error e ∧
      t = .exc (.pf e (linByte m p.lin i)) := by
  have h1 : ((List.range p.size).any fun i =>
      sel i && !canonical m s.platform.laBits (linByte m p.lin i)) = false := by
    rw [List.any_eq_false]
    intro i hi
    cases hs : sel i with
    | false => simp
    | true => simp [hc i (List.mem_range.mp hi) hs]
  have h2 : (al && p.lin.extractLsb' 0 4 != 0#4) = false := by
    cases al with
    | false => rfl
    | true => simp [ha rfl]
  rw [State.byteStop, h1, h2] at h
  obtain ⟨q, hq, ht⟩ := pickFault_mem s _ t h
  obtain ⟨i, hi, hs, e1, e2⟩ := (mem_pageFaults s m p.lin p.size sel q).mp hq
  exact ⟨i, hi, hs, q.1, e2, by rw [ht, e1]⟩

/-- An operand read is the operand's value, and the state with its draws. -/
theorem readOperand_ok (s : State) (m : Mode) (p : Place) (N : Nat) (y : BitVec N) (t : State)
    (h : s.readOperand m p N = .ok (y, t)) :
    s.operandHas m p .device = false ∧ y = s.operandValue m p N ∧ t = s.afterRead m p := by
  unfold State.readOperand at h
  split at h
  · cases h
  · next hd => cases h; exact ⟨by simpa using hd, rfl, rfl⟩

/-- Reading the second source operand of rows 1 and 3 changes at most the draw counter. -/
theorem sourceMm_state (s t : State) (m : Mode) (p : Prefixes) (x : Option Rex) (len : Nat) (rm : RegMem) (y : Word64)
    (h : s.sourceMm m p x len rm = .ok (y, t)) : t = { s with draws := t.draws } := by
  cases rm with
  | reg r => cases h; rfl
  | mem a =>
    simp only [State.sourceMm, State.loadMm] at h
    split at h
    · cases h
    · split at h
      · cases h
      · split at h
        · cases h
        · rw [(readOperand_ok _ _ _ _ _ _ h).2.2]; rfl

/-- Reading the second source operand of rows 2 and 4 changes at most the draw counter. -/
theorem sourceSse_state (s t : State) (m : Mode) (p : Prefixes) (x : Option Rex) (len : Nat) (rm : RegMem)
    (y : BitVec 128) (h : s.sourceSse m p x len rm = .ok (y, t)) : t = { s with draws := t.draws } := by
  cases rm with
  | reg r => cases h; rfl
  | mem a =>
    simp only [State.sourceSse, State.loadSse] at h
    split at h
    · cases h
    · split at h
      · cases h
      · rw [(readOperand_ok _ _ _ _ _ _ h).2.2]; rfl

/-- Reading an operand of a VEX or EVEX form that passed its checks. -/
theorem loadUnaligned_ok (s t : State) (m : Mode) (p : Place) (N : Nat) (y : BitVec N)
    (h : s.loadUnaligned m p N = .ok (y, t)) :
    (s.alignmentChecking = true → p.aligned = true) ∧ s.readOperand m p N = .ok (y, t) := by
  unfold State.loadUnaligned at h
  split at h
  · cases h
  · next hc =>
    refine ⟨fun ha => ?_, h⟩
    simpa [ha] using hc

/-- Reading the second source operand of rows 5 to 8 changes at most the draw counter. -/
theorem sourceVex_state (s t : State) (m : Mode) (p : Prefixes) (v : Vex3) (len N : Nat) (rm : RegMem) (y : BitVec N)
    (h : s.sourceVex m p v len N rm = .ok (y, t)) : t = { s with draws := t.draws } := by
  cases rm with
  | reg r => cases h; rfl
  | mem a =>
    simp only [State.sourceVex, State.loadVex] at h
    split at h
    · cases h
    · split at h
      · cases h
      · split at h
        · cases h
        · rw [(readOperand_ok _ _ _ _ _ _ (loadUnaligned_ok _ _ _ _ _ _ h).2).2.2]; rfl

/-- Reading the second source operand of rows 9 to 14 changes at most the draw counter. -/
theorem sourceEvex_state (s t : State) (m : Mode) (p : Prefixes) (v : Evex) (len w N : Nat) (rm : RegMem) (y : BitVec N)
    (h : s.sourceEvex m p v len w N rm = .ok (y, t)) : t = { s with draws := t.draws } := by
  cases rm with
  | reg r => cases h; rfl
  | mem a =>
    simp only [State.sourceEvex, State.loadEvex] at h
    split at h
    · cases h
    · split at h
      · cases h
      · split at h
        · cases h
        · split at h
          · cases h
          · rw [(readOperand_ok _ _ _ _ _ _ (loadUnaligned_ok _ _ _ _ _ _ h).2).2.2]; rfl

/-! ### The runs: what a completed form has done -/

/-- A completed MMX form (R111, R113, R115). -/
theorem runMmx_next (w : Nat) (p : Prefixes) (x : Option Rex) (reg : BitVec 3) (rm : RegMem) (len : Nat) (s t : State)
    (h : runMmx w p x reg rm len s = .next t) :
    ∃ m y n, s.mode = some m ∧ s.udMmx = false ∧ s.cr0TS = false ∧ s.x87Pending = false ∧
      s.sourceMm m p x len rm = .ok (y, { s with draws := n }) ∧
      t = (({ s with draws := n } : State).writeMm reg (addUS w 64 (s.mm reg) y)).advance m len := by
  unfold runMmx at h
  split at h
  · cases h
  · next m hm =>
    split at h
    · exact absurd h (raise_ne_next _ _ _)
    · next h1 =>
      split at h
      · exact absurd h (raise_ne_next _ _ _)
      · next h2 =>
        split at h
        · split at h
          · exact absurd h (raise_ne_next _ _ _)
          · cases h
        · next h3 =>
          split at h
          · exact absurd h (stop_outcome_ne_next _ _ _)
          · next y s1 hs =>
            have e := sourceMm_state _ _ _ _ _ _ _ _ hs
            simp only [Host.Outcome.next.injEq] at h
            refine ⟨m, y, s1.draws, hm, by simpa using h1, by simpa using h2, by simpa using h3, ?_, ?_⟩
            · rw [hs, ← e]
            · rw [← e]; exact h.symm

/-- A completed legacy SSE form (R112, R114, R116). -/
theorem runSse_next (w : Nat) (p : Prefixes) (x : Option Rex) (reg : BitVec 3) (rm : RegMem) (len : Nat) (s t : State)
    (h : runSse w p x reg rm len s = .next t) :
    ∃ m y n, s.mode = some m ∧ s.udSse = false ∧ s.cr0TS = false ∧
      s.sourceSse m p x len rm = .ok (y, { s with draws := n }) ∧
      t = (({ s with draws := n } : State).writeLow128 (regNum5 m false (rexFields x).r reg)
        (addUS w 128 ((s.vreg (regNum5 m false (rexFields x).r reg)).setWidth 128) y)).advance m len := by
  unfold runSse at h
  split at h
  · cases h
  · next m hm =>
    split at h
    · exact absurd h (raise_ne_next _ _ _)
    · next h1 =>
      split at h
      · exact absurd h (raise_ne_next _ _ _)
      · next h2 =>
        split at h
        · exact absurd h (stop_outcome_ne_next _ _ _)
        · next y s1 hs =>
          have e := sourceSse_state _ _ _ _ _ _ _ _ hs
          simp only [Host.Outcome.next.injEq] at h
          refine ⟨m, y, s1.draws, hm, by simpa using h1, by simpa using h2, ?_, ?_⟩
          · rw [hs, ← e]
          · rw [← e]; exact h.symm

/-- A completed VEX form (R121 to R125). -/
theorem runVex_next (w N : Nat) (p : Prefixes) (v : Vex3) (reg : BitVec 3) (rm : RegMem) (len : Nat) (s t : State)
    (h : runVex w N p v reg rm len s = .next t) :
    ∃ m y n, s.mode = some m ∧ s.udVex (N == 256) = false ∧ s.cr0TS = false ∧
      s.sourceVex m p v len N rm = .ok (y, { s with draws := n }) ∧
      t = (({ s with draws := n } : State).writeZeroing (regNum5 m false v.r reg)
        (addUS w N ((s.vreg (vvvvNum m false v.vvvv)).setWidth N) y)).advance m len := by
  unfold runVex at h
  split at h
  · cases h
  · next m hm =>
    split at h
    · exact absurd h (raise_ne_next _ _ _)
    · next h1 =>
      split at h
      · exact absurd h (raise_ne_next _ _ _)
      · next h2 =>
        split at h
        · exact absurd h (stop_outcome_ne_next _ _ _)
        · next y s1 hs =>
          have e := sourceVex_state _ _ _ _ _ _ _ _ _ hs
          simp only [Host.Outcome.next.injEq] at h
          refine ⟨m, y, s1.draws, hm, by simpa using h1, by simpa using h2, ?_, ?_⟩
          · rw [hs, ← e]
          · rw [← e]; exact h.symm

/-- A completed EVEX form (R132, R139). -/
theorem runEvex_next (w N : Nat) (p : Prefixes) (v : Evex) (reg : BitVec 3) (rm : RegMem) (len : Nat) (s t : State)
    (h : runEvex w N p v reg rm len s = .next t) :
    ∃ m y n, s.mode = some m ∧ s.udEvex (N == 512) v.z v.aaa = false ∧ s.cr0TS = false ∧
      s.sourceEvex m p v len w N rm = .ok (y, { s with draws := n }) ∧
      t = (({ s with draws := n } : State).writeZeroing (regNum5 m v.rHi v.r reg)
        (evexAddUS w N v.aaa v.z (s.mask v.aaa) ((s.vreg (regNum5 m v.rHi v.r reg)).setWidth N)
          ((s.vreg (vvvvNum m v.vHi v.vvvv)).setWidth N) y)).advance m len := by
  unfold runEvex at h
  split at h
  · cases h
  · next m hm =>
    split at h
    · exact absurd h (raise_ne_next _ _ _)
    · next h1 =>
      split at h
      · exact absurd h (raise_ne_next _ _ _)
      · next h2 =>
        split at h
        · exact absurd h (stop_outcome_ne_next _ _ _)
        · next y s1 hs =>
          have e := sourceEvex_state _ _ _ _ _ _ _ _ _ _ hs
          simp only [Host.Outcome.next.injEq] at h
          refine ⟨m, y, s1.draws, hm, by simpa using h1, by simpa using h2, ?_, ?_⟩
          · rw [hs, ← e]
          · rw [← e]; exact h.symm

end Sys2Proof.Machine
end

