-- ==== Sys2Proof/Laws/PerInstr.lean ====
section
/-! SUPPORT. What holds of every instruction as syntax, one lemma per constructor. -/

namespace Sys2Proof.Laws

/-- At most a segment override and a 67 prefix. -/
theorem encodePrefixes_length (p : Prefixes) : (encodePrefixes p).length ≤ 2 := by
  obtain ⟨_ | _, _ | _⟩ := p <;> simp [encodePrefixes]

/-- ModRM, at most one SIB byte and at most four displacement bytes (30_encoding.md R75 to R77). -/
theorem encodeRegMem_length (reg : BitVec 3) (rm : RegMem) :
    1 ≤ (encodeRegMem reg rm).length ∧ (encodeRegMem reg rm).length ≤ 6 := by
  rcases rm with r | ⟨_, _, _ | _, _ | _ | _ | _⟩ <;> simp [encodeRegMem, encodeDisp]

/-- The length of the legacy layout (30_encoding.md R70). -/
theorem encodeLegacy_length (op66 word : Bool) (p : Prefixes) (x : Option Rex) (reg : BitVec 3) (rm : RegMem) :
    3 ≤ (encodeLegacy op66 word p x reg rm).length ∧ (encodeLegacy op66 word p x reg rm).length ≤ 13 := by
  have h1 := encodePrefixes_length p
  have h2 := encodeRegMem_length reg rm
  cases op66 <;> cases x <;> simp only [encodeLegacy, List.length_append, List.length_cons, List.length_nil,
    Bool.false_eq_true, if_true, if_false] <;> omega

/-- The length of the two-byte VEX layout (30_encoding.md R70, R84). -/
theorem encodeVex2_length (l word : Bool) (p : Prefixes) (v : Vex2) (reg : BitVec 3) (rm : RegMem) :
    3 ≤ (encodeVex2 l word p v reg rm).length ∧ (encodeVex2 l word p v reg rm).length ≤ 13 := by
  have h1 := encodePrefixes_length p
  have h2 := encodeRegMem_length reg rm
  simp only [encodeVex2, List.length_append, List.length_cons, List.length_nil]
  omega

/-- The length of the three-byte VEX layout (30_encoding.md R70, R83). -/
theorem encodeVex3_length (l word : Bool) (p : Prefixes) (v : Vex3) (reg : BitVec 3) (rm : RegMem) :
    3 ≤ (encodeVex3 l word p v reg rm).length ∧ (encodeVex3 l word p v reg rm).length ≤ 13 := by
  have h1 := encodePrefixes_length p
  have h2 := encodeRegMem_length reg rm
  simp only [encodeVex3, List.length_append, List.length_cons, List.length_nil]
  omega

/-- The length of the EVEX layout (30_encoding.md R70, R87). -/
theorem encodeEvex_length (vl : EvexLen) (word : Bool) (p : Prefixes) (v : Evex) (reg : BitVec 3) (rm : RegMem) :
    3 ≤ (encodeEvex vl word p v reg rm).length ∧ (encodeEvex vl word p v reg rm).length ≤ 13 := by
  have h1 := encodePrefixes_length p
  have h2 := encodeRegMem_length reg rm
  simp only [encodeEvex, List.length_append, List.length_cons, List.length_nil]
  omega

namespace LengthBounds

/-- Every instruction takes 3 to 13 bytes, well below the limit of 15 (30_encoding.md R70). -/
def Statement (i : Instr) : Prop := 3 ≤ i.length ∧ i.length ≤ 13

theorem paddusbMm (p : Prefixes) (v : Option Rex) (reg : BitVec 3) (rm : RegMem) : Statement (.paddusbMm p v reg rm) :=
  encodeLegacy_length _ _ p v reg rm

theorem paddusbXmm (p : Prefixes) (v : Option Rex) (reg : BitVec 3) (rm : RegMem) : Statement (.paddusbXmm p v reg rm) :=
  encodeLegacy_length _ _ p v reg rm

theorem padduswMm (p : Prefixes) (v : Option Rex) (reg : BitVec 3) (rm : RegMem) : Statement (.padduswMm p v reg rm) :=
  encodeLegacy_length _ _ p v reg rm

theorem padduswXmm (p : Prefixes) (v : Option Rex) (reg : BitVec 3) (rm : RegMem) : Statement (.padduswXmm p v reg rm) :=
  encodeLegacy_length _ _ p v reg rm

theorem vpaddusbXmmVex3 (p : Prefixes) (v : Vex3) (reg : BitVec 3) (rm : RegMem) : Statement (.vpaddusbXmmVex3 p v reg rm) :=
  encodeVex3_length _ _ p v reg rm

theorem vpaddusbXmmVex2 (p : Prefixes) (v : Vex2) (reg : BitVec 3) (rm : RegMem) : Statement (.vpaddusbXmmVex2 p v reg rm) :=
  encodeVex2_length _ _ p v reg rm

theorem vpadduswXmmVex3 (p : Prefixes) (v : Vex3) (reg : BitVec 3) (rm : RegMem) : Statement (.vpadduswXmmVex3 p v reg rm) :=
  encodeVex3_length _ _ p v reg rm

theorem vpadduswXmmVex2 (p : Prefixes) (v : Vex2) (reg : BitVec 3) (rm : RegMem) : Statement (.vpadduswXmmVex2 p v reg rm) :=
  encodeVex2_length _ _ p v reg rm

theorem vpaddusbYmmVex3 (p : Prefixes) (v : Vex3) (reg : BitVec 3) (rm : RegMem) : Statement (.vpaddusbYmmVex3 p v reg rm) :=
  encodeVex3_length _ _ p v reg rm

theorem vpaddusbYmmVex2 (p : Prefixes) (v : Vex2) (reg : BitVec 3) (rm : RegMem) : Statement (.vpaddusbYmmVex2 p v reg rm) :=
  encodeVex2_length _ _ p v reg rm

theorem vpadduswYmmVex3 (p : Prefixes) (v : Vex3) (reg : BitVec 3) (rm : RegMem) : Statement (.vpadduswYmmVex3 p v reg rm) :=
  encodeVex3_length _ _ p v reg rm

theorem vpadduswYmmVex2 (p : Prefixes) (v : Vex2) (reg : BitVec 3) (rm : RegMem) : Statement (.vpadduswYmmVex2 p v reg rm) :=
  encodeVex2_length _ _ p v reg rm

theorem vpaddusbXmmEvex (p : Prefixes) (v : Evex) (reg : BitVec 3) (rm : RegMem) : Statement (.vpaddusbXmmEvex p v reg rm) :=
  encodeEvex_length _ _ p v reg rm

theorem vpaddusbYmmEvex (p : Prefixes) (v : Evex) (reg : BitVec 3) (rm : RegMem) : Statement (.vpaddusbYmmEvex p v reg rm) :=
  encodeEvex_length _ _ p v reg rm

theorem vpaddusbZmmEvex (p : Prefixes) (v : Evex) (reg : BitVec 3) (rm : RegMem) : Statement (.vpaddusbZmmEvex p v reg rm) :=
  encodeEvex_length _ _ p v reg rm

theorem vpadduswXmmEvex (p : Prefixes) (v : Evex) (reg : BitVec 3) (rm : RegMem) : Statement (.vpadduswXmmEvex p v reg rm) :=
  encodeEvex_length _ _ p v reg rm

theorem vpadduswYmmEvex (p : Prefixes) (v : Evex) (reg : BitVec 3) (rm : RegMem) : Statement (.vpadduswYmmEvex p v reg rm) :=
  encodeEvex_length _ _ p v reg rm

theorem vpadduswZmmEvex (p : Prefixes) (v : Evex) (reg : BitVec 3) (rm : RegMem) : Statement (.vpadduswZmmEvex p v reg rm) :=
  encodeEvex_length _ _ p v reg rm

end LengthBounds

end Sys2Proof.Laws
end

