-- ==== Sys2Proof/Laws/Program.lean ====
section
/-! SUPPORT. What a run of a program can do (70_reset_and_hazards.md R200): it ends at `a_n` only, and an n-form program ends
within n steps. -/

namespace Sys2Proof.Machine

/-- From `s` the steps execute the forms of `p` one after another, and pc is `stop` behind the last of them and nowhere
before. -/
def RunsAs (stop : Word64) : Program → State → Prop
  | [], s => s.pc = stop
  | i :: p, s => s.pc ≠ stop ∧ step s = exec i s ∧ ∀ t, exec i s = .next t → RunsAs stop p t

/-- The last of the addresses of a program is where it ends. -/
theorem addresses_getLast (m : Mode) (p : Program) (a : Word64) :
    (p.addresses m a).getLast? = some (p.endAt m a) := by
  induction p generalizing a with
  | nil => rfl
  | cons i p ih =>
    have h := ih (addrAfter m i a)
    simp only [Program.addresses, Program.endAt]
    rw [List.getLast?_cons, h]
    rfl

/-- An `n`-form program has `n + 1` addresses. -/
theorem addresses_length (m : Mode) (p : Program) (a : Word64) : (p.addresses m a).length = p.length + 1 := by
  induction p generalizing a with
  | nil => rfl
  | cons i p ih => simp [Program.addresses, ih]

/-- A finished run ends at the address after the last form. -/
theorem runTo_finished (stop : Word64) (n : Nat) (s t : State) (h : runTo stop n s = .finished t) : t.pc = stop := by
  induction n generalizing s with
  | zero =>
    simp only [runTo] at h
    split at h
    · cases h; assumption
    · cases h
  | succ n ih =>
    simp only [runTo] at h
    split at h
    · cases h; assumption
    · split at h
      · exact ih _ h
      · cases h
      · cases h

/-- Every run of an `n`-form program takes at most `n` steps: more of them change nothing, and none is left unfinished. -/
theorem runTo_bound (stop : Word64) (p : Program) (s : State) (h : RunsAs stop p s) :
    (∀ k, runTo stop (p.length + k) s = runTo stop p.length s) ∧ ∀ t, runTo stop p.length s ≠ .unfinished t := by
  induction p generalizing s with
  | nil =>
    have hs : s.pc = stop := h
    refine ⟨fun k => ?_, fun t => by simp [runTo, hs]⟩
    cases k <;> simp [runTo, hs]
  | cons i p ih =>
    obtain ⟨hne, he, hn⟩ := h
    rw [List.length_cons]
    simp only [runTo, if_neg hne, he, Nat.add_right_comm _ 1]
    cases hx : exec i s with
    | next t => simpa using ih t (hn t hx)
    | fault f => simp
    | refused r => simp

end Sys2Proof.Machine
end

