-- ==== Sys2Proof/Laws/Runs.lean ====
section
/-! SUPPORT. One lemma per run that says once all it can do, in the order of 60_exceptions.md R168. -/

namespace Sys2Proof.Machine

/-- The stops an operand of any row can have: a refusal, #SS, #GP or #PF. -/
def Stop.ofOperand (t : Stop) : Prop :=
  (∃ r, t = .refuse r) ∨ t = .exc .ss ∨ t = .exc .gp ∨ ∃ c a, t = .exc (.pf c a)

/-- The segment test of 32-bit mode stops as an operand does. -/
theorem segmentStop_ofOperand (s : State) (c : AddrCtx) (ov : Option SegName) (a : MemAddr) (n : Nat) (t : Stop)
    (h : s.segmentStop c ov a n = some t) : t.ofOperand := by
  unfold State.segmentStop at h
  split at h
  · cases h
  · dsimp only at h
    split at h
    · cases h; exact .inl ⟨_, rfl⟩
    · split at h
      · cases h; exact .inl ⟨_, rfl⟩
      · cases h

/-- The tests of the operand's bytes stop as an operand does. -/
theorem byteStop_ofOperand (s : State) (m : Mode) (p : Place) (al : Bool) (sel : Nat → Bool) (t : Stop)
    (h : s.byteStop m p al sel = some t) : t.ofOperand := by
  unfold State.byteStop at h
  split at h
  · split at h
    · cases h; exact .inl ⟨_, rfl⟩
    · split at h
      · cases h; exact .inr (.inl rfl)
      · cases h; exact .inr (.inr (.inl rfl))
  · split at h
    · cases h; exact .inr (.inr (.inl rfl))
    · obtain ⟨q, -, rfl⟩ := pickFault_mem s _ t h
      exact .inr (.inr (.inr ⟨_, _, rfl⟩))

/-- The read itself stops on device memory only (R62, D8). -/
theorem readOperand_error (s : State) (m : Mode) (p : Place) (N : Nat) (t : Stop)
    (h : s.readOperand m p N = .error t) : t = .refuse .deviceMemory := by
  unfold State.readOperand at h
  split at h
  · cases h; rfl
  · cases h

/-- Reading the second source operand of rows 1 and 3 stops as an operand does, or with #AC. -/
theorem sourceMm_error (s : State) (m : Mode) (p : Prefixes) (x : Option Rex) (len : Nat) (rm : RegMem) (t : Stop)
    (h : s.sourceMm m p x len rm = .error t) : (∃ a, rm = .mem a) ∧ (t.ofOperand ∨ t = .exc .ac) := by
  cases rm with
  | reg r => cases h
  | mem a =>
    refine ⟨⟨a, rfl⟩, ?_⟩
    simp only [State.sourceMm, State.loadMm] at h
    split at h
    · next hs => cases h; exact .inl (segmentStop_ofOperand _ _ _ _ _ _ hs)
    · split at h
      · next hs => cases h; exact .inl (byteStop_ofOperand _ _ _ _ _ _ hs)
      · split at h
        · cases h; exact .inr rfl
        · exact .inl (.inl ⟨_, readOperand_error _ _ _ _ _ h⟩)

/-- Reading the second source operand of rows 2 and 4 stops as an operand does. -/
theorem sourceSse_error (s : State) (m : Mode) (p : Prefixes) (x : Option Rex) (len : Nat) (rm : RegMem) (t : Stop)
    (h : s.sourceSse m p x len rm = .error t) : (∃ a, rm = .mem a) ∧ t.ofOperand := by
  cases rm with
  | reg r => cases h
  | mem a =>
    refine ⟨⟨a, rfl⟩, ?_⟩
    simp only [State.sourceSse, State.loadSse] at h
    split at h
    · next hs => cases h; exact segmentStop_ofOperand _ _ _ _ _ _ hs
    · split at h
      · next hs => cases h; exact byteStop_ofOperand _ _ _ _ _ _ hs
      · exact .inl ⟨_, readOperand_error _ _ _ _ _ h⟩

/-- The end of a VEX or EVEX load stops as an operand does. -/
theorem loadUnaligned_error (s : State) (m : Mode) (p : Place) (N : Nat) (t : Stop)
    (h : s.loadUnaligned m p N = .error t) : t.ofOperand := by
  unfold State.loadUnaligned at h
  split at h
  · cases h; exact .inl ⟨_, rfl⟩
  · exact .inl ⟨_, readOperand_error _ _ _ _ _ h⟩

/-- Reading the second source operand of rows 5 to 8 stops as an operand does. -/
theorem sourceVex_error (s : State) (m : Mode) (p : Prefixes) (v : Vex3) (len N : Nat) (rm : RegMem) (t : Stop)
    (h : s.sourceVex m p v len N rm = .error t) : (∃ a, rm = .mem a) ∧ t.ofOperand := by
  cases rm with
  | reg r => cases h
  | mem a =>
    refine ⟨⟨a, rfl⟩, ?_⟩
    simp only [State.sourceVex, State.loadVex] at h
    split at h
    · cases h; exact .inl ⟨_, rfl⟩
    · split at h
      · next hs => cases h; exact segmentStop_ofOperand _ _ _ _ _ _ hs
      · split at h
        · next hs => cases h; exact byteStop_ofOperand _ _ _ _ _ _ hs
        · exact loadUnaligned_error _ _ _ _ _ h

/-- Reading the second source operand of rows 9 to 14 stops as an operand does. -/
theorem sourceEvex_error (s : State) (m : Mode) (p : Prefixes) (v : Evex) (len w N : Nat) (rm : RegMem) (t : Stop)
    (h : s.sourceEvex m p v len w N rm = .error t) : (∃ a, rm = .mem a) ∧ t.ofOperand := by
  cases rm with
  | reg r => cases h
  | mem a =>
    refine ⟨⟨a, rfl⟩, ?_⟩
    simp only [State.sourceEvex, State.loadEvex] at h
    split at h
    · cases h; exact .inl ⟨_, rfl⟩
    · split at h
      · next hs => cases h; exact segmentStop_ofOperand _ _ _ _ _ _ hs
      · split at h
        · next hs => cases h; exact byteStop_ofOperand _ _ _ _ _ _ hs
        · split at h
          · cases h; exact .inl ⟨_, rfl⟩
          · exact loadUnaligned_error _ _ _ _ _ h

/-- Rows 1 and 3 (R156, R160, R161, R168): #UD, #NM, the pending x87 exception, an operand that stops, or completion. -/
theorem runMmx_cases (w : Nat) (p : Prefixes) (x : Option Rex) (reg : BitVec 3) (rm : RegMem) (len : Nat) (s : State)
    (m : Mode) (hm : s.mode = some m) :
    (s.udMmx = true ∧ runMmx w p x reg rm len s = raise .ud s) ∨
    (s.udMmx = false ∧ s.cr0TS = true ∧ runMmx w p x reg rm len s = raise .nm s) ∨
    (s.udMmx = false ∧ s.cr0TS = false ∧ s.x87Pending = true ∧
      runMmx w p x reg rm len s = if s.cr0NE then raise .mf s else .refused .x87ExternalReport) ∨
    (s.udMmx = false ∧ s.cr0TS = false ∧ s.x87Pending = false ∧
      ∃ t, (∃ a, rm = .mem a) ∧ (t.ofOperand ∨ t = .exc .ac) ∧ s.sourceMm m p x len rm = .error t ∧
      runMmx w p x reg rm len s = t.outcome s) ∨
    (s.udMmx = false ∧ s.cr0TS = false ∧ s.x87Pending = false ∧
      ∃ y n, s.sourceMm m p x len rm = .ok (y, { s with draws := n }) ∧
      runMmx w p x reg rm len s =
        .next ((({ s with draws := n } : State).writeMm reg (addUS w 64 (s.mm reg) y)).advance m len)) := by
  unfold runMmx
  rw [hm]
  dsimp only
  cases h1 : s.udMmx
  · cases h2 : s.cr0TS
    · cases h3 : s.x87Pending
      · cases h4 : s.sourceMm m p x len rm with
        | error t =>
          have := sourceMm_error _ _ _ _ _ _ _ h4
          exact .inr (.inr (.inr (.inl ⟨rfl, rfl, rfl, t, this.1, this.2, rfl, by simp⟩)))
        | ok q =>
          have := sourceMm_state _ _ _ _ _ _ _ _ h4
          obtain ⟨y, t⟩ := q
          dsimp only at this
          rw [this]
          exact .inr (.inr (.inr (.inr ⟨rfl, rfl, rfl, y, t.draws, rfl, by simp⟩)))
      · simp
    · simp
  · simp

/-- Rows 2 and 4 (R157, R161, R168): #UD, #NM, an operand that stops, or completion. -/
theorem runSse_cases (w : Nat) (p : Prefixes) (x : Option Rex) (reg : BitVec 3) (rm : RegMem) (len : Nat) (s : State)
    (m : Mode) (hm : s.mode = some m) :
    (s.udSse = true ∧ runSse w p x reg rm len s = raise .ud s) ∨
    (s.udSse = false ∧ s.cr0TS = true ∧ runSse w p x reg rm len s = raise .nm s) ∨
    (s.udSse = false ∧ s.cr0TS = false ∧ ∃ t, (∃ a, rm = .mem a) ∧ t.ofOperand ∧
      s.sourceSse m p x len rm = .error t ∧ runSse w p x reg rm len s = t.outcome s) ∨
    (s.udSse = false ∧ s.cr0TS = false ∧
      ∃ y n, s.sourceSse m p x len rm = .ok (y, { s with draws := n }) ∧
      runSse w p x reg rm len s =
        .next ((({ s with draws := n } : State).writeLow128 (regNum5 m false (rexFields x).r reg)
        (addUS w 128 ((s.vreg (regNum5 m false (rexFields x).r reg)).setWidth 128) y)).advance m len)) := by
  unfold runSse
  rw [hm]
  dsimp only
  cases h1 : s.udSse
  · cases h2 : s.cr0TS
    · cases h4 : s.sourceSse m p x len rm with
      | error t =>
        have := sourceSse_error _ _ _ _ _ _ _ h4
        exact .inr (.inr (.inl ⟨rfl, rfl, t, this.1, this.2, rfl, by simp⟩))
      | ok q =>
        have := sourceSse_state _ _ _ _ _ _ _ _ h4
        obtain ⟨y, t⟩ := q
        dsimp only at this
        rw [this]
        exact .inr (.inr (.inr ⟨rfl, rfl, y, t.draws, rfl, by simp⟩))
    · simp
  · simp

/-- Rows 5 to 8 (R158, R161, R168): #UD, #NM, an operand that stops, or completion. -/
theorem runVex_cases (w N : Nat) (p : Prefixes) (v : Vex3) (reg : BitVec 3) (rm : RegMem) (len : Nat) (s : State)
    (m : Mode) (hm : s.mode = some m) :
    (s.udVex (N == 256) = true ∧ runVex w N p v reg rm len s = raise .ud s) ∨
    (s.udVex (N == 256) = false ∧ s.cr0TS = true ∧ runVex w N p v reg rm len s = raise .nm s) ∨
    (s.udVex (N == 256) = false ∧ s.cr0TS = false ∧ ∃ t, (∃ a, rm = .mem a) ∧ t.ofOperand ∧
      s.sourceVex m p v len N rm = .error t ∧ runVex w N p v reg rm len s = t.outcome s) ∨
    (s.udVex (N == 256) = false ∧ s.cr0TS = false ∧
      ∃ y n, s.sourceVex m p v len N rm = .ok (y, { s with draws := n }) ∧
      runVex w N p v reg rm len s =
        .next ((({ s with draws := n } : State).writeZeroing (regNum5 m false v.r reg)
        (addUS w N ((s.vreg (vvvvNum m false v.vvvv)).setWidth N) y)).advance m len)) := by
  unfold runVex
  rw [hm]
  dsimp only
  cases h1 : s.udVex (N == 256)
  · cases h2 : s.cr0TS
    · cases h4 : s.sourceVex m p v len N rm with
      | error t =>
        have := sourceVex_error _ _ _ _ _ _ _ _ h4
        exact .inr (.inr (.inl ⟨rfl, rfl, t, this.1, this.2, rfl, by simp⟩))
      | ok q =>
        have := sourceVex_state _ _ _ _ _ _ _ _ _ h4
        obtain ⟨y, t⟩ := q
        dsimp only at this
        rw [this]
        exact .inr (.inr (.inr ⟨rfl, rfl, y, t.draws, rfl, by simp⟩))
    · simp
  · simp

/-- Rows 9 to 14 (R159, R161, R168): #UD, #NM, an operand that stops, or completion. -/
theorem runEvex_cases (w N : Nat) (p : Prefixes) (v : Evex) (reg : BitVec 3) (rm : RegMem) (len : Nat) (s : State)
    (m : Mode) (hm : s.mode = some m) :
    (s.udEvex (N == 512) v.z v.aaa = true ∧ runEvex w N p v reg rm len s = raise .ud s) ∨
    (s.udEvex (N == 512) v.z v.aaa = false ∧ s.cr0TS = true ∧ runEvex w N p v reg rm len s = raise .nm s) ∨
    (s.udEvex (N == 512) v.z v.aaa = false ∧ s.cr0TS = false ∧ ∃ t, (∃ a, rm = .mem a) ∧ t.ofOperand ∧
      s.sourceEvex m p v len w N rm = .error t ∧ runEvex w N p v reg rm len s = t.outcome s) ∨
    (s.udEvex (N == 512) v.z v.aaa = false ∧ s.cr0TS = false ∧
      ∃ y n, s.sourceEvex m p v len w N rm = .ok (y, { s with draws := n }) ∧
      runEvex w N p v reg rm len s =
        .next ((({ s with draws := n } : State).writeZeroing (regNum5 m v.rHi v.r reg)
        (evexAddUS w N v.aaa v.z (s.mask v.aaa) ((s.vreg (regNum5 m v.rHi v.r reg)).setWidth N)
          ((s.vreg (vvvvNum m v.vHi v.vvvv)).setWidth N) y)).advance m len)) := by
  unfold runEvex
  rw [hm]
  dsimp only
  cases h1 : s.udEvex (N == 512) v.z v.aaa
  · cases h2 : s.cr0TS
    · cases h4 : s.sourceEvex m p v len w N rm with
      | error t =>
        have := sourceEvex_error _ _ _ _ _ _ _ _ _ h4
        exact .inr (.inr (.inl ⟨rfl, rfl, t, this.1, this.2, rfl, by simp⟩))
      | ok q =>
        have := sourceEvex_state _ _ _ _ _ _ _ _ _ _ h4
        obtain ⟨y, t⟩ := q
        dsimp only at this
        rw [this]
        exact .inr (.inr (.inr ⟨rfl, rfl, y, t.draws, rfl, by simp⟩))
    · simp
  · simp

/-! ### One step -/

/-- All a step can do in a mode of the spec with a flat code segment (00_scope.md R14, 60_exceptions.md R168 items 1 to 3): run
the decoded instruction, raise #UD or #GP(0), or stop for a byte the fetch does not reach or for what the decoder refuses. -/
theorem step_cases (s : State) (m : Mode) (hm : s.mode = some m) (hc : s.codeSegmentOk m = true) :
    let v := (decode m (s.fetchWindow m).1).under s.feat
    (∃ i n, decode m (s.fetchWindow m).1 = .form i n ∧ step s = exec i s) ∨
    (v = .ud ∧ step s = raise .ud s) ∨
    (v = .lengthGp ∧ step s = raise .gp s) ∨
    (v = .reject .truncated ∧ (s.fetchWindow m).2 = none ∧ step s = raise .gp s) ∨
    (v = .reject .truncated ∧ ∃ r, (s.fetchWindow m).2 = some r ∧ step s = .refused r) ∨
    (∃ r, r ≠ .truncated ∧ v = .reject r ∧ step s = .refused (.encoding r)) := by
  intro v
  have hs : step s = match v with
      | .form i _ => exec i s
      | .ud => raise .ud s
      | .lengthGp => raise .gp s
      | .reject .truncated =>
        match (s.fetchWindow m).2 with
        | some r => .refused r
        | none => raise .gp s
      | .reject r => .refused (.encoding r)
      | .barred r _ _ => .refused (.encoding r) := by
    simp only [step, hm]
    exact if_neg (by simp [hc])
  rw [hs]
  cases hv : v with
  | form i n => exact .inl ⟨i, n, (under_eq_form_iff _ _ _ _).mp hv, rfl⟩
  | ud => exact .inr (.inl ⟨rfl, rfl⟩)
  | lengthGp => exact .inr (.inr (.inl ⟨rfl, rfl⟩))
  | reject r =>
    by_cases ht : r = .truncated
    · subst ht
      cases hw : (s.fetchWindow m).2 with
      | none => exact .inr (.inr (.inr (.inl ⟨rfl, rfl, rfl⟩)))
      | some q => exact .inr (.inr (.inr (.inr (.inl ⟨rfl, q, rfl, rfl⟩))))
    · exact .inr (.inr (.inr (.inr (.inr ⟨r, ht, rfl, by cases r <;> first | rfl | exact absurd rfl ht⟩))))
  | barred r need len => exact absurd hv (under_ne_barred _ _ _ _ _)

end Sys2Proof.Machine
end

