-- ==== Sys2Proof/Tests/Slice0.lean ====
section
/-! SUPPORT. Tests of the model against words and vectors of 95_test_vectors.md, ill-formed terms each check of
WellFormed refuses, and a state that meets the hypotheses of each statement. -/

namespace Sys2Proof.Tests

open Sys2Proof Sys2Proof.Machine

set_option Elab.async false

/-! ### States -/

/-- 64-bit mode, everything enabled, `pc = 400000`. -/
def s64 : State := { State.reset.launch64 with pc := 0x400000#64 }

/-- A flat 32-bit segment with CPL 0 in its selector. -/
def flat : SegReg := ⟨0x8#16, 0#64, 0xFFFFFFFF#32, true, true, false, true⟩

/-- 32-bit protected mode with flat segments, everything enabled, `pc = 8000`. -/
def s32 : State := { s64 with efer := 0#64, segs := ⟨flat, flat, flat, flat, flat, flat⟩, pc := 0x8000#64 }

/-- `s` at CPL 3 with alignment checking on. -/
def checked (s : State) : State :=
  { s with
    cr0 := s.cr0 ||| 0x40000#64
    rflags := s.rflags ||| 0x40000#64
    segs := { s.segs with cs := { s.segs.cs with selector := 0xB#16 } } }

/-- A translation that faults, at any privilege, from `base` on for `size` bytes: not present. -/
def hole (base size : Nat) (s : State) : State :=
  { s with platform := { s.platform with
      translation := [⟨base, size, .fault false false false, .fault false false false⟩] } }

/-- A device from physical address `base` on for `size` bytes. -/
def device (base size : Nat) (s : State) : State :=
  { s with platform := { s.platform with memKinds := [⟨base, size, .device⟩] } }

/-- Bytes stored from a physical address on. -/
def put (s : State) (a : Nat) : List Byte → State
  | [] => s
  | b :: bs => put { s with mem := memWrite s.mem a b } (a + 1) bs

/-- `x[i] <- y`. -/
def gp (s : State) (i : Nat) (y : Word64) : State := { s with x := s.x.setIfInBounds i y }

/-- `mm[i] <- y`. -/
def mmx (s : State) (i : Nat) (y : Word64) : State := { s with fpr := s.fpr.setIfInBounds i (y.setWidth 80) }

/-- `k[i] <- y`. -/
def opmask (s : State) (i : Nat) (y : Word64) : State := { s with k := s.k.setIfInBounds i y }

/-- `v[i] <- y`. -/
def vec (s : State) (i : Nat) (y : VReg) : State := { s with v := s.v.setIfInBounds i y }

/-- The step at `s` with the bytes placed at its pc, in 64-bit mode. -/
def run (s : State) (bs : List Byte) : Result := step (s.placeCode .m64 bs 0)

/-- The same in 32-bit mode. -/
def run32 (s : State) (bs : List Byte) : Result := step (s.placeCode .m32 bs 0)

/-- One view of the next state. -/
def after {α : Type} (r : Result) (f : State → α) : Option α :=
  match r with
  | .next t => some (f t)
  | _ => none

/-- Vector number and error code of a fault. -/
def faulted (r : Result) : Option (Nat × Option (BitVec 32)) :=
  match r with
  | .fault f => some (f.vector, f.errorCode)
  | _ => none

/-- The refusal, if there is one. -/
def refusal (r : Result) : Option Refusal :=
  match r with
  | .refused q => some q
  | _ => none

/-- An outcome that has a next state is one. -/
theorem next_of_after {r : Result} (h : (after r fun _ => ()) = some ()) : ∃ t, r = .next t := by
  cases r with
  | next t => exact ⟨t, rfl⟩
  | fault f => cases h
  | refused q => cases h

/-- An outcome that has a vector number is a fault with that number. -/
theorem fault_of_faulted {r : Result} {n : Nat} {e : Option (BitVec 32)} (h : faulted r = some (n, e)) :
    ∃ f, r = .fault f ∧ f.vector = n ∧ f.errorCode = e := by
  cases r with
  | next t => cases h
  | fault f => cases h; exact ⟨f, rfl, rfl, rfl⟩
  | refused q => cases h

/-- A byte of an operand fails to translate. -/
def fails (s : State) (m : Mode) (lin : Word64) (k : Nat) : Bool :=
  match s.translate (linByte m lin k) with
  | .ok _ => false
  | .error _ => true

/-- What `fails` says. -/
theorem error_of_fails {s : State} {m : Mode} {lin : Word64} {k : Nat} (h : fails s m lin k = true) :
    ∃ e, s.translate (linByte m lin k) = .error e := by
  unfold fails at h
  split at h
  · cases h
  · next e he => exact ⟨e, he⟩

/-- What its negation says. -/
theorem ok_of_not_fails {s : State} {m : Mode} {lin : Word64} {k : Nat} (h : fails s m lin k = false) :
    ∃ b, s.translate (linByte m lin k) = .ok b := by
  unfold fails at h
  split at h
  · next b hb => exact ⟨b, hb⟩
  · cases h

/-- A byte of an operand is readable. -/
def readableByte (s : State) (m : Mode) (p : Place) (k : Nat) : Bool :=
  canonical m s.platform.laBits (linByte m p.lin k) && !fails s m p.lin k
    && s.kindAt (s.physOf (linByte m p.lin k)) != .device

/-- What `readableByte` says. -/
theorem readable_of_bytes {s : State} {m : Mode} {p : Place} (h : ∀ k < p.size, readableByte s m p k = true) :
    s.Readable m p := by
  intro k hk
  have h1 := h k hk
  unfold readableByte fails State.physOf at h1
  simp only [Bool.and_eq_true, bne_iff_ne] at h1
  refine ⟨h1.1.1, ?_⟩
  revert h1
  cases s.translate (linByte m p.lin k) with
  | ok a => exact fun h1 => ⟨a, rfl, h1.2⟩
  | error e => exact fun h1 => absurd h1.1.2 Bool.false_ne_true

/-! ### Decoding: one word of every constructor, written out from 30_encoding.md (R70 to R100) and 95_test_vectors.md 4 -/

theorem test_decode_paddusbMm :
    decode .m64 [0x0F, 0xDC, 0xC1] =
      .form (.paddusbMm ⟨none, false⟩ none 0#3 (.reg 1#3)) 3 := by decide

theorem test_decode_padduswMm :
    decode .m32 [0x0F, 0xDD, 0x0D, 0x00, 0x20, 0x00, 0x00] =
      .form (.padduswMm ⟨none, false⟩ none 1#3 (.mem ⟨0#2, 5#3, none, .disp32 0x2000#32⟩)) 7 := by decide

theorem test_decode_paddusbXmm :
    decode .m32 [0x64, 0x66, 0x0F, 0xDC, 0x13] =
      .form (.paddusbXmm ⟨some .fs, false⟩ none 2#3 (.mem ⟨0#2, 3#3, none, .none⟩)) 5 := by decide

theorem test_decode_padduswXmm :
    decode .m64 [0x66, 0x45, 0x0F, 0xDD, 0xC8] =
      .form (.padduswXmm ⟨none, false⟩ (some ⟨false, true, false, true⟩) 1#3 (.reg 0#3)) 5 := by decide

theorem test_decode_vpaddusbXmmVex3 :
    decode .m64 [0xC4, 0xE1, 0xE9, 0xDC, 0xCB] =
      .form (.vpaddusbXmmVex3 ⟨none, false⟩ ⟨false, false, false, true, 2#4⟩ 1#3 (.reg 3#3)) 5 := by decide

theorem test_decode_vpaddusbXmmVex2 :
    decode .m32 [0xC5, 0xC9, 0xDC, 0xEF] =
      .form (.vpaddusbXmmVex2 ⟨none, false⟩ ⟨false, 6#4⟩ 5#3 (.reg 7#3)) 4 := by decide

theorem test_decode_vpadduswXmmVex3 :
    decode .m64 [0xC4, 0xA1, 0x69, 0xDD, 0x4C, 0x8B, 0x10] =
      .form (.vpadduswXmmVex3 ⟨none, false⟩ ⟨false, true, false, false, 2#4⟩ 1#3 (.mem ⟨1#2, 4#3, some ⟨2#2, 1#3, 3#3⟩, .disp8 0x10#8⟩)) 7 := by decide

theorem test_decode_vpadduswXmmVex2 :
    decode .m64 [0xC5, 0x69, 0xDD, 0x4C, 0x8B, 0x10] =
      .form (.vpadduswXmmVex2 ⟨none, false⟩ ⟨true, 2#4⟩ 1#3 (.mem ⟨1#2, 4#3, some ⟨2#2, 1#3, 3#3⟩, .disp8 0x10#8⟩)) 6 := by decide

theorem test_decode_vpaddusbYmmVex3 :
    decode .m64 [0xC4, 0x41, 0x2D, 0xDC, 0x20] =
      .form (.vpaddusbYmmVex3 ⟨none, false⟩ ⟨true, false, true, false, 10#4⟩ 4#3 (.mem ⟨0#2, 0#3, none, .none⟩)) 5 := by decide

theorem test_decode_vpaddusbYmmVex2 :
    decode .m64 [0xC5, 0xFD, 0xDC, 0xC0] =
      .form (.vpaddusbYmmVex2 ⟨none, false⟩ ⟨false, 0#4⟩ 0#3 (.reg 0#3)) 4 := by decide

theorem test_decode_vpadduswYmmVex3 :
    decode .m64 [0xC4, 0xE1, 0x7D, 0xDD, 0xD1] =
      .form (.vpadduswYmmVex3 ⟨none, false⟩ ⟨false, false, false, false, 0#4⟩ 2#3 (.reg 1#3)) 5 := by decide

theorem test_decode_vpadduswYmmVex2 :
    decode .m32 [0xC5, 0xFD, 0xDD, 0xD1] =
      .form (.vpadduswYmmVex2 ⟨none, false⟩ ⟨false, 0#4⟩ 2#3 (.reg 1#3)) 4 := by decide

theorem test_decode_vpaddusbXmmEvex :
    decode .m64 [0x62, 0xF1, 0x6D, 0x89, 0xDC, 0xCB] =
      .form (.vpaddusbXmmEvex ⟨none, false⟩ ⟨false, false, false, false, false, 2#4, false, true, 1#3⟩ 1#3 (.reg 3#3)) 6 := by decide

theorem test_decode_vpaddusbYmmEvex :
    decode .m64 [0x62, 0xF1, 0x6D, 0x2B, 0xDC, 0x4A, 0x01] =
      .form (.vpaddusbYmmEvex ⟨none, false⟩ ⟨false, false, false, false, false, 2#4, false, false, 3#3⟩ 1#3 (.mem ⟨1#2, 2#3, none, .disp8 1#8⟩)) 7 := by decide

theorem test_decode_vpaddusbZmmEvex :
    decode .m64 [0x62, 0x91, 0x75, 0xC2, 0xDC, 0xEE] =
      .form (.vpaddusbZmmEvex ⟨none, false⟩ ⟨false, true, true, false, false, 1#4, true, true, 2#3⟩ 5#3 (.reg 6#3)) 6 := by decide

theorem test_decode_vpadduswXmmEvex :
    decode .m64 [0x62, 0xF1, 0x75, 0x08, 0xDD, 0xC9] =
      .form (.vpadduswXmmEvex ⟨none, false⟩ ⟨false, false, false, false, false, 1#4, false, false, 0#3⟩ 1#3 (.reg 1#3)) 6 := by decide

theorem test_decode_vpadduswYmmEvex :
    decode .m32 [0x62, 0xF1, 0x6D, 0x28, 0xDD, 0xCB] =
      .form (.vpadduswYmmEvex ⟨none, false⟩ ⟨false, false, false, false, false, 2#4, false, false, 0#3⟩ 1#3 (.reg 3#3)) 6 := by decide

theorem test_decode_vpadduswZmmEvex :
    decode .m64 [0x62, 0xE1, 0x5D, 0x47, 0xDD, 0x64, 0x24, 0xFF] =
      .form (.vpadduswZmmEvex ⟨none, false⟩ ⟨false, false, false, true, false, 4#4, true, false, 7#3⟩ 4#3 (.mem ⟨1#2, 4#3, some ⟨0#2, 4#3, 4#3⟩, .disp8 0xFF#8⟩)) 8 := by decide

/-! ### Decoding: what is no form (95_test_vectors.md 4, R101) -/

theorem test_no_form_inc_ebp_before_form : decode .m32 [0x66, 0x45, 0x0F, 0xDD, 0xC8] = .reject .otherInstruction := by decide

theorem test_no_form_rex_before_66 : decode .m64 [0x45, 0x66, 0x0F, 0xDD, 0xC8] = .barred .rexMisplaced .sse (some 5) := by decide

theorem test_no_form_two_rex : decode .m64 [0x48, 0x41, 0x0F, 0xDC, 0xC1] = .barred .rexMisplaced .mmx (some 5) := by decide

theorem test_no_form_f3_legacy : decode .m64 [0xF3, 0x0F, 0xDC, 0xC1] = .reject .reservedMapEntry := by decide

theorem test_no_form_f2_legacy : decode .m32 [0xF2, 0x0F, 0xDD, 0xC1] = .reject .reservedMapEntry := by decide

theorem test_no_form_lock_legacy : decode .m64 [0xF0, 0x0F, 0xDC, 0xC1] = .ud := by decide

theorem test_no_form_lds : decode .m32 [0xC5, 0x69, 0xDD, 0x4C, 0x8B, 0x10] = .reject .otherInstruction := by decide

theorem test_no_form_map_0f38 : decode .m64 [0xC4, 0xE2, 0x69, 0xDC, 0xCB] = .reject .otherInstruction := by decide

theorem test_no_form_vex_pp_10 : decode .m64 [0xC5, 0xEA, 0xDC, 0xCB] = .reject .otherInstruction := by decide

theorem test_no_form_vex_after_66 : decode .m64 [0x66, 0xC5, 0xE9, 0xDC, 0xCB] = .ud := by decide

theorem test_no_form_vex_after_f3 : decode .m64 [0xF3, 0xC5, 0xE9, 0xDC, 0xCB] = .ud := by decide

theorem test_no_form_vex_after_lock : decode .m32 [0xF0, 0xC5, 0xE9, 0xDC, 0xCB] = .ud := by decide

theorem test_no_form_vex_after_rex : decode .m64 [0x48, 0xC5, 0xE9, 0xDC, 0xCB] = .ud := by decide

theorem test_no_form_evex_b : decode .m64 [0x62, 0xF1, 0x6D, 0x18, 0xDC, 0xCB] = .ud := by decide

theorem test_no_form_evex_ll_11 : decode .m64 [0x62, 0xF1, 0x6D, 0x68, 0xDC, 0xCB] = .ud := by decide

theorem test_no_form_evex_z_without_mask : decode .m64 [0x62, 0xF1, 0x6D, 0x88, 0xDC, 0xCB] = .ud := by decide

theorem test_no_form_evex_p0_reserved : decode .m64 [0x62, 0xF5, 0x6D, 0x08, 0xDC, 0xCB] = .ud := by decide

theorem test_no_form_evex_p1_reserved : decode .m64 [0x62, 0xF1, 0x69, 0x08, 0xDC, 0xCB] = .ud := by decide

theorem test_no_form_bound : decode .m32 [0x62, 0x71, 0x6D, 0x08, 0xDC, 0xCB] = .reject .otherInstruction := by decide

theorem test_no_form_evex_r_prime_in_m32 : decode .m32 [0x62, 0xE1, 0x6D, 0x08, 0xDC, 0xCB] = .reject .extensionBitsIn32 := by decide

theorem test_no_form_vex_vvvv_in_m32 : decode .m32 [0xC4, 0xE1, 0x29, 0xDC, 0xCB] = .reject .extensionBitsIn32 := by decide

theorem test_no_form_repeated_66 : decode .m64 [0x66, 0x66, 0x0F, 0xDC, 0xC1] = .barred .redundantPrefix .sse (some 5) := by decide

theorem test_no_form_two_segments : decode .m64 [0x2E, 0x64, 0x0F, 0xDC, 0xC1] = .barred .redundantPrefix .mmx (some 5) := by decide

theorem test_no_form_vex_16_bit_addressing : decode .m32 [0x67, 0xC5, 0xE9, 0xDC, 0x08] = .reject .addressing16Vex := by decide

theorem test_no_form_paddb : decode .m64 [0x0F, 0xFC, 0xC1] = .reject .otherInstruction := by decide

theorem test_no_form_cut_short : decode .m64 [0x66, 0x0F, 0xDC] = .reject .truncated := by decide

theorem test_no_form_lock_cut_short : decode .m64 [0xF0, 0x0F, 0xDC] = .reject .truncated := by decide

theorem test_no_form_evex_b_cut_short : decode .m64 [0x62, 0xF1, 0x6D, 0x18, 0xDC] = .reject .truncated := by decide

theorem test_no_form_lock_lock : decode .m64 [0xF0, 0xF0, 0x0F, 0xDC, 0xC1] = .ud := by decide

theorem test_no_form_rex_then_lock : decode .m64 [0x48, 0xF0, 0x0F, 0xDC, 0xC1] = .ud := by decide

theorem test_no_form_lock_behind_segment : decode .m64 [0x64, 0xF0, 0x0F, 0xDC, 0x00] = .ud := by decide

theorem test_no_form_repeated_66_before_vex : decode .m64 [0x66, 0x66, 0xC5, 0xE9, 0xDC, 0xCB] = .ud := by decide

theorem test_no_form_segment_rex_before_vex : decode .m64 [0x64, 0x48, 0xC5, 0xE9, 0xDC, 0xCB] = .ud := by decide

theorem test_no_form_repeated_segment_before_vex : decode .m64 [0x64, 0x64, 0xC5, 0xE9, 0xDC, 0xCB] = .barred .redundantPrefix (.vex false) (some 6) := by decide

theorem test_no_form_repeated_segment_evex_b : decode .m64 [0x64, 0x64, 0x62, 0xF1, 0x6D, 0x18, 0xDC, 0xCB] = .ud := by decide

theorem test_no_form_lock_past_15_bytes : decode .m64 [0x64, 0x64, 0x64, 0x64, 0x64, 0x64, 0x64, 0x64, 0x64, 0x64, 0x64, 0x64, 0xF0, 0x0F, 0xDC, 0xC1] = .lengthGp := by decide

theorem test_no_form_repeated_66_cut_short : decode .m64 [0x66, 0x66, 0x0F] = .reject .redundantPrefix := by decide

theorem test_no_form_repeated_66_apart : decode .m64 [0x66, 0x67, 0x66, 0x0F, 0xDC, 0xC1] = .barred .redundantPrefix .sse (some 6) := by decide

theorem test_no_form_rex_segment_before_vex : decode .m64 [0x48, 0x64, 0xC5, 0xE9, 0xDC, 0xCB] = .ud := by decide

theorem test_no_form_rex_14_then_nop : decode .m64 [0x48, 0x48, 0x48, 0x48, 0x48, 0x48, 0x48, 0x48, 0x48, 0x48, 0x48, 0x48, 0x48, 0x48, 0x90] = .reject .otherInstruction := by decide

theorem test_no_form_rex_14_then_vex : decode .m64 [0x48, 0x48, 0x48, 0x48, 0x48, 0x48, 0x48, 0x48, 0x48, 0x48, 0x48, 0x48, 0x48, 0x48, 0xC5] = .reject .truncated := by decide

theorem test_no_form_rex_15 : decode .m64 [0x48, 0x48, 0x48, 0x48, 0x48, 0x48, 0x48, 0x48, 0x48, 0x48, 0x48, 0x48, 0x48, 0x48, 0x48] = .reject .rexMisplaced := by decide

/-! ### The encoder: the bytes of 95_test_vectors.md -/

theorem test_encode_padduswXmm :
    encode (.padduswXmm ⟨none, false⟩ (some ⟨false, true, false, true⟩) 1#3 (.reg 0#3)) = [0x66, 0x45, 0x0F, 0xDD, 0xC8] := by decide

theorem test_encode_vpadduswXmmVex3 :
    encode (.vpadduswXmmVex3 ⟨none, false⟩ ⟨false, true, false, false, 2#4⟩ 1#3 (.mem ⟨1#2, 4#3, some ⟨2#2, 1#3, 3#3⟩, .disp8 0x10#8⟩)) = [0xC4, 0xA1, 0x69, 0xDD, 0x4C, 0x8B, 0x10] := by decide

theorem test_encode_vpaddusbZmmEvex :
    encode (.vpaddusbZmmEvex ⟨none, false⟩ ⟨false, true, true, false, false, 1#4, true, true, 2#3⟩ 5#3 (.reg 6#3)) = [0x62, 0x91, 0x75, 0xC2, 0xDC, 0xEE] := by decide

theorem test_encode_vpadduswZmmEvex :
    encode (.vpadduswZmmEvex ⟨none, false⟩ ⟨false, false, false, true, false, 4#4, true, false, 7#3⟩ 4#3 (.mem ⟨1#2, 4#3, some ⟨0#2, 4#3, 4#3⟩, .disp8 0xFF#8⟩)) = [0x62, 0xE1, 0x5D, 0x47, 0xDD, 0x64, 0x24, 0xFF] := by decide

theorem test_encode_vpaddusbXmmVex2 :
    encode (.vpaddusbXmmVex2 ⟨none, false⟩ ⟨false, 6#4⟩ 5#3 (.reg 7#3)) = [0xC5, 0xC9, 0xDC, 0xEF] := by decide

/-! ### Terms each check of WellFormed refuses -/

theorem test_ill_formed_mod_3_memory :
    (.paddusbMm ⟨none, false⟩ none 0#3 (.mem ⟨3#2, 0#3, none, .none⟩) : Instr).wellFormed .m64 = false := by decide

theorem test_ill_formed_sib_missing :
    (.paddusbXmm ⟨none, false⟩ none 0#3 (.mem ⟨0#2, 4#3, none, .none⟩) : Instr).wellFormed .m64 = false := by decide

theorem test_ill_formed_sib_not_asked_for :
    (.padduswMm ⟨none, false⟩ none 0#3 (.mem ⟨0#2, 0#3, some ⟨0#2, 0#3, 0#3⟩, .none⟩) : Instr).wellFormed .m64 = false := by decide

theorem test_ill_formed_sib_under_16_bit_addressing :
    (.padduswXmm ⟨none, true⟩ none 0#3 (.mem ⟨0#2, 4#3, some ⟨0#2, 0#3, 0#3⟩, .none⟩) : Instr).wellFormed .m32 = false := by decide

theorem test_ill_formed_disp_of_wrong_size :
    (.padduswXmm ⟨none, false⟩ none 0#3 (.mem ⟨1#2, 0#3, none, .disp32 0#32⟩) : Instr).wellFormed .m64 = false := by decide

theorem test_ill_formed_disp_missing :
    (.paddusbMm ⟨none, false⟩ none 0#3 (.mem ⟨0#2, 5#3, none, .none⟩) : Instr).wellFormed .m64 = false := by decide

theorem test_ill_formed_disp32_under_16_bit_addressing :
    (.paddusbMm ⟨none, true⟩ none 0#3 (.mem ⟨2#2, 0#3, none, .disp32 0#32⟩) : Instr).wellFormed .m32 = false := by decide

theorem test_ill_formed_rex_in_m32 :
    (.paddusbXmm ⟨none, false⟩ (some ⟨false, false, false, false⟩) 0#3 (.reg 0#3) : Instr).wellFormed .m32 = false := by decide

theorem test_ill_formed_vex2_r_in_m32 :
    (.vpaddusbXmmVex2 ⟨none, false⟩ ⟨true, 0#4⟩ 0#3 (.reg 0#3) : Instr).wellFormed .m32 = false := by decide

theorem test_ill_formed_vex2_vvvv_in_m32 :
    (.vpadduswYmmVex2 ⟨none, false⟩ ⟨false, 8#4⟩ 0#3 (.reg 0#3) : Instr).wellFormed .m32 = false := by decide

theorem test_ill_formed_vex3_r_in_m32 :
    (.vpaddusbXmmVex3 ⟨none, false⟩ ⟨true, false, false, false, 0#4⟩ 0#3 (.reg 0#3) : Instr).wellFormed .m32 = false := by decide

theorem test_ill_formed_vex3_x_in_m32 :
    (.vpadduswXmmVex3 ⟨none, false⟩ ⟨false, true, false, false, 0#4⟩ 0#3 (.reg 0#3) : Instr).wellFormed .m32 = false := by decide

theorem test_ill_formed_vex3_b_in_m32 :
    (.vpaddusbYmmVex3 ⟨none, false⟩ ⟨false, false, true, false, 0#4⟩ 0#3 (.reg 0#3) : Instr).wellFormed .m32 = false := by decide

theorem test_ill_formed_vex3_vvvv_in_m32 :
    (.vpadduswYmmVex3 ⟨none, false⟩ ⟨false, false, false, false, 8#4⟩ 0#3 (.reg 0#3) : Instr).wellFormed .m32 = false := by decide

theorem test_ill_formed_vex_16_bit_addressing :
    (.vpaddusbYmmVex2 ⟨none, true⟩ ⟨false, 0#4⟩ 0#3 (.mem ⟨0#2, 0#3, none, .none⟩) : Instr).wellFormed .m32 = false := by decide

theorem test_ill_formed_evex_zeroing_without_mask :
    (.vpaddusbXmmEvex ⟨none, false⟩ ⟨false, false, false, false, false, 2#4, false, true, 0#3⟩ 0#3 (.reg 0#3) : Instr).wellFormed .m64 = false := by decide

theorem test_ill_formed_evex_r_in_m32 :
    (.vpaddusbYmmEvex ⟨none, false⟩ ⟨true, false, false, false, false, 2#4, false, false, 0#3⟩ 0#3 (.reg 0#3) : Instr).wellFormed .m32 = false := by decide

theorem test_ill_formed_evex_x_in_m32 :
    (.vpaddusbZmmEvex ⟨none, false⟩ ⟨false, true, false, false, false, 2#4, false, false, 0#3⟩ 0#3 (.reg 0#3) : Instr).wellFormed .m32 = false := by decide

theorem test_ill_formed_evex_b_in_m32 :
    (.vpadduswXmmEvex ⟨none, false⟩ ⟨false, false, true, false, false, 2#4, false, false, 0#3⟩ 0#3 (.reg 0#3) : Instr).wellFormed .m32 = false := by decide

theorem test_ill_formed_evex_r_prime_in_m32 :
    (.vpadduswYmmEvex ⟨none, false⟩ ⟨false, false, false, true, false, 2#4, false, false, 0#3⟩ 0#3 (.reg 0#3) : Instr).wellFormed .m32 = false := by decide

theorem test_ill_formed_evex_v_prime_in_m32 :
    (.vpadduswZmmEvex ⟨none, false⟩ ⟨false, false, false, false, false, 2#4, true, false, 0#3⟩ 0#3 (.reg 0#3) : Instr).wellFormed .m32 = false := by decide

theorem test_ill_formed_evex_vvvv_in_m32 :
    (.vpadduswZmmEvex ⟨none, false⟩ ⟨false, false, false, false, false, 10#4, false, false, 0#3⟩ 0#3 (.reg 0#3) : Instr).wellFormed .m32 = false := by decide

theorem test_ill_formed_evex_16_bit_addressing :
    (.vpadduswZmmEvex ⟨none, true⟩ ⟨false, false, false, false, false, 2#4, false, false, 0#3⟩ 0#3 (.mem ⟨0#2, 0#3, none, .none⟩) : Instr).wellFormed .m32 = false := by decide

/-! ### The table's words -/

/-- A row read as the table numbers it, its first byte most significant: `C5 01 DC 00` (30_encoding.md R104). -/
theorem test_table_word_vex2 :
    decodeTableWord 32 0xC501DC00 = some (.vpaddusbXmmVex2 ⟨none, false⟩ ⟨true, 15#4⟩ 0#3 (.mem ⟨0#2, 0#3, none, .none⟩)) := by
  decide

/-- A word that selects no row so is laid out from its least significant byte: `0F DC C1`. -/
theorem test_table_word_reversed :
    decodeTableWord 24 0xC1DC0F = some (.paddusbMm ⟨none, false⟩ none 0#3 (.reg 1#3)) := by decide

/-- The word of row 6 runs as the first instruction after reset: pc moves past its 6 bytes. -/
theorem test_with_fetch_word :
    after (step (State.reset.withFetchWord 48 0x62F16D08DCCB)) (·.pc) = some 0xFFF6#64 := by decide +kernel

/-! ### One step each (95_test_vectors.md 2) -/

/-- M1. -/
theorem test_paddusbMm_M1 :
    after (run (mmx (mmx s64 0 0x017F80FF0010F0FE#64) 1 0x017F800100F01003#64) [0x0F, 0xDC, 0xC1]) (fun t => (t.mm 0#3, t.pc)) =
      some (0x02FEFFFF00FFFFFF#64, 0x400003#64) := by decide +kernel

/-- M7: the x87 side effects. -/
theorem test_paddusbMm_M7 :
    after (run { s64 with fsw := 0x2800#16, ftw := 0xFFFF#16, fpr := s64.fpr.set 0 0x12340000000000000001#80 } [0x0F, 0xDC, 0xC1])
      (fun t => (t.top, t.ftw, t.fpr.get 0)) = some (0#3, 0#16, 0xFFFF0000000000000001#80) := by decide +kernel

/-- M2. -/
theorem test_padduswMm_M2 :
    after (run (mmx (mmx s64 0 0xFFFF800000017FFF#64) 1 0x0001800000FF8000#64) [0x0F, 0xDD, 0xC1]) (fun t => (t.mm 0#3, t.mm 1#3)) =
      some (0xFFFFFFFF0100FFFF#64, 0x0001800000FF8000#64) := by decide +kernel

/-- M6: a memory operand at an odd address, read little-endian. -/
theorem test_padduswMm_M6 :
    after (run (put (gp (mmx s64 0 0x02FEFFFF00FFFFFF#64) 0 0x2001#64) 0x2001 [0x01, 0x00, 0x00, 0x01, 0x01, 0x00, 0x02, 0x01]) [0x0F, 0xDD, 0x00])
      (fun t => (t.mm 0#3, t.byteAt 0x2008)) = some (0x0400FFFF01FFFFFF#64, 1#8) := by decide +kernel

/-- L1: the bits from 128 up are kept. -/
theorem test_paddusbXmm_L1 :
    after (run (vec (vec s64 0 0xAAAA00000000000000000000000000000000000000000000000000000000000000000000000000000000000000000000F0807F01#512) 1 0x0F808002#512) [0x66, 0x0F, 0xDC, 0xC1]) (·.vreg 0#5) =
      some 0xAAAA00000000000000000000000000000000000000000000000000000000000000000000000000000000000000000000FFFFFF03#512 := by decide +kernel

/-- L4: RIP-relative from the next instruction, here off a 16-byte boundary. -/
theorem test_paddusbXmm_L4 :
    faulted (run s64 [0x66, 0x0F, 0xDC, 0x05, 0x10, 0x00, 0x00, 0x00]) = some (13, some 0#32) := by decide +kernel

/-- L2: base, scaled index, displacement, REX.R. -/
theorem test_padduswXmm_L2 :
    after (run (put (gp (gp (vec s64 9 0xFFFF80001234#512) 3 0x7000#64) 1 4#64) 0x7020 [0x11, 0x11, 0xFF, 0x7F, 0x01, 0x00]) [0x66, 0x44, 0x0F, 0xDD, 0x4C, 0x8B, 0x10])
      (fun t => (t.vreg 9#5, t.pc)) = some (0xFFFFFFFF2345#512, 0x400007#64) := by decide +kernel

/-- L3: the same operand off a 16-byte boundary. -/
theorem test_padduswXmm_L3 :
    faulted (run (gp (gp s64 3 0x7000#64) 1 2#64) [0x66, 0x44, 0x0F, 0xDD, 0x4C, 0x8B, 0x10]) = some (13, some 0#32) := by decide +kernel

/-- V2 with W = 1: the bits from 128 up are zeroed. -/
theorem test_vpaddusbXmmVex3_V2 :
    after (run (vec (vec (vec s64 1 (BitVec.allOnes 512)) 2 0xF0807F01#512) 3 0x0F808002#512) [0xC4, 0xE1, 0xE9, 0xDC, 0xCB]) (fun t => (t.vreg 1#5, t.pc)) = some (0xFFFFFF03#512, 0x400005#64) := by decide +kernel

/-- V9: XCR0 without AVX state. -/
theorem test_vpaddusbXmmVex3_V9 :
    faulted (run { s64 with xcr0 := 3#64 } [0xC4, 0xE1, 0x69, 0xDC, 0xCB]) = some (6, none) := by decide +kernel

/-- V1. -/
theorem test_vpaddusbXmmVex2_V1 :
    after (run (vec (vec (vec s64 1 (BitVec.allOnes 512)) 2 0xF0807F01#512) 3 0x0F808002#512) [0xC5, 0xE9, 0xDC, 0xCB]) (·.vreg 1#5) = some 0xFFFFFF03#512 := by decide +kernel

/-- V7: the GS base counts in 64-bit mode. -/
theorem test_vpaddusbXmmVex2_V7 :
    after (run (put (gp { s64 with segs := { s64.segs with gs := { s64.segs.gs with base := 0x5000#64 } } } 0 3#64) 0x5003 [0x7F]) [0x65, 0xC5, 0xE9, 0xDC, 0x08])
      (·.vreg 1#5) = some 0x7F#512 := by decide +kernel

/-- V3 in the three-byte prefix (R83). -/
theorem test_vpadduswXmmVex3_V3 :
    after (run (vec (vec s64 2 0xFFFF80001234#512) 3 0x00017FFF1111#512) [0xC4, 0xE1, 0x69, 0xDD, 0xCB]) (·.vreg 1#5) = some 0xFFFFFFFF2345#512 := by decide +kernel

/-- V3. -/
theorem test_vpadduswXmmVex2_V3 :
    after (run (vec (vec s64 2 0xFFFF80001234#512) 3 0x00017FFF1111#512) [0xC5, 0xE9, 0xDD, 0xCB]) (·.vreg 1#5) = some 0xFFFFFFFF2345#512 := by decide +kernel

/-- V6: no alignment under VEX. -/
theorem test_vpadduswXmmVex2_V6 :
    after (run (put (gp (gp (vec s64 9 0xFFFF80001234#512) 3 0x7000#64) 1 2#64) 0x7018 [0x11, 0x11, 0xFF, 0x7F, 0x01, 0x00]) [0xC5, 0x31, 0xDD, 0x4C, 0x8B, 0x10])
      (·.vreg 9#5) = some 0xFFFFFFFF2345#512 := by decide +kernel

/-- V4: a 32-byte memory operand. -/
theorem test_vpaddusbYmmVex3_V4 :
    after (run (put (gp (vec s64 10 0x9090909090909090909090909090909090909090909090909090909090909090#512) 8 0x6001#64) 0x6001 [0x00, 0x08, 0x10, 0x18, 0x20, 0x28, 0x30, 0x38, 0x40, 0x48, 0x50, 0x58, 0x60, 0x68, 0x70, 0x78, 0x80, 0x88, 0x90, 0x98, 0xA0, 0xA8, 0xB0, 0xB8, 0xC0, 0xC8, 0xD0, 0xD8, 0xE0, 0xE8, 0xF0, 0xF8])
      [0xC4, 0x41, 0x2D, 0xDC, 0x20]) (·.vreg 12#5) = some 0xFFFFFFFFFFFFFFFFFFFFFFFFFFFFFFFFFFFFF8F0E8E0D8D0C8C0B8B0A8A09890#512 := by decide +kernel

/-- The third form of program 2: bits 511:256 are zeroed (D3). -/
theorem test_vpaddusbYmmVex2_P2 :
    after (run (vec s64 0 0x888888888888888877777777777777776666666666666666555555555555555544444444444444443333333333333333FFFFF2E2D2C2B2A28171615141312111#512)
      [0xC5, 0xFD, 0xDC, 0xC0]) (·.vreg 0#5) = some 0x88888888888888886666666666666666FFFFFFFFFFFFFFFFFFE2C2A282624222#512 := by decide +kernel

/-- V5 in the three-byte prefix (R83). -/
theorem test_vpadduswYmmVex3_V5 :
    after (run (vec (vec s64 0 0xFFF0FFF0FFF0FFF0FFF0FFF0FFF0FFF0FFF0FFF0FFF0FFF0FFF0FFF0FFF0FFF0#512) 1 0x10000E000D000C000B000A0009000800070006000500040003000200010000#512)
      [0xC4, 0xE1, 0x7D, 0xDD, 0xD1]) (·.vreg 2#5) = some 0xFFFFFFFEFFFDFFFCFFFBFFFAFFF9FFF8FFF7FFF6FFF5FFF4FFF3FFF2FFF1FFF0#512 := by decide +kernel

/-- V5. -/
theorem test_vpadduswYmmVex2_V5 :
    after (run (vec (vec s64 0 0xFFF0FFF0FFF0FFF0FFF0FFF0FFF0FFF0FFF0FFF0FFF0FFF0FFF0FFF0FFF0FFF0#512) 1 0x10000E000D000C000B000A0009000800070006000500040003000200010000#512)
      [0xC5, 0xFD, 0xDD, 0xD1]) (·.vreg 2#5) = some 0xFFFFFFFEFFFDFFFCFFFBFFFAFFF9FFF8FFF7FFF6FFF5FFF4FFF3FFF2FFF1FFF0#512 := by decide +kernel

/-- V10: AVX without AVX2. -/
theorem test_vpadduswYmmVex2_V10 :
    faulted (run { s64 with platform := { s64.platform with feat := ⟨true, true, true, false, false, false, false⟩ } } [0xC5, 0xFD, 0xDD, 0xD1]) = some (6, none) := by decide +kernel

/-- E1: zeroing. -/
theorem test_vpaddusbXmmEvex_E1 :
    after (run (opmask (vec (vec (vec s64 1 (BitVec.allOnes 512)) 2 0xC8C8C8C8C8C8C8C8C8C8C8C8C8C8C8C8#512) 3 0x64646464646464646464646464646464#512) 1 0xFF#64) [0x62, 0xF1, 0x6D, 0x89, 0xDC, 0xCB]) (·.vreg 1#5) =
      some 0xFFFFFFFFFFFFFFFF#512 := by decide +kernel

/-- E2: merging. -/
theorem test_vpaddusbXmmEvex_E2 :
    after (run (opmask (vec (vec (vec s64 1 (BitVec.allOnes 512)) 2 0xC8C8C8C8C8C8C8C8C8C8C8C8C8C8C8C8#512) 3 0x64646464646464646464646464646464#512) 1 0xFF#64) [0x62, 0xF1, 0x6D, 0x09, 0xDC, 0xCB]) (·.vreg 1#5) =
      some 0xFFFFFFFFFFFFFFFFFFFFFFFFFFFFFFFF#512 := by decide +kernel

/-- E5: disp8 scaled by 32. -/
theorem test_vpaddusbYmmEvex_E5 :
    after (run (put (gp (opmask (vec (vec s64 1 0x1111111111111111111111111111111111111111111111111111111111111111#512) 2 0x8080808080808080808080808080808080808080808080808080808080808080#512) 3 0x30#64) 2 0x6000#64) 0x6020
      [0x7F, 0x7F, 0x7F, 0x7F, 0x7F, 0x80, 0x7F, 0x7F, 0x7F, 0x7F, 0x7F, 0x7F, 0x7F, 0x7F, 0x7F, 0x7F, 0x7F, 0x7F, 0x7F, 0x7F, 0x7F, 0x7F, 0x7F, 0x7F, 0x7F, 0x7F, 0x7F, 0x7F, 0x7F, 0x7F, 0x7F, 0x7F])
      [0x62, 0xF1, 0x6D, 0x2B, 0xDC, 0x4A, 0x01]) (·.vreg 1#5) = some 0x1111111111111111111111111111111111111111111111111111FFFF11111111#512 := by decide +kernel

/-- E6: registers 17 and 30, odd lanes. -/
theorem test_vpaddusbZmmEvex_E6 :
    after (run (opmask (vec (vec s64 17 0xFEFEFEFEFEFEFEFEFEFEFEFEFEFEFEFEFEFEFEFEFEFEFEFEFEFEFEFEFEFEFEFEFEFEFEFEFEFEFEFEFEFEFEFEFEFEFEFEFEFEFEFEFEFEFEFEFEFEFEFEFEFEFEFE#512)
      30 0x3F3E3D3C3B3A393837363534333231302F2E2D2C2B2A292827262524232221201F1E1D1C1B1A191817161514131211100F0E0D0C0B0A09080706050403020100#512)
      2 0xAAAAAAAAAAAAAAAA#64) [0x62, 0x91, 0x75, 0xC2, 0xDC, 0xEE]) (·.vreg 5#5) =
      some 0xFF00FF00FF00FF00FF00FF00FF00FF00FF00FF00FF00FF00FF00FF00FF00FF00FF00FF00FF00FF00FF00FF00FF00FF00FF00FF00FF00FF00FF00FF00FF00FF00#512 := by decide +kernel

/-- E20: XCR0 without AVX-512 state. -/
theorem test_vpaddusbZmmEvex_E20 :
    faulted (run { s64 with xcr0 := 7#64 } [0x62, 0xF1, 0x6D, 0x48, 0xDC, 0xCB]) = some (6, none) := by decide +kernel

/-- E7. -/
theorem test_vpadduswXmmEvex_E7 :
    after (run (vec (vec s64 2 0xFFFF80001234#512) 3 0x00017FFF1111#512) [0x62, 0xF1, 0x6D, 0x08, 0xDD, 0xCB]) (·.vreg 1#5) = some 0xFFFFFFFF2345#512 := by decide +kernel

/-- E19: AVX512BW without AVX512VL. -/
theorem test_vpadduswXmmEvex_E19 :
    faulted (run { s64 with platform := { s64.platform with feat := ⟨true, true, true, true, true, true, false⟩ } } [0x62, 0xF1, 0x6D, 0x08, 0xDD, 0xCB]) = some (6, none) := by decide +kernel

/-- E8: the first two lanes only. -/
theorem test_vpadduswYmmEvex_E8 :
    after (run (put (gp (opmask (vec (vec s64 1 0xABCDABCDABCDABCDABCDABCDABCDABCDABCDABCDABCDABCDABCDABCDABCDABCD#512) 2 0xFF00FF00FF00FF00FF00FF00FF00FF00FF00FF00FF00FF00FF00FF00FF00FF00#512) 3 3#64) 2 0x6000#64) 0x6020
      [0x00, 0x01, 0xFF, 0x00, 0xFF, 0x00, 0xFF, 0x00, 0xFF, 0x00, 0xFF, 0x00, 0xFF, 0x00, 0xFF, 0x00, 0xFF, 0x00, 0xFF, 0x00, 0xFF, 0x00, 0xFF, 0x00, 0xFF, 0x00, 0xFF, 0x00, 0xFF, 0x00, 0xFF, 0x00])
      [0x62, 0xF1, 0x6D, 0x2B, 0xDD, 0x4A, 0x01]) (·.vreg 1#5) = some 0xABCDABCDABCDABCDABCDABCDABCDABCDABCDABCDABCDABCDABCDABCDFFFFFFFF#512 := by decide +kernel

/-- E9: disp8 scaled by 64, three lanes. -/
theorem test_vpadduswZmmEvex_E9 :
    after (run (put (gp (opmask (vec s64 2 0x80008000800080008000800080008000800080008000800080008000800080008000800080008000800080008000800080008000800080008000800080008000#512)
      1 7#64) 0 0x6000#64) 0x6040 [0xFE, 0x7F, 0xFF, 0x7F, 0x00, 0x80, 0x01, 0x80])
      [0x62, 0xF1, 0x6D, 0x49, 0xDD, 0x48, 0x01]) (·.vreg 1#5) = some 0xFFFFFFFFFFFE#512 := by decide +kernel

/-- The third form of program 5: 32-bit mode, base ESP. -/
theorem test_vpadduswZmmEvex_P5 :
    after (run32 (put (gp (opmask (vec (vec s32 6 0xFFF0FFF0FFF0FFF0FFF0FFF0FFF0FFF0FFF0FFF0FFF0FFF0FFF0FFF0FFF0FFF0FFF0FFF0FFF0FFF0FFF0FFF0FFF0FFF0FFF0FFF0FFF0FFF0FFF0FFF0FFF0FFF0#512)
      7 0x5A5A5A5A5A5A5A5A5A5A5A5A5A5A5A5A5A5A5A5A5A5A5A5A5A5A5A5A5A5A5A5A5A5A5A5A5A5A5A5A5A5A5A5A5A5A5A5A5A5A5A5A5A5A5A5A5A5A5A5A5A5A5A5A#512)
      1 0x18001#64) 4 0xA000#64) 0xA000
      [0x00, 0x00, 0x01, 0x00, 0x02, 0x00, 0x03, 0x00, 0x04, 0x00, 0x05, 0x00, 0x06, 0x00, 0x07, 0x00, 0x08, 0x00, 0x09, 0x00, 0x0A, 0x00, 0x0B, 0x00, 0x0C, 0x00, 0x0D, 0x00, 0x0E, 0x00, 0x0F, 0x00, 0x10, 0x00, 0x11, 0x00, 0x12, 0x00, 0x13, 0x00, 0x14, 0x00, 0x15, 0x00, 0x16, 0x00, 0x17, 0x00, 0x18, 0x00, 0x19, 0x00, 0x1A, 0x00, 0x1B, 0x00, 0x1C, 0x00, 0x1D, 0x00, 0x1E, 0x00, 0x1F, 0x00])
      [0x62, 0xF1, 0x4D, 0x49, 0xDD, 0x3C, 0x24]) (·.vreg 7#5) =
      some 0x5A5A5A5A5A5A5A5A5A5A5A5A5A5A5A5A5A5A5A5A5A5A5A5A5A5A5A5A5A5AFFFFFFFF5A5A5A5A5A5A5A5A5A5A5A5A5A5A5A5A5A5A5A5A5A5A5A5A5A5A5A5AFFF0#512 := by decide +kernel


/-! ### States and operands that meet the hypotheses of each statement -/

/-- `s` enables `i`, as a Bool. -/
def enabledB (s : State) (i : Instr) : Bool :=
  match i.formClass with
  | .mmx => s.feat.mmx && !s.cr0.getLsbD 2 && !s.cr0.getLsbD 3 && !s.fsw.getLsbD 7
  | .sse => s.feat.sse2 && !s.cr0.getLsbD 2 && !s.cr0.getLsbD 3 && s.cr4.getLsbD 9
  | .vex =>
    (if (i.vectorBits == 256) = true then s.feat.avx2 else s.feat.avx) && !s.cr0.getLsbD 3 && s.cr4.getLsbD 18
      && s.xcr0.getLsbD 1 && s.xcr0.getLsbD 2
  | .evex =>
    s.feat.avx512bw && (i.vectorBits == 512 || s.feat.avx512vl) && !s.cr0.getLsbD 3 && s.cr4.getLsbD 18
      && s.xcr0.getLsbD 1 && s.xcr0.getLsbD 2 && s.xcr0.getLsbD 5 && s.xcr0.getLsbD 6 && s.xcr0.getLsbD 7
      && !i.zeroingUnmasked

/-- What `enabledB` says. -/
theorem enabled_of {s : State} {i : Instr} (h : enabledB s i = true) : s.Enabled i := by
  unfold enabledB at h
  unfold State.Enabled
  unfold State.MmxEnabled State.SseEnabled State.VexEnabled State.EvexEnabled
  cases hc : i.formClass <;>
    simpa only [hc, Bool.and_eq_true, Bool.not_eq_true', Bool.or_eq_true, and_assoc] using h

/-- The code byte `k` bytes from pc, where it can be fetched. -/
def codeByte (s : State) (m : Mode) (k : Nat) : Option Byte :=
  match s.codeAddr m k with
  | .ok a => some (s.byteAt a)
  | .error _ => none

/-- What `codeByte` says. -/
theorem code_of_bytes {s : State} {m : Mode} {l : List Byte} {n : Nat} (h : ∀ k < n, codeByte s m k = l[k]?) :
    ∀ (k : Nat), k < n → ∀ (hl : k < l.length), ∃ a, s.codeAddr m k = .ok a ∧ s.byteAt a = l[k] := by
  intro k hk hl
  have h1 := h k hk
  rw [List.getElem?_eq_getElem hl] at h1
  unfold codeByte at h1
  split at h1
  · next a ha => exact ⟨a, ha, Option.some.inj h1⟩
  · cases h1

/-- Every byte of the operand translates to memory private to the program. -/
def privateB (s : State) (m : Mode) (p : Place) : Bool :=
  (List.range p.size).all fun k => s.kindAt (s.physOf (linByte m p.lin k)) == .ordinary

/-- What `privateB` says. -/
theorem private_of {s : State} {m : Mode} {p : Place} (h : privateB s m p = true) : s.Private m p := by
  intro k hk a ha
  have h1 := List.all_eq_true.mp h k (List.mem_range.mpr hk)
  unfold State.physOf at h1
  rw [ha] at h1
  exact eq_of_beq h1

/-- Some byte of an operand fails to translate. -/
theorem exists_error {s : State} {m : Mode} {lin : Word64} {n : Nat} (h : (List.range n).any (fails s m lin) = true) :
    ∃ k < n, ∃ e, s.translate (linByte m lin k) = .error e := by
  obtain ⟨k, hk, hf⟩ := List.any_eq_true.mp h
  exact ⟨k, List.mem_range.mp hk, error_of_fails hf⟩

/-- Every byte translates, and some byte to a device. -/
theorem exists_device {s : State} {m : Mode} {lin : Word64} {n : Nat} (h : ∀ k < n, fails s m lin k = false)
    (hd : (List.range n).any (fun k => s.kindAt (s.physOf (linByte m lin k)) == .device) = true) :
    (∀ k < n, ∃ b, s.translate (linByte m lin k) = .ok b) ∧
      ∃ k < n, ∃ b, s.translate (linByte m lin k) = .ok b ∧ s.kindAt b = .device := by
  refine ⟨fun k hk => ok_of_not_fails (h k hk), ?_⟩
  obtain ⟨k, hk, hf⟩ := List.any_eq_true.mp hd
  obtain ⟨b, hb⟩ := ok_of_not_fails (h k (List.mem_range.mp hk))
  unfold State.physOf at hf
  rw [hb] at hf
  exact ⟨k, List.mem_range.mp hk, b, hb, eq_of_beq hf⟩

/-- A merging EVEX prefix with mask register 1. -/
def evexK1 : Evex := ⟨false, false, false, false, false, 2#4, false, false, 1#3⟩

/-- One form of each class and prefix with the memory operand `a`. -/
def forms (g : Option SegName) (a : MemAddr) : List Instr :=
  [legacyInstr false false ⟨g, false⟩ none 1#3 (.mem a), legacyInstr true true ⟨g, false⟩ none 1#3 (.mem a),
    vex3Instr true true ⟨g, false⟩ ⟨false, false, false, false, 2#4⟩ 1#3 (.mem a),
    vex2Instr false false ⟨g, false⟩ ⟨false, 2#4⟩ 1#3 (.mem a), evexInstr .vl512 true ⟨g, false⟩ evexK1 1#3 (.mem a)]

/-- `[rax]`. -/
def atRax : MemAddr := ⟨0#2, 0#3, none, .none⟩

/-- `[rsp]`. -/
def atRsp : MemAddr := ⟨0#2, 4#3, some ⟨0#2, 4#3, 4#3⟩, .none⟩

/-- `PADDUSW mm1, [disp32]` and `[BX+SI]` with 67: well formed in 32-bit mode; `VPADDUSW zmm20 {k7}, zmm20, [rsp-64]` in
64-bit mode (Decode_of_encode). -/
theorem witness_Decode_of_encode :
    (Instr.padduswMm ⟨none, false⟩ none 1#3 (.mem ⟨0#2, 5#3, none, .disp32 0x2000#32⟩)).wellFormed .m32 = true ∧
    (Instr.padduswXmm ⟨some .gs, true⟩ none 1#3 (.mem ⟨0#2, 0#3, none, .none⟩)).wellFormed .m32 = true ∧
    (Instr.vpadduswZmmEvex ⟨none, false⟩ ⟨true, true, true, true, true, 15#4, true, true, 7#3⟩ 7#3
      (.mem ⟨1#2, 4#3, some ⟨3#2, 7#3, 7#3⟩, .disp8 0xFF#8⟩)).wellFormed .m64 = true := by decide

/-- A form the decoder gives, of three bytes and of six (Decoded_is_well_formed, Decoded_length,
Decode_ignores_later_bytes). -/
theorem witness_Decoded :
    decode .m64 [0x0F, 0xDC, 0xC1, 0xFF] = .form (.paddusbMm ⟨none, false⟩ none 0#3 (.reg 1#3)) 3 ∧
    decode .m32 [0x62, 0xF1, 0x6D, 0x28, 0xDD, 0xCB, 0x00] =
      .form (.vpadduswYmmEvex ⟨none, false⟩ ⟨false, false, false, false, false, 2#4, false, false, 0#3⟩ 1#3 (.reg 3#3)) 6 := by
  decide

/-- `VPADDUSB xmm1, xmm2, [rax]`. -/
def vexMem : Instr := .vpaddusbXmmVex2 ⟨none, false⟩ ⟨false, 2#4⟩ 1#3 (.mem ⟨0#2, 0#3, none, .none⟩)

/-- `VPADDUSB xmm1, xmm2, xmm3` in the prefix `C5`, and in `62`. -/
def vexReg : Instr := .vpaddusbXmmVex2 ⟨none, false⟩ ⟨false, 2#4⟩ 1#3 (.reg 3#3)
@[inherit_doc vexReg] def evexReg : Instr :=
  .vpaddusbXmmEvex ⟨none, false⟩ ⟨false, false, false, false, false, 2#4, false, false, 0#3⟩ 1#3 (.reg 3#3)

/-- `PADDUSB mm0, mm1` and `PADDUSW xmm0, [rax]`. -/
def mmxReg : Instr := .paddusbMm ⟨none, false⟩ none 0#3 (.reg 1#3)
@[inherit_doc mmxReg] def sseMem : Instr := .padduswXmm ⟨none, false⟩ none 0#3 (.mem atRax)

/-- LOCK behind and before other prefixes, repeated, under REX, before a memory operand with 67, and in more than 15 bytes;
66, F3 and REX behind other prefixes before VEX and EVEX (Illegal_prefix_is_invalid_opcode). -/
theorem witness_Illegal_prefix_is_invalid_opcode :
    ∀ q ∈ [(Mode.m64, sseMem, [0x64#8, 0xF0#8]), (.m64, mmxReg, [0x66#8, 0xF0#8]), (.m32, mmxReg, [0xF0#8, 0xF0#8, 0x67#8]),
        (.m64, sseMem, [0x67#8, 0x48#8, 0xF0#8]), (.m64, mmxReg, List.replicate 12 0x64#8 ++ [0xF0#8]),
        (.m64, vexReg, [0x67#8, 0x66#8]), (.m64, vexReg, [0x64#8, 0x48#8]), (.m32, vexReg, [0xF3#8, 0xF3#8]),
        (.m64, evexReg, [0x40#8, 0x64#8])],
      q.2.1.wellFormed q.1 = true ∧
        (∀ b ∈ q.2.2, (prefixOf b).isSome = true ∨ (q.1 = .m64 ∧ b.extractLsb' 4 4 = 4#4)) ∧
        (0x67#8 ∈ q.2.2 → q.1 = .m64 ∨ q.2.1.prefixes.a67 = true ∨ q.2.1.regMem = .reg 1#3) ∧
        (0xF0#8 ∈ q.2.2 ∨ ((q.2.1.formClass = .vex ∨ q.2.1.formClass = .evex) ∧
          ∃ b ∈ q.2.2, b ∈ [0x66#8, 0xF2#8, 0xF3#8] ∨ b.extractLsb' 4 4 = 4#4)) := by decide

/-- `P2` bytes 18, 68 and 88 meet one clause each, in 32-bit mode too; a register, a memory operand and, behind 67 in 32-bit
mode, one with 16-bit addressing; no prefix, a repeated one and REX before them (Illegal_evex_payload_is_invalid_opcode). -/
theorem witness_Illegal_evex_payload_is_invalid_opcode :
    let v : Evex := ⟨false, false, false, false, false, 2#4, false, false, 0#3⟩
    (v.r = false ∧ v.x = false ∧ v.b = false ∧ v.rHi = false ∧ v.vHi = false ∧ v.vvvv.msb = false) ∧
    ((0x18#8).getLsbD 3 = true ∧ (0x18#8).getLsbD 4 = true) ∧
    ((0x68#8).getLsbD 3 = true ∧ (0x68#8).extractLsb' 5 2 = 3#2) ∧
    ((0x88#8).getLsbD 3 = true ∧ (0x88#8).getLsbD 7 = true ∧ (0x88#8).extractLsb' 0 3 = 0#3) ∧
    (RegMem.reg 3#3).wellFormed (Mode.m64.addr16 (decide (0x67#8 ∈ [0x64#8, 0x2E#8, 0x48#8]))) = true ∧
    (RegMem.mem atRsp).wellFormed (Mode.m64.addr16 (decide (0x67#8 ∈ [0x67#8]))) = true ∧
    (RegMem.mem ⟨0#2, 6#3, none, .disp16 0x2000#16⟩).wellFormed (Mode.m32.addr16 (decide (0x67#8 ∈ [0x67#8]))) = true ∧
    (∀ b ∈ [0x64#8, 0x2E#8], (prefixOf b).isSome = true) ∧ (0x48#8).extractLsb' 4 4 = 4#4 := by decide

/-- The groups of R71 without LOCK, as Redundant_prefixes_are_refused has them. -/
def prefixGroups : List (List Byte) :=
  [[0xF2#8, 0xF3#8], [0x2E#8, 0x36#8, 0x3E#8, 0x26#8, 0x64#8, 0x65#8], [0x66#8], [0x67#8]]

/-- A processor with MMX alone of the flags the forms need. -/
def mmxOnly : Features := ⟨true, false, false, false, false, false, false⟩

/-- The CPUID flag of the form that prefixes select, as Redundant_prefixes_are_refused has it. -/
def hasFlag (f : Features) (i : Instr) (ps : List Byte) : Bool :=
  if i.formClass = .mmx ∧ 0x66#8 ∈ ps then f.sse2 else i.supportedBy f

/-- F2 64 F3, 2E 67 65, F2 66 67 66 and 67 67 before legacy, VEX and EVEX forms; two of them on a processor without the
flag, and 66 66 before an MMX form, which asks for SSE2; 67 67 in 32-bit mode before a memory operand under VEX; F3 alone and F2
between 64 and 67 before a legacy form; REX 48 before 66 and, behind 64, before REX 41, with the flag and without
(Redundant_prefixes_are_refused). -/
theorem witness_Redundant_prefixes_are_refused :
    let f := s64.feat
    (∀ q ∈ [(f, Mode.m32, mmxReg, ([] : List Byte), 0xF2#8, [0x64#8], 0xF3#8), (f, .m32, vexReg, [], 0x2E#8, [0x67#8], 0x65#8),
        (f, .m64, sseMem, [0xF2#8], 0x66#8, [0x67#8], 0x66#8), (f, .m64, evexReg, [], 0x67#8, [], 0x67#8),
        (mmxOnly, .m64, evexReg, [0x64#8], 0x67#8, [], 0x67#8), (mmxOnly, .m32, vexReg, [], 0x2E#8, [], 0x65#8),
        (mmxOnly, .m32, mmxReg, [], 0x66#8, [], 0x66#8), (mmxOnly, .m32, vexMem, [], 0x67#8, [], 0x67#8)],
      let ps := q.2.2.2.1 ++ q.2.2.2.2.1 :: (q.2.2.2.2.2.1 ++ [q.2.2.2.2.2.2])
      q.2.2.1.wellFormed q.2.1 = true ∧ (∃ g ∈ prefixGroups, q.2.2.2.2.1 ∈ g ∧ q.2.2.2.2.2.2 ∈ g) ∧
        (∀ x ∈ ps, (prefixOf x).isSome = true ∧ x ≠ 0xF0#8) ∧
        (q.2.2.1.formClass = .vex ∨ q.2.2.1.formClass = .evex → ∀ x ∈ ps, x ∉ [0x66#8, 0xF2#8, 0xF3#8]) ∧
        (hasFlag q.1 q.2.2.1 ps = true ∨ (0xF2#8 ∈ ps ∨ 0xF3#8 ∈ ps) ∨ q.2.2.1 = vexMem ∨
          (q.1 = mmxOnly ∧ hasFlag q.1 q.2.2.1 ps = false ∧ ¬ (0xF2#8 ∈ ps ∨ 0xF3#8 ∈ ps) ∧ ¬ (q.2.1 = .m32 ∧ 0x67#8 ∈ ps)))) ∧
    (mmxReg.wellFormed .m32 = true ∧ mmxReg.formClass = .mmx ∧ mmxReg.prefixes = ⟨none, false⟩ ∧
      ∀ ps ∈ [[0xF3#8], [0x64#8, 0xF2#8, 0x67#8]], (∀ x ∈ ps, (prefixOf x).isSome = true ∧ x ≠ 0xF0#8) ∧
        ps.Pairwise (fun x y => ∀ g ∈ prefixGroups, ¬ (x ∈ g ∧ y ∈ g)) ∧ (0xF2#8 ∈ ps ∨ 0xF3#8 ∈ ps)) ∧
    (sseMem.wellFormed .m64 = true ∧ sseMem.formClass = .sse ∧ (0x48#8).extractLsb' 4 4 = 4#4 ∧
      ∀ ps ∈ [[0x48#8, 0x66#8], [0x64#8, 0x48#8, 0x41#8]],
        (∀ x ∈ ps, ((prefixOf x).isSome = true ∨ x.extractLsb' 4 4 = 4#4) ∧ x ≠ 0xF0#8) ∧
          hasFlag f sseMem ps = true ∧ hasFlag mmxOnly sseMem ps = false ∧ ¬ (0xF2#8 ∈ ps ∨ 0xF3#8 ∈ ps)) :=
  ⟨by decide, ⟨by decide, by decide, by decide, by decide⟩, by decide, by decide, by decide, by decide⟩

/-- `PADDUSB mm0, mm1` at pc in 64-bit mode, `VPADDUSB xmm5, xmm6, xmm7` in 32-bit mode (Step_runs_decoded_instruction). -/
theorem witness_Step_runs_decoded_instruction :
    let s := s64.placeCode .m64 [0x0F, 0xDC, 0xC1] 0
    let q := s32.placeCode .m32 [0xC5, 0xC9, 0xDC, 0xEF] 0
    (s.mode = some .m64 ∧ s.codeSegmentOk .m64 = true ∧
      decode .m64 (s.fetchWindow .m64).1 = .form (.paddusbMm ⟨none, false⟩ none 0#3 (.reg 1#3)) 3 ∧
      (Instr.paddusbMm ⟨none, false⟩ none 0#3 (.reg 1#3)).wellFormed .m64 = true) ∧
    (q.mode = some .m32 ∧ q.codeSegmentOk .m32 = true ∧
      decode .m32 (q.fetchWindow .m32).1 = .form (.vpaddusbXmmVex2 ⟨none, false⟩ ⟨false, 6#4⟩ 5#3 (.reg 7#3)) 4 ∧
      (Instr.vpaddusbXmmVex2 ⟨none, false⟩ ⟨false, 6#4⟩ 5#3 (.reg 7#3)).wellFormed .m32 = true) := by
  decide +kernel

/-- The same three bytes, each at an address the fetch reaches (Step_runs_instruction_in_memory). -/
theorem witness_Step_runs_instruction_in_memory :
    let s := s64.placeCode .m64 [0x0F, 0xDC, 0xC1] 0
    let i := Instr.paddusbMm ⟨none, false⟩ none 0#3 (.reg 1#3)
    s.mode = some .m64 ∧ s.codeSegmentOk .m64 = true ∧ i.wellFormed .m64 = true ∧
    ∀ (k : Nat) (h : k < (encode i).length), ∃ a, s.codeAddr .m64 k = .ok a ∧ s.byteAt a = (encode i)[k] :=
  ⟨by decide +kernel, by decide +kernel, by decide, fun k h => code_of_bytes (n := 3) (by decide +kernel) k h h⟩

/-- `VPADDUSW ymm2, ymm0, ymm1` behind two overrides. -/
def twoOverrides : List Byte := [0x64, 0x64, 0xC5, 0xFD, 0xDD, 0xD1]

/-- `s` on a processor with AVX and without AVX2. -/
def withoutAvx2 (s : State) : State :=
  { s with platform := { s.platform with feat := ⟨true, true, true, false, false, false, false⟩ } }

/-- An illegal EVEX encoding of 16 bytes: LOCK, FS, 66, 67, REX, `62` and its payload, opcode, ModRM, SIB and disp32. -/
def sixteen : List Byte :=
  [0xF0, 0x64, 0x66, 0x67, 0x40, 0x62, 0xF1, 0x6D, 0x08, 0xDC, 0x84, 0x24, 0x00, 0x00, 0x00, 0x00]

/-- `LOCK PADDUSB mm0, mm1`; the same with its ModRM byte unmapped; the illegal encoding of 16 bytes; two overrides before
the ymm form with AVX2 and without (Step_raises_decode_faults). -/
theorem witness_Step_raises_decode_faults :
    let s := s64.placeCode .m64 [0xF0, 0x0F, 0xDC, 0xC1] 0
    let q := (hole 0x400003 1 s64).placeCode .m64 [0xF0, 0x0F, 0xDC, 0xC1] 0
    let u := s64.placeCode .m64 sixteen 0
    let r := s64.placeCode .m64 twoOverrides 0
    let n := (withoutAvx2 s64).placeCode .m64 twoOverrides 0
    let v := fun t : State => (decode .m64 (t.fetchWindow .m64).1).under t.feat
    (∀ t ∈ [s, q, u, r, n], t.mode = some .m64 ∧ t.codeSegmentOk .m64 = true) ∧
    v s = .ud ∧ (v q = .reject .truncated ∧ (q.fetchWindow .m64).1.length < 15) ∧
    (v u = .reject .truncated ∧ (u.fetchWindow .m64).1.length = 15) ∧ v r = .reject .redundantPrefix ∧ v n = .ud := by
  decide +kernel

/-- What D15 refuses is #UD where R101 lists it: a VEX.256 form behind two overrides without AVX2, an MMX form behind two REX
bytes without MMX; and 14 REX bytes 48 with 90 behind them are another instruction of 15 bytes. -/
theorem test_redundant_prefix_without_flag :
    refusal (run s64 twoOverrides) = some (.encoding .redundantPrefix) ∧
    faulted (run (withoutAvx2 s64) twoOverrides) = some (6, none) ∧
    faulted (run { s64 with platform := { s64.platform with feat := ⟨false, false, false, false, false, false, false⟩ } }
      [0x48, 0x48, 0x0F, 0xDC, 0xC1]) = some (6, none) ∧
    refusal (run s64 (List.replicate 14 0x48 ++ [0x90])) = some (.encoding .otherInstruction) ∧
    faulted (run s64 (List.replicate 14 0x48 ++ [0xC5, 0xFD, 0xDD, 0xD1])) = some (13, some 0#32) := by decide +kernel

/-- The fetch fault comes before #UD (60_exceptions.md R168 items 1 and 3), and what is longer than 15 bytes is #GP(0)
(R170). -/
theorem test_fetch_before_invalid_opcode :
    refusal (run (hole 0x400003 1 s64) [0xF0, 0x0F, 0xDC, 0xC1]) = some .codeNotMapped ∧
    refusal (run (hole 0x400005 1 s64) [0x62, 0xF1, 0x6D, 0x18, 0xDC, 0xCB]) = some .codeNotMapped ∧
    faulted (run s64 sixteen) = some (13, some 0#32) ∧
    faulted (run s64 (sixteen.drop 1)) = some (6, none) := by decide +kernel

/-- Code in a region that is readable but not executable (70_reset_and_hazards.md R194, P4). -/
theorem test_code_not_executable :
    refusal (run { s64 with platform := { s64.platform with
      translation := [⟨0, 0x1000000, .mapped 0 false, .mapped 0 false⟩] } } [0x0F, 0xDC, 0xC1]) =
        some .codeNotExecutable := by decide +kernel

/-- The state after reset is in real-address mode (Other_modes_are_refused). -/
theorem witness_Other_modes_are_refused : State.reset.mode = none := by decide

/-- The modes of the states of these tests (Mode_by_control_bits). -/
theorem witness_Mode_by_control_bits :
    s64.mode = some .m64 ∧ s32.mode = some .m32 ∧
    ({ s64 with segs := s32.segs } : State).mode = some .m32 := by decide

/-- The first non-canonical address of 48 bits and 2^32 in 32-bit mode; an instruction whose last byte is the first outside
the code space, at both and at 2^64 (Fetch_outside_code_space_is_refused). -/
theorem witness_Fetch_outside_code_space_is_refused :
    (let s := { s64 with pc := 0x800000000000#64 }
     let q := { s32 with pc := 0x100000000#64 }
     (s.mode = some .m64 ∧ s.codeSegmentOk .m64 = true ∧ canonical .m64 s.platform.laBits (s.pc + 0#64) = false) ∧
     (q.mode = some .m32 ∧ q.codeSegmentOk .m32 = true ∧ 2 ^ 32 ≤ q.pc.toNat)) ∧
    ∀ q ∈ [(s64, Mode.m64, 0x7FFFFFFFFFFE#64), (s64, Mode.m64, 0xFFFFFFFFFFFFFFFE#64), (s32, Mode.m32, 0xFFFFFFFE#64)],
      let s := ({ q.1 with pc := q.2.2 } : State).placeCode q.2.1 [0x0F, 0xDC] 0
      let i := Instr.paddusbMm ⟨none, false⟩ none 0#3 (.reg 1#3)
      s.mode = some q.2.1 ∧ s.codeSegmentOk q.2.1 = true ∧ 2 < (encode i).length ∧ i.wellFormed q.2.1 = true ∧
        (∀ (k : Nat), k < 2 → ∀ (h : k < (encode i).length), ∃ a, s.codeAddr q.2.1 k = .ok a ∧ s.byteAt a = (encode i)[k]) ∧
        (q.2.1 = .m64 → canonical .m64 s.platform.laBits (s.pc + BitVec.ofNat 64 2) = false ∨
          2 ^ 64 ≤ s.pc.toNat + 2) ∧
        (q.2.1 = .m32 → 2 ^ 32 ≤ s.pc.toNat + 2) := by
  refine ⟨by decide +kernel, fun q hq => ?_⟩
  simp only [List.mem_cons, List.not_mem_nil, or_false] at hq
  rcases hq with rfl | rfl | rfl <;>
    exact ⟨by decide +kernel, by decide +kernel, by decide, by decide, code_of_bytes (by decide +kernel),
      by decide +kernel, by decide +kernel⟩

/-- States that meet the invariant, whose step has a next state: in 64-bit mode, there on a processor with AVX2 and no
AVX-512 (MAXVL 256), and in 32-bit mode (Step_keeps_invariant, Step_writes_only_destinations, Step_advances_pc_by_length). -/
theorem witness_Step_keeps_invariant :
    ∀ q ∈ [(s64, Mode.m64),
        ({ s64 with platform := { s64.platform with feat := ⟨true, true, true, true, false, false, false⟩ } }, Mode.m64),
        (s32, Mode.m32)],
      let s := q.1.placeCode q.2 [0xC5, 0xC9, 0xDC, 0xEF] 0
      s.Inv ∧ ∃ t, step s = .next t := by
  intro q hq
  simp only [List.mem_cons, List.not_mem_nil, or_false] at hq
  rcases hq with rfl | rfl | rfl <;>
  · refine ⟨?_, next_of_after (by decide +kernel)⟩
    unfold State.Inv
    decide +kernel

/-- The second of them has MAXVL 256. -/
theorem test_maxVl_256 : maxVl ⟨true, true, true, true, false, false, false⟩ = 256 := by decide

/-- A step that faults with #NM, and one with #PF (Faults_leave_state_unchanged). -/
theorem witness_Faults_leave_state_unchanged :
    (∃ f, run { s64 with cr0 := s64.cr0 ||| 8#64 } [0x0F, 0xDC, 0xC1] = .fault f ∧ f.vector = 7 ∧ f.errorCode = none) ∧
    (∃ f, run (hole 0x7003 1 (gp s64 0 0x7000#64)) [0x0F, 0xDC, 0x00] = .fault f ∧ f.vector = 14 ∧
      f.errorCode = some 0#32) := by
  exact ⟨fault_of_faulted (by decide +kernel), fault_of_faulted (by decide +kernel)⟩

/-- `PADDUSB mm0, mm1` with each exception a register operand has, and `[rax]` with #GP and #AC
(Exceptions_an_instruction_raises). -/
theorem witness_Exceptions_an_instruction_raises :
    let i := Instr.paddusbMm ⟨none, false⟩ none 0#3 (.reg 1#3)
    let j := Instr.paddusbMm ⟨none, false⟩ none 0#3 (.mem ⟨0#2, 0#3, none, .none⟩)
    (∃ f, exec i { s64 with cr0 := s64.cr0 ||| 4#64 } = .fault f ∧ f.vector = 6 ∧ f.errorCode = none) ∧
    (∃ f, exec i { s64 with cr0 := s64.cr0 ||| 8#64 } = .fault f ∧ f.vector = 7 ∧ f.errorCode = none) ∧
    (∃ f, exec i { s64 with cr0 := s64.cr0 ||| 0x20#64, fsw := 0x80#16 } = .fault f ∧ f.vector = 16 ∧
      f.errorCode = none) ∧
    (∃ f, exec j (gp s64 0 0x7FFFFFFFFFF9#64) = .fault f ∧ f.vector = 13 ∧ f.errorCode = some 0#32) ∧
    (∃ f, exec j (checked (gp s64 0 0x7001#64)) = .fault f ∧ f.vector = 17 ∧ f.errorCode = some 0#32) := by
  exact ⟨fault_of_faulted (by decide +kernel), fault_of_faulted (by decide +kernel), fault_of_faulted (by decide +kernel),
    fault_of_faulted (by decide +kernel), fault_of_faulted (by decide +kernel)⟩

/-- One form of each class, in a mode of the spec (Legacy_invalid_opcode_iff, Vex_invalid_opcode_iff,
Evex_invalid_opcode_iff, Device_not_available_iff). -/
theorem witness_Invalid_opcode_iff :
    s64.mode = some .m64 ∧ s32.mode = some .m32 ∧
    (Instr.paddusbMm ⟨none, false⟩ none 0#3 (.reg 1#3)).formClass = .mmx ∧
    (Instr.padduswXmm ⟨none, false⟩ none 0#3 (.reg 1#3)).formClass = .sse ∧
    (Instr.vpadduswYmmVex2 ⟨none, false⟩ ⟨false, 0#4⟩ 2#3 (.reg 1#3)).formClass = .vex ∧
    (Instr.vpadduswXmmEvex ⟨none, false⟩ ⟨false, false, false, false, false, 1#4, false, false, 0#3⟩ 1#3
      (.reg 1#3)).formClass = .evex := by decide

/-- A pending x87 exception with `CR0.NE` 1 and 0; a form of another class, which completes under it
(Pending_x87_exception). -/
theorem witness_Pending_x87_exception :
    let s := { s64 with fsw := 0x80#16 }
    let q := { s with cr0 := s.cr0 ||| 0x20#64 }
    ((Instr.paddusbMm ⟨none, false⟩ none 0#3 (.reg 1#3)).formClass = .mmx ∧
      (Instr.paddusbXmm ⟨none, false⟩ none 0#3 (.reg 1#3)).formClass ≠ .mmx) ∧
    (s.mode = some .m64 ∧ s.feat.mmx = true ∧ s.cr0.getLsbD 2 = false ∧ s.cr0.getLsbD 3 = false ∧
      s.fsw.getLsbD 7 = true ∧ s.cr0.getLsbD 5 = false) ∧
    (q.mode = some .m64 ∧ q.feat.mmx = true ∧ q.cr0.getLsbD 2 = false ∧ q.cr0.getLsbD 3 = false ∧
      q.fsw.getLsbD 7 = true ∧ q.cr0.getLsbD 5 = true) ∧
    (∃ t, exec (.paddusbXmm ⟨none, false⟩ none 0#3 (.reg 1#3)) s = .next t) :=
  ⟨by decide, by decide, by decide, next_of_after (by decide +kernel)⟩

/-- In both modes every class is enabled at both vector lengths (the register results). -/
theorem witness_register_results :
    ∀ s ∈ [s64, s32], (s.mode = some .m64 ∨ s.mode = some .m32) ∧ s.MmxEnabled ∧ s.SseEnabled ∧ s.VexEnabled false ∧
      s.VexEnabled true ∧ s.EvexEnabled false ∧ s.EvexEnabled true ∧ (true && (7#3 == 0#3)) = false := by
  unfold State.MmxEnabled State.SseEnabled State.VexEnabled State.EvexEnabled
  decide

/-- `[rax]` at an odd address with alignment checking off, and at a multiple of 8 with it on; in 32-bit mode an operand that
ends with the last byte below 2^32 (Mmx_memory_result). -/
theorem witness_Mmx_memory_result :
    let i := Instr.paddusbMm ⟨none, false⟩ none 0#3 (.mem ⟨0#2, 0#3, none, .none⟩)
    ∀ q ∈ [(gp s64 0 0x2001#64, Mode.m64), (checked (gp s64 0 0x2008#64), Mode.m64),
        (gp s32 0 0xFFFFFFF8#64, Mode.m32)],
      let c := legacyCtx q.2 ⟨none, false⟩ none i
      let p := q.1.place c none ⟨0#2, 0#3, none, .none⟩ 8
      q.1.mode = some q.2 ∧ q.1.MmxEnabled ∧ q.1.SegmentOk c none ⟨0#2, 0#3, none, .none⟩ 8 ∧ q.1.Readable q.2 p ∧
        (q.1.alignmentChecking = true → p.lin.toNat % 8 = 0) := by
  intro i q hq
  simp only [List.mem_cons, List.not_mem_nil, or_false] at hq
  unfold State.MmxEnabled State.SegmentOk
  rcases hq with rfl | rfl | rfl <;>
    exact ⟨by decide +kernel, by decide +kernel, by decide +kernel, readable_of_bytes (by decide +kernel),
      by decide +kernel⟩

/-- `[rax]` on a 16-byte boundary, the last one in 32-bit mode (Sse_memory_result). -/
theorem witness_Sse_memory_result :
    let i := Instr.padduswXmm ⟨none, false⟩ none 0#3 (.mem ⟨0#2, 0#3, none, .none⟩)
    ∀ q ∈ [(gp s64 0 0x2010#64, Mode.m64), (gp s32 0 0xFFFFFFF0#64, Mode.m32)],
      let c := legacyCtx q.2 ⟨none, false⟩ none i
      let p := q.1.place c none ⟨0#2, 0#3, none, .none⟩ 16
      q.1.mode = some q.2 ∧ q.1.SseEnabled ∧ q.1.SegmentOk c none ⟨0#2, 0#3, none, .none⟩ 16 ∧ q.1.Readable q.2 p ∧
        p.lin.toNat % 16 = 0 := by
  intro i q hq
  simp only [List.mem_cons, List.not_mem_nil, or_false] at hq
  unfold State.SseEnabled State.SegmentOk
  rcases hq with rfl | rfl <;>
    exact ⟨by decide +kernel, by decide +kernel, by decide +kernel, readable_of_bytes (by decide +kernel),
      by decide +kernel⟩

/-- `[rax]` at an odd address, and on a multiple of the operand's size under alignment checking, at both vector lengths
(Vex_memory_result). -/
theorem witness_Vex_memory_result :
    ∀ q ∈ [(gp s64 0 0x2001#64, Mode.m64, 128), (gp s64 0 0x2001#64, Mode.m64, 256),
        (checked (gp s64 0 0x2020#64), Mode.m64, 256), (gp s32 0 0xFFFFFFE0#64, Mode.m32, 256)],
      let v : Vex3 := ⟨false, false, false, false, 2#4⟩
      let i := vex3Instr (q.2.2 == 256) true ⟨none, false⟩ v 1#3 (.mem ⟨0#2, 0#3, none, .none⟩)
      let c := vexCtx q.2.1 ⟨none, false⟩ v i
      let p := q.1.place c none ⟨0#2, 0#3, none, .none⟩ (q.2.2 / 8)
      q.1.mode = some q.2.1 ∧ q.1.VexEnabled (q.2.2 == 256) ∧ q.2.1.addr16 false = false ∧
        q.1.SegmentOk c none ⟨0#2, 0#3, none, .none⟩ (q.2.2 / 8) ∧ q.1.Readable q.2.1 p ∧
        (q.1.alignmentChecking = true → p.lin.toNat % (q.2.2 / 8) = 0) := by
  intro q hq
  simp only [List.mem_cons, List.not_mem_nil, or_false] at hq
  unfold State.VexEnabled State.SegmentOk
  rcases hq with rfl | rfl | rfl | rfl <;>
    exact ⟨by decide +kernel, by decide +kernel, by decide +kernel, by decide +kernel,
      readable_of_bytes (by decide +kernel), by decide +kernel⟩

/-- The same for a masked, zeroing EVEX form at each vector length (Evex_memory_result). -/
theorem witness_Evex_memory_result :
    ∀ q ∈ [(gp s64 0 0x2001#64, Mode.m64, EvexLen.vl128), (checked (gp s64 0 0x2020#64), Mode.m64, EvexLen.vl256),
        (gp s32 0 0xFFFFFFC0#64, Mode.m32, EvexLen.vl512)],
      let v : Evex := ⟨false, false, false, false, false, 2#4, false, true, 1#3⟩
      let i := evexInstr q.2.2 true ⟨none, false⟩ v 1#3 (.mem ⟨0#2, 0#3, none, .none⟩)
      let n := i.vectorBits / 8
      let c := evexCtx q.2.1 ⟨none, false⟩ v i
      let p := q.1.place c none ⟨0#2, 0#3, none, .none⟩ n
      q.1.mode = some q.2.1 ∧ (v.z && v.aaa == 0#3) = false ∧ q.1.EvexEnabled (i.vectorBits == 512) ∧
        q.2.1.addr16 false = false ∧ q.1.SegmentOk c none ⟨0#2, 0#3, none, .none⟩ n ∧ q.1.Readable q.2.1 p ∧
        (q.1.alignmentChecking = true → p.lin.toNat % n = 0) := by
  intro q hq
  simp only [List.mem_cons, List.not_mem_nil, or_false] at hq
  unfold State.EvexEnabled State.SegmentOk
  rcases hq with rfl | rfl | rfl <;>
    exact ⟨by decide +kernel, by decide +kernel, by decide +kernel, by decide +kernel, by decide +kernel,
      readable_of_bytes (by decide +kernel), by decide +kernel⟩

/-- One byte off a 16-byte boundary, in unmapped memory too; in 32-bit mode at the end of the address space
(Sse_misaligned_operand_faults). -/
theorem witness_Sse_misaligned_operand_faults :
    let i := Instr.paddusbXmm ⟨none, false⟩ none 0#3 (.mem ⟨0#2, 0#3, none, .none⟩)
    ∀ q ∈ [(hole 0x2001 16 (gp s64 0 0x2001#64), Mode.m64), (gp s32 0 0xFFFFFFEF#64, Mode.m32)],
      let c := legacyCtx q.2 ⟨none, false⟩ none i
      let p := q.1.place c none ⟨0#2, 0#3, none, .none⟩ 16
      q.1.mode = some q.2 ∧ q.1.SseEnabled ∧ q.1.SegmentOk c none ⟨0#2, 0#3, none, .none⟩ 16 ∧
        (∀ k < 16, canonical q.2 q.1.platform.laBits (linByte q.2 p.lin k) = true) ∧ p.lin.toNat % 16 ≠ 0 := by
  unfold State.SseEnabled State.SegmentOk
  decide +kernel

/-- An odd address at CPL 3 under alignment checking (Mmx_alignment_check). -/
theorem witness_Mmx_alignment_check :
    let i := Instr.paddusbMm ⟨none, false⟩ none 0#3 (.mem ⟨0#2, 0#3, none, .none⟩)
    let s := checked (gp s64 0 0x2001#64)
    let c := legacyCtx .m64 ⟨none, false⟩ none i
    let p := s.place c none ⟨0#2, 0#3, none, .none⟩ 8
    s.mode = some .m64 ∧ s.MmxEnabled ∧ s.SegmentOk c none ⟨0#2, 0#3, none, .none⟩ 8 ∧ s.Readable .m64 p ∧
      p.lin.toNat % 8 ≠ 0 ∧ s.cr0.getLsbD 18 = true ∧ s.rflags.getLsbD 18 = true ∧
      s.segs.cs.selector.extractLsb' 0 2 = 3#2 := by
  unfold State.MmxEnabled State.SegmentOk
  exact ⟨by decide +kernel, by decide +kernel, by decide +kernel, readable_of_bytes (by decide +kernel),
    by decide +kernel, by decide +kernel, by decide +kernel, by decide +kernel⟩

/-- The same for a VEX form in each prefix and an EVEX form, in both modes (Vex_alignment_check_is_refused). -/
theorem witness_Vex_alignment_check_is_refused :
    ∀ q ∈ [(checked (gp s64 0 0x2001#64), Mode.m64), (checked (gp s32 0 0x2010#64), Mode.m32)],
      ∀ i ∈ [vex3Instr true true ⟨none, false⟩ ⟨false, false, false, false, 2#4⟩ 1#3 (.mem atRax),
          vex2Instr true false ⟨none, false⟩ ⟨false, 2#4⟩ 1#3 (.mem atRax),
          evexInstr .vl512 true ⟨none, false⟩ evexK1 1#3 (.mem atRax)],
        let p := q.1.operandPlace q.2 i atRax
        (i.formClass = .vex ∨ i.formClass = .evex) ∧ i.regMem = .mem atRax ∧ q.1.mode = some q.2 ∧ q.1.Enabled i ∧
          q.1.Addressable q.2 i atRax ∧ q.1.Readable q.2 p ∧ p.lin.toNat % (i.vectorBits / 8) ≠ 0 ∧
          q.1.cr0.getLsbD 18 = true ∧ q.1.rflags.getLsbD 18 = true ∧ q.1.segs.cs.selector.extractLsb' 0 2 = 3#2 := by
  intro q hq i hi
  simp only [List.mem_cons, List.not_mem_nil, or_false] at hq hi
  unfold State.Addressable State.SegmentOk
  rcases hq with rfl | rfl <;> rcases hi with rfl | rfl | rfl <;>
    exact ⟨by decide, rfl, by decide, enabled_of (by decide +kernel), by decide +kernel,
      readable_of_bytes (by decide +kernel), by decide +kernel, by decide +kernel, by decide +kernel, by decide +kernel⟩

/-- The last byte of the operand is the first non-canonical one, in every class and prefix, for EVEX in the last lane,
which is active: base RAX, with FS and with the ignored DS (#GP); base RSP with and without the SS override (#SS); an
ignored SS with RAX and an ignored DS with RSP (Non_canonical_operand_faults). -/
theorem witness_Non_canonical_operand_faults :
    ∀ q ∈ [(none, atRax, false, SegName.ds), (some .fs, atRax, false, .fs), (some .ds, atRax, false, .ds),
        (none, atRsp, false, .ss), (some .ss, atRsp, false, .ss), (some .ss, atRax, true, .ss),
        (some .ds, atRsp, true, .ds)],
      ∀ i ∈ forms q.1 q.2.1,
        let y := 0x800000000001#64 - BitVec.ofNat 64 (i.vectorBits / 8)
        let s := opmask (gp (gp s64 0 y) 4 y) 1 0x80000000#64
        let stack := (s.effAddr (instrCtx .m64 i) q.2.1).stack
        i.regMem = .mem q.2.1 ∧ s.mode = some .m64 ∧ enabledB s i = true ∧
          (let k := i.vectorBits / 8 - 1
           (i.opmask = 0#3 ∨ (s.mask i.opmask).getLsbD (8 * k / i.laneBits) = true) ∧
             canonical .m64 s.platform.laBits (linByte .m64 (s.operandPlace .m64 i q.2.1).lin k) = false) ∧
          ((∃ n ∈ [SegName.cs, SegName.ss, SegName.ds, SegName.es],
            i.prefixes.seg = some n ∧ (n = .ss ↔ stack = false)) ↔ q.2.2.1 = true) ∧
          operandSegment i.prefixes.seg stack = q.2.2.2 := by decide +kernel

/-- The last byte of the operand does not translate, in every class but EVEX, in both modes
(Page_fault_reports_a_faulting_byte, Page_fault_code_bits). -/
theorem witness_Page_fault_reports_a_faulting_byte :
    ∀ q ∈ [(s64, Mode.m64), (s32, Mode.m32)], ∀ i ∈ (forms none atRax).take 4,
      let k := i.vectorBits / 8 - 1
      let s := hole (0x2000 + k) 0x1000 (gp q.1 0 0x2000#64)
      let p := s.operandPlace q.2 i atRax
      i.formClass ≠ .evex ∧ i.regMem = .mem atRax ∧ s.mode = some q.2 ∧ s.Enabled i ∧ s.Addressable q.2 i atRax ∧
        s.AllCanonical q.2 p ∧ (i.formClass = .sse → p.lin.toNat % 16 = 0) ∧
        (∃ k < i.vectorBits / 8, ∃ e, s.FaultsAt q.2 p k e) := by
  intro q hq i hi
  unfold forms at hi
  simp only [List.take_succ_cons, List.take_zero, List.mem_cons, List.not_mem_nil, or_false] at hq hi
  unfold State.Addressable State.SegmentOk State.AllCanonical
  rcases hq with rfl | rfl <;> rcases hi with rfl | rfl | rfl | rfl <;>
    exact ⟨by decide, rfl, by decide +kernel, enabled_of (by decide +kernel), by decide +kernel, by decide +kernel,
      by decide +kernel, exists_error (by decide +kernel)⟩

/-- E21: `VPADDUSB xmm1 {k1}, xmm0, [rax]` with bytes 8 to 15 of the operand unmapped, under the mask `k`. -/
def e21 (k : Word64) : State := opmask (hole 0x2008 0x1000 (gp s64 0 0x2000#64)) 1 k

/-- The same with the operand so placed that its bytes from 8 on are not canonical, and `size` bytes of it from byte 4 on
unmapped. -/
def e21Top (k : Word64) (size : Nat) : State := opmask (hole 0x7FFFFFFFFFFC size (gp s64 0 0x7FFFFFFFFFF8#64)) 1 k

/-- The instruction of E21. -/
def e21Instr : Instr :=
  evexInstr .vl128 false ⟨none, false⟩ ⟨false, false, false, false, false, 0#4, false, false, 1#3⟩ 1#3 (.mem atRax)

/-- Byte 8 is active and fails under mask 01FF; under 00FF only bytes of masked-off lanes fail. Byte 4 is active and fails
while the bytes from 8 on are masked off and not canonical; these alone fail (Page_fault_under_writemask). -/
theorem witness_Page_fault_under_writemask :
    let canon := fun (s : State) j => canonical .m64 s.platform.laBits (linByte .m64 (s.operandPlace .m64 e21Instr atRax).lin j)
    let fails := fun (s : State) j => fails s .m64 (s.operandPlace .m64 e21Instr atRax).lin j
    (∀ s ∈ [e21 0x1FF#64, e21 0xFF#64, e21Top 0xFF#64 1, e21Top 0xFF#64 0],
      s.mode = some .m64 ∧ s.Enabled e21Instr ∧ s.Addressable .m64 e21Instr atRax) ∧
    (∀ s ∈ [e21 0x1FF#64, e21Top 0xFF#64 1],
      (∀ j < 16, s.ActiveByte e21Instr j → canon s j = true) ∧ (∃ j < 16, s.ActiveByte e21Instr j ∧ fails s j = true)) ∧
    (∀ s ∈ [e21 0xFF#64, e21Top 0xFF#64 0],
      (∃ j < 16, canon s j = false ∨ fails s j = true) ∧
        (∀ j < 16, s.ActiveByte e21Instr j → canon s j = true ∧ fails s j = false)) := by
  refine ⟨fun s hs => ?_, ?_, ?_⟩
  · unfold State.Addressable State.SegmentOk
    simp only [List.mem_cons, List.not_mem_nil, or_false] at hs
    rcases hs with rfl | rfl | rfl | rfl <;>
      exact ⟨by decide +kernel, enabled_of (by decide +kernel), by decide +kernel⟩
  · unfold State.ActiveByte
    decide +kernel
  · unfold State.ActiveByte
    decide +kernel

/-- With byte 4 active and unmapped the outcome is its #PF although masked-off bytes are not canonical; with byte 8 active
it is #GP(0); with neither there is none (42_vpaddus_evex.md R140, D17). -/
theorem test_masked_non_canonical :
    faulted (run (e21Top 0xFF#64 1) [0x62, 0xF1, 0x7D, 0x09, 0xDC, 0x08]) = some (14, some 0#32) ∧
    faulted (run (e21Top 0x1FF#64 0) [0x62, 0xF1, 0x7D, 0x09, 0xDC, 0x08]) = some (13, some 0#32) ∧
    refusal (run (e21Top 0xFF#64 0) [0x62, 0xF1, 0x7D, 0x09, 0xDC, 0x08]) = some .maskedLaneFault := by decide +kernel

/-- E21 itself: a refusal with mask 00FF. -/
theorem test_E21_refused : refusal (run (e21 0xFF#64) [0x62, 0xF1, 0x7D, 0x09, 0xDC, 0x08]) = some .maskedLaneFault := by
  decide +kernel

/-- The last byte of an aligned operand is a device register, in every class and prefix (Device_operand_is_refused). -/
theorem witness_Device_operand_is_refused :
    ∀ i ∈ forms none atRax,
      let k := i.vectorBits / 8 - 1
      let s := device (0x2000 + k) 1 (checked (gp s64 0 0x2000#64))
      let p := s.operandPlace .m64 i atRax
      i.regMem = .mem atRax ∧ s.mode = some .m64 ∧ s.Enabled i ∧ s.Addressable .m64 i atRax ∧ s.AllCanonical .m64 p ∧
        (i.formClass = .sse → p.lin.toNat % 16 = 0) ∧ p.lin.toNat % (i.vectorBits / 8) = 0 ∧
        (∀ k < i.vectorBits / 8, ∃ b, s.translate (linByte .m64 p.lin k) = .ok b) ∧
        (∃ k < i.vectorBits / 8, ∃ b, s.translate (linByte .m64 p.lin k) = .ok b ∧ s.kindAt b = .device) := by
  intro i hi
  unfold forms at hi
  simp only [List.mem_cons, List.not_mem_nil, or_false] at hi
  unfold State.Addressable State.SegmentOk State.AllCanonical
  rcases hi with rfl | rfl | rfl | rfl | rfl <;>
    exact ⟨rfl, by decide +kernel, enabled_of (by decide +kernel), by decide +kernel, by decide +kernel,
      by decide +kernel, by decide +kernel, exists_device (by decide +kernel) (by decide +kernel)⟩

/-- The last lane of 64 bytes and of 8 words; vectors of the machine's lengths (AddUS_lanes_are_independent, AddUS_laws). -/
theorem witness_AddUS :
    (0 < 8 ∧ 63 < 512 / 8) ∧ (0 < 16 ∧ 7 < 128 / 16) ∧ 8 * (64 / 8) = 64 ∧ 16 * (512 / 16) = 512 := by decide

/-- `FFH`, `100H`, `FFFFH`, `10000H` (SatUB_value, SatUW_value; the values of 95_test_vectors.md S1, S2). -/
theorem witness_Sat :
    satU 8 255 = 0xFF#8 ∧ satU 8 256 = 0xFF#8 ∧ satU 8 254 = 0xFE#8 ∧ satU 16 65535 = 0xFFFF#16 ∧
      satU 16 65536 = 0xFFFF#16 ∧ satU 16 65534 = 0xFFFE#16 := by decide

/-- A legacy SSE form that completes, and again with the upper half of its source changed
(Legacy_sse_keeps_upper_bits). -/
theorem witness_Legacy_sse_keeps_upper_bits :
    let i := legacyInstr true false ⟨none, false⟩ none 0#3 (.reg 1#3)
    s64.mode = some .m64 ∧ (∃ t, exec i s64 = .next t) ∧
      (BitVec.setWidth 128 (1#512 <<< 128)) = (s64.vreg 1#5).setWidth 128 ∧
      (∃ t, exec i (s64.setVreg 1#5 (1#512 <<< 128)) = .next t) :=
  ⟨by decide, next_of_after (by decide +kernel), by decide +kernel, next_of_after (by decide +kernel)⟩

/-- An EVEX form that completes with an all-zero mask and merging (Evex_zeroes_upper_bits); the mask with and without bits
above its 16 lanes, with a register and a memory operand (Mask_bits_above_lanes_ignored). -/
theorem witness_Evex_zeroes_upper_bits :
    ∀ rm ∈ [RegMem.reg 3#3, .mem atRax],
      let i := evexInstr .vl128 false ⟨none, false⟩ evexK1 1#3 rm
      let k := (opmask s64 1 0xFFFFFFFFFFFF0000#64).k
      s64.mode = some .m64 ∧ (∃ t, exec i s64 = .next t) ∧ evexK1.aaa ≠ 0#3 ∧ evexK1.z = false ∧
        s64.mask evexK1.aaa = 0#64 ∧
        (∀ j < i.vectorBits / i.laneBits, (s64.mask evexK1.aaa).getLsbD j = (k.get evexK1.aaa.toFin).getLsbD j) ∧
        (∃ t, exec i { s64 with k := k } = .next t) := by
  intro rm hrm
  simp only [List.mem_cons, List.not_mem_nil, or_false] at hrm
  rcases hrm with rfl | rfl <;>
    exact ⟨by decide, next_of_after (by decide +kernel), by decide, by decide, by decide +kernel, by decide +kernel,
      next_of_after (by decide +kernel)⟩

/-- `PADDUSB xmm9, xmm8` and `VPADDUSB xmm9, xmm9, xmm8` complete; `PADDUSB xmm1, [rax]` and `VPADDUSB xmm1, xmm1, [rax]` in
both prefixes (Vex_agrees_with_legacy). -/
theorem witness_Vex_agrees_with_legacy :
    (let x : Option Rex := some ⟨false, true, false, true⟩
     let v : Vex3 := ⟨true, false, true, false, 9#4⟩
     s64.mode = some .m64 ∧ v.r = (rexFields x).r ∧ v.b = (rexFields x).b ∧
      vvvvNum .m64 false v.vvvv = regNum5 .m64 false v.r 1#3 ∧
      (∃ t, exec (legacyInstr true false ⟨none, false⟩ x 1#3 (.reg 0#3)) s64 = .next t) ∧
      (∃ t, exec (vex3Instr false false ⟨none, false⟩ v 1#3 (.reg 0#3)) s64 = .next t)) ∧
    (let v : Vex2 := ⟨false, 1#4⟩
     let i := legacyInstr true false ⟨none, false⟩ none 1#3 (.mem atRax)
     v.wide.r = (rexFields none).r ∧ vvvvNum .m64 false v.wide.vvvv = regNum5 .m64 false v.wide.r 1#3 ∧
      s64.Private .m64 (s64.operandPlace .m64 i atRax) ∧ (∃ t, exec i s64 = .next t) ∧
      ∀ j ∈ [vex3Instr false false ⟨none, false⟩ v.wide 1#3 (.mem atRax),
          vex2Instr false false ⟨none, false⟩ v 1#3 (.mem atRax)],
        s64.operandPlace .m64 i atRax = s64.operandPlace .m64 j atRax ∧ ∃ t, exec j s64 = .next t) := by
  refine ⟨⟨by decide, rfl, rfl, by decide, next_of_after (by decide +kernel), next_of_after (by decide +kernel)⟩,
    rfl, by decide, private_of (by decide +kernel), next_of_after (by decide +kernel), fun j hj => ?_⟩
  simp only [List.mem_cons, List.not_mem_nil, or_false] at hj
  rcases hj with rfl | rfl <;> exact ⟨by decide +kernel, next_of_after (by decide +kernel)⟩

/-- Registers 15, 9 and 8 at 128 and 256 bits under both prefixes (Evex_agrees_with_vex). -/
theorem witness_Evex_agrees_with_vex :
    let v : Vex3 := ⟨true, false, true, false, 9#4⟩
    let e : Evex := ⟨true, false, true, false, false, 9#4, false, false, 0#3⟩
    s64.mode = some .m64 ∧ e.aaa = 0#3 ∧ e.r = v.r ∧ e.b = v.b ∧ e.vvvv = v.vvvv ∧ e.rHi = false ∧ e.vHi = false ∧
      e.x = false ∧
      (∃ t, exec (vex3Instr false true ⟨none, false⟩ v 7#3 (.reg 0#3)) s64 = .next t) ∧
      (∃ t, exec (evexInstr .vl128 true ⟨none, false⟩ e 7#3 (.reg 0#3)) s64 = .next t) ∧
      (∃ t, exec (vex3Instr true true ⟨none, false⟩ v 7#3 (.reg 0#3)) s64 = .next t) ∧
      (∃ t, exec (evexInstr .vl256 true ⟨none, false⟩ e 7#3 (.reg 0#3)) s64 = .next t) :=
  ⟨by decide, rfl, rfl, rfl, rfl, rfl, rfl, rfl, next_of_after (by decide +kernel), next_of_after (by decide +kernel),
    next_of_after (by decide +kernel), next_of_after (by decide +kernel)⟩

/-- The same with `[rax]`, the VEX form in both prefixes (Evex_agrees_with_vex). -/
theorem witness_Evex_agrees_with_vex_memory :
    let v : Vex2 := ⟨true, 9#4⟩
    let e : Evex := ⟨true, false, false, false, false, 9#4, false, false, 0#3⟩
    ∀ l ∈ [false, true],
      let j := evexInstr (if l then .vl256 else .vl128) true ⟨none, false⟩ e 7#3 (.mem atRax)
      e.r = v.wide.r ∧ e.vvvv = v.wide.vvvv ∧ (∃ t, exec j s64 = .next t) ∧
        ∀ i ∈ [vex3Instr l true ⟨none, false⟩ v.wide 7#3 (.mem atRax), vex2Instr l true ⟨none, false⟩ v 7#3 (.mem atRax)],
          s64.operandPlace .m64 i atRax = s64.operandPlace .m64 j atRax ∧
            s64.Private .m64 (s64.operandPlace .m64 i atRax) ∧ ∃ t, exec i s64 = .next t := by
  intro v e l hl
  simp only [List.mem_cons, List.not_mem_nil, or_false] at hl
  rcases hl with rfl | rfl <;>
  · refine ⟨rfl, rfl, next_of_after (by decide +kernel), fun i hi => ?_⟩
    simp only [List.mem_cons, List.not_mem_nil, or_false] at hi
    rcases hi with rfl | rfl <;>
      exact ⟨by decide +kernel, private_of (by decide +kernel), next_of_after (by decide +kernel)⟩

/-- An MMX form that completes, and one that faults (Mmx_x87_side_effects). -/
theorem witness_Mmx_x87_side_effects :
    let i := legacyInstr false true ⟨none, false⟩ none 7#3 (.reg 7#3)
    (∃ t, exec i s64 = .next t) ∧
      (∃ f, exec i { s64 with cr0 := s64.cr0 ||| 8#64 } = .fault f ∧ f.vector = 7 ∧ f.errorCode = none) :=
  ⟨next_of_after (by decide +kernel), fault_of_faulted (by decide +kernel)⟩

/-- L2 and E18: `[rbx+rcx*4+16]`, and `[rsp-64]` with disp8 scaled by 64; with 67; without a SIB byte `[rbx]` and, in 32-bit
mode, `[ebp+disp32]`; `base = 101` with `mod = 00` (Effective_address_base_index). -/
theorem witness_Effective_address_base_index :
    let s := gp (gp (gp (gp s64 3 0x1_0000_7000#64) 1 4#64) 4 0x8000#64) 5 0xFFFFFFF0#64
    Mode.m64.addr16 false = false ∧ Mode.m64.addr16 true = false ∧ Mode.m32.addr16 false = false ∧
    s.effAddr ⟨.m64, false, false, false, 1, 7⟩ ⟨1#2, 4#3, some ⟨2#2, 1#3, 3#3⟩, .disp8 0x10#8⟩ = ⟨0x1_0000_7020#64, false⟩ ∧
    s.effAddr ⟨.m64, false, false, false, 64, 8⟩ ⟨1#2, 4#3, some ⟨0#2, 4#3, 4#3⟩, .disp8 0xFF#8⟩ = ⟨0x7FC0#64, true⟩ ∧
    s.effAddr ⟨.m64, true, false, false, 1, 8⟩ ⟨1#2, 4#3, some ⟨2#2, 1#3, 3#3⟩, .disp8 0x10#8⟩ = ⟨0x7020#64, false⟩ ∧
    s.effAddr ⟨.m64, false, false, false, 1, 3⟩ ⟨0#2, 3#3, none, .none⟩ = ⟨0x1_0000_7000#64, false⟩ ∧
    s.effAddr ⟨.m32, false, false, false, 1, 7⟩ ⟨2#2, 5#3, none, .disp32 0x20#32⟩ = ⟨0x10#64, true⟩ ∧
    s.effAddr ⟨.m64, false, false, false, 1, 8⟩ ⟨0#2, 4#3, some ⟨3#2, 1#3, 5#3⟩, .disp32 0x100#32⟩ =
      ⟨0x120#64, false⟩ := by
  decide +kernel

/-- L6: `[bx+si+8]`, here past 2^16; `[bp+8]` takes SS; `[bp+di+8000]` with disp16; `[si]` and `[1234]` with `mod = 00`
(Effective_address_16_bit). -/
theorem witness_Effective_address_16_bit :
    let s := gp (gp (gp (gp s32 3 0x1FFF0#64) 6 0x10#64) 5 0x20#64) 7 0x9000#64
    s.effAddr ⟨.m32, true, false, false, 1, 5⟩ ⟨1#2, 0#3, none, .disp8 8#8⟩ = ⟨8#64, false⟩ ∧
    s.effAddr ⟨.m32, true, false, false, 1, 5⟩ ⟨1#2, 6#3, none, .disp8 8#8⟩ = ⟨0x28#64, true⟩ ∧
    s.effAddr ⟨.m32, true, false, false, 1, 6⟩ ⟨2#2, 3#3, none, .disp16 0x8000#16⟩ = ⟨0x1020#64, true⟩ ∧
    s.effAddr ⟨.m32, true, false, false, 1, 4⟩ ⟨0#2, 4#3, none, .none⟩ = ⟨0x10#64, false⟩ ∧
    s.effAddr ⟨.m32, true, false, false, 1, 6⟩ ⟨0#2, 6#3, none, .disp16 0x1234#16⟩ = ⟨0x1234#64, false⟩ := by decide +kernel

/-- L4: `[rip+24]` in an instruction of 8 bytes, and with 67 past 2^32; the same bytes in 32-bit mode (Effective_address_rip_relative). -/
theorem witness_Effective_address_rip_relative :
    s64.effAddr ⟨.m64, false, false, false, 1, 8⟩ ⟨0#2, 5#3, none, .disp32 0x18#32⟩ = ⟨0x400020#64, false⟩ ∧
    ({ s64 with pc := 0x1FFFFFFF0#64 } : State).effAddr ⟨.m64, true, false, false, 1, 9⟩ ⟨0#2, 5#3, none, .disp32 0x18#32⟩ =
      ⟨0x11#64, false⟩ ∧
    s32.effAddr ⟨.m32, false, false, false, 1, 8⟩ ⟨0#2, 5#3, none, .disp32 0x18#32⟩ = ⟨0x18#64, false⟩ := by
  decide +kernel

/-- The segment an override names, the default SS and the default DS (Linear_address). -/
theorem witness_Linear_address :
    let s := gp s64 4 0x8000#64
    let c : AddrCtx := ⟨.m64, false, false, false, 1, 3⟩
    (s.place c (some .gs) atRsp 8).seg = .gs ∧ (s.effAddr c atRsp).stack = true ∧ (s.place c none atRsp 8).seg = .ss ∧
      (s.effAddr c atRax).stack = false ∧ (s.place c none atRax 8).seg = .ds := by decide +kernel

/-- In 32-bit mode every class with a flat segment and an operand that ends one byte past 2^32; with a DS base of 10H; with
an FS that is null; with a limit one short (Operand_refusals_in_32_bit_mode). -/
theorem witness_Operand_refusals_in_32_bit_mode :
    (∀ i ∈ forms none atRax,
      let s := gp s32 0 (0x100000001#64 - BitVec.ofNat 64 (i.vectorBits / 8))
      i.regMem = .mem atRax ∧ s.mode = some .m32 ∧ enabledB s i = true ∧ i.prefixes.a67 = false ∧
        (let r := s.segs.get (operandSegment i.prefixes.seg (s.effAddr (instrCtx .m32 i) atRax).stack)
         r.selector.extractLsb' 2 14 ≠ 0#14 ∧ r.present = true ∧ r.readable = true ∧ r.limit = 0xFFFFFFFF#32 ∧
           r.base = 0#64) ∧
        2 ^ 32 < (s.effAddr (instrCtx .m32 i) atRax).ea.toNat + i.vectorBits / 8) ∧
    (∀ i ∈ forms none atRax ++ forms (some .fs) atRax,
      ∀ r ∈ [{ flat with base := 0x10#64, limit := 0xFFFFFFFE#32 }, { flat with selector := 3#16 },
          { flat with present := false }, { flat with readable := false }],
        let s := { s32 with segs := { s32.segs with ds := r, fs := r } }
        i.regMem = .mem atRax ∧ s.mode = some .m32 ∧ enabledB s i = true ∧ i.prefixes.a67 = false ∧
          s.segs.get (operandSegment i.prefixes.seg (s.effAddr (instrCtx .m32 i) atRax).stack) = r ∧
          (r.selector.extractLsb' 2 14 = 0#14 ∨ r.present = false ∨ r.readable = false ∨ r.limit ≠ 0xFFFFFFFF#32)) := by
  decide +kernel

/-- `C5 69` and `62 71`; `C4` with B 0 and with the top bit of vvvv 0; `62` with each of its four bits 0; a VEX form and an
EVEX form that a memory operand `[bx+si]` under 67 makes refused (Decoder_refusals_in_32_bit_mode). -/
theorem witness_Decoder_refusals_in_32_bit_mode :
    ((0x69#8).extractLsb' 6 2 ≠ 3#2 ∧ (0x71#8).extractLsb' 6 2 ≠ 3#2) ∧
    ((0xC1#8).extractLsb' 6 2 = 3#2 ∧ (0xC1#8).getLsbD 5 = false ∧ (0xE1#8).extractLsb' 6 2 = 3#2 ∧
      (0x29#8).getLsbD 6 = false) ∧
    ((0xD1#8).extractLsb' 6 2 = 3#2 ∧ (0xD1#8).getLsbD 5 = false ∧ (0xE1#8).getLsbD 4 = false ∧
      (0x2D#8).getLsbD 6 = false ∧ (0x00#8).getLsbD 3 = false) ∧
    (vex2Instr false true ⟨some .gs, true⟩ ⟨false, 7#4⟩ 1#3 (.reg 0#3)).wellFormed .m32 = true ∧
    (vex3Instr true true ⟨none, true⟩ ⟨false, false, false, true, 7#4⟩ 1#3 (.reg 0#3)).wellFormed .m32 = true ∧
    (evexInstr .vl256 true ⟨none, true⟩ evexK1 1#3 (.reg 0#3)).wellFormed .m32 = true ∧ atRax.mod ≠ 3#2 := by decide

/-! ### A program and its run -/

/-- `PADDUSB mm0, mm1`, then `PADDUSB xmm1, [rax]`. -/
def prog2 : Program :=
  [.paddusbMm ⟨none, false⟩ none 0#3 (.reg 1#3), .paddusbXmm ⟨none, false⟩ none 1#3 (.mem atRax)]

/-- The state it is launched in: its bytes at pc and a 7F in its operand. -/
def prog2State : State := (put (gp s64 0 0x7000#64) 0x7000 [0x7F]).placeCode .m64 prog2.bytes 0

/-- It meets the launch premises of R194. -/
theorem test_launch : prog2State.Launch .m64 prog2 where
  mode := by decide +kernel
  pagedProtected := by decide +kernel
  booted := by
    intro i hi
    unfold prog2 at hi
    simp only [List.mem_cons, List.not_mem_nil, or_false] at hi
    rcases hi with rfl | rfl <;> exact ⟨by decide, ((enabled_iff_booted _ _).mp (enabled_of (by decide +kernel))).1⟩
  code := fun k h => code_of_bytes (n := prog2.bytes.length) (by decide +kernel) k h h
  noTrap := by decide +kernel
  flat := nofun
  operands := by
    intro j i c a hi hc ha q k hk b hb
    match j, hi with
    | 0, hi => cases Option.some.inj hi; cases ha
    | 1, hi =>
      cases Option.some.inj hi
      cases ha
      cases (show some 0x400003#64 = some c by rw [← hc]; decide +kernel)
      have hp : State.Private { prog2State with pc := 0x400003#64 } .m64 q := private_of (by decide +kernel)
      exact fun h => nomatch (hp k hk b hb).symm.trans h

/-- A pending x87 exception is no obstacle to P2, and the first form of the program is #MF in it (R192 step 8, R160). -/
theorem test_booted_with_x87_exception :
    let s : State := { prog2State with fsw := 0x80#16, cr0 := prog2State.cr0 ||| 0x20#64 }
    (∀ i ∈ prog2, s.Booted i) ∧ faulted (step s) = some (16, none) := by
  refine ⟨fun i hi => ?_, by decide +kernel⟩
  unfold prog2 at hi
  simp only [List.mem_cons, List.not_mem_nil, or_false] at hi
  rcases hi with rfl | rfl
  · exact ⟨by decide +kernel, by decide +kernel, by decide +kernel⟩
  · exact ⟨by decide +kernel, by decide +kernel, by decide +kernel, by decide +kernel⟩

/-- `VPADDUSB xmm5, xmm6, xmm7` runs in 32-bit mode with a null GS; through GS an operand is refused
(notes/assumptions/38.md). -/
theorem test_only_segments_used_are_flat :
    let s : State := { s32 with segs := { s32.segs with gs := { flat with selector := 0#16 } } }
    after (run32 s [0xC5, 0xC9, 0xDC, 0xEF]) (·.pc) = some 0x8004#64 ∧
      refusal (run32 s [0x65, 0xC5, 0xC9, 0xDC, 0x28]) = some .nonFlatSegment := by decide +kernel

/-- It runs from `a_0` to `a_2` (70_reset_and_hazards.md R200); the step at `a_2`, where nothing decodes, is not taken. -/
theorem test_run_ends_at_last_address :
    prog2.addresses .m64 0x400000#64 = [0x400000#64, 0x400003#64, 0x400007#64] ∧
    (match runProgram .m64 prog2 prog2State with
     | .finished t => t.pc == 0x400007#64 && t.vreg 1#5 == 0x7F#512 && refusal (step t) == some (.encoding .otherInstruction)
     | _ => false) = true := by decide +kernel

/-- A run whose first form faults ends there. -/
theorem test_run_ends_at_fault :
    (match runProgram .m64 prog2 { prog2State with cr0 := prog2State.cr0 ||| 8#64 } with
     | .faulted f => f.vector == 7 && f.after.pc == 0x400000#64
     | _ => false) = true := by decide +kernel

end Sys2Proof.Tests
end

section
/-! PROOFS. Lane arithmetic (00_scope.md R9 to R11). -/

namespace Sys2Proof.Machine

/-- What a `w`-bit lane can hold is not saturated (R9, R10). -/
theorem satU_toNat_of_le (w : Nat) {n : Nat} (h : n ≤ 2 ^ w - 1) : (satU w n).toNat = n := by
  rw [satU_toNat, Nat.min_eq_left h]

/-- Past the greatest value of a lane the saturated value is all ones (R9, R10). -/
theorem satU_eq_allOnes_of_lt (w : Nat) {n : Nat} (h : 2 ^ w - 1 < n) : satU w n = BitVec.allOnes w :=
  if_neg (Nat.not_le.mpr h)

/-- Settles O43: the two sides of the bound 255 of the general saturation at width 8. -/
theorem satUB_value : Obligations.SatUB_value :=
  fun _ => ⟨satU_toNat_of_le 8, satU_eq_allOnes_of_lt 8⟩

/-- Settles O44: the two sides of the bound 65535 of the general saturation at width 16. -/
theorem satUW_value : Obligations.SatUW_value :=
  fun _ => ⟨satU_toNat_of_le 16, satU_eq_allOnes_of_lt 16⟩

/-- Settles O45: lane `j` of the sum is `addSat` of lane `j` of each operand, so equal lanes give equal sums. -/
theorem addUS_lanes_are_independent : Obligations.AddUS_lanes_are_independent := by
  intro w N A A' B B' j hw hj
  refine ⟨lane_addUS w N A B j hw hj, fun hA hB => ?_⟩
  calc lane w (addUS w N A B) j
      = addSat w A B j := lane_addUS w N A B j hw hj
    _ = addSat w A' B' j := by rw [addSat, addSat, hA, hB]
    _ = lane w (addUS w N A' B') j := (lane_addUS w N A' B' j hw hj).symm

end Sys2Proof.Machine
end

section
/-! PROOFS. The decoder on the bytes the encoder gives (30_encoding.md R70 to R100): a lemma for each part of the layout, then
one for each layout, then the round trip. -/

namespace Sys2Proof

/-! ### Operand bytes: ModRM, SIB, displacement -/

/-- The fields of a ModRM or SIB byte (R75, R76), read back from the byte they make. -/
theorem extract_fields (a : BitVec 2) (b c : BitVec 3) :
    (a ++ b ++ c : BitVec 8).extractLsb' 6 2 = a ∧ (a ++ b ++ c : BitVec 8).extractLsb' 3 3 = b ∧
      (a ++ b ++ c : BitVec 8).extractLsb' 0 3 = c :=
  ⟨(BitVec.extractLsb'_append_eq_of_le (by decide)).trans BitVec.extractLsb'_append_eq_left,
    (BitVec.extractLsb'_append_eq_of_le (by decide)).trans BitVec.extractLsb'_append_eq_right,
    BitVec.extractLsb'_append_eq_right⟩

@[simp] theorem sibOf_sibByte (sb : Sib) : sibOf (sibByte sb) = sb := by
  simp only [sibOf, sibByte, extract_fields]

/-- A displacement of `d.size` bytes is read back, whatever follows (R77). -/
theorem takeDisp_encodeDisp (d : Disp) (rest : List Byte) : takeDisp d.size (encodeDisp d ++ rest) = some (d, rest) := by
  cases d with
  | none | disp8 d => rfl
  | disp16 d =>
    have hd : (d.extractLsb' 8 8 ++ d.extractLsb' 0 8 : BitVec 16) = d := BitVec.extractLsb'_append_extractLsb'
    simp [takeDisp, Disp.size, encodeDisp, hd]
  | disp32 d =>
    have hd : (d.extractLsb' 24 8 ++ d.extractLsb' 16 8 ++ d.extractLsb' 8 8 ++ d.extractLsb' 0 8 : BitVec 32) = d := by
      rw [BitVec.extractLsb'_append_extractLsb'_eq_extractLsb' (by rfl),
        BitVec.extractLsb'_append_extractLsb'_eq_extractLsb' (by rfl),
        BitVec.extractLsb'_append_extractLsb'_eq_extractLsb' (by rfl), BitVec.extractLsb'_eq_self]
    simp [takeDisp, Disp.size, encodeDisp, hd]

/-- The displacement of a memory operand is read back at the size its ModRM and SIB ask for. -/
theorem takeMem_encodeDisp {a16 : Bool} {mod : BitVec 2} {rm : BitVec 3} {sib : Option Sib} {d : Disp}
    (h : d.size = dispSize a16 mod rm sib) (rest : List Byte) :
    takeMem a16 mod rm sib (encodeDisp d ++ rest) = some (.mem ⟨mod, rm, sib, d⟩, rest) := by
  rw [takeMem, ← h, takeDisp_encodeDisp]

/-- The operand bytes are read back, whatever follows them (R75 to R77). -/
theorem takeRegMem_encodeRegMem {a16 : Bool} {rm : RegMem} (h : rm.wellFormed a16 = true) (reg : BitVec 3)
    (rest : List Byte) : takeRegMem a16 (encodeRegMem reg rm ++ rest) = some (reg, rm, rest) := by
  cases rm with
  | reg r => simp [encodeRegMem, takeRegMem, extract_fields]
  | mem a =>
    obtain ⟨mod, rm, sib, disp⟩ := a
    simp only [RegMem.wellFormed, MemAddr.wellFormed, Bool.and_eq_true, bne_iff_ne, ne_eq, beq_iff_eq] at h
    obtain ⟨⟨hmod, hsib⟩, hdisp⟩ := h
    have hmem := takeMem_encodeDisp hdisp rest
    cases sib with
    | none =>
      have hno : ¬ (a16 = false ∧ rm = 4#3) := by simpa using hsib
      simp [encodeRegMem, takeRegMem, extract_fields, hmod, hno, hmem]
    | some sb =>
      obtain ⟨rfl, rfl⟩ : a16 = false ∧ rm = 4#3 := by simpa using hsib
      simp [encodeRegMem, takeRegMem, extract_fields, hmod, hmem]

/-- The operand bytes of an instruction no longer than 15 bytes end its decoding (R100 steps 3 to 5). -/
theorem finish_encodeRegMem {a16 : Bool} {rm : RegMem} (h : rm.wellFormed a16 = true) (n : Nat) (hn : n ≤ 15)
    (mk : BitVec 3 → RegMem → Instr) (reg : BitVec 3) (rest : List Byte) :
    finish (n + rest.length) a16 mk (encodeRegMem reg rm ++ rest) = .form (mk reg rm) n := by
  simp only [finish, takeRegMem_encodeRegMem h, Nat.add_sub_cancel, if_neg (Nat.not_lt.mpr hn)]

/-! ### Prefixes -/

/-- The scan of the prefixes of an instruction: those it keeps, 66, and REX (R71, R73). -/
def Scan.ofInstr (p : Prefixes) (op66 : Bool) (x : Option Rex) : Scan :=
  ⟨false, false, p.seg, op66, p.a67, x, false, false⟩

theorem prefixOf_segByte (n : SegName) : prefixOf (segByte n) = some (.seg n) := by
  cases n <;> rfl

theorem scanPrefixes_cons_prefix {b : Byte} {q : PrefixByte} (h : prefixOf b = some q) (m : Mode) (s : Scan)
    (bs : List Byte) : scanPrefixes m s (b :: bs) = scanPrefixes m (s.add q) bs := by
  simp only [scanPrefixes, h]

/-- The scan ends at a byte that is none of the prefixes. -/
theorem scanPrefixes_cons_stop {b : Byte} (h : prefixOf b = none) (hx : rexOf b = none) (m : Mode) (s : Scan)
    (bs : List Byte) : scanPrefixes m s (b :: bs) = (s, b :: bs) := by
  cases m <;> simp only [scanPrefixes, h, hx]

theorem scanPrefixes_encodePrefixes (m : Mode) (p : Prefixes) (bs : List Byte) :
    scanPrefixes m Scan.empty (encodePrefixes p ++ bs) = scanPrefixes m (Scan.ofInstr p false none) bs := by
  obtain ⟨seg, a67⟩ := p
  have h67 := scanPrefixes_cons_prefix (show prefixOf 0x67#8 = some .addrSize from rfl) m
  cases seg with
  | none =>
    cases a67 with
    | false => rfl
    | true => exact h67 ..
  | some n =>
    have hseg := scanPrefixes_cons_prefix (prefixOf_segByte n) m Scan.empty
    cases a67 with
    | false => exact hseg ..
    | true => exact (hseg ..).trans (h67 ..)

theorem scanPrefixes_opSize (m : Mode) (p : Prefixes) (bs : List Byte) :
    scanPrefixes m (Scan.ofInstr p false none) (0x66#8 :: bs) = scanPrefixes m (Scan.ofInstr p true none) bs :=
  scanPrefixes_cons_prefix (show prefixOf 0x66#8 = some .opSize from rfl) ..

/-- A REX byte is none of the legacy prefixes, and its fields are read back (R73). -/
theorem rexByte_fields (r : Rex) : prefixOf (rexByte r) = none ∧ rexOf (rexByte r) = some r := by
  obtain ⟨w, r, x, b⟩ := r
  revert w r x b
  decide

theorem scanPrefixes_rexByte (p : Prefixes) (op66 : Bool) (r : Rex) (bs : List Byte) :
    scanPrefixes .m64 (Scan.ofInstr p op66 none) (rexByte r :: bs) =
      scanPrefixes .m64 (Scan.ofInstr p op66 (some r)) bs := by
  simp only [scanPrefixes, rexByte_fields]
  rfl

/-! ### The legacy layout -/

theorem wordForm_opcodeByte (word : Bool) : wordForm (opcodeByte word) = some word := by
  cases word <;> rfl

/-- The scan of a legacy form ends at its escape byte (R70, R72, R73). -/
theorem scanPrefixes_encodeLegacy {m : Mode} {x : Option Rex} (hx : m = .m64 ∨ x = none) (op66 word : Bool)
    (p : Prefixes) (reg : BitVec 3) (rm : RegMem) (rest : List Byte) :
    scanPrefixes m Scan.empty (encodeLegacy op66 word p x reg rm ++ rest) =
      (Scan.ofInstr p op66 x, 0x0F#8 :: opcodeByte word :: (encodeRegMem reg rm ++ rest)) := by
  have hstop := scanPrefixes_cons_stop (show prefixOf 0x0F#8 = none from rfl) rfl m
  simp only [encodeLegacy, List.append_assoc, scanPrefixes_encodePrefixes]
  cases x with
  | none => cases op66 <;> simp [scanPrefixes_opSize, hstop]
  | some r =>
    obtain rfl : m = .m64 := by simpa using hx
    cases op66 <;> simp [scanPrefixes_opSize, scanPrefixes_rexByte, hstop]

/-- After the prefixes of a legacy form only its operands are left to read (R72 to R74). -/
theorem decodeBody_legacy (m : Mode) (total : Nat) (op66 word : Bool) (p : Prefixes) (x : Option Rex) (bs : List Byte) :
    decodeBody m total (Scan.ofInstr p op66 x) (0x0F#8 :: opcodeByte word :: bs) =
      finish total (m.addr16 p.a67) (legacyInstr op66 word p x) bs := by
  have hlead : leadsVex m 0x0F#8 (opcodeByte word) = false := rfl
  simp only [decodeBody, hlead, decodeLegacy, wordForm_opcodeByte]
  rfl

/-- The legacy layout decodes to its form (R72 to R74). -/
theorem decode_encodeLegacy {m : Mode} {p : Prefixes} {x : Option Rex} {rm : RegMem}
    (h : legacyWellFormed m p x rm = true) (op66 word : Bool) (reg : BitVec 3) (rest : List Byte) :
    decode m (encodeLegacy op66 word p x reg rm ++ rest) =
      .form (legacyInstr op66 word p x reg rm) (encodeLegacy op66 word p x reg rm).length := by
  simp only [legacyWellFormed, Bool.and_eq_true, Bool.or_eq_true, beq_iff_eq, Option.isNone_iff_eq_none] at h
  obtain ⟨hx, hrm⟩ := h
  have hlen := (Laws.encodeLegacy_length op66 word p x reg rm).2
  rw [decode, scanPrefixes_encodeLegacy hx, decodeBody_legacy, List.length_append,
    finish_encodeRegMem hrm _ (by omega)]

/-! ### The VEX and EVEX layouts -/

/-- The scan of a VEX or EVEX form ends at its lead byte, with what the form keeps. -/
theorem decode_lead {b : Byte} (hb : vexLead b = true) (m : Mode) (p : Prefixes) (bs : List Byte) :
    decode m (encodePrefixes p ++ b :: bs) =
      decodeBody m (encodePrefixes p ++ b :: bs).length (Scan.ofInstr p false none) (b :: bs) := by
  have hstop : prefixOf b = none ∧ rexOf b = none := by
    simp only [vexLead, Bool.or_eq_true, beq_iff_eq] at hb
    rcases hb with (rfl | rfl) | rfl <;> decide
  rw [decode, scanPrefixes_encodePrefixes, scanPrefixes_cons_stop hstop.1 hstop.2]

/-- An operand VEX and EVEX admit is one of the full address sizes (D16). -/
theorem wellFormed_of_vexWellFormed {m : Mode} {a67 : Bool} {rm : RegMem} (h : rm.vexWellFormed m a67 = true) :
    rm.wellFormed false = true := by
  cases rm with
  | reg r => rfl
  | mem a => exact (Bool.and_eq_true_iff.mp h).2

/-- The operand bytes of an admitted operand show no 16-bit addressing. -/
theorem memory16_encodeRegMem {m : Mode} {a67 : Bool} {rm : RegMem} (h : rm.vexWellFormed m a67 = true)
    (reg : BitVec 3) (rest : List Byte) : memory16 m a67 (encodeRegMem reg rm ++ rest) = false := by
  cases rm with
  | reg r => simp [encodeRegMem, memory16, extract_fields]
  | mem a =>
    have h16 : m.addr16 a67 = false := by
      simp only [RegMem.vexWellFormed, Bool.and_eq_true, Bool.not_eq_true'] at h
      exact h.1
    simp [encodeRegMem, memory16, h16]

/-- After the opcode byte of a VEX or EVEX form only its operands are left to read. -/
theorem finishVex_encodeRegMem {m : Mode} {p : Prefixes} {rm : RegMem} (h : rm.vexWellFormed m p.a67 = true) (n : Nat)
    (hn : n ≤ 15) (need : FeatureNeed) (mk : BitVec 3 → RegMem → Instr) (reg : BitVec 3) (rest : List Byte) :
    finishVex m (n + rest.length) (Scan.ofInstr p false none) need mk (encodeRegMem reg rm ++ rest) =
      .form (mk reg rm) n := by
  rw [finishVex, if_neg (by simp [Scan.ofInstr, memory16_encodeRegMem h]), if_neg (by simp [Scan.ofInstr]),
    finish_encodeRegMem (wellFormed_of_vexWellFormed h) n hn]

/-- `C4`, `C5` and `62` lead VEX or EVEX in 64-bit mode, and in 32-bit mode before a byte with bits 7:6 set. -/
theorem decodeBody_lead {m : Mode} {b next : Byte} (hb : vexLead b = true)
    (hn : m = .m64 ∨ next.extractLsb' 6 2 = 3#2) (total : Nat) (p : Prefixes) (bs : List Byte) :
    decodeBody m total (Scan.ofInstr p false none) (b :: next :: bs) =
      if b = 0xC5#8 then decodeVex2 m total (Scan.ofInstr p false none) (next :: bs)
      else if b = 0xC4#8 then decodeVex3 m total (Scan.ofInstr p false none) (next :: bs)
      else decodeEvex m total (Scan.ofInstr p false none) (next :: bs) := by
  have hlead : leadsVex m b next = true := by simpa [leadsVex, hb] using hn
  rw [decodeBody, if_pos hlead, if_neg (by simp [Scan.illegalBeforeVex, Scan.ofInstr])]

/-- The payload byte of two-byte VEX (R84): its fields are read back, `pp` is 01. -/
theorem vex2Byte_fields (l : Bool) (v : Vex2) :
    vex2Of (vex2Byte l v) = v ∧ (vex2Byte l v).getLsbD 2 = l ∧ (vex2Byte l v).extractLsb' 0 2 = 1#2 := by
  obtain ⟨r, vvvv⟩ := v
  revert l r vvvv
  decide

/-- Without R and the top bit of `vvvv` its top bits are 11, as 32-bit mode asks (R86). -/
theorem vex2Byte_top (l : Bool) {v : Vex2} (hr : v.r = false) (hv : v.vvvv.msb = false) :
    (vex2Byte l v).extractLsb' 6 2 = 3#2 := by
  obtain ⟨r, vvvv⟩ := v
  revert l r vvvv
  decide

/-- The two-byte VEX layout decodes to its form (R84 to R86). -/
theorem decode_encodeVex2 {m : Mode} {p : Prefixes} {v : Vex2} {rm : RegMem} (h : vex2WellFormed m p v rm = true)
    (l word : Bool) (reg : BitVec 3) (rest : List Byte) :
    decode m (encodeVex2 l word p v reg rm ++ rest) =
      .form (vex2Instr l word p v reg rm) (encodeVex2 l word p v reg rm).length := by
  simp only [vex2WellFormed, Bool.and_eq_true, Bool.or_eq_true, beq_iff_eq, Bool.not_eq_true'] at h
  obtain ⟨hext, hrm⟩ := h
  have hlen := (Laws.encodeVex2_length l word p v reg rm).2
  have htop : m = .m64 ∨ (vex2Byte l v).extractLsb' 6 2 = 3#2 := hext.imp_right fun ⟨hr, hv⟩ => vex2Byte_top l hr hv
  have hext32 : ¬ (m = .m32 ∧ (v.r ∨ v.vvvv.msb)) := by
    rcases hext with rfl | ⟨hr, hv⟩
    · simp
    · simp [hr, hv]
  have hsplit : encodeVex2 l word p v reg rm ++ rest =
      encodePrefixes p ++ 0xC5#8 :: vex2Byte l v :: opcodeByte word :: (encodeRegMem reg rm ++ rest) := by
    simp [encodeVex2]
  rw [hsplit, decode_lead rfl, ← hsplit, List.length_append, decodeBody_lead rfl htop, if_pos rfl]
  simp only [decodeVex2, vex2Byte_fields, wordForm_opcodeByte, if_neg hext32, ne_eq, not_true, if_false]
  exact finishVex_encodeRegMem hrm _ (by omega) _ _ reg rest

/-- The first payload byte of three-byte VEX (R83): `mmmmm` is 00001. -/
theorem vex3Byte1_fields (v : Vex3) :
    (vex3Byte1 v).getLsbD 7 = !v.r ∧ (vex3Byte1 v).getLsbD 6 = !v.x ∧ (vex3Byte1 v).getLsbD 5 = !v.b ∧
      (vex3Byte1 v).extractLsb' 0 5 = 1#5 := by
  obtain ⟨r, x, b, w, vvvv⟩ := v
  simp only [vex3Byte1]
  revert r x b
  decide

/-- Without R and X its top bits are 11, as 32-bit mode asks (R86). -/
theorem vex3Byte1_top {v : Vex3} (hr : v.r = false) (hx : v.x = false) :
    (vex3Byte1 v).extractLsb' 6 2 = 3#2 := by
  rw [vex3Byte1, hr, hx]
  cases v.b <;> decide

/-- The second payload byte of three-byte VEX (R83): `pp` is 01. -/
theorem vex3Byte2_fields (l : Bool) (v : Vex3) :
    (vex3Byte2 l v).getLsbD 7 = v.w ∧ ~~~(vex3Byte2 l v).extractLsb' 3 4 = v.vvvv ∧ (vex3Byte2 l v).getLsbD 2 = l ∧
      (vex3Byte2 l v).extractLsb' 0 2 = 1#2 := by
  obtain ⟨r, x, b, w, vvvv⟩ := v
  simp only [vex3Byte2]
  revert l w vvvv
  decide

theorem vex3Of_vex3Bytes (l : Bool) (v : Vex3) : vex3Of (vex3Byte1 v) (vex3Byte2 l v) = v := by
  simp only [vex3Of, vex3Byte1_fields, vex3Byte2_fields, Bool.not_not]

/-- The three-byte VEX layout decodes to its form (R83, R85, R86). -/
theorem decode_encodeVex3 {m : Mode} {p : Prefixes} {v : Vex3} {rm : RegMem} (h : vex3WellFormed m p v rm = true)
    (l word : Bool) (reg : BitVec 3) (rest : List Byte) :
    decode m (encodeVex3 l word p v reg rm ++ rest) =
      .form (vex3Instr l word p v reg rm) (encodeVex3 l word p v reg rm).length := by
  simp only [vex3WellFormed, Bool.and_eq_true, Bool.or_eq_true, beq_iff_eq, Bool.not_eq_true'] at h
  obtain ⟨hext, hrm⟩ := h
  have hlen := (Laws.encodeVex3_length l word p v reg rm).2
  have htop : m = .m64 ∨ (vex3Byte1 v).extractLsb' 6 2 = 3#2 :=
    hext.imp_right fun ⟨⟨⟨hr, hx⟩, _⟩, _⟩ => vex3Byte1_top hr hx
  have hext32 : ¬ (m = .m32 ∧ (v.r ∨ v.x ∨ v.b ∨ v.vvvv.msb)) := by
    rcases hext with rfl | ⟨⟨⟨hr, hx⟩, hb⟩, hv⟩
    · simp
    · simp [hr, hx, hb, hv]
  have hsplit : encodeVex3 l word p v reg rm ++ rest =
      encodePrefixes p ++ 0xC4#8 :: vex3Byte1 v :: vex3Byte2 l v :: opcodeByte word :: (encodeRegMem reg rm ++ rest) := by
    simp [encodeVex3]
  rw [hsplit, decode_lead rfl, ← hsplit, List.length_append, decodeBody_lead rfl htop, if_neg (by decide), if_pos rfl]
  simp only [decodeVex3, vex3Of_vex3Bytes, if_neg hext32, vex3Byte1_fields, vex3Byte2_fields, wordForm_opcodeByte,
    ne_eq, not_true, or_self, if_false]
  exact finishVex_encodeRegMem hrm _ (by omega) _ _ reg rest

/-- `P0` of EVEX (R87): `mm` is 01 and the bits between are 0. -/
theorem evexByte0_fields (v : Evex) :
    (evexByte0 v).getLsbD 7 = !v.r ∧ (evexByte0 v).getLsbD 6 = !v.x ∧ (evexByte0 v).getLsbD 5 = !v.b ∧
      (evexByte0 v).getLsbD 4 = !v.rHi ∧ (evexByte0 v).extractLsb' 2 2 = 0#2 ∧
      (evexByte0 v).extractLsb' 0 2 = 1#2 := by
  obtain ⟨r, x, b, rHi, w, vvvv, vHi, z, aaa⟩ := v
  simp only [evexByte0]
  revert r x b rHi
  decide

/-- Without R and X its top bits are 11, as 32-bit mode asks (R88). -/
theorem evexByte0_top {v : Evex} (hr : v.r = false) (hx : v.x = false) :
    (evexByte0 v).extractLsb' 6 2 = 3#2 := by
  rw [evexByte0, hr, hx]
  cases v.b <;> cases v.rHi <;> decide

/-- `P1` of EVEX (R87, R89): bit 2 is 1 and `pp` is 01. -/
theorem evexByte1_fields (v : Evex) :
    (evexByte1 v).getLsbD 7 = v.w ∧ ~~~(evexByte1 v).extractLsb' 3 4 = v.vvvv ∧ (evexByte1 v).getLsbD 2 = true ∧
      (evexByte1 v).extractLsb' 0 2 = 1#2 := by
  obtain ⟨r, x, b, rHi, w, vvvv, vHi, z, aaa⟩ := v
  simp only [evexByte1]
  revert w vvvv
  decide

/-- `P2` of EVEX (R87, R90, R94): `L'L` names the vector length and `b` is 0. -/
theorem evexByte2_fields (vl : EvexLen) (v : Evex) :
    (evexByte2 vl v).getLsbD 7 = v.z ∧ evexLen ((evexByte2 vl v).extractLsb' 5 2) = some vl ∧
      (evexByte2 vl v).getLsbD 4 = false ∧ (evexByte2 vl v).getLsbD 3 = !v.vHi ∧
      (evexByte2 vl v).extractLsb' 0 3 = v.aaa := by
  obtain ⟨r, x, b, rHi, w, vvvv, vHi, z, aaa⟩ := v
  simp only [evexByte2]
  revert z vHi aaa
  cases vl <;> decide

theorem evexOf_evexBytes (vl : EvexLen) (v : Evex) : evexOf (evexByte0 v) (evexByte1 v) (evexByte2 vl v) = v := by
  simp only [evexOf, evexByte0_fields, evexByte1_fields, evexByte2_fields, Bool.not_not]

/-- The EVEX layout decodes to its form (R87 to R95). -/
theorem decode_encodeEvex {m : Mode} {p : Prefixes} {v : Evex} {rm : RegMem} (h : evexWellFormed m p v rm = true)
    (vl : EvexLen) (word : Bool) (reg : BitVec 3) (rest : List Byte) :
    decode m (encodeEvex vl word p v reg rm ++ rest) =
      .form (evexInstr vl word p v reg rm) (encodeEvex vl word p v reg rm).length := by
  simp only [evexWellFormed, Bool.and_eq_true, Bool.or_eq_true, beq_iff_eq, bne_iff_ne, Bool.not_eq_true'] at h
  obtain ⟨⟨hext, hz⟩, hrm⟩ := h
  have hlen := (Laws.encodeEvex_length vl word p v reg rm).2
  have htop : m = .m64 ∨ (evexByte0 v).extractLsb' 6 2 = 3#2 :=
    hext.imp_right fun ⟨⟨⟨⟨⟨hr, hx⟩, _⟩, _⟩, _⟩, _⟩ => evexByte0_top hr hx
  have hext32 : ¬ (m = .m32 ∧ (v.r ∨ v.x ∨ v.b ∨ v.rHi ∨ v.vHi ∨ v.vvvv.msb)) := by
    rcases hext with rfl | ⟨⟨⟨⟨⟨hr, hx⟩, hb⟩, hrHi⟩, hvHi⟩, hv⟩
    · simp
    · simp [hr, hx, hb, hrHi, hvHi, hv]
  have hmask : ¬ (v.z ∧ v.aaa = 0#3) := by
    rcases hz with hz | haaa
    · simp [hz]
    · simp [haaa]
  have hsplit : encodeEvex vl word p v reg rm ++ rest = encodePrefixes p ++
      0x62#8 :: evexByte0 v :: evexByte1 v :: evexByte2 vl v :: opcodeByte word :: (encodeRegMem reg rm ++ rest) := by
    simp [encodeEvex]
  rw [hsplit, decode_lead rfl, ← hsplit, List.length_append, decodeBody_lead rfl htop, if_neg (by decide),
    if_neg (by decide)]
  simp only [decodeEvex, evexOf_evexBytes, if_neg hext32, if_neg hmask, evexByte0_fields, evexByte1_fields,
    evexByte2_fields, wordForm_opcodeByte, ne_eq, not_true, or_self, if_false]
  exact finishVex_encodeRegMem hrm _ (by omega) _ _ reg rest

/-- No instruction is longer than the window of the fetch (R70). -/
theorem encode_length_le (i : Instr) : (encode i).length ≤ maxInstrBytes := by
  have h13 : (encode i).length ≤ 13 := by
    cases i with
    | paddusbMm | paddusbXmm | padduswMm | padduswXmm => exact (Laws.encodeLegacy_length ..).2
    | vpaddusbXmmVex3 | vpadduswXmmVex3 | vpaddusbYmmVex3 | vpadduswYmmVex3 => exact (Laws.encodeVex3_length ..).2
    | vpaddusbXmmVex2 | vpadduswXmmVex2 | vpaddusbYmmVex2 | vpadduswYmmVex2 => exact (Laws.encodeVex2_length ..).2
    | vpaddusbXmmEvex | vpaddusbYmmEvex | vpaddusbZmmEvex | vpadduswXmmEvex | vpadduswYmmEvex | vpadduswZmmEvex =>
      exact (Laws.encodeEvex_length ..).2
  exact Nat.le_trans h13 (by decide)

/-- The bytes of a well-formed instruction decode to it, whatever follows them (R100). -/
theorem decode_encode_append {m : Mode} {i : Instr} (h : i.wellFormed m = true) (rest : List Byte) :
    decode m (encode i ++ rest) = .form i i.length := by
  cases i with
  | paddusbMm | paddusbXmm | padduswMm | padduswXmm => exact decode_encodeLegacy h _ _ _ rest
  | vpaddusbXmmVex3 | vpadduswXmmVex3 | vpaddusbYmmVex3 | vpadduswYmmVex3 => exact decode_encodeVex3 h _ _ _ rest
  | vpaddusbXmmVex2 | vpadduswXmmVex2 | vpaddusbYmmVex2 | vpadduswYmmVex2 => exact decode_encodeVex2 h _ _ _ rest
  | vpaddusbXmmEvex | vpaddusbYmmEvex | vpaddusbZmmEvex | vpadduswXmmEvex | vpadduswYmmEvex | vpadduswZmmEvex =>
    exact decode_encodeEvex h _ _ _ rest

end Sys2Proof
end

section
/-! PROOFS. The step outside the modes of the spec, at a decoded instruction, and at an instruction in memory. -/

namespace Sys2Proof.Machine

theorem runMmx_of_mode_none {s : State} (h : s.mode = none) (w : Nat) (p : Prefixes) (x : Option Rex) (reg : BitVec 3)
    (rm : RegMem) (len : Nat) : runMmx w p x reg rm len s = .refused .modeOutOfScope := by
  simp only [runMmx, h]

theorem runSse_of_mode_none {s : State} (h : s.mode = none) (w : Nat) (p : Prefixes) (x : Option Rex) (reg : BitVec 3)
    (rm : RegMem) (len : Nat) : runSse w p x reg rm len s = .refused .modeOutOfScope := by
  simp only [runSse, h]

theorem runVex_of_mode_none {s : State} (h : s.mode = none) (w N : Nat) (p : Prefixes) (v : Vex3) (reg : BitVec 3)
    (rm : RegMem) (len : Nat) : runVex w N p v reg rm len s = .refused .modeOutOfScope := by
  simp only [runVex, h]

theorem runEvex_of_mode_none {s : State} (h : s.mode = none) (w N : Nat) (p : Prefixes) (v : Evex) (reg : BitVec 3)
    (rm : RegMem) (len : Nat) : runEvex w N p v reg rm len s = .refused .modeOutOfScope := by
  simp only [runEvex, h]

theorem step_of_mode_none {s : State} (h : s.mode = none) : step s = .refused .modeOutOfScope := by
  simp only [step, h]

/-- Every instruction is the run of its class, and each run asks for the mode first (D4). -/
theorem exec_of_mode_none {s : State} (h : s.mode = none) (i : Instr) : exec i s = .refused .modeOutOfScope := by
  cases i with
  | paddusbMm | padduswMm => exact runMmx_of_mode_none h ..
  | paddusbXmm | padduswXmm => exact runSse_of_mode_none h ..
  | vpaddusbXmmVex3 | vpadduswXmmVex3 | vpaddusbYmmVex3 | vpadduswYmmVex3
  | vpaddusbXmmVex2 | vpadduswXmmVex2 | vpaddusbYmmVex2 | vpadduswYmmVex2 => exact runVex_of_mode_none h ..
  | vpaddusbXmmEvex | vpaddusbYmmEvex | vpaddusbZmmEvex
  | vpadduswXmmEvex | vpadduswYmmEvex | vpadduswZmmEvex => exact runEvex_of_mode_none h ..

/-- Settles O12: the step and every run ask for the mode before anything else. -/
theorem other_modes_are_refused : Obligations.Other_modes_are_refused :=
  fun _ i h => ⟨step_of_mode_none h, exec_of_mode_none h i⟩

/-- The step at bytes that decode to an instruction (R14). -/
theorem step_of_decode {s : State} {m : Mode} {i : Instr} {n : Nat} (hm : s.mode = some m)
    (hc : s.codeSegmentOk m = true) (hd : decode m (s.fetchWindow m).1 = .form i n) : step s = exec i s := by
  have hv : (decode m (s.fetchWindow m).1).under s.feat = .form i n := (under_eq_form_iff ..).mpr hd
  rcases step_cases s m hm hc with ⟨j, k, hj, he⟩ | ⟨h, -⟩ | ⟨h, -⟩ | ⟨h, -⟩ | ⟨h, -⟩ | ⟨r, -, h, -⟩
  · obtain ⟨rfl, -⟩ := Verdict.form.inj (hj.symm.trans hd)
    exact he
  all_goals exact Verdict.noConfusion (h.symm.trans hv)

/-- Settles O9: of all a step can do, a decoded form leaves its execution only. -/
theorem step_runs_decoded_instruction : Obligations.Step_runs_decoded_instruction :=
  fun _ _ _ _ hm hc hd _ => step_of_decode hm hc hd

/-- Bytes that stand at `pc + j` onwards and can be fetched are the first ones the fetch gives. -/
theorem fetchFrom_eq_append (s : State) (m : Mode) (l : List Byte) : ∀ (n j : Nat), l.length ≤ n →
    (∀ (k : Nat) (h : k < l.length), ∃ a, s.codeAddr m (j + k) = .ok a ∧ s.byteAt a = l[k]) →
    ∃ rest, (s.fetchFrom m n j).1 = l ++ rest := by
  induction l with
  | nil => exact fun n j _ _ => ⟨_, rfl⟩
  | cons b l ih =>
    intro n j hn hl
    obtain ⟨n, rfl⟩ := Nat.exists_eq_add_one_of_ne_zero (Nat.ne_of_gt (Nat.lt_of_lt_of_le (Nat.succ_pos _) hn))
    obtain ⟨a, ha, hb⟩ := hl 0 (Nat.succ_pos _)
    obtain ⟨rest, hr⟩ := ih n (j + 1) (Nat.le_of_succ_le_succ hn) fun k hk => by
      simpa [Nat.add_right_comm j 1 k, Nat.add_assoc] using hl (k + 1) (Nat.succ_lt_succ hk)
    refine ⟨rest, ?_⟩
    rw [Nat.add_zero] at ha
    simp only [State.fetchFrom, ha, hr, hb, List.getElem_cons_zero, List.cons_append]

/-- An instruction that can be fetched whole stands at the front of the window, which is longer than any form (R70). -/
theorem fetchWindow_eq_append {s : State} {m : Mode} {i : Instr}
    (h : ∀ (k : Nat) (hk : k < (encode i).length), ∃ a, s.codeAddr m k = .ok a ∧ s.byteAt a = (encode i)[k]) :
    ∃ rest, (s.fetchWindow m).1 = encode i ++ rest :=
  fetchFrom_eq_append s m (encode i) maxInstrBytes 0 (encode_length_le i) fun k hk => by
    simpa only [Nat.zero_add] using h k hk

/-- Settles O10: the window begins with the instruction's bytes, these decode to it whatever follows, and the step runs
what is decoded. -/
theorem step_runs_instruction_in_memory : Obligations.Step_runs_instruction_in_memory := by
  intro s m i hm hc hw hbytes
  obtain ⟨rest, hr⟩ := fetchWindow_eq_append hbytes
  have hd : decode m (s.fetchWindow m).1 = .form i i.length := by rw [hr, decode_encode_append hw]
  exact step_of_decode hm hc hd

end Sys2Proof.Machine
end

section
/-! PROOFS. What a completed instruction has done, said once for every row; from it the invariant and the frame of a step. -/

namespace Sys2Proof.Machine

/-! ### Completion -/

/-- The processor has room for `y` in register `d`: the register exists, and from MAXVL up `y` is 0 or what stood there (R20,
R21, notes/assumptions/22.md). -/
def State.Fits (s : State) (d : BitVec 5) (y : VReg) : Prop :=
  featuresConsistent s.feat = true →
    d.toNat < vectorRegs s.feat ∧ (y >>> maxVl s.feat = 0#512 ∨ y >>> maxVl s.feat = s.vreg d >>> maxVl s.feat)

/-- What an instruction that completes in mode `m` at `s` has written (10_state.md R37): its destination, pc and the draw
counter, and for rows 1 and 3 the x87 side effects of R115. -/
inductive Completion (m : Mode) (i : Instr) (s : State) : State → Prop where
  /-- Rows 1 and 3. -/
  | mmx (d : BitVec 3) (y : Word64) (n : Nat) (hmmx : i.mmxDest = some d) (hcls : i.formClass = .mmx) :
      Completion m i s ((({ s with draws := n } : State).writeMm d y).advance m i.length)
  /-- Rows 2 and 4 to 14. -/
  | vector (d : BitVec 5) (y : VReg) (n : Nat) (hvec : i.vectorDest m = some d) (hcls : i.formClass ≠ .mmx)
      (hfits : s.Fits d y) : Completion m i s ((({ s with draws := n } : State).setVreg d y).advance m i.length)

/-- Without the high extension bit a register number is below 16 (R96, R97). -/
theorem regNum5_false_lt (m : Mode) (e : Bool) (n : BitVec 3) : (regNum5 m false e n).toNat < 16 := by
  cases m <;> cases e <;> revert n <;> decide

/-- Sixteen vector registers exist on every processor (R21). -/
theorem sixteen_le_vectorRegs (f : Features) : 16 ≤ vectorRegs f := by
  unfold vectorRegs
  split <;> decide

theorem le_maxVl (f : Features) : 128 ≤ maxVl f := by
  unfold maxVl
  split
  · decide
  · split <;> decide

/-- With AVX a vector register has at least 256 bits (R6, D2). -/
theorem le_maxVl_of_avx {f : Features} (h : f.avx = true) : 256 ≤ maxVl f := by
  simp only [maxVl, h, if_true]
  split <;> decide

/-- Nothing of an `N`-bit value stands from bit `N` up. -/
theorem setWidth_ushiftRight_eq_zero {N k : Nat} (h : N ≤ k) (y : BitVec N) : y.setWidth 512 >>> k = 0#512 := by
  apply BitVec.eq_of_getLsbD_eq
  intro j _
  simp [BitVec.getLsbD_of_ge y (k + j) (by omega)]

/-- A write of the low 128 bits leaves what stands above them (R116). -/
theorem append_low128_ushiftRight {k : Nat} (h : 128 ≤ k) (x : VReg) (y : BitVec 128) :
    (x.extractLsb' 128 384 ++ y : VReg) >>> k = x >>> k := by
  apply BitVec.eq_of_getLsbD_eq
  intro j _
  have hhigh : ¬ k + j < 128 := by omega
  have hidx : 128 + (k + j - 128) = k + j := by omega
  have happ := BitVec.getLsbD_append (x := x.extractLsb' 128 384) (y := y) (i := k + j)
  rw [if_neg hhigh, BitVec.getLsbD_extractLsb', hidx] at happ
  rw [BitVec.getLsbD_ushiftRight, BitVec.getLsbD_ushiftRight]
  refine happ.trans ?_
  by_cases htop : k + j < 512
  · simp [show k + j - 128 < 384 by omega]
  · simp [BitVec.getLsbD_of_ge x (k + j) (by omega)]

/-- A completed run of rows 1 and 3. -/
theorem runMmx_completion {i : Instr} {w : Nat} {p : Prefixes} {x : Option Rex} {reg : BitVec 3} {rm : RegMem}
    {s t : State} (h : runMmx w p x reg rm i.length s = .next t) (hmmx : i.mmxDest = some reg)
    (hcls : i.formClass = .mmx) : ∃ m, s.mode = some m ∧ Completion m i s t := by
  obtain ⟨m, y, n, hm, -, -, -, -, rfl⟩ := runMmx_next _ _ _ _ _ _ _ _ h
  exact ⟨m, hm, .mmx _ _ _ hmmx hcls⟩

/-- A completed run of rows 2 and 4: it keeps the bits from 128 up. -/
theorem runSse_completion {i : Instr} {w : Nat} {p : Prefixes} {x : Option Rex} {reg : BitVec 3} {rm : RegMem}
    {s t : State} (h : runSse w p x reg rm i.length s = .next t) (hcls : i.formClass ≠ .mmx)
    (hvec : ∀ m, i.vectorDest m = some (regNum5 m false (rexFields x).r reg)) :
    ∃ m, s.mode = some m ∧ Completion m i s t := by
  obtain ⟨m, y, n, hm, -, -, -, rfl⟩ := runSse_next _ _ _ _ _ _ _ _ h
  refine ⟨m, hm, .vector _ _ n (hvec m) hcls fun _ => ⟨?_, .inr ?_⟩⟩
  · exact Nat.lt_of_lt_of_le (regNum5_false_lt ..) (sixteen_le_vectorRegs _)
  · exact append_low128_ushiftRight (le_maxVl _) _ _

/-- A completed run of rows 5 to 8: its flag gives the processor the bits it writes (R158). -/
theorem runVex_completion {i : Instr} {w N : Nat} {p : Prefixes} {v : Vex3} {reg : BitVec 3} {rm : RegMem}
    {s t : State} (h : runVex w N p v reg rm i.length s = .next t) (hN : N ≤ 256) (hcls : i.formClass ≠ .mmx)
    (hvec : ∀ m, i.vectorDest m = some (regNum5 m false v.r reg)) : ∃ m, s.mode = some m ∧ Completion m i s t := by
  obtain ⟨m, y, n, hm, hud, -, -, rfl⟩ := runVex_next _ _ _ _ _ _ _ _ _ h
  refine ⟨m, hm, .vector _ _ n (hvec m) hcls fun hfeat => ⟨?_, .inl ?_⟩⟩
  · exact Nat.lt_of_lt_of_le (regNum5_false_lt ..) (sixteen_le_vectorRegs _)
  · have havx : s.feat.avx = true := by
      have hhas : s.feat.has (.vex (N == 256)) = true := by
        simp only [State.udVex, Bool.or_eq_false_iff, Bool.not_eq_false'] at hud
        exact hud.2
      simp only [featuresConsistent, Bool.and_eq_true, Bool.or_eq_true, Bool.not_eq_true'] at hfeat
      obtain ⟨⟨⟨⟨havx2, -⟩, -⟩, -⟩, -⟩ := hfeat
      simp only [Features.has] at hhas
      split at hhas
      · exact havx2.resolve_left (by simp [hhas])
      · exact hhas
    exact setWidth_ushiftRight_eq_zero (Nat.le_trans hN (le_maxVl_of_avx havx)) _

/-- A completed run of rows 9 to 14: on a processor with AVX512BW there are 32 registers of 512 bits (R6, R159). -/
theorem runEvex_completion {i : Instr} {w N : Nat} {p : Prefixes} {v : Evex} {reg : BitVec 3} {rm : RegMem}
    {s t : State} (h : runEvex w N p v reg rm i.length s = .next t) (hN : N ≤ 512) (hcls : i.formClass ≠ .mmx)
    (hvec : ∀ m, i.vectorDest m = some (regNum5 m v.rHi v.r reg)) : ∃ m, s.mode = some m ∧ Completion m i s t := by
  obtain ⟨m, y, n, hm, hud, -, -, rfl⟩ := runEvex_next _ _ _ _ _ _ _ _ _ h
  refine ⟨m, hm, .vector _ _ n (hvec m) hcls fun hfeat => ?_⟩
  have hf : s.feat.avx512f = true := by
    have hhas : s.feat.has (.evex (N == 512)) = true := by
      simp only [State.udEvex, Bool.or_eq_false_iff, Bool.not_eq_false'] at hud
      obtain ⟨⟨-, hhas⟩, -⟩ := hud
      exact hhas
    simp only [featuresConsistent, Bool.and_eq_true, Bool.or_eq_true, Bool.not_eq_true'] at hfeat
    obtain ⟨⟨⟨-, hbw⟩, -⟩, -⟩ := hfeat
    simp only [Features.has, Bool.and_eq_true] at hhas
    exact hbw.resolve_left (by simp [hhas.1])
  have hregs : vectorRegs s.feat = 32 := if_pos hf
  have hbits : maxVl s.feat = 512 := if_pos hf
  refine ⟨hregs ▸ BitVec.isLt _, .inl ?_⟩
  exact setWidth_ushiftRight_eq_zero (hbits ▸ hN) _

/-- What any instruction has done when it completes: it is the run of its class, with its own destination and length. -/
theorem exec_completion {i : Instr} {s t : State} (h : exec i s = .next t) :
    ∃ m, s.mode = some m ∧ Completion m i s t := by
  cases i with
  | paddusbMm | padduswMm => exact runMmx_completion h rfl rfl
  | paddusbXmm | padduswXmm => exact runSse_completion h nofun fun _ => rfl
  | vpaddusbXmmVex3 | vpadduswXmmVex3 | vpaddusbYmmVex3 | vpadduswYmmVex3
  | vpaddusbXmmVex2 | vpadduswXmmVex2 | vpaddusbYmmVex2 | vpadduswYmmVex2 =>
    exact runVex_completion h (by decide) nofun fun _ => rfl
  | vpaddusbXmmEvex | vpaddusbYmmEvex | vpaddusbZmmEvex
  | vpadduswXmmEvex | vpadduswYmmEvex | vpadduswZmmEvex =>
    exact runEvex_completion h (by decide) nofun fun _ => rfl

/-- A step that goes on has run the instruction decoded at pc (R14). -/
theorem step_completion {s t : State} (h : step s = .next t) :
    ∃ m i n, s.mode = some m ∧ decode m (s.fetchWindow m).1 = .form i n ∧ Completion m i s t := by
  cases hm : s.mode with
  | none => exact absurd (step_of_mode_none hm ▸ h) nofun
  | some m =>
    have hc : s.codeSegmentOk m = true := by
      by_contra hc
      simp only [step, hm, Bool.eq_false_of_not_eq_true hc, if_true] at h
      cases h
    rcases step_cases s m hm hc with
      ⟨i, n, hd, he⟩ | ⟨-, he⟩ | ⟨-, he⟩ | ⟨-, -, he⟩ | ⟨-, r, -, he⟩ | ⟨r, -, -, he⟩
    · obtain ⟨m', hm', hcompl⟩ := exec_completion (he.symm.trans h)
      obtain rfl : m = m' := Option.some.inj (hm.symm.trans hm')
      exact ⟨m, i, n, rfl, hd, hcompl⟩
    · exact (raise_ne_next _ _ _ (he.symm.trans h)).elim
    · exact (raise_ne_next _ _ _ (he.symm.trans h)).elim
    · exact (raise_ne_next _ _ _ (he.symm.trans h)).elim
    · exact absurd (he.symm.trans h) nofun
    · exact absurd (he.symm.trans h) nofun

namespace Completion

variable {m : Mode} {i : Instr} {s t : State}

theorem pc (h : Completion m i s t) : t.pc = m.wrap (s.pc + BitVec.ofNat 64 i.length) := by
  cases h <;> rfl

/-- Memory, parameters and control state are not written (R37). -/
theorem frame (h : Completion m i s t) :
    t = { s with v := t.v, fpr := t.fpr, fsw := t.fsw, ftw := t.ftw, pc := t.pc, draws := t.draws } := by
  cases h <;> rfl

theorem byteAt (h : Completion m i s t) (a : Nat) : t.byteAt a = s.byteAt a := by
  cases h <;> rfl

theorem mode (h : Completion m i s t) : t.mode = s.mode := by
  cases h <;> rfl

/-- A vector register holds what it held, or is the destination and holds what fits there. -/
theorem vreg (h : Completion m i s t) (r : BitVec 5) :
    t.vreg r = s.vreg r ∨ (i.vectorDest m = some r ∧ s.Fits r (t.vreg r)) := by
  cases h with
  | mmx d y n _ _ => exact .inl rfl
  | vector d y n hvec _ hfits =>
    by_cases hr : d = r
    · subst hr
      exact .inr ⟨hvec, by simpa using hfits⟩
    · left
      rw [vreg_advance, vreg_setVreg_other _ _ _ _ hr]
      rfl

/-- An x87 register that is not the destination keeps all its bits (R115). -/
theorem fpr (h : Completion m i s t) (r : BitVec 3) (hr : i.mmxDest ≠ some r) :
    t.fpr.get r.toFin = s.fpr.get r.toFin := by
  cases h with
  | mmx d y n hmmx _ =>
    have hne : d.toNat ≠ r.toNat := fun he => hr (hmmx.trans (congrArg some (BitVec.eq_of_toNat_eq he)))
    simp [Vector.get_eq_getElem, hne]
  | vector d y n _ _ _ => rfl

/-- Only rows 1 and 3 write the status word and the tag word (R115). -/
theorem fsw_ftw (h : Completion m i s t) (hcls : i.formClass ≠ .mmx) : t.fsw = s.fsw ∧ t.ftw = s.ftw := by
  cases h with
  | mmx d y n _ hmmx => exact absurd hmmx hcls
  | vector d y n _ _ _ => exact ⟨rfl, rfl⟩

/-- Of the status word only `TOP`, bits 13:11, is written (R115). -/
theorem fsw_getLsbD (h : Completion m i s t) {k : Nat} (hk : ¬ (11 ≤ k ∧ k ≤ 13)) :
    t.fsw.getLsbD k = s.fsw.getLsbD k := by
  cases h with
  | mmx d y n _ _ =>
    have hmask : ∀ j : Fin 16, ¬ (11 ≤ j.val ∧ j.val ≤ 13) → (0xC7FF#16).getLsbD j.val = true := by decide
    by_cases hlt : k < 16
    · simp [hmask ⟨k, hlt⟩ hk]
    · simp [BitVec.getLsbD_of_ge _ k (Nat.le_of_not_lt hlt)]
  | vector d y n _ _ _ => rfl

end Completion

/-! ### The invariant and the frame of a step -/

/-- In 32-bit mode an address is taken modulo 2^32 (R27, R55). -/
theorem wrap_m32_toNat (a : Word64) : (Mode.m32.wrap a).toNat = a.toNat % 2 ^ 32 := by
  simp only [Mode.wrap, BitVec.toNat_setWidth]
  omega

/-- A completed instruction keeps the invariant: it writes only what fits the processor, and pc within its mode. -/
theorem Completion.inv {m : Mode} {i : Instr} {s t : State} (h : Completion m i s t) (hm : s.mode = some m)
    (hs : s.Inv) : t.Inv := by
  obtain ⟨hmem, hfeat, hm64, hupper, hlack, hxcr0, hcr0, hpaged, -⟩ := hs
  have hupper' : ∀ r, t.vreg r >>> maxVl s.feat = 0#512 := fun r => by
    rcases h.vreg r with he | ⟨-, hfits⟩
    · rw [he, hupper r]
    · exact (hfits hfeat).2.elim id fun he => he.trans (hupper r)
  have hlack' : ∀ r : BitVec 5, vectorRegs s.feat ≤ r.toNat → t.vreg r = 0#512 := fun r hr => by
    rcases h.vreg r with he | ⟨-, hfits⟩
    · rw [he, hlack r hr]
    · exact absurd (hfits hfeat).1 (Nat.not_lt.mpr hr)
  have hpc : s.mode = some .m32 → t.pc.toNat < 2 ^ 32 := fun hm32 => by
    obtain rfl : m = .m32 := Option.some.inj (hm.symm.trans hm32)
    rw [h.pc, wrap_m32_toNat]
    exact Nat.mod_lt _ (by decide)
  rw [State.Inv, h.mode]
  rw [h.frame] at hupper' hlack' hpc ⊢
  exact ⟨hmem, hfeat, hm64, hupper', hlack', hxcr0, hcr0, hpaged, hpc⟩

/-- Settles O15: a step that goes on completes an instruction, and a completed instruction keeps the invariant. -/
theorem step_keeps_invariant : Obligations.Step_keeps_invariant := by
  intro s t hs h
  obtain ⟨m, i, n, hm, -, hcompl⟩ := step_completion h
  exact hcompl.inv hm hs

/-- Settles O17: the frame of the instruction decoded at pc, part by part. -/
theorem step_writes_only_destinations : Obligations.Step_writes_only_destinations := by
  intro s t h
  obtain ⟨m, i, n, hm, hd, hcompl⟩ := step_completion h
  refine ⟨hcompl.frame, hcompl.byteAt, hcompl.mode, m, i, n, hm, hd, fun r hr => ?_, hcompl.fpr, hcompl.fsw_ftw,
    fun k => hcompl.fsw_getLsbD⟩
  exact (hcompl.vreg r).resolve_right fun hdest => hr hdest.1

end Sys2Proof.Machine
end

section
/-! PROOFS. How far the decoder reads (30_encoding.md R70, R100): the bytes a form takes are as many as its encoding has, and
bytes that end before a well-formed instruction does are no verdict on it. -/

namespace Sys2Proof

/-! ### Operand bytes: what was taken is what the encoder gives -/

/-- A displacement that was taken stood there in the encoder's bytes (R77). -/
theorem takeDisp_eq_some {n : Nat} {bs r : List Byte} {d : Disp} (hn : n ∈ [0, 1, 2, 4])
    (h : takeDisp n bs = some (d, r)) : d.size = n ∧ bs = encodeDisp d ++ r := by
  simp only [List.mem_cons, List.not_mem_nil, or_false] at hn
  rcases hn with rfl | rfl | rfl | rfl
  · cases h
    exact ⟨rfl, rfl⟩
  · rcases bs with _ | ⟨b, bs⟩ <;> cases h
    exact ⟨rfl, rfl⟩
  · rcases bs with _ | ⟨b0, _ | ⟨b1, bs⟩⟩ <;> cases h
    have h0 : (b1 ++ b0 : BitVec 16).extractLsb' 0 8 = b0 := BitVec.extractLsb'_append_eq_right
    have h1 : (b1 ++ b0 : BitVec 16).extractLsb' 8 8 = b1 := BitVec.extractLsb'_append_eq_left
    exact ⟨rfl, by simp [encodeDisp, h0, h1]⟩
  · rcases bs with _ | ⟨b0, _ | ⟨b1, _ | ⟨b2, _ | ⟨b3, bs⟩⟩⟩⟩ <;> cases h
    have h0 : (b3 ++ b2 ++ b1 ++ b0 : BitVec 32).extractLsb' 0 8 = b0 := BitVec.extractLsb'_append_eq_right
    have h1 : (b3 ++ b2 ++ b1 ++ b0 : BitVec 32).extractLsb' 8 8 = b1 :=
      (BitVec.extractLsb'_append_eq_of_le (by decide)).trans BitVec.extractLsb'_append_eq_right
    have h2 : (b3 ++ b2 ++ b1 ++ b0 : BitVec 32).extractLsb' 16 8 = b2 :=
      (BitVec.extractLsb'_append_eq_of_le (by decide)).trans
        ((BitVec.extractLsb'_append_eq_of_le (by decide)).trans BitVec.extractLsb'_append_eq_right)
    have h3 : (b3 ++ b2 ++ b1 ++ b0 : BitVec 32).extractLsb' 24 8 = b3 :=
      (BitVec.extractLsb'_append_eq_of_le (by decide)).trans
        ((BitVec.extractLsb'_append_eq_of_le (by decide)).trans BitVec.extractLsb'_append_eq_left)
    exact ⟨rfl, by simp [encodeDisp, h0, h1, h2, h3]⟩

theorem dispSize_mem (a16 : Bool) (mod : BitVec 2) (rm : BitVec 3) (sib : Option Sib) :
    dispSize a16 mod rm sib ∈ [0, 1, 2, 4] := by
  unfold dispSize
  repeat' split
  all_goals decide

/-- A memory operand that was taken has the displacement its ModRM and SIB ask for, and it stood there. -/
theorem takeMem_eq_some {a16 : Bool} {mod : BitVec 2} {rm : BitVec 3} {sib : Option Sib} {bs r : List Byte} {o : RegMem}
    (h : takeMem a16 mod rm sib bs = some (o, r)) :
    ∃ d, o = .mem ⟨mod, rm, sib, d⟩ ∧ d.size = dispSize a16 mod rm sib ∧ bs = encodeDisp d ++ r := by
  unfold takeMem at h
  split at h
  · cases h
  · next d r' hd =>
    cases h
    exact ⟨d, rfl, takeDisp_eq_some (dispSize_mem ..) hd⟩

/-- A byte is made of its three fields (R75, R76). -/
theorem append_extract_fields (b : Byte) :
    (b.extractLsb' 6 2 ++ b.extractLsb' 3 3 ++ b.extractLsb' 0 3 : BitVec 8) = b := by
  rw [BitVec.extractLsb'_append_extractLsb'_eq_extractLsb' (by rfl),
    BitVec.extractLsb'_append_extractLsb'_eq_extractLsb' (by rfl), BitVec.extractLsb'_eq_self]

/-- The operand bytes that are taken are those of a well-formed operand, as the encoder gives them (R75 to R77). -/
theorem takeRegMem_eq_some_iff {a16 : Bool} {bs rest : List Byte} {reg : BitVec 3} {rm : RegMem} :
    takeRegMem a16 bs = some (reg, rm, rest) ↔ rm.wellFormed a16 = true ∧ bs = encodeRegMem reg rm ++ rest := by
  refine ⟨fun h => ?_, fun ⟨hw, hbs⟩ => hbs ▸ takeRegMem_encodeRegMem hw reg rest⟩
  rcases bs with _ | ⟨b, bs⟩
  · cases h
  have hb := append_extract_fields b
  simp only [takeRegMem] at h
  split at h
  · next hmod =>
    cases h
    rw [hmod] at hb
    exact ⟨rfl, by simp [encodeRegMem, hb]⟩
  · next hmod =>
    split at h
    · next hsib =>
      rcases bs with _ | ⟨sb, bs⟩
      · cases h
      simp only at h
      split at h
      · cases h
      · next o r hm =>
        cases h
        obtain ⟨d, rfl, hd, rfl⟩ := takeMem_eq_some hm
        have hsb : sibByte (sibOf sb) = sb := append_extract_fields sb
        exact ⟨by simp [RegMem.wellFormed, MemAddr.wellFormed, hmod, hsib, hd], by simp [encodeRegMem, hb, hsb]⟩
    · next hsib =>
      split at h
      · cases h
      · next o r hm =>
        cases h
        obtain ⟨d, rfl, hd, rfl⟩ := takeMem_eq_some hm
        have hno : (!a16 && b.extractLsb' 0 3 == 4#3) = false := by
          simpa [Bool.and_eq_false_iff, imp_iff_not_or] using hsib
        exact ⟨by simp [RegMem.wellFormed, MemAddr.wellFormed, hmod, hno, hd], by simp [encodeRegMem, hb]⟩

/-- Operand bytes that are cut short give no operand. -/
theorem takeRegMem_cut {a16 : Bool} {reg : BitVec 3} {rm : RegMem} {q t : List Byte} (hw : rm.wellFormed a16 = true)
    (hq : encodeRegMem reg rm = q ++ t) (ht : t ≠ []) : takeRegMem a16 q = none := by
  cases h : takeRegMem a16 q with
  | none => rfl
  | some o =>
    obtain ⟨reg', rm', rest⟩ := o
    obtain ⟨hw', hq'⟩ := takeRegMem_eq_some_iff.mp h
    have hwhole : takeRegMem a16 (q ++ t) = some (reg, rm, []) :=
      takeRegMem_eq_some_iff.mpr ⟨hw, by rw [← hq, List.append_nil]⟩
    have hlonger : takeRegMem a16 (q ++ t) = some (reg', rm', rest ++ t) :=
      takeRegMem_eq_some_iff.mpr ⟨hw', by rw [hq', List.append_assoc]⟩
    have hrest : rest ++ t = [] := by
      rw [hwhole] at hlonger
      simp only [Option.some.injEq, Prod.mk.injEq] at hlonger
      exact hlonger.2.2.symm
    exact absurd (List.append_eq_nil_iff.mp hrest).2 ht

/-! ### The scan of the prefixes -/

/-- None of the prefixes is redundant, and no REX byte is misplaced (R71, R73, D15). -/
def Scan.Clean (s : Scan) : Prop := s.redundant = false ∧ s.rexMisplaced = false

/-- How many kinds of prefixes were recorded: so many bytes, where none is redundant or misplaced. -/
def Scan.count (s : Scan) : Nat :=
  s.lock.toNat + s.rep.toNat + s.seg.isSome.toNat + s.opSize.toNat + s.addrSize.toNat + s.rex.isSome.toNat

/-- `s'` is `s` with one more byte recorded. -/
def Scan.Next (s s' : Scan) : Prop := (∃ p, s' = s.add p) ∨ ∃ x, s' = s.addRex x

/-- A byte of a group that was not recorded before is one more that is (R71). -/
theorem Scan.count_add {s : Scan} {p : PrefixByte} (h : s.taken p = false) : (s.add p).count = s.count + 1 := by
  cases p with
  | lock | rep =>
    obtain ⟨hlock, hrep⟩ : s.lock = false ∧ s.rep = false := by simpa [Scan.taken] using h
    simp only [Scan.count, Scan.add, Scan.set, hlock, hrep, Bool.toNat_true, Bool.toNat_false]
    omega
  | seg n =>
    have hseg : s.seg = none := by simpa [Scan.taken] using h
    simp only [Scan.count, Scan.add, Scan.set, hseg, Option.isSome_none, Option.isSome_some, Bool.toNat_true,
      Bool.toNat_false]
    omega
  | opSize =>
    have h66 : s.opSize = false := h
    simp only [Scan.count, Scan.add, Scan.set, h66, Bool.toNat_true, Bool.toNat_false]
    omega
  | addrSize =>
    have h67 : s.addrSize = false := h
    simp only [Scan.count, Scan.add, Scan.set, h67, Bool.toNat_true, Bool.toNat_false]
    omega

theorem Scan.Next.clean {s s' : Scan} (h : s.Next s') (hs : s'.Clean) : s.Clean ∧ s'.count = s.count + 1 := by
  obtain ⟨hred, hmis⟩ := hs
  rcases h with ⟨p, rfl⟩ | ⟨x, rfl⟩
  · simp only [Scan.add, Bool.or_eq_false_iff] at hred hmis
    exact ⟨⟨hred.1, hmis.1⟩, Scan.count_add hred.2⟩
  · simp only [Scan.addRex, Bool.or_eq_false_iff] at hred hmis
    exact ⟨⟨hred, hmis.1⟩, by simp [Scan.count, Scan.addRex, hmis.2]⟩

/-- Where a REX byte is misplaced there is one. -/
theorem Scan.Next.rex {s s' : Scan} (h : s.Next s') (hs : s.rexMisplaced = true → s.rex.isSome = true) :
    s'.rexMisplaced = true → s'.rex.isSome = true := by
  rcases h with ⟨p, rfl⟩ | ⟨x, rfl⟩
  · have hrex : (s.add p).rex = s.rex := by cases p <;> rfl
    rw [hrex]
    simp only [Scan.add, Bool.or_eq_true]
    exact fun hor => hor.elim hs id
  · exact fun _ => rfl

/-- The scan takes a byte and records it, or ends before it; which of the two does not depend on the bytes behind. -/
theorem scanPrefixes_cons_cases (m : Mode) (s : Scan) (b : Byte) :
    (∃ s', s.Next s' ∧ ∀ bs, scanPrefixes m s (b :: bs) = scanPrefixes m s' bs) ∨
      ∀ bs, scanPrefixes m s (b :: bs) = (s, b :: bs) := by
  cases hp : prefixOf b with
  | some p => exact .inl ⟨_, .inl ⟨p, rfl⟩, fun bs => by simp only [scanPrefixes, hp]⟩
  | none =>
    cases hx : rexOf b with
    | none => exact .inr (scanPrefixes_cons_stop hp hx m s)
    | some x =>
      cases m with
      | m64 => exact .inl ⟨_, .inr ⟨x, rfl⟩, fun bs => by simp only [scanPrefixes, hp, hx]⟩
      | m32 => exact .inr fun bs => by simp only [scanPrefixes, hp]

/-- A clean scan began clean, and took as many bytes as it recorded. -/
theorem scanPrefixes_clean {m : Mode} {s s' : Scan} {bs r : List Byte} (h : scanPrefixes m s bs = (s', r))
    (hs : s'.Clean) : s.Clean ∧ s.count + bs.length = s'.count + r.length := by
  induction bs generalizing s with
  | nil => cases h; exact ⟨hs, rfl⟩
  | cons b bs ih =>
    rcases scanPrefixes_cons_cases m s b with ⟨s1, hnext, hscan⟩ | hstop
    · obtain ⟨hs1, hlen⟩ := ih ((hscan bs).symm.trans h)
      obtain ⟨hclean, hcount⟩ := hnext.clean hs1
      exact ⟨hclean, by rw [List.length_cons]; omega⟩
    · cases (hstop bs).symm.trans h
      exact ⟨hs, rfl⟩

theorem scanPrefixes_rex {m : Mode} {s s' : Scan} {bs r : List Byte} (h : scanPrefixes m s bs = (s', r))
    (hs : s.rexMisplaced = true → s.rex.isSome = true) : s'.rexMisplaced = true → s'.rex.isSome = true := by
  induction bs generalizing s with
  | nil => cases h; exact hs
  | cons b bs ih =>
    rcases scanPrefixes_cons_cases m s b with ⟨s1, hnext, hscan⟩ | hstop
    · exact ih ((hscan bs).symm.trans h) (hnext.rex hs)
    · cases (hstop bs).symm.trans h
      exact hs

/-- A scan of bytes that are cut short ends inside the prefixes, or where the scan of all of them ends. -/
theorem scanPrefixes_cut {m : Mode} {s s' : Scan} {l t r : List Byte} (h : scanPrefixes m s (l ++ t) = (s', r)) :
    (∃ s1, scanPrefixes m s l = (s1, []) ∧ scanPrefixes m s1 t = (s', r)) ∨
      ∃ l', l' ≠ [] ∧ r = l' ++ t ∧ scanPrefixes m s l = (s', l') := by
  induction l generalizing s with
  | nil => exact .inl ⟨s, rfl, h⟩
  | cons b l ih =>
    rcases scanPrefixes_cons_cases m s b with ⟨s1, -, hscan⟩ | hstop
    · rw [hscan l]
      exact ih ((hscan (l ++ t)).symm.trans h)
    · cases (hstop (l ++ t)).symm.trans h
      exact .inr ⟨b :: l, nofun, rfl, hstop l⟩

theorem Scan.Clean.cutShort {s : Scan} (h : s.Clean) : s.cutShort = .reject .truncated := by
  simp [Scan.cutShort, Scan.refusal, h.1, h.2]

theorem Scan.clean_ofInstr (p : Prefixes) (op66 : Bool) (x : Option Rex) : (Scan.ofInstr p op66 x).Clean := ⟨rfl, rfl⟩

/-! ### The length of a decoded form -/

/-- The verdict `form i n` on `bs`, `k` bytes into the instruction: what stands behind the instruction in `bs` is what `n`
leaves of `total`, and `n` is within the limit (R70). -/
def TakesForm (total k : Nat) (bs : List Byte) (i : Instr) (n : Nat) : Prop :=
  n ≤ 15 ∧ ∃ rest, n = total - rest ∧ k + bs.length = i.length + rest

theorem TakesForm.cons {total k n : Nat} {bs : List Byte} {i : Instr} (h : TakesForm total (k + 1) bs i n) (b : Byte) :
    TakesForm total k (b :: bs) i n := by
  obtain ⟨hn, rest, hrest, hlen⟩ := h
  exact ⟨hn, rest, hrest, by rw [List.length_cons]; omega⟩

theorem finish_form {total k n : Nat} {a16 : Bool} {mk : BitVec 3 → RegMem → Instr} {bs : List Byte} {i : Instr}
    (h : finish total a16 mk bs = .form i n)
    (hk : ∀ reg rm, (mk reg rm).length = k + (encodeRegMem reg rm).length) : TakesForm total k bs i n := by
  unfold finish at h
  split at h
  · cases h
  · next reg rm rest ht =>
    split at h
    · cases h
    · next hn =>
      cases h
      obtain ⟨-, rfl⟩ := takeRegMem_eq_some_iff.mp ht
      refine ⟨Nat.not_lt.mp hn, rest.length, rfl, ?_⟩
      rw [hk, List.length_append]
      omega

theorem finishVex_form {m : Mode} {total k n : Nat} {s : Scan} {need : FeatureNeed} {mk : BitVec 3 → RegMem → Instr}
    {bs : List Byte} {i : Instr} (h : finishVex m total s need mk bs = .form i n)
    (hk : ∀ reg rm, (mk reg rm).length = k + (encodeRegMem reg rm).length) :
    s.redundant = false ∧ TakesForm total k bs i n := by
  unfold finishVex at h
  split at h
  · cases h
  · split at h
    · cases h
    · next hred => exact ⟨Bool.eq_false_of_not_eq_true hred, finish_form h hk⟩

theorem finishIllegal_ne_form {total : Nat} {a16 : Bool} {bs : List Byte} {i : Instr} {n : Nat} :
    finishIllegal total a16 bs ≠ .form i n := by
  rcases finishIllegal_cases total a16 bs with ⟨h, -⟩ | ⟨_, _, _, -, h⟩ <;> rw [h]
  · exact nofun
  · split <;> exact nofun

theorem cutShort_ne_form {s : Scan} {i : Instr} {n : Nat} : s.cutShort ≠ .form i n := by
  unfold Scan.cutShort
  split <;> exact nofun

theorem legacyInstr_length (op66 word : Bool) (p : Prefixes) (x : Option Rex) (reg : BitVec 3) (rm : RegMem) :
    (legacyInstr op66 word p x reg rm).length =
      (encodePrefixes p).length + op66.toNat + x.isSome.toNat + 2 + (encodeRegMem reg rm).length := by
  have henc : encode (legacyInstr op66 word p x reg rm) = encodeLegacy op66 word p x reg rm := by
    cases op66 <;> cases word <;> rfl
  rw [Instr.length, henc]
  cases op66 <;> cases x <;> simp only [encodeLegacy, List.length_append, List.length_cons, List.length_nil, Bool.false_eq_true,
    if_true, if_false, Bool.toNat_true, Bool.toNat_false, Option.isSome_none, Option.isSome_some]

theorem vex2Instr_length (l word : Bool) (p : Prefixes) (v : Vex2) (reg : BitVec 3) (rm : RegMem) :
    (vex2Instr l word p v reg rm).length = (encodePrefixes p).length + 3 + (encodeRegMem reg rm).length := by
  have henc : encode (vex2Instr l word p v reg rm) = encodeVex2 l word p v reg rm := by
    cases l <;> cases word <;> rfl
  rw [Instr.length, henc]
  simp only [encodeVex2, List.length_append, List.length_cons, List.length_nil]

theorem vex3Instr_length (l word : Bool) (p : Prefixes) (v : Vex3) (reg : BitVec 3) (rm : RegMem) :
    (vex3Instr l word p v reg rm).length = (encodePrefixes p).length + 4 + (encodeRegMem reg rm).length := by
  have henc : encode (vex3Instr l word p v reg rm) = encodeVex3 l word p v reg rm := by
    cases l <;> cases word <;> rfl
  rw [Instr.length, henc]
  simp only [encodeVex3, List.length_append, List.length_cons, List.length_nil]

theorem evexInstr_length (vl : EvexLen) (word : Bool) (p : Prefixes) (v : Evex) (reg : BitVec 3) (rm : RegMem) :
    (evexInstr vl word p v reg rm).length = (encodePrefixes p).length + 5 + (encodeRegMem reg rm).length := by
  have henc : encode (evexInstr vl word p v reg rm) = encodeEvex vl word p v reg rm := by
    cases vl <;> cases word <;> rfl
  rw [Instr.length, henc]
  simp only [encodeEvex, List.length_append, List.length_cons, List.length_nil]

/-- A two-byte VEX form, from the byte after `C5` on. -/
theorem decodeVex2_form {m : Mode} {total n : Nat} {s : Scan} {bs : List Byte} {i : Instr}
    (h : decodeVex2 m total s bs = .form i n) :
    s.redundant = false ∧ TakesForm total ((encodePrefixes s.kept).length + 1) bs i n := by
  rcases bs with _ | ⟨v1, _ | ⟨opc, bs⟩⟩
  · exact absurd h cutShort_ne_form
  · exact absurd h cutShort_ne_form
  · simp only [decodeVex2] at h
    split at h
    · cases h
    · split at h
      · cases h
      · split at h
        · cases h
        · obtain ⟨hred, htakes⟩ := finishVex_form h (vex2Instr_length _ _ _ _)
          exact ⟨hred, (htakes.cons opc).cons v1⟩

/-- A three-byte VEX form, from the byte after `C4` on. -/
theorem decodeVex3_form {m : Mode} {total n : Nat} {s : Scan} {bs : List Byte} {i : Instr}
    (h : decodeVex3 m total s bs = .form i n) :
    s.redundant = false ∧ TakesForm total ((encodePrefixes s.kept).length + 1) bs i n := by
  rcases bs with _ | ⟨v1, _ | ⟨v2, _ | ⟨opc, bs⟩⟩⟩
  · exact absurd h cutShort_ne_form
  · exact absurd h cutShort_ne_form
  · exact absurd h cutShort_ne_form
  · simp only [decodeVex3] at h
    split at h
    · cases h
    · split at h
      · cases h
      · split at h
        · cases h
        · obtain ⟨hred, htakes⟩ := finishVex_form h (vex3Instr_length _ _ _ _)
          exact ⟨hred, ((htakes.cons opc).cons v2).cons v1⟩

/-- An EVEX form, from the byte after `62` on. -/
theorem decodeEvex_form {m : Mode} {total n : Nat} {s : Scan} {bs : List Byte} {i : Instr}
    (h : decodeEvex m total s bs = .form i n) :
    s.redundant = false ∧ TakesForm total ((encodePrefixes s.kept).length + 1) bs i n := by
  rcases bs with _ | ⟨p0, _ | ⟨p1, _ | ⟨p2, _ | ⟨opc, bs⟩⟩⟩⟩
  · exact absurd h cutShort_ne_form
  · exact absurd h cutShort_ne_form
  · exact absurd h cutShort_ne_form
  · exact absurd h cutShort_ne_form
  · simp only [decodeEvex] at h
    split at h
    · cases h
    · split at h
      · exact absurd h finishIllegal_ne_form
      · split at h
        · cases h
        · split at h
          · cases h
          · split at h
            · exact absurd h finishIllegal_ne_form
            · split at h
              · exact absurd h finishIllegal_ne_form
              · split at h
                · exact absurd h finishIllegal_ne_form
                · obtain ⟨hred, htakes⟩ := finishVex_form h (evexInstr_length _ _ _ _)
                  exact ⟨hred, (((htakes.cons opc).cons p2).cons p1).cons p0⟩

theorem encodePrefixes_kept_length (s : Scan) :
    (encodePrefixes s.kept).length = s.seg.isSome.toNat + s.addrSize.toNat := by
  cases hseg : s.seg <;> cases h67 : s.addrSize <;> simp [encodePrefixes, Scan.kept, hseg, h67]

/-- A legacy form, behind its prefixes (R72 to R74): none of them is LOCK, F2 or F3, and D15 refuses none. -/
theorem decodeLegacy_form {m : Mode} {total n : Nat} {s : Scan} {bs : List Byte} {i : Instr}
    (h : decodeLegacy m total s bs = .form i n) : s.Clean ∧ TakesForm total s.count bs i n := by
  rcases bs with _ | ⟨b, bs⟩
  · exact absurd h cutShort_ne_form
  simp only [decodeLegacy] at h
  split at h
  · rcases bs with _ | ⟨opc, bs⟩
    · exact absurd h cutShort_ne_form
    simp only at h
    split at h
    · cases h
    · split at h
      · exact absurd h finishIllegal_ne_form
      · split at h
        · cases h
        · split at h
          · cases h
          · next hlock hrep _ hrefusal =>
            have hclean : s.Clean := by
              unfold Scan.refusal at hrefusal
              split at hrefusal
              · cases hrefusal
              · split at hrefusal
                · cases hrefusal
                · next hmis hred => exact ⟨Bool.eq_false_of_not_eq_true hred, Bool.eq_false_of_not_eq_true hmis⟩
            have hcount : s.count = (encodePrefixes s.kept).length + s.opSize.toNat + s.rex.isSome.toNat := by
              rw [encodePrefixes_kept_length, Scan.count, Bool.eq_false_of_not_eq_true hlock,
                Bool.eq_false_of_not_eq_true hrep, Bool.toNat_false]
              omega
            have htakes := finish_form h (legacyInstr_length _ _ _ _)
            exact ⟨hclean, hcount ▸ (htakes.cons opc).cons b⟩
  · cases h

/-- A form behind its prefixes: where it is VEX or EVEX, they are at most an override and 67 (R101 rows 1 to 3). -/
theorem decodeBody_form {m : Mode} {total n : Nat} {s : Scan} {bs : List Byte} {i : Instr}
    (hrex : s.rexMisplaced = true → s.rex.isSome = true) (h : decodeBody m total s bs = .form i n) :
    s.Clean ∧ TakesForm total s.count bs i n := by
  unfold decodeBody at h
  split at h
  · next b next bs =>
    split at h
    · split at h
      · exact absurd h finishIllegal_ne_form
      · next hlegal =>
        simp only [Scan.illegalBeforeVex, Bool.or_eq_true, not_or, Bool.not_eq_true] at hlegal
        obtain ⟨⟨⟨hlock, hrep⟩, h66⟩, hnorex⟩ := hlegal
        have hcount : s.count = (encodePrefixes s.kept).length := by
          simp [encodePrefixes_kept_length, Scan.count, hlock, hrep, h66, hnorex]
        have hmis : s.rexMisplaced = false := by
          by_contra hmis
          simp [hrex (Bool.eq_true_of_not_eq_false hmis)] at hnorex
        have hvex : s.redundant = false ∧
            TakesForm total ((encodePrefixes s.kept).length + 1) (next :: bs) i n := by
          split at h
          · exact decodeVex2_form h
          · split at h
            · exact decodeVex3_form h
            · exact decodeEvex_form h
        exact ⟨⟨hvex.1, hmis⟩, hcount ▸ hvex.2.cons b⟩
    · exact decodeLegacy_form h
  · split at h
    · split at h
      · cases h
      · exact absurd h cutShort_ne_form
    · exact decodeLegacy_form h
  · exact absurd h cutShort_ne_form

/-- The decoded length is the instruction's own, and within the limit (R70, R100 step 5). -/
theorem decode_form_length {m : Mode} {bs : List Byte} {i : Instr} {n : Nat} (h : decode m bs = .form i n) :
    n = i.length ∧ n ≤ 15 := by
  unfold decode at h
  have hscan : scanPrefixes m Scan.empty bs =
      ((scanPrefixes m Scan.empty bs).1, (scanPrefixes m Scan.empty bs).2) := rfl
  obtain ⟨hclean, hn, rest, hrest, hlen⟩ := decodeBody_form (scanPrefixes_rex hscan nofun) h
  have htotal := (scanPrefixes_clean hscan hclean).2
  rw [show Scan.empty.count = 0 from rfl] at htotal
  exact ⟨by omega, hn⟩

/-- Every instruction takes at least 3 bytes (R70). -/
theorem three_le_length (i : Instr) : 3 ≤ i.length := by
  cases i with
  | paddusbMm | paddusbXmm | padduswMm | padduswXmm => exact (Laws.encodeLegacy_length ..).1
  | vpaddusbXmmVex3 | vpadduswXmmVex3 | vpaddusbYmmVex3 | vpadduswYmmVex3 => exact (Laws.encodeVex3_length ..).1
  | vpaddusbXmmVex2 | vpadduswXmmVex2 | vpaddusbYmmVex2 | vpadduswYmmVex2 => exact (Laws.encodeVex2_length ..).1
  | vpaddusbXmmEvex | vpaddusbYmmEvex | vpaddusbZmmEvex | vpadduswXmmEvex | vpadduswYmmEvex | vpadduswZmmEvex =>
    exact (Laws.encodeEvex_length ..).1

end Sys2Proof

namespace Sys2Proof.Machine

/-- Settles O18: pc moves by the length of the instruction the step completes, which is the length decoded. -/
theorem step_advances_pc_by_length : Obligations.Step_advances_pc_by_length := by
  intro s t h
  obtain ⟨m, i, n, hm, hd, hcompl⟩ := step_completion h
  obtain ⟨rfl, hle⟩ := decode_form_length hd
  exact ⟨m, i, _, hm, hd, rfl, three_le_length i, hle, hcompl.pc⟩

end Sys2Proof.Machine
end

section
/-! PROOFS. Bytes that end before a well-formed instruction does (R168 item 1, D12): the decoder asks for more of them, and the
step is refused for the byte that cannot be fetched. -/

namespace Sys2Proof

/-! ### Bytes that end too soon -/

/-- Where an instruction's scan of its prefixes is clean, its bytes cut short are cut in the prefixes or behind them. -/
theorem decode_cut {m : Mode} {l t r : List Byte} {s : Scan} (hscan : scanPrefixes m Scan.empty (l ++ t) = (s, r))
    (hclean : s.Clean)
    (hbody : ∀ l', l' ≠ [] → r = l' ++ t → decodeBody m l.length s l' = .reject .truncated) :
    decode m l = .reject .truncated := by
  rcases scanPrefixes_cut hscan with ⟨s1, hl, hrest⟩ | ⟨l', hne, hr, hl⟩
  · rw [decode, hl]
    exact (scanPrefixes_clean hrest hclean).1.cutShort
  · rw [decode, hl]
    exact hbody l' hne hr

theorem finish_cut {a16 : Bool} {reg : BitVec 3} {rm : RegMem} {q t : List Byte} (hw : rm.wellFormed a16 = true)
    (hq : encodeRegMem reg rm = q ++ t) (ht : t ≠ []) (total : Nat) (mk : BitVec 3 → RegMem → Instr) :
    finish total a16 mk q = .reject .truncated := by
  rw [finish, takeRegMem_cut hw hq ht]

theorem finishVex_cut {m : Mode} {p : Prefixes} {reg : BitVec 3} {rm : RegMem} {q t : List Byte}
    (hw : rm.vexWellFormed m p.a67 = true) (hq : encodeRegMem reg rm = q ++ t) (ht : t ≠ []) (total : Nat)
    (need : FeatureNeed) (mk : BitVec 3 → RegMem → Instr) :
    finishVex m total (Scan.ofInstr p false none) need mk q = .reject .truncated := by
  have h16 : memory16 m p.a67 q = false := by
    rcases q with _ | ⟨b, q⟩
    · rfl
    · have hwhole := memory16_encodeRegMem hw reg []
      rw [hq] at hwhole
      exact hwhole
  rw [finishVex, if_neg (by simp [Scan.ofInstr, h16]), if_neg (by simp [Scan.ofInstr]),
    finish_cut (wellFormed_of_vexWellFormed hw) hq ht]

/-- The legacy layout, cut short. -/
theorem decode_encodeLegacy_cut {m : Mode} {p : Prefixes} {x : Option Rex} {rm : RegMem}
    (h : legacyWellFormed m p x rm = true) {op66 word : Bool} {reg : BitVec 3} {l t : List Byte}
    (hl : encodeLegacy op66 word p x reg rm = l ++ t) (ht : t ≠ []) : decode m l = .reject .truncated := by
  simp only [legacyWellFormed, Bool.and_eq_true, Bool.or_eq_true, beq_iff_eq, Option.isNone_iff_eq_none] at h
  obtain ⟨hx, hrm⟩ := h
  have hscan := scanPrefixes_encodeLegacy hx op66 word p reg rm []
  simp only [List.append_nil, hl] at hscan
  refine decode_cut hscan (Scan.clean_ofInstr p op66 x) fun l' hne hr => ?_
  rcases l' with _ | ⟨b, _ | ⟨opc, q⟩⟩
  · exact absurd rfl hne
  · obtain ⟨rfl, -⟩ := List.cons.inj hr
    exact (Scan.clean_ofInstr p op66 x).cutShort
  · simp only [List.cons_append, List.cons.injEq] at hr
    obtain ⟨rfl, rfl, hq⟩ := hr
    rw [decodeBody_legacy, finish_cut hrm hq ht]

/-- The scan of a VEX or EVEX form ends at its lead byte, with what the form keeps. -/
theorem scanPrefixes_lead {b : Byte} (hb : vexLead b = true) (m : Mode) (p : Prefixes) (bs : List Byte) :
    scanPrefixes m Scan.empty (encodePrefixes p ++ b :: bs) = (Scan.ofInstr p false none, b :: bs) := by
  have hstop : prefixOf b = none ∧ rexOf b = none := by
    simp only [vexLead, Bool.or_eq_true, beq_iff_eq] at hb
    rcases hb with (rfl | rfl) | rfl <;> decide
  rw [scanPrefixes_encodePrefixes, scanPrefixes_cons_stop hstop.1 hstop.2]

/-- A VEX or EVEX form, cut short: it is enough to look at bytes cut behind the byte after the lead byte. -/
theorem decode_lead_cut {m : Mode} {p : Prefixes} {b next : Byte} {bs l t : List Byte} (hb : vexLead b = true)
    (hl : encodePrefixes p ++ b :: next :: bs = l ++ t)
    (hbody : ∀ q, bs = q ++ t →
      decodeBody m l.length (Scan.ofInstr p false none) (b :: next :: q) = .reject .truncated) :
    decode m l = .reject .truncated := by
  have hclean := Scan.clean_ofInstr p false none
  refine decode_cut (hl ▸ scanPrefixes_lead hb m p (next :: bs)) hclean fun l' hne hr => ?_
  rcases l' with _ | ⟨c, _ | ⟨d, q⟩⟩
  · exact absurd rfl hne
  · obtain ⟨rfl, -⟩ := List.cons.inj hr
    rw [decodeBody, if_pos hb, if_neg (by simp [Scan.illegalBeforeVex, Scan.ofInstr]), hclean.cutShort]
  · simp only [List.cons_append, List.cons.injEq] at hr
    obtain ⟨rfl, rfl, hq⟩ := hr
    exact hbody q hq

/-- The two-byte VEX layout, cut short. -/
theorem decode_encodeVex2_cut {m : Mode} {p : Prefixes} {v : Vex2} {rm : RegMem} (h : vex2WellFormed m p v rm = true)
    {w word : Bool} {reg : BitVec 3} {l t : List Byte} (hl : encodeVex2 w word p v reg rm = l ++ t) (ht : t ≠ []) :
    decode m l = .reject .truncated := by
  simp only [vex2WellFormed, Bool.and_eq_true, Bool.or_eq_true, beq_iff_eq, Bool.not_eq_true'] at h
  obtain ⟨hext, hrm⟩ := h
  have htop : m = .m64 ∨ (vex2Byte w v).extractLsb' 6 2 = 3#2 := hext.imp_right fun ⟨hr, hv⟩ => vex2Byte_top w hr hv
  have hext32 : ¬ (m = .m32 ∧ (v.r ∨ v.vvvv.msb)) := by
    rcases hext with rfl | ⟨hr, hv⟩
    · simp
    · simp [hr, hv]
  simp only [encodeVex2, List.append_assoc, List.cons_append, List.nil_append] at hl
  refine decode_lead_cut rfl hl fun q hq => ?_
  rw [decodeBody_lead rfl htop, if_pos rfl]
  rcases q with _ | ⟨opc, q⟩
  · exact (Scan.clean_ofInstr p false none).cutShort
  · simp only [List.cons_append, List.cons.injEq] at hq
    obtain ⟨rfl, hq⟩ := hq
    simp only [decodeVex2, vex2Byte_fields, wordForm_opcodeByte, if_neg hext32, ne_eq, not_true, if_false]
    exact finishVex_cut hrm hq ht _ _ _

/-- The three-byte VEX layout, cut short. -/
theorem decode_encodeVex3_cut {m : Mode} {p : Prefixes} {v : Vex3} {rm : RegMem} (h : vex3WellFormed m p v rm = true)
    {w word : Bool} {reg : BitVec 3} {l t : List Byte} (hl : encodeVex3 w word p v reg rm = l ++ t) (ht : t ≠ []) :
    decode m l = .reject .truncated := by
  simp only [vex3WellFormed, Bool.and_eq_true, Bool.or_eq_true, beq_iff_eq, Bool.not_eq_true'] at h
  obtain ⟨hext, hrm⟩ := h
  have htop : m = .m64 ∨ (vex3Byte1 v).extractLsb' 6 2 = 3#2 :=
    hext.imp_right fun ⟨⟨⟨hr, hx⟩, _⟩, _⟩ => vex3Byte1_top hr hx
  have hext32 : ¬ (m = .m32 ∧ (v.r ∨ v.x ∨ v.b ∨ v.vvvv.msb)) := by
    rcases hext with rfl | ⟨⟨⟨hr, hx⟩, hb⟩, hv⟩
    · simp
    · simp [hr, hx, hb, hv]
  simp only [encodeVex3, List.append_assoc, List.cons_append, List.nil_append] at hl
  refine decode_lead_cut rfl hl fun q hq => ?_
  rw [decodeBody_lead rfl htop, if_neg (by decide), if_pos rfl]
  rcases q with _ | ⟨v2, _ | ⟨opc, q⟩⟩
  · exact (Scan.clean_ofInstr p false none).cutShort
  · exact (Scan.clean_ofInstr p false none).cutShort
  · simp only [List.cons_append, List.cons.injEq] at hq
    obtain ⟨rfl, rfl, hq⟩ := hq
    simp only [decodeVex3, vex3Of_vex3Bytes, if_neg hext32, vex3Byte1_fields, vex3Byte2_fields, wordForm_opcodeByte,
      ne_eq, not_true, or_self, if_false]
    exact finishVex_cut hrm hq ht _ _ _

/-- The EVEX layout, cut short. -/
theorem decode_encodeEvex_cut {m : Mode} {p : Prefixes} {v : Evex} {rm : RegMem} (h : evexWellFormed m p v rm = true)
    {vl : EvexLen} {word : Bool} {reg : BitVec 3} {l t : List Byte} (hl : encodeEvex vl word p v reg rm = l ++ t)
    (ht : t ≠ []) : decode m l = .reject .truncated := by
  simp only [evexWellFormed, Bool.and_eq_true, Bool.or_eq_true, beq_iff_eq, bne_iff_ne, Bool.not_eq_true'] at h
  obtain ⟨⟨hext, hz⟩, hrm⟩ := h
  have htop : m = .m64 ∨ (evexByte0 v).extractLsb' 6 2 = 3#2 :=
    hext.imp_right fun ⟨⟨⟨⟨⟨hr, hx⟩, _⟩, _⟩, _⟩, _⟩ => evexByte0_top hr hx
  have hext32 : ¬ (m = .m32 ∧ (v.r ∨ v.x ∨ v.b ∨ v.rHi ∨ v.vHi ∨ v.vvvv.msb)) := by
    rcases hext with rfl | ⟨⟨⟨⟨⟨hr, hx⟩, hb⟩, hrHi⟩, hvHi⟩, hv⟩
    · simp
    · simp [hr, hx, hb, hrHi, hvHi, hv]
  have hmask : ¬ (v.z ∧ v.aaa = 0#3) := by
    rcases hz with hz | haaa
    · simp [hz]
    · simp [haaa]
  simp only [encodeEvex, List.append_assoc, List.cons_append, List.nil_append] at hl
  refine decode_lead_cut rfl hl fun q hq => ?_
  rw [decodeBody_lead rfl htop, if_neg (by decide), if_neg (by decide)]
  rcases q with _ | ⟨p1, _ | ⟨p2, _ | ⟨opc, q⟩⟩⟩
  · exact (Scan.clean_ofInstr p false none).cutShort
  · exact (Scan.clean_ofInstr p false none).cutShort
  · exact (Scan.clean_ofInstr p false none).cutShort
  · simp only [List.cons_append, List.cons.injEq] at hq
    obtain ⟨rfl, rfl, rfl, hq⟩ := hq
    simp only [decodeEvex, evexOf_evexBytes, if_neg hext32, if_neg hmask, evexByte0_fields, evexByte1_fields,
      evexByte2_fields, wordForm_opcodeByte, ne_eq, not_true, or_self, if_false]
    exact finishVex_cut hrm hq ht _ _ _

/-- The bytes of a well-formed instruction, cut short, are no verdict on it: more are needed (R100, R168 item 1). -/
theorem decode_encode_cut {m : Mode} {i : Instr} (h : i.wellFormed m = true) {l t : List Byte} (hl : encode i = l ++ t)
    (ht : t ≠ []) : decode m l = .reject .truncated := by
  cases i with
  | paddusbMm | paddusbXmm | padduswMm | padduswXmm => exact decode_encodeLegacy_cut h hl ht
  | vpaddusbXmmVex3 | vpadduswXmmVex3 | vpaddusbYmmVex3 | vpadduswYmmVex3 => exact decode_encodeVex3_cut h hl ht
  | vpaddusbXmmVex2 | vpadduswXmmVex2 | vpaddusbYmmVex2 | vpadduswYmmVex2 => exact decode_encodeVex2_cut h hl ht
  | vpaddusbXmmEvex | vpaddusbYmmEvex | vpaddusbZmmEvex | vpadduswXmmEvex | vpadduswYmmEvex | vpadduswZmmEvex =>
    exact decode_encodeEvex_cut h hl ht

end Sys2Proof

namespace Sys2Proof.Machine

/-! ### A byte that cannot be fetched -/

/-- The fetch gives the bytes up to the first one that cannot be fetched, and says why it ends there. -/
theorem fetchFrom_eq_of_error (s : State) (m : Mode) (r : Refusal) (l : List Byte) : ∀ (n j : Nat), l.length < n →
    (∀ (k : Nat) (h : k < l.length), ∃ a, s.codeAddr m (j + k) = .ok a ∧ s.byteAt a = l[k]) →
    s.codeAddr m (j + l.length) = .error r → s.fetchFrom m n j = (l, some r) := by
  induction l with
  | nil =>
    intro n j hn _ hr
    obtain ⟨n, rfl⟩ := Nat.exists_eq_add_one_of_ne_zero (Nat.ne_of_gt hn)
    rw [List.length_nil, Nat.add_zero] at hr
    simp only [State.fetchFrom, hr]
  | cons b l ih =>
    intro n j hn hl hr
    obtain ⟨n, rfl⟩ := Nat.exists_eq_add_one_of_ne_zero (Nat.ne_of_gt (Nat.lt_of_le_of_lt (Nat.zero_le _) hn))
    obtain ⟨a, ha, hb⟩ := hl 0 (Nat.succ_pos _)
    have hrest : s.fetchFrom m n (j + 1) = (l, some r) := by
      refine ih n (j + 1) (Nat.lt_of_succ_lt_succ hn) (fun k hk => ?_) ?_
      · simpa [Nat.add_right_comm j 1 k, Nat.add_assoc] using hl (k + 1) (Nat.succ_lt_succ hk)
      · simpa [Nat.add_right_comm j 1, Nat.add_assoc] using hr
    rw [Nat.add_zero] at ha
    simp only [State.fetchFrom, ha, hb, hrest, List.getElem_cons_zero]

/-- An instruction that needs a byte the fetch does not reach is refused for that byte (R168 item 1). -/
theorem step_of_truncated {s : State} {m : Mode} {l : List Byte} {r : Refusal} (hm : s.mode = some m)
    (hc : s.codeSegmentOk m = true) (hw : s.fetchWindow m = (l, some r)) (hd : decode m l = .reject .truncated) :
    step s = .refused r := by
  simp only [step, hm, hc, hw, hd, Verdict.under, Bool.true_eq_false, if_false]

/-- A byte outside the code space cannot be fetched (R27, D12). -/
theorem codeAddr_of_outside {s : State} {m : Mode} {j : Nat}
    (h64 : m = .m64 → canonical .m64 s.platform.laBits (s.pc + BitVec.ofNat 64 j) = false ∨ 2 ^ 64 ≤ s.pc.toNat + j)
    (h32 : m = .m32 → 2 ^ 32 ≤ s.pc.toNat + j) : s.codeAddr m j = .error .codeAtBoundary := by
  refine if_pos ?_
  cases m with
  | m64 => exact (h64 rfl).symm
  | m32 => exact .inl (h32 rfl)

/-- Settles O14: the window ends at the byte outside the code space; what stands before it, no byte or an instruction cut
short, is no verdict, so the step is refused for that byte. -/
theorem fetch_outside_code_space_is_refused : Obligations.Fetch_outside_code_space_is_refused := by
  intro s m hm hc outside
  refine ⟨fun hout => ?_, fun i j hj hw hbytes hout => ?_⟩
  · have hwin : s.fetchWindow m = ([], some .codeAtBoundary) :=
      fetchFrom_eq_of_error s m _ [] maxInstrBytes 0 (by decide) nofun (codeAddr_of_outside hout.1 hout.2)
    exact step_of_truncated hm hc hwin rfl
  · have hlen : ((encode i).take j).length = j := List.length_take_of_le (Nat.le_of_lt hj)
    have hwin : s.fetchWindow m = ((encode i).take j, some .codeAtBoundary) := by
      refine fetchFrom_eq_of_error s m _ _ maxInstrBytes 0 ?_ (fun k hk => ?_) ?_
      · rw [hlen]
        exact Nat.lt_of_lt_of_le hj (encode_length_le i)
      · simpa using hbytes k (hlen ▸ hk)
      · rw [hlen, Nat.zero_add]
        exact codeAddr_of_outside hout.1 hout.2
    have hcut : decode m ((encode i).take j) = .reject .truncated :=
      decode_encode_cut hw (List.take_append_drop j (encode i)).symm (by simpa using hj)
    exact step_of_truncated hm hc hwin hcut

end Sys2Proof.Machine
end

section
/-! PROOFS. Completion does not depend on the data (60_exceptions.md section 3): a state with other vector registers, x87 data
and memory bytes passes or stops at the same tests. -/

namespace Sys2Proof.Machine

/-- `s` with other vector registers, other data in the x87 registers and other memory bytes. -/
def State.withData (s : State) (v : Vector VReg 32) (fpr : Vector FReg 8) (mem : List Host.Cell) : State :=
  { s with v := v, fpr := fpr, mem := mem }

/-- Two reads of an operand give a value both, or stop for the same reason. -/
def SameStop {α : Type} : Except Stop α → Except Stop α → Prop
  | .error a, .error b => a = b
  | .ok _, .ok _ => True
  | _, _ => False

theorem SameStop.cases {α : Type} {a b : Except Stop α} (h : SameStop a b) :
    (∃ t, a = .error t ∧ b = .error t) ∨ ∃ y z, a = .ok y ∧ b = .ok z := by
  cases a with
  | error t =>
    cases b with
    | error u => exact .inl ⟨t, rfl, congrArg _ (Eq.symm h)⟩
    | ok z => exact h.elim
  | ok y =>
    cases b with
    | error u => exact h.elim
    | ok z => exact .inr ⟨y, z, rfl, rfl⟩

/-- A test with the same answer at both states, before parts that are related. -/
theorem rel_ite {α : Type} (R : α → α → Prop) {c c' : Prop} [Decidable c] [Decidable c'] {a a' b b' : α} (hc : c ↔ c')
    (ha : R a a') (hb : R b b') : R (if c then a else b) (if c' then a' else b') := by
  by_cases h : c
  · rwa [if_pos h, if_pos (hc.mp h)]
  · rwa [if_neg h, if_neg (mt hc.mpr h)]

section
variable (s : State) (v : Vector VReg 32) (fpr : Vector FReg 8) (mem : List Host.Cell)

/-! ### The tests read control state, general registers and parameters -/

@[simp] theorem mode_withData : (s.withData v fpr mem).mode = s.mode := rfl
@[simp] theorem mask_withData (i : BitVec 3) : (s.withData v fpr mem).mask i = s.mask i := rfl
@[simp] theorem segmentStop_withData (c : AddrCtx) (ov : Option SegName) (a : MemAddr) (n : Nat) :
    (s.withData v fpr mem).segmentStop c ov a n = s.segmentStop c ov a n := rfl
@[simp] theorem place_withData (c : AddrCtx) (ov : Option SegName) (a : MemAddr) (n : Nat) :
    (s.withData v fpr mem).place c ov a n = s.place c ov a n := rfl
@[simp] theorem byteStop_withData (m : Mode) (p : Place) (al : Bool) (sel : Nat → Bool) :
    (s.withData v fpr mem).byteStop m p al sel = s.byteStop m p al sel := rfl

/-! ### Reading an operand -/

theorem readOperand_withData (m : Mode) (p : Place) (N : Nat) :
    SameStop (s.readOperand m p N) ((s.withData v fpr mem).readOperand m p N) :=
  rel_ite SameStop Iff.rfl rfl trivial

theorem loadUnaligned_withData (m : Mode) (p : Place) (N : Nat) :
    SameStop (s.loadUnaligned m p N) ((s.withData v fpr mem).loadUnaligned m p N) :=
  rel_ite SameStop Iff.rfl rfl (readOperand_withData ..)

theorem sourceMm_withData (m : Mode) (p : Prefixes) (x : Option Rex) (len : Nat) (rm : RegMem) :
    SameStop (s.sourceMm m p x len rm) ((s.withData v fpr mem).sourceMm m p x len rm) := by
  cases rm with
  | reg r => trivial
  | mem a =>
    simp only [State.sourceMm, State.loadMm, segmentStop_withData, place_withData, byteStop_withData]
    split
    · rfl
    · split
      · rfl
      · exact rel_ite SameStop Iff.rfl rfl (readOperand_withData ..)

theorem sourceSse_withData (m : Mode) (p : Prefixes) (x : Option Rex) (len : Nat) (rm : RegMem) :
    SameStop (s.sourceSse m p x len rm) ((s.withData v fpr mem).sourceSse m p x len rm) := by
  cases rm with
  | reg r => trivial
  | mem a =>
    simp only [State.sourceSse, State.loadSse, segmentStop_withData, place_withData, byteStop_withData]
    split
    · rfl
    · split
      · rfl
      · exact readOperand_withData ..

theorem sourceVex_withData (m : Mode) (p : Prefixes) (vx : Vex3) (len N : Nat) (rm : RegMem) :
    SameStop (s.sourceVex m p vx len N rm) ((s.withData v fpr mem).sourceVex m p vx len N rm) := by
  cases rm with
  | reg r => trivial
  | mem a =>
    simp only [State.sourceVex, State.loadVex, segmentStop_withData, place_withData, byteStop_withData]
    refine rel_ite SameStop Iff.rfl rfl ?_
    split
    · rfl
    · split
      · rfl
      · exact loadUnaligned_withData ..

theorem sourceEvex_withData (m : Mode) (p : Prefixes) (ev : Evex) (len w N : Nat) (rm : RegMem) :
    SameStop (s.sourceEvex m p ev len w N rm) ((s.withData v fpr mem).sourceEvex m p ev len w N rm) := by
  cases rm with
  | reg r => trivial
  | mem a =>
    simp only [State.sourceEvex, State.loadEvex, segmentStop_withData, place_withData, byteStop_withData, mask_withData]
    refine rel_ite SameStop Iff.rfl rfl ?_
    split
    · rfl
    · split
      · rfl
      · split
        · rfl
        · exact loadUnaligned_withData ..

/-! ### The runs -/

/-- The same exception has the same code and, but for #PF which writes it, leaves the same CR2. -/
theorem raise_withData (e : Exc) : SameKind (raise e s) (raise e (s.withData v fpr mem)) := by
  cases e <;> exact ⟨rfl, rfl, rfl⟩

theorem outcome_withData (t : Stop) : SameKind (t.outcome s) (t.outcome (s.withData v fpr mem)) := by
  cases t with
  | exc e => exact raise_withData ..
  | refuse r => rfl

theorem runMmx_withData (w : Nat) (p : Prefixes) (x : Option Rex) (reg : BitVec 3) (rm : RegMem) (len : Nat) :
    SameKind (runMmx w p x reg rm len s) (runMmx w p x reg rm len (s.withData v fpr mem)) := by
  simp only [runMmx, mode_withData]
  split
  · rfl
  · next m hm =>
    refine rel_ite SameKind Iff.rfl (raise_withData ..) ?_
    refine rel_ite SameKind Iff.rfl (raise_withData ..) ?_
    refine rel_ite SameKind Iff.rfl ?_ ?_
    · exact rel_ite SameKind Iff.rfl (raise_withData ..) rfl
    · rcases (sourceMm_withData s v fpr mem m p x len rm).cases with ⟨t, h1, h2⟩ | ⟨y, z, h1, h2⟩
      · simpa only [h1, h2] using outcome_withData s v fpr mem t
      · simp only [h1, h2, SameKind]

theorem runSse_withData (w : Nat) (p : Prefixes) (x : Option Rex) (reg : BitVec 3) (rm : RegMem) (len : Nat) :
    SameKind (runSse w p x reg rm len s) (runSse w p x reg rm len (s.withData v fpr mem)) := by
  simp only [runSse, mode_withData]
  split
  · rfl
  · next m hm =>
    refine rel_ite SameKind Iff.rfl (raise_withData ..) ?_
    refine rel_ite SameKind Iff.rfl (raise_withData ..) ?_
    rcases (sourceSse_withData s v fpr mem m p x len rm).cases with ⟨t, h1, h2⟩ | ⟨y, z, h1, h2⟩
    · simpa only [h1, h2] using outcome_withData s v fpr mem t
    · simp only [h1, h2, SameKind]

theorem runVex_withData (w N : Nat) (p : Prefixes) (vx : Vex3) (reg : BitVec 3) (rm : RegMem) (len : Nat) :
    SameKind (runVex w N p vx reg rm len s) (runVex w N p vx reg rm len (s.withData v fpr mem)) := by
  simp only [runVex, mode_withData]
  split
  · rfl
  · next m hm =>
    refine rel_ite SameKind Iff.rfl (raise_withData ..) ?_
    refine rel_ite SameKind Iff.rfl (raise_withData ..) ?_
    rcases (sourceVex_withData s v fpr mem m p vx len N rm).cases with ⟨t, h1, h2⟩ | ⟨y, z, h1, h2⟩
    · simpa only [h1, h2] using outcome_withData s v fpr mem t
    · simp only [h1, h2, SameKind]

theorem runEvex_withData (w N : Nat) (p : Prefixes) (ev : Evex) (reg : BitVec 3) (rm : RegMem) (len : Nat) :
    SameKind (runEvex w N p ev reg rm len s) (runEvex w N p ev reg rm len (s.withData v fpr mem)) := by
  simp only [runEvex, mode_withData]
  split
  · rfl
  · next m hm =>
    refine rel_ite SameKind Iff.rfl (raise_withData ..) ?_
    refine rel_ite SameKind Iff.rfl (raise_withData ..) ?_
    rcases (sourceEvex_withData s v fpr mem m p ev len w N rm).cases with ⟨t, h1, h2⟩ | ⟨y, z, h1, h2⟩
    · simpa only [h1, h2] using outcome_withData s v fpr mem t
    · simp only [h1, h2, SameKind]

end

/-- Settles O21: each run makes the same tests at both states, and reading the operand stops at both or at neither. -/
theorem completion_independent_of_data : Obligations.Completion_independent_of_data := by
  intro i s v fpr mem
  cases i with
  | paddusbMm | padduswMm => exact runMmx_withData ..
  | paddusbXmm | padduswXmm => exact runSse_withData ..
  | vpaddusbXmmVex3 | vpadduswXmmVex3 | vpaddusbYmmVex3 | vpadduswYmmVex3
  | vpaddusbXmmVex2 | vpadduswXmmVex2 | vpaddusbYmmVex2 | vpadduswYmmVex2 => exact runVex_withData ..
  | vpaddusbXmmEvex | vpaddusbYmmEvex | vpaddusbZmmEvex
  | vpadduswXmmEvex | vpadduswYmmEvex | vpadduswZmmEvex => exact runEvex_withData ..

end Sys2Proof.Machine
end

section
/-! PROOFS. The mode, register numbers, linear addresses and the state after reset. -/

namespace Sys2Proof.Machine

/-! ### The mode (R34) -/

theorem mode_eq_m64_iff (s : State) : s.mode = some .m64 ↔ s.lma = true ∧ s.segs.cs.long = true := by
  unfold State.mode
  cases s.lma with
  | true => cases s.segs.cs.long <;> simp
  | false => simp

theorem mode_eq_m32_iff (s : State) :
    s.mode = some .m32 ↔
      (s.lma = true ∧ s.segs.cs.long = false ∧ s.segs.cs.big = true) ∨
      (s.lma = false ∧ s.cr0PE = true ∧ s.flagVM = false ∧ s.segs.cs.big = true) := by
  unfold State.mode
  cases s.lma with
  | true => cases s.segs.cs.long <;> simp
  | false => simp [and_assoc]

/-- Settles O13: the two modes, each by the bits its row of R34 names. -/
theorem mode_by_control_bits : Obligations.Mode_by_control_bits :=
  fun s => ⟨mode_eq_m64_iff s, mode_eq_m32_iff s⟩

/-! ### Register numbers (R96 to R98) -/

/-- Bits in front of a number count from its width on. -/
theorem toNat_append_eq {v w : Nat} (x : BitVec v) (y : BitVec w) : (x ++ y).toNat = 2 ^ w * x.toNat + y.toNat := by
  rw [BitVec.toNat_append, ← Nat.shiftLeft_add_eq_or_of_lt y.isLt, Nat.shiftLeft_eq, Nat.mul_comm]

theorem regNum4_toNat (m : Mode) (e : Bool) (n : BitVec 3) :
    (regNum4 m e n).toNat = 8 * (m.ext e).toNat + n.toNat := by
  rw [regNum4, toNat_append_eq, BitVec.toNat_ofBool]
  omega

theorem regNum5_toNat (m : Mode) (h e : Bool) (n : BitVec 3) :
    (regNum5 m h e n).toNat = 16 * (m.ext h).toNat + 8 * (m.ext e).toNat + n.toNat := by
  rw [regNum5, toNat_append_eq, toNat_append_eq, BitVec.toNat_ofBool, BitVec.toNat_ofBool]
  omega

theorem vvvvNum_m64_toNat (h : Bool) (vvvv : BitVec 4) : (vvvvNum .m64 h vvvv).toNat = 16 * h.toNat + vvvv.toNat := by
  rw [vvvvNum, toNat_append_eq, BitVec.toNat_ofBool]
  omega

theorem vvvvNum_m32_toNat (h : Bool) (vvvv : BitVec 4) : (vvvvNum .m32 h vvvv).toNat = vvvv.toNat % 8 := by
  simp only [vvvvNum, BitVec.toNat_setWidth]
  omega

/-- Settles O53: each number is its fields with extension bits in front, which count in 64-bit mode only. -/
theorem register_numbers : Obligations.Register_numbers := by
  intro h e n vv
  refine ⟨regNum5_toNat .m64 h e n, ?_, regNum4_toNat .m64 e n, ?_, vvvvNum_m64_toNat h vv, vvvvNum_m32_toNat h vv⟩
  · simpa [Mode.ext] using regNum5_toNat .m32 h e n
  · simpa [Mode.ext] using regNum4_toNat .m32 e n

/-! ### Linear addresses (R54 to R56) -/

theorem operandSegment_none_eq_ss_iff (stack : Bool) : operandSegment none stack = .ss ↔ stack = true := by
  cases stack <;> decide

theorem operandSegment_none_eq_ds_iff (stack : Bool) : operandSegment none stack = .ds ↔ stack = false := by
  cases stack <;> decide

theorem linAddr_m64 (s : State) (n : SegName) (ea : Word64) : s.linAddr .m64 n ea = s.segBase n + ea := rfl

theorem segBase_of_not_hasBase {n : SegName} (h : n.hasBase = false) (s : State) : s.segBase n = 0#64 := by
  simp [State.segBase, h]

/-- A value shifted right with its sign is all zeros or all ones exactly where its bits from there up are equal. -/
theorem sshiftRight_eq_zero_or_allOnes_iff (a : Word64) {n : Nat} (hn : n ≤ 63) :
    (a.sshiftRight n = 0#64 ∨ a.sshiftRight n = BitVec.allOnes 64) ↔
      ∀ j, n ≤ j → j < 64 → a.getLsbD j = a.getLsbD 63 := by
  have hbit : ∀ i < 64, (a.sshiftRight n).getLsbD i = if n + i < 64 then a.getLsbD (n + i) else a.getLsbD 63 := by
    intro i hi
    simp [BitVec.getLsbD_sshiftRight, BitVec.msb_eq_getLsbD_last, Nat.not_le.mpr hi]
  have hhigh : ∀ j, n ≤ j → j < 64 → (a.sshiftRight n).getLsbD (j - n) = a.getLsbD j := by
    intro j hnj hj
    rw [hbit _ (by omega), Nat.add_sub_cancel' hnj, if_pos hj]
  constructor
  · rintro (h | h) j hnj hj
    · rw [← hhigh j hnj hj, ← hhigh 63 hn (by decide), h]
      simp
    · rw [← hhigh j hnj hj, ← hhigh 63 hn (by decide), h, BitVec.getLsbD_allOnes, BitVec.getLsbD_allOnes,
        decide_eq_true (by omega), decide_eq_true (by omega)]
  · intro h
    have hall : ∀ i < 64, (a.sshiftRight n).getLsbD i = a.getLsbD 63 := by
      intro i hi
      rw [hbit i hi]
      split
      · next hlt => exact h _ (Nat.le_add_right ..) hlt
      · rfl
    cases h63 : a.getLsbD 63 with
    | false => exact .inl (BitVec.eq_of_getLsbD_eq fun i hi => by rw [hall i hi, h63, BitVec.getLsbD_zero])
    | true => exact .inr (BitVec.eq_of_getLsbD_eq fun i hi => by
        rw [hall i hi, h63, BitVec.getLsbD_allOnes, decide_eq_true hi])

/-- Canonical addresses (R56). -/
theorem canonical_m64_iff (la : LaBits) (a : Word64) :
    canonical .m64 la a = true ↔ ∀ j, la.toNat - 1 ≤ j → j < 64 → a.getLsbD j = a.getLsbD 63 := by
  rw [← sshiftRight_eq_zero_or_allOnes_iff a (by cases la <;> decide)]
  simp only [canonical, Bool.or_eq_true, beq_iff_eq]

/-- Settles O57: segment, base, wrap and canonical test, each by its own lemma. -/
theorem linear_address : Obligations.Linear_address := by
  intro s ea
  refine ⟨fun c ov a n => ⟨fun g hg => ?_, fun hov => ?_, rfl⟩, fun n hn => ?_, rfl, rfl, fun n => wrap_m32_toNat _,
    canonical_m64_iff⟩
  · subst hg
    rfl
  · subst hov
    exact ⟨operandSegment_none_eq_ss_iff _, operandSegment_none_eq_ds_iff _⟩
  · have hbase : ∀ n ∈ [SegName.cs, SegName.ss, SegName.ds, SegName.es], n.hasBase = false := by decide
    rw [linAddr_m64, segBase_of_not_hasBase (hbase n hn), BitVec.zero_add]

/-! ### The state after reset (R39) -/

@[simp] theorem reset_vreg (i : BitVec 5) : State.reset.vreg i = 0#512 := by
  simp [State.vreg, State.reset, Vector.get_eq_getElem]

@[simp] theorem reset_mask (i : BitVec 3) : State.reset.mask i = 0#64 := by
  simp [State.mask, State.reset, Vector.get_eq_getElem]

@[simp] theorem reset_fpr (i : BitVec 3) : State.reset.fpr.get i.toFin = 0#80 := by
  simp [State.reset, Vector.get_eq_getElem]

/-- Of the general registers only RDX is not 0 (R39). -/
theorem reset_gpr {i : BitVec 4} (h : i ≠ 2#4) : State.reset.gpr i = 0#64 := by
  have hne : 2 ≠ i.toNat := fun he => h (BitVec.eq_of_toNat_eq he.symm)
  simp [State.gpr, State.reset, Vector.get_eq_getElem, hne]

/-- The reset state is in neither mode of the spec: protection is off (R34, R39). -/
theorem reset_mode : State.reset.mode = none := rfl

/-- Settles O16: after reset the vector registers and memory are empty, XCR0 is 1, and the mode is none. -/
theorem reset_meets_invariant : Obligations.Reset_meets_invariant := by
  refine ⟨reset_mem_wf, by decide, fun _ => ⟨rfl, rfl⟩, fun i => ?_, fun i _ => reset_vreg i, by decide, by decide,
    fun h => absurd reset_mode h, fun h => absurd (reset_mode.symm.trans h) nofun⟩
  rw [reset_vreg, BitVec.zero_ushiftRight]

/-- Settles O58: the register files by their lemmas, every other register by its value. -/
theorem reset_values : Obligations.Reset_values := by
  refine ⟨reset_vreg, reset_mask, fun i => ⟨?_, reset_fpr i⟩, rfl, rfl, rfl, rfl, fun i => reset_gpr, by decide, rfl, rfl,
    rfl, rfl, rfl, by decide, rfl, rfl, rfl, rfl, rfl, rfl, rfl⟩
  rw [State.mm, reset_fpr, BitVec.setWidth_zero]

end Sys2Proof.Machine
end

section
/-! PROOFS. The checks of a memory operand (20_memory.md R61): the first one that fails is what the instruction of any row does
(60_exceptions.md R168). -/

namespace Sys2Proof.Machine

/-! ### What an enabled instruction has behind it (60_exceptions.md R156 to R161) -/

/-- A field of bits is all ones exactly where each of its bits is 1. -/
theorem extractLsb'_eq_allOnes_iff {w : Nat} (x : BitVec w) (lo n : Nat) :
    x.extractLsb' lo n = BitVec.allOnes n ↔ ∀ j < n, x.getLsbD (lo + j) = true := by
  constructor
  · intro h j hj
    simpa [hj] using congrArg (BitVec.getLsbD · j) h
  · intro h
    exact BitVec.eq_of_getLsbD_eq fun j hj => by simp [hj, h j hj]

theorem xcr0Avx_of_bits {s : State} (h1 : s.xcr0.getLsbD 1 = true) (h2 : s.xcr0.getLsbD 2 = true) : s.xcr0Avx = true :=
  beq_iff_eq.mpr <| (extractLsb'_eq_allOnes_iff s.xcr0 1 2).mpr fun
    | 0, _ => h1
    | 1, _ => h2

theorem xcr0Avx512_of_bits {s : State} (h5 : s.xcr0.getLsbD 5 = true) (h6 : s.xcr0.getLsbD 6 = true)
    (h7 : s.xcr0.getLsbD 7 = true) : s.xcr0Avx512 = true :=
  beq_iff_eq.mpr <| (extractLsb'_eq_allOnes_iff s.xcr0 5 3).mpr fun
    | 0, _ => h5
    | 1, _ => h6
    | 2, _ => h7

theorem State.MmxEnabled.passes {s : State} (h : s.MmxEnabled) :
    s.udMmx = false ∧ s.cr0TS = false ∧ s.x87Pending = false := by
  obtain ⟨hfeat, hem, hts, hes⟩ := h
  exact ⟨by rw [State.udMmx, State.cr0EM, hem, Features.has, hfeat]; rfl, hts, hes⟩

theorem State.SseEnabled.passes {s : State} (h : s.SseEnabled) : s.udSse = false ∧ s.cr0TS = false := by
  obtain ⟨hfeat, hem, hts, hos⟩ := h
  exact ⟨by rw [State.udSse, State.cr0EM, hem, State.osfxsr, hos, Features.has, hfeat]; rfl, hts⟩

theorem State.VexEnabled.passes {s : State} {ymm : Bool} (h : s.VexEnabled ymm) :
    s.udVex ymm = false ∧ s.cr0TS = false := by
  obtain ⟨hfeat, hts, hos, h1, h2⟩ := h
  exact ⟨by simp [State.udVex, State.osxsave, Features.has, hfeat, hos, xcr0Avx_of_bits h1 h2], hts⟩

theorem State.EvexEnabled.passes {s : State} {zmm z : Bool} {aaa : BitVec 3} (h : s.EvexEnabled zmm)
    (hz : (z && aaa == 0#3) = false) : s.udEvex zmm z aaa = false ∧ s.cr0TS = false := by
  obtain ⟨hbw, hvl, hts, hos, h1, h2, h5, h6, h7⟩ := h
  have hhas : s.feat.has (.evex zmm) = true := by
    simpa only [Features.has, Bool.and_eq_true, Bool.or_eq_true] using And.intro hbw hvl
  refine ⟨?_, hts⟩
  rw [State.udEvex, hz, hhas, xcr0Avx_of_bits h1 h2, xcr0Avx512_of_bits h5 h6 h7, State.osxsave, hos]
  rfl

/-! ### The tests of the operand's bytes -/

/-- A non-canonical byte is reported before anything else of the operand (R56, R61 (1), R81, D15). -/
theorem byteStop_of_not_canonical {s : State} {m : Mode} {p : Place} {sel : Nat → Bool} (al : Bool)
    (h : ∃ k < p.size, sel k = true ∧ canonical m s.platform.laBits (linByte m p.lin k) = false) :
    s.byteStop m p al sel =
      if p.ambiguous then some (.refuse .stackOrProtection)
      else if p.seg = .ss then some (.exc .ss) else some (.exc .gp) := by
  obtain ⟨k, hk, hsel, hc⟩ := h
  exact if_pos (List.any_eq_true.mpr ⟨k, List.mem_range.mpr hk, by simp [hsel, hc]⟩)

/-- The operand's address is off a 16-byte boundary exactly where its low four bits are not 0 (R57). -/
theorem extractLsb'_low4_eq_zero_iff (a : Word64) : a.extractLsb' 0 4 = 0#4 ↔ a.toNat % 16 = 0 := by
  rw [← BitVec.toNat_inj, BitVec.extractLsb'_toNat]
  rfl

/-- Past the canonical test a misaligned operand of rows 2 and 4 is #GP(0), translated or not (R57, R61 (2), D13). -/
theorem byteStop_of_misaligned {s : State} {m : Mode} {p : Place} {sel : Nat → Bool}
    (hc : ∀ k < p.size, canonical m s.platform.laBits (linByte m p.lin k) = true) (ha : p.lin.toNat % 16 ≠ 0) :
    s.byteStop m p true sel = some (.exc .gp) := by
  have hcanon : ((List.range p.size).any fun k =>
      sel k && !canonical m s.platform.laBits (linByte m p.lin k)) = false :=
    List.any_eq_false.mpr fun k hk => by simp [hc k (List.mem_range.mp hk)]
  have hlow : p.lin.extractLsb' 0 4 ≠ 0#4 := mt (extractLsb'_low4_eq_zero_iff _).mp ha
  simp [State.byteStop, hcanon, hlow]

/-- Past the canonical and the alignment test, a byte that does not translate makes a page fault of some such byte (R60,
R61 (3)). -/
theorem byteStop_of_fault {s : State} {m : Mode} {p : Place} {al : Bool} {sel : Nat → Bool}
    (hc : ∀ k < p.size, sel k = true → canonical m s.platform.laBits (linByte m p.lin k) = true)
    (ha : al = true → p.lin.toNat % 16 = 0) (hf : ∃ k < p.size, sel k = true ∧ ∃ e, s.FaultsAt m p k e) :
    ∃ k < p.size, sel k = true ∧ ∃ e, s.FaultsAt m p k e ∧
      s.byteStop m p al sel = some (.exc (.pf e (linByte m p.lin k))) := by
  cases hstop : s.byteStop m p al sel with
  | none =>
    obtain ⟨k, hk, hsel, e, he⟩ := hf
    obtain ⟨b, hb⟩ := ((byteStop_eq_none_iff s m p al sel).mp hstop).2.2 k hk hsel
    exact absurd (he.symm.trans hb) nofun
  | some t =>
    obtain ⟨k, hk, hsel, e, he, rfl⟩ :=
      byteStop_pageFault s m p al sel t hc (fun h => (extractLsb'_low4_eq_zero_iff _).mpr (ha h)) hstop
    exact ⟨k, hk, hsel, e, he, rfl⟩

/-- Readable bytes pass every test that is asked of bytes alone (R56, R60). -/
theorem byteStop_of_readable {s : State} {m : Mode} {p : Place} (h : s.Readable m p) (sel : Nat → Bool) :
    s.byteStop m p false sel = none := by
  refine (byteStop_eq_none_iff ..).mpr ⟨fun k hk _ => (h k hk).1, nofun, fun k hk _ => ?_⟩
  obtain ⟨-, b, hb, -⟩ := h k hk
  exact ⟨b, hb⟩

/-! ### The load of each class stops where its bytes do -/

/-- The segment test of 32-bit mode passes (R55, D7). -/
theorem segmentStop_of_segmentOk {s : State} {c : AddrCtx} {ov : Option SegName} {a : MemAddr} {n : Nat}
    (h : s.SegmentOk c ov a n) : s.segmentStop c ov a n = none := by
  unfold State.segmentStop
  split
  · rfl
  · next hm =>
    obtain ⟨hflat, hend⟩ := h hm
    rw [if_neg (by simp [hflat]), if_neg (by omega)]

section
variable {s : State} {c : AddrCtx} {ov : Option SegName} {a : MemAddr} {t : Stop}

/-- The size of the operand stands as `Instr.vectorBits` over 8, as for the other classes. -/
theorem loadMm_of_byteStop (hseg : s.SegmentOk c ov a (64 / 8))
    (h : s.byteStop c.mode (s.place c ov a (64 / 8)) false allBytes = some t) : s.loadMm c ov a = .error t := by
  simp only [Nat.reduceDiv] at hseg h
  simp only [State.loadMm, segmentStop_of_segmentOk hseg, h]

/-- With its bytes readable, an operand of rows 1 and 3 that is not 8-byte aligned is #AC under alignment checking (R58). -/
theorem loadMm_of_misaligned (hseg : s.SegmentOk c ov a 8) (hread : s.Readable c.mode (s.place c ov a 8))
    (hac : s.alignmentChecking = true) (ha : (s.place c ov a 8).lin.toNat % 8 ≠ 0) :
    s.loadMm c ov a = .error (.exc .ac) := by
  have hal : (s.place c ov a 8).aligned = false := beq_eq_false_iff_ne.mpr ha
  simp only [State.loadMm, segmentStop_of_segmentOk hseg, byteStop_of_readable hread, hac, hal]
  rfl

/-- The size of the operand stands as `Instr.vectorBits` over 8, as for the other classes. -/
theorem loadSse_of_byteStop (hseg : s.SegmentOk c ov a (128 / 8))
    (h : s.byteStop c.mode (s.place c ov a (128 / 8)) true allBytes = some t) : s.loadSse c ov a = .error t := by
  simp only [Nat.reduceDiv] at hseg h
  simp only [State.loadSse, segmentStop_of_segmentOk hseg, h]

theorem loadVex_of_byteStop {N : Nat} (h16 : c.mode.addr16 c.a67 = false) (hseg : s.SegmentOk c ov a (N / 8))
    (h : s.byteStop c.mode (s.place c ov a (N / 8)) false allBytes = some t) : s.loadVex c ov a N = .error t := by
  simp only [State.loadVex, h16, segmentStop_of_segmentOk hseg, h]
  rfl

theorem loadEvex_of_byteStop {w N : Nat} {aaa : BitVec 3} (h16 : c.mode.addr16 c.a67 = false)
    (hseg : s.SegmentOk c ov a (N / 8))
    (h : s.byteStop c.mode (s.place c ov a (N / 8)) false (byteActive w aaa (s.mask aaa)) = some t) :
    s.loadEvex c ov a w N aaa = .error t := by
  simp only [State.loadEvex, h16, segmentStop_of_segmentOk hseg, h]
  rfl

end

/-! ### An enabled run stops where its load does -/

section
variable {s : State} {m : Mode} {p : Prefixes} {a : MemAddr} {len : Nat} {t : Stop}

theorem runMmx_of_load_error {x : Option Rex} (hm : s.mode = some m) (he : s.MmxEnabled)
    (h : s.loadMm ⟨m, p.a67, (rexFields x).x, (rexFields x).b, 1, len⟩ p.seg a = .error t) (w : Nat) (reg : BitVec 3) :
    runMmx w p x reg (.mem a) len s = t.outcome s := by
  obtain ⟨hud, hnm, hmf⟩ := he.passes
  simp [runMmx, State.sourceMm, hm, hud, hnm, hmf, h]

theorem runSse_of_load_error {x : Option Rex} (hm : s.mode = some m) (he : s.SseEnabled)
    (h : s.loadSse ⟨m, p.a67, (rexFields x).x, (rexFields x).b, 1, len⟩ p.seg a = .error t) (w : Nat) (reg : BitVec 3) :
    runSse w p x reg (.mem a) len s = t.outcome s := by
  obtain ⟨hud, hnm⟩ := he.passes
  simp [runSse, State.sourceSse, hm, hud, hnm, h]

theorem runVex_of_load_error {v : Vex3} {N : Nat} (hm : s.mode = some m) (he : s.VexEnabled (N == 256))
    (h : s.loadVex ⟨m, p.a67, v.x, v.b, 1, len⟩ p.seg a N = .error t) (w : Nat) (reg : BitVec 3) :
    runVex w N p v reg (.mem a) len s = t.outcome s := by
  obtain ⟨hud, hnm⟩ := he.passes
  simp [runVex, State.sourceVex, hm, hud, hnm, h]

theorem runEvex_of_load_error {v : Evex} {w N : Nat} (hm : s.mode = some m) (he : s.EvexEnabled (N == 512))
    (hz : (v.z && v.aaa == 0#3) = false)
    (h : s.loadEvex ⟨m, p.a67, v.x, v.b, N / 8, len⟩ p.seg a w N v.aaa = .error t) (reg : BitVec 3) :
    runEvex w N p v reg (.mem a) len s = t.outcome s := by
  obtain ⟨hud, hnm⟩ := he.passes hz
  simp [runEvex, State.sourceEvex, hm, hud, hnm, h]

end

/-! ### Any row -/

/-- The operand bytes whose checks count: those of active lanes (R131, R140). -/
def State.activeBytes (s : State) (i : Instr) : Nat → Bool := byteActive i.laneBits i.opmask (s.mask i.opmask)

theorem activeBytes_eq_true_iff (s : State) (i : Instr) (k : Nat) : s.activeBytes i k = true ↔ s.ActiveByte i k := by
  simp [State.activeBytes, byteActive, laneActive, State.ActiveByte]

/-- Rows 1 to 8 have no writemask. -/
theorem opmask_of_not_evex {i : Instr} (h : i.formClass ≠ .evex) : i.opmask = 0#3 := by
  cases i with
  | vpaddusbXmmEvex | vpaddusbYmmEvex | vpaddusbZmmEvex
  | vpadduswXmmEvex | vpadduswYmmEvex | vpadduswZmmEvex => exact absurd rfl h
  | _ => rfl

theorem activeBytes_of_not_evex {i : Instr} (h : i.formClass ≠ .evex) (s : State) : s.activeBytes i = allBytes :=
  funext fun k => (activeBytes_eq_true_iff s i k).mpr (.inl (opmask_of_not_evex h))

/-- What the checks of R61 (1) to (3) make of the memory operand `a` of an instruction of any row; only rows 2 and 4 ask for
a 16-byte boundary. -/
def State.operandStop (s : State) (m : Mode) (i : Instr) (a : MemAddr) : Option Stop :=
  s.byteStop m (s.operandPlace m i a) (i.formClass == .sse) (s.activeBytes i)

/-- An enabled instruction whose operand may be addressed does what the first failing check of the operand says. -/
theorem exec_of_operandStop {i : Instr} {a : MemAddr} {s : State} {m : Mode} {t : Stop} (hrm : i.regMem = .mem a)
    (hm : s.mode = some m) (he : s.Enabled i) (haddr : s.Addressable m i a) (h : s.operandStop m i a = some t) :
    exec i s = t.outcome s := by
  obtain ⟨h16, hseg⟩ := haddr
  cases i with
  | paddusbMm | padduswMm =>
    obtain rfl := hrm
    apply runMmx_of_load_error hm he
    exact loadMm_of_byteStop hseg h
  | paddusbXmm | padduswXmm =>
    obtain rfl := hrm
    apply runSse_of_load_error hm he
    exact loadSse_of_byteStop hseg h
  | vpaddusbXmmVex3 | vpadduswXmmVex3 | vpaddusbYmmVex3 | vpadduswYmmVex3
  | vpaddusbXmmVex2 | vpadduswXmmVex2 | vpaddusbYmmVex2 | vpadduswYmmVex2 =>
    obtain rfl := hrm
    apply runVex_of_load_error hm he
    exact loadVex_of_byteStop (h16 (.inl rfl)) hseg h
  | vpaddusbXmmEvex | vpaddusbYmmEvex | vpaddusbZmmEvex
  | vpadduswXmmEvex | vpadduswYmmEvex | vpadduswZmmEvex =>
    obtain rfl := hrm
    apply runEvex_of_load_error hm he.1 he.2
    exact loadEvex_of_byteStop (h16 (.inr rfl)) hseg h

/-! ### The statements -/

/-- Settles O35: past the canonical test the alignment test is the next, and rows 2 and 4 do what it says. -/
theorem sse_misaligned_operand_faults : Obligations.Sse_misaligned_operand_faults := by
  intro i p x reg a s m hi hm he c q hseg hc ha
  have hload : s.loadSse c p.seg a = .error (.exc .gp) := loadSse_of_byteStop hseg (byteStop_of_misaligned hc ha)
  rcases hi with rfl | rfl <;> exact runSse_of_load_error hm he hload ..

theorem alignmentChecking_of_bits {s : State} (ham : s.cr0.getLsbD 18 = true) (hac : s.rflags.getLsbD 18 = true)
    (hcpl : s.segs.cs.selector.extractLsb' 0 2 = 3#2) : s.alignmentChecking = true := by
  simp [State.alignmentChecking, State.cr0AM, State.flagAC, State.cpl, ham, hac, hcpl]

/-- Settles O36: the bytes pass their tests, and the alignment check of rows 1 and 3 comes after them. -/
theorem mmx_alignment_check : Obligations.Mmx_alignment_check := by
  intro i p x reg a s m hi hm he c q hseg hread ha ham hac hcpl
  have hload : s.loadMm c p.seg a = .error (.exc .ac) :=
    loadMm_of_misaligned hseg hread (alignmentChecking_of_bits ham hac hcpl) ha
  rcases hi with rfl | rfl <;> exact runMmx_of_load_error hm he hload ..

/-- 64-bit mode refuses no operand for its segment, its end or its address size (R54, R80). -/
theorem addressable_m64 (s : State) (i : Instr) (a : MemAddr) : s.Addressable .m64 i a :=
  ⟨fun _ => rfl, nofun⟩

/-- The model's test for the overrides D15 speaks of: one of the four that are ignored, which says SS where the base register
does not, or not SS where it does (R81, notes/assumptions/18.md). -/
theorem overrideAmbiguous_m64_iff (ov : Option SegName) (stack : Bool) :
    overrideAmbiguous .m64 ov stack = true ↔
      ∃ n ∈ [SegName.cs, SegName.ss, SegName.ds, SegName.es], ov = some n ∧ (n = .ss ↔ stack = false) := by
  cases ov with
  | none => simp [overrideAmbiguous]
  | some n =>
    have hn : overrideAmbiguous .m64 (some n) stack = true ↔
        n ∈ [SegName.cs, SegName.ss, SegName.ds, SegName.es] ∧ (n = .ss ↔ stack = false) := by
      cases n <;> cases stack <;> decide
    exact hn.trans ⟨fun ⟨hmem, hss⟩ => ⟨n, hmem, rfl, hss⟩, fun ⟨_, hmem, hov, hss⟩ => Option.some.inj hov ▸ ⟨hmem, hss⟩⟩

/-- Settles O38: the canonical test is the operand's first, in every row, and an override is ambiguous to it exactly where D15
names it. -/
theorem non_canonical_operand_faults : Obligations.Non_canonical_operand_faults := by
  intro i a s hrm hm he q stack ignored ⟨k, hk, hactive, hc⟩
  have hstop : s.operandStop .m64 i a =
      if q.ambiguous then some (.refuse .stackOrProtection)
      else if q.seg = .ss then some (.exc .ss) else some (.exc .gp) :=
    byteStop_of_not_canonical _ ⟨k, hk, (activeBytes_eq_true_iff s i k).mpr hactive, hc⟩
  have hexec : ∀ {t}, s.operandStop .m64 i a = some t → exec i s = t.outcome s :=
    exec_of_operandStop hrm hm he (addressable_m64 s i a)
  have hamb : q.ambiguous = true ↔ ignored := overrideAmbiguous_m64_iff ..
  refine ⟨fun hig => ?_, fun hig => ?_⟩
  · exact hexec (hstop.trans (if_pos (hamb.mpr hig)))
  · have hclear := hstop.trans (if_neg (mt hamb.mp hig))
    by_cases hss : operandSegment i.prefixes.seg stack = .ss
    · rw [if_pos hss]
      exact hexec (hclear.trans (if_pos hss))
    · rw [if_neg hss]
      exact hexec (hclear.trans (if_neg hss))

/-- Settles O39: past the canonical and the alignment test, translation is the next, and rows 1 to 8 check every byte. -/
theorem page_fault_reports_a_faulting_byte : Obligations.Page_fault_reports_a_faulting_byte := by
  intro i a s m hcls hrm hm he haddr q hc ha ⟨k, hk, hfault⟩
  have hall : ∀ j, s.activeBytes i j = true := fun j => by rw [activeBytes_of_not_evex hcls]; rfl
  obtain ⟨j, hj, -, e, hje, hstop⟩ :=
    byteStop_of_fault (al := i.formClass == .sse) (fun j hj _ => hc j hj) (fun h => ha (beq_iff_eq.mp h))
      ⟨k, hk, hall k, hfault⟩
  exact ⟨j, hj, e, hje, exec_of_operandStop hrm hm he haddr hstop⟩

end Sys2Proof.Machine
end

section
/-! PROOFS. The round trip of the encoder and the decoder (30_encoding.md R70 to R100), and what a step does at bytes that are
no form (60_exceptions.md R168 items 1 to 3). -/

namespace Sys2Proof.Machine

/-- Settles O1: the round trip of each of the three layouts, put together. -/
theorem decode_of_encode : Obligations.Decode_of_encode :=
  fun _ _ rest h => decode_encode_append h rest

/-! ### Bytes that are no form -/

/-- The fetch gives all the bytes asked for, or ends before the first one that cannot be fetched and says why. -/
theorem fetchFrom_cases (s : State) (m : Mode) (n j : Nat) :
    (s.fetchFrom m n j).1.length = n ∧ (s.fetchFrom m n j).2 = none ∨
      (s.fetchFrom m n j).1.length < n ∧
        ∃ r, (s.fetchFrom m n j).2 = some r ∧ s.codeAddr m (j + (s.fetchFrom m n j).1.length) = .error r := by
  induction n generalizing j with
  | zero => exact .inl ⟨rfl, rfl⟩
  | succ n ih =>
    cases ha : s.codeAddr m j with
    | error r => exact .inr (by simp [State.fetchFrom, ha])
    | ok a => simpa [State.fetchFrom, ha, Nat.add_right_comm j 1, Nat.add_assoc] using ih (j + 1)

/-- The window of the fetch holds 15 bytes, or ends before the first byte that cannot be fetched (R70, R168 item 1). -/
theorem fetchWindow_cases (s : State) (m : Mode) :
    (s.fetchWindow m).1.length = 15 ∧ (s.fetchWindow m).2 = none ∨
      (s.fetchWindow m).1.length < 15 ∧
        ∃ r, (s.fetchWindow m).2 = some r ∧ s.codeAddr m (s.fetchWindow m).1.length = .error r := by
  have h := fetchFrom_cases s m maxInstrBytes 0
  rw [Nat.zero_add] at h
  exact h

/-- Settles O11: each verdict that is no form leaves one thing a step can do; when more bytes are asked for, what the window
holds says whether the step stops for the length or for the byte the fetch does not reach. -/
theorem step_raises_decode_faults : Obligations.Step_raises_decode_faults := by
  intro s m hm hc v
  rcases step_cases s m hm hc with ⟨i, n, hd, -⟩ | ⟨hv, hs⟩ | ⟨hv, -⟩ | ⟨hv, hw, hs⟩ | ⟨hv, q, hw, hs⟩ |
    ⟨q, hq, hv, hs⟩
  · have hv : v = .form i n := (under_eq_form_iff ..).mpr hd
    simp [hv]
  · simp [v, hv, hs, raise]
  · simp [v, hv]
  · obtain ⟨hlen, -⟩ | ⟨-, r, hr, -⟩ := fetchWindow_cases s m
    · simp [v, hv, hs, hlen, raise, eq_comm]
    · exact absurd (hw.symm.trans hr) nofun
  · obtain ⟨-, hnone⟩ | ⟨hlen, r, hr, hcode⟩ := fetchWindow_cases s m
    · exact absurd (hw.symm.trans hnone) nofun
    · obtain rfl : q = r := Option.some.inj (hw.symm.trans hr)
      exact ⟨by simp [v, hv], fun _ => ⟨fun h => absurd h (Nat.ne_of_lt hlen), fun _ => ⟨q, hcode, hs⟩⟩,
        fun r hr hrej => absurd (Verdict.reject.inj (hrej.symm.trans hv)) hr⟩
  · simp [v, hv, hs, hq]

end Sys2Proof.Machine
end

section
/-! PROOFS. Effective addresses (30_encoding.md R77 to R82, R91). -/

namespace Sys2Proof.Machine

/-- A sign-extended value cut to a width in between is the value extended to that width. -/
theorem setWidth_signExtend {n v w : Nat} (d : BitVec n) (h : w ≤ v) : (d.signExtend v).setWidth w = d.signExtend w := by
  ext i hi
  simp [BitVec.getElem_signExtend, Nat.lt_of_lt_of_le hi h]

/-- Settles O56: both modes take the branch of `mod = 00`, `r/m = 101` without a SIB byte. -/
theorem effective_address_rip_relative : Obligations.Effective_address_rip_relative := by
  intro s ⟨m, a67, xb, bb, scale, len⟩ d e
  refine ⟨?_, ?_, ?_⟩ <;> rintro rfl rfl
  · rfl
  · rfl
  · have hd : (d.signExtend 64).setWidth 32 = d := by
      rw [setWidth_signExtend d (by decide), BitVec.signExtend_eq]
    have he : e = ⟨((d.signExtend 64).setWidth 32).setWidth 64, false⟩ := rfl
    rw [he, hd]

/-- Settles O55: cut to 16 bits, a sum is the sum of its parts cut to 16 bits, and a displacement is the one that stands in the
instruction. -/
theorem effective_address_16_bit : Obligations.Effective_address_16_bit := by
  intro s c d e hm ha bx bp si di sum
  have hd8 : (d.signExtend 64).setWidth 16 = d.signExtend 16 := setWidth_signExtend d (by decide)
  have hd16 : (e.signExtend 64).setWidth 16 = e := by
    rw [setWidth_signExtend e (by decide), BitVec.signExtend_eq]
  have hadd (x y : Word64) : (x + y).setWidth 16 = x.setWidth 16 + y.setWidth 16 := BitVec.setWidth_add x y (by decide)
  have heff (a : MemAddr) : s.effAddr c a = s.effAddr16 a := if_pos (by rw [hm, ha]; rfl)
  have hrow (mod : BitVec 2) (rm : BitVec 3) (q : Disp) (h : ¬ (rm = 6#3 ∧ mod = 0#2)) :
      s.effAddr c ⟨mod, rm, none, q⟩ = ⟨((sum rm).1 + (q.value 1).setWidth 16).setWidth 64, (sum rm).2⟩ := by
    rw [heff]
    simp only [State.effAddr16, AddrSize.trunc, hadd, sum, bx, bp, si, di]
    split_ifs with h0 h1 h2 h3 h4 h5 h6 hmod
    on_goal 7 => exact absurd ⟨h6, hmod⟩ h
    all_goals rfl
  refine ⟨fun rm => ?_, fun rm => ?_, fun rm hrm => ?_, ?_⟩
  · rw [hrow 1#2 rm (.disp8 d) (by simp), Disp.value, BitVec.mul_one, hd8]
  · rw [hrow 2#2 rm (.disp16 e) (by simp), Disp.value, hd16]
  · rw [hrow 0#2 rm .none (by simp [hrm]), Disp.value]
    simp
  · have hlast : s.effAddr16 ⟨0#2, 6#3, none, .disp16 e⟩ = ⟨((e.signExtend 64).setWidth 16).setWidth 64, false⟩ := rfl
    rw [heff, hlast, hd16]

/-- Settles O54: the address size, the register numbers, the displacement and the index are what the statement calls them, so
that each of the three cases is a branch of the 32- and 64-bit addressing. -/
theorem effective_address_base_index : Obligations.Effective_address_base_index := by
  intro s c mod rm sb d h cut num disp index
  have hcut : (c.mode.addrSize c.a67).trunc = cut := by
    obtain ⟨m, a67, xb, bb, scale, len⟩ := c
    cases m <;> cases a67
    · rfl
    · rfl
    · rfl
    · cases h
  have hnum : regNum4 c.mode = num := by
    cases hm : c.mode <;> simp [num, hm] <;> rfl
  have hdisp : d.value c.scale = disp := by
    cases d <;> rfl
  have hindex : s.indexValue c sb = index := by
    have hpow : BitVec.ofNat 64 (2 ^ sb.scale.toNat) = BitVec.twoPow 64 sb.scale.toNat :=
      BitVec.eq_of_toNat_eq (by simp)
    simp only [State.indexValue, hcut, hnum, index, BitVec.shiftLeft_eq_mul_twoPow, hpow]
  have heff (a : MemAddr) : s.effAddr c a = s.effAddrWide c a := if_neg (by simp [h])
  simp only [heff, State.effAddrWide, hcut, hnum, hdisp, hindex]
  refine ⟨fun hbase => if_neg hbase, fun hbase => if_neg (mt And.symm hbase), fun hmod hbase => if_pos ⟨hbase, hmod⟩⟩

end Sys2Proof.Machine
end

section
/-! PROOFS. The layouts behind the prefixes (30_encoding.md R70): what a form of each layout is, and the decoder on its payload;
from it what is refused in 32-bit mode (R79, R86, R88). -/

namespace Sys2Proof

/-! ### The forms of each layout -/

/-- Every instruction is a form of one of the layouts (R70). -/
theorem instr_layouts (i : Instr) :
    (∃ op66 word p x reg rm, i = legacyInstr op66 word p x reg rm) ∨
    (∃ l word p v reg rm, i = vex2Instr l word p v reg rm) ∨
    (∃ l word p v reg rm, i = vex3Instr l word p v reg rm) ∨
    ∃ vl word p v reg rm, i = evexInstr vl word p v reg rm := by
  cases i with
  | paddusbMm => exact .inl ⟨false, false, _, _, _, _, rfl⟩
  | paddusbXmm => exact .inl ⟨true, false, _, _, _, _, rfl⟩
  | padduswMm => exact .inl ⟨false, true, _, _, _, _, rfl⟩
  | padduswXmm => exact .inl ⟨true, true, _, _, _, _, rfl⟩
  | vpaddusbXmmVex2 => exact .inr (.inl ⟨false, false, _, _, _, _, rfl⟩)
  | vpadduswXmmVex2 => exact .inr (.inl ⟨false, true, _, _, _, _, rfl⟩)
  | vpaddusbYmmVex2 => exact .inr (.inl ⟨true, false, _, _, _, _, rfl⟩)
  | vpadduswYmmVex2 => exact .inr (.inl ⟨true, true, _, _, _, _, rfl⟩)
  | vpaddusbXmmVex3 => exact .inr (.inr (.inl ⟨false, false, _, _, _, _, rfl⟩))
  | vpadduswXmmVex3 => exact .inr (.inr (.inl ⟨false, true, _, _, _, _, rfl⟩))
  | vpaddusbYmmVex3 => exact .inr (.inr (.inl ⟨true, false, _, _, _, _, rfl⟩))
  | vpadduswYmmVex3 => exact .inr (.inr (.inl ⟨true, true, _, _, _, _, rfl⟩))
  | vpaddusbXmmEvex => exact .inr (.inr (.inr ⟨.vl128, false, _, _, _, _, rfl⟩))
  | vpaddusbYmmEvex => exact .inr (.inr (.inr ⟨.vl256, false, _, _, _, _, rfl⟩))
  | vpaddusbZmmEvex => exact .inr (.inr (.inr ⟨.vl512, false, _, _, _, _, rfl⟩))
  | vpadduswXmmEvex => exact .inr (.inr (.inr ⟨.vl128, true, _, _, _, _, rfl⟩))
  | vpadduswYmmEvex => exact .inr (.inr (.inr ⟨.vl256, true, _, _, _, _, rfl⟩))
  | vpadduswZmmEvex => exact .inr (.inr (.inr ⟨.vl512, true, _, _, _, _, rfl⟩))

/-- What a legacy form is made of. -/
theorem legacyInstr_fields (op66 word : Bool) (p : Prefixes) (x : Option Rex) (reg : BitVec 3) (rm : RegMem) :
    let i := legacyInstr op66 word p x reg rm
    (∀ m, i.wellFormed m = legacyWellFormed m p x rm) ∧ encode i = encodeLegacy op66 word p x reg rm ∧
      i.prefixes = p ∧ i.regMem = rm ∧ i.formClass = if op66 then .sse else .mmx := by
  cases op66 <;> cases word <;> exact ⟨fun _ => rfl, rfl, rfl, rfl, rfl⟩

/-- What a form in two-byte VEX is made of. -/
theorem vex2Instr_fields (l word : Bool) (p : Prefixes) (v : Vex2) (reg : BitVec 3) (rm : RegMem) :
    let i := vex2Instr l word p v reg rm
    (∀ m, i.wellFormed m = vex2WellFormed m p v rm) ∧ encode i = encodeVex2 l word p v reg rm ∧
      i.prefixes = p ∧ i.regMem = rm ∧ i.formClass = .vex := by
  cases l <;> cases word <;> exact ⟨fun _ => rfl, rfl, rfl, rfl, rfl⟩

/-- What a form in three-byte VEX is made of. -/
theorem vex3Instr_fields (l word : Bool) (p : Prefixes) (v : Vex3) (reg : BitVec 3) (rm : RegMem) :
    let i := vex3Instr l word p v reg rm
    (∀ m, i.wellFormed m = vex3WellFormed m p v rm) ∧ encode i = encodeVex3 l word p v reg rm ∧
      i.prefixes = p ∧ i.regMem = rm ∧ i.formClass = .vex := by
  cases l <;> cases word <;> exact ⟨fun _ => rfl, rfl, rfl, rfl, rfl⟩

/-- What a form in EVEX is made of. -/
theorem evexInstr_fields (vl : EvexLen) (word : Bool) (p : Prefixes) (v : Evex) (reg : BitVec 3) (rm : RegMem) :
    let i := evexInstr vl word p v reg rm
    (∀ m, i.wellFormed m = evexWellFormed m p v rm) ∧ encode i = encodeEvex vl word p v reg rm ∧
      i.prefixes = p ∧ i.regMem = rm ∧ i.formClass = .evex := by
  cases vl <;> cases word <;> exact ⟨fun _ => rfl, rfl, rfl, rfl, rfl⟩

/-! ### 32-bit mode: what does not lead VEX or EVEX, and extension bits -/

/-- Behind an override and 67, what does not lead VEX or EVEX is no escape byte either (R72, R86, R88). -/
theorem decode_of_not_leadsVex {m : Mode} {b next : Byte} (hb : vexLead b = true) (hn : leadsVex m b next = false)
    (p : Prefixes) (rest : List Byte) :
    decode m (encodePrefixes p ++ b :: next :: rest) = .reject .otherInstruction := by
  have hescape : b ≠ 0x0F#8 := by
    rintro rfl
    cases hb
  rw [decode_lead hb, decodeBody, if_neg (by simp [hn]), decodeLegacy, if_neg hescape]

/-- B and the top bit of `vvvv` are stored inverted (R83, R86). -/
theorem decodeVex3_of_extension {v1 v2 : Byte} (h : v1.getLsbD 5 = false ∨ v2.getLsbD 6 = false) (total : Nat)
    (s : Scan) (opc : Byte) (rest : List Byte) :
    decodeVex3 .m32 total s (v1 :: v2 :: opc :: rest) = .reject .extensionBitsIn32 := by
  have hext : (vex3Of v1 v2).b = true ∨ (vex3Of v1 v2).vvvv.msb = true := by
    simpa [vex3Of, BitVec.msb_eq_getLsbD_last] using h
  exact if_pos ⟨rfl, .inr (.inr hext)⟩

/-- B, R', V' and the top bit of `vvvv` are stored inverted (R87, R88). -/
theorem decodeEvex_of_extension {p0 p1 p2 : Byte}
    (h : p0.getLsbD 5 = false ∨ p0.getLsbD 4 = false ∨ p1.getLsbD 6 = false ∨ p2.getLsbD 3 = false) (total : Nat)
    (s : Scan) (opc : Byte) (rest : List Byte) :
    decodeEvex .m32 total s (p0 :: p1 :: p2 :: opc :: rest) = .reject .extensionBitsIn32 := by
  have hext : (evexOf p0 p1 p2).b = true ∨ (evexOf p0 p1 p2).rHi = true ∨ (evexOf p0 p1 p2).vvvv.msb = true ∨
      (evexOf p0 p1 p2).vHi = true := by
    simpa [evexOf, BitVec.msb_eq_getLsbD_last] using h
  exact if_pos ⟨rfl, .inr (.inr (hext.imp_right fun h => h.imp_right Or.symm))⟩

/-! ### The decoder on a payload the encoder gives -/

/-- In 32-bit mode the extension bits of two-byte VEX are 0 (R86, D14). -/
def Vex2.Admitted (m : Mode) (v : Vex2) : Prop := m = .m64 ∨ v.r = false ∧ v.vvvv.msb = false

/-- In 32-bit mode the extension bits of three-byte VEX are 0 (R86, D14). -/
def Vex3.Admitted (m : Mode) (v : Vex3) : Prop := m = .m64 ∨ v.r = false ∧ v.x = false ∧ v.b = false ∧ v.vvvv.msb = false

/-- In 32-bit mode the extension bits of EVEX are 0 (R88, D14). -/
def Evex.Admitted (m : Mode) (v : Evex) : Prop :=
  m = .m64 ∨ v.r = false ∧ v.x = false ∧ v.b = false ∧ v.rHi = false ∧ v.vHi = false ∧ v.vvvv.msb = false

theorem vex2WellFormed_iff {m : Mode} {p : Prefixes} {v : Vex2} {rm : RegMem} :
    vex2WellFormed m p v rm = true ↔ v.Admitted m ∧ rm.vexWellFormed m p.a67 = true := by
  simp [vex2WellFormed, Vex2.Admitted]

theorem vex3WellFormed_iff {m : Mode} {p : Prefixes} {v : Vex3} {rm : RegMem} :
    vex3WellFormed m p v rm = true ↔ v.Admitted m ∧ rm.vexWellFormed m p.a67 = true := by
  simp [vex3WellFormed, Vex3.Admitted, and_assoc]

theorem evexWellFormed_iff {m : Mode} {p : Prefixes} {v : Evex} {rm : RegMem} :
    evexWellFormed m p v rm = true ↔
      v.Admitted m ∧ (v.z = true → v.aaa ≠ 0#3) ∧ rm.vexWellFormed m p.a67 = true := by
  simp [evexWellFormed, Evex.Admitted, and_assoc, imp_iff_not_or]

/-- The test of the decoder for extension bits in 32-bit mode. -/
theorem Vex2.admitted_iff {m : Mode} {v : Vex2} : v.Admitted m ↔ ¬ (m = .m32 ∧ (v.r ∨ v.vvvv.msb)) := by
  cases m <;> simp [Vex2.Admitted]

theorem Vex3.admitted_iff {m : Mode} {v : Vex3} : v.Admitted m ↔ ¬ (m = .m32 ∧ (v.r ∨ v.x ∨ v.b ∨ v.vvvv.msb)) := by
  cases m <;> simp [Vex3.Admitted]

theorem Evex.admitted_iff {m : Mode} {v : Evex} :
    v.Admitted m ↔ ¬ (m = .m32 ∧ (v.r ∨ v.x ∨ v.b ∨ v.rHi ∨ v.vHi ∨ v.vvvv.msb)) := by
  cases m <;> simp [Evex.Admitted]

/-- `C5`, `C4` and `62` before an admitted payload lead VEX and EVEX (R86, R88). -/
theorem leadsVex_vex2Byte {m : Mode} {v : Vex2} (h : v.Admitted m) (l : Bool) : leadsVex m 0xC5#8 (vex2Byte l v) = true := by
  rcases h with rfl | ⟨hr, hv⟩
  · rfl
  · simp [leadsVex, vexLead, vex2Byte_top l hr hv]

theorem leadsVex_vex3Byte1 {m : Mode} {v : Vex3} (h : v.Admitted m) : leadsVex m 0xC4#8 (vex3Byte1 v) = true := by
  rcases h with rfl | ⟨hr, hx, -⟩
  · rfl
  · simp [leadsVex, vexLead, vex3Byte1_top hr hx]

theorem leadsVex_evexByte0 {m : Mode} {v : Evex} (h : v.Admitted m) : leadsVex m 0x62#8 (evexByte0 v) = true := by
  rcases h with rfl | ⟨hr, hx, -⟩
  · rfl
  · simp [leadsVex, vexLead, evexByte0_top hr hx]

/-- The payload and the opcode byte of an admitted form in two-byte VEX leave its operand to read (R84, R85). -/
theorem decodeVex2_payload {m : Mode} {v : Vex2} (h : v.Admitted m) (total : Nat) (s : Scan) (l word : Bool)
    (bs : List Byte) :
    decodeVex2 m total s (vex2Byte l v :: opcodeByte word :: bs) =
      finishVex m total s (.vex l) (vex2Instr l word s.kept v) bs := by
  simp only [decodeVex2, vex2Byte_fields, wordForm_opcodeByte, if_neg (Vex2.admitted_iff.mp h), ne_eq, not_true, if_false]

/-- The payload and the opcode byte of an admitted form in three-byte VEX leave its operand to read (R83, R85). -/
theorem decodeVex3_payload {m : Mode} {v : Vex3} (h : v.Admitted m) (total : Nat) (s : Scan) (l word : Bool)
    (bs : List Byte) :
    decodeVex3 m total s (vex3Byte1 v :: vex3Byte2 l v :: opcodeByte word :: bs) =
      finishVex m total s (.vex l) (vex3Instr l word s.kept v) bs := by
  simp only [decodeVex3, vex3Of_vex3Bytes, if_neg (Vex3.admitted_iff.mp h), vex3Byte1_fields, vex3Byte2_fields,
    wordForm_opcodeByte, ne_eq, not_true, or_self, if_false]

/-- The payload and the opcode byte of an admitted form in EVEX leave its operand to read (R87, R89). -/
theorem decodeEvex_payload {m : Mode} {v : Evex} (h : v.Admitted m) (hz : v.z = true → v.aaa ≠ 0#3) (total : Nat)
    (s : Scan) (vl : EvexLen) (word : Bool) (bs : List Byte) :
    decodeEvex m total s (evexByte0 v :: evexByte1 v :: evexByte2 vl v :: opcodeByte word :: bs) =
      finishVex m total s (.evex (vl == .vl512)) (evexInstr vl word s.kept v) bs := by
  simp only [decodeEvex, evexOf_evexBytes, if_neg (Evex.admitted_iff.mp h), if_neg (not_and.mpr hz), evexByte0_fields,
    evexByte1_fields, evexByte2_fields, wordForm_opcodeByte, ne_eq, not_true, BitVec.reduceEq, or_self, if_false,
    Bool.false_eq_true, Bool.true_eq_false]

/-! ### 32-bit mode: 16-bit addressing under VEX and EVEX -/

/-- With 67 in 32-bit mode a memory operand of a VEX or EVEX form is refused (R79, D16). -/
theorem finishVex_mem16 {s : Scan} (hred : s.redundant = false) (h67 : s.addrSize = true) {a : MemAddr}
    (hmod : a.mod ≠ 3#2) (total : Nat) (need : FeatureNeed) (mk : BitVec 3 → RegMem → Instr) (reg : BitVec 3)
    (rest : List Byte) :
    finishVex .m32 total s need mk (encodeRegMem reg (.mem a) ++ rest) = .reject .addressing16Vex := by
  have h16 : memory16 .m32 s.addrSize (encodeRegMem reg (.mem a) ++ rest) = true := by
    simp [encodeRegMem, memory16, Mode.addr16, h67, extract_fields, hmod]
  rw [finishVex, if_pos h16, hred, if_neg Bool.false_ne_true]

/-- Without LOCK, 66, F2, F3 and REX the lead byte says which layout follows (R70, R100 step 2). -/
theorem decodeBody_of_leadsVex {m : Mode} {b next : Byte} (h : leadsVex m b next = true) {s : Scan}
    (hs : s.illegalBeforeVex = false) (total : Nat) (bs : List Byte) :
    decodeBody m total s (b :: next :: bs) =
      if b = 0xC5#8 then decodeVex2 m total s (next :: bs)
      else if b = 0xC4#8 then decodeVex3 m total s (next :: bs)
      else decodeEvex m total s (next :: bs) := by
  rw [decodeBody, if_pos h, hs, if_neg Bool.false_ne_true]

/-- The bytes of a form in two-byte VEX whose extension bits are admitted decode as its operand says. -/
theorem decode_encodeVex2_operand {m : Mode} {v : Vex2} (h : v.Admitted m) (l word : Bool) (p : Prefixes)
    (reg : BitVec 3) (rm : RegMem) (rest : List Byte) :
    ∃ total, decode m (encodeVex2 l word p v reg rm ++ rest) =
      finishVex m total (Scan.ofInstr p false none) (.vex l) (vex2Instr l word p v) (encodeRegMem reg rm ++ rest) := by
  simp only [encodeVex2, List.append_assoc, List.cons_append, List.nil_append]
  rw [decode_lead rfl, decodeBody_of_leadsVex (leadsVex_vex2Byte h l) rfl, if_pos rfl, decodeVex2_payload h]
  exact ⟨_, rfl⟩

/-- The bytes of a form in three-byte VEX whose extension bits are admitted decode as its operand says. -/
theorem decode_encodeVex3_operand {m : Mode} {v : Vex3} (h : v.Admitted m) (l word : Bool) (p : Prefixes)
    (reg : BitVec 3) (rm : RegMem) (rest : List Byte) :
    ∃ total, decode m (encodeVex3 l word p v reg rm ++ rest) =
      finishVex m total (Scan.ofInstr p false none) (.vex l) (vex3Instr l word p v) (encodeRegMem reg rm ++ rest) := by
  simp only [encodeVex3, List.append_assoc, List.cons_append, List.nil_append]
  rw [decode_lead rfl, decodeBody_of_leadsVex (leadsVex_vex3Byte1 h) rfl, if_neg (by decide), if_pos rfl,
    decodeVex3_payload h]
  exact ⟨_, rfl⟩

/-- The bytes of a form in EVEX whose extension bits and zeroing are admitted decode as its operand says. -/
theorem decode_encodeEvex_operand {m : Mode} {v : Evex} (h : v.Admitted m) (hz : v.z = true → v.aaa ≠ 0#3)
    (vl : EvexLen) (word : Bool) (p : Prefixes) (reg : BitVec 3) (rm : RegMem) (rest : List Byte) :
    ∃ total, decode m (encodeEvex vl word p v reg rm ++ rest) =
      finishVex m total (Scan.ofInstr p false none) (.evex (vl == .vl512)) (evexInstr vl word p v)
        (encodeRegMem reg rm ++ rest) := by
  simp only [encodeEvex, List.append_assoc, List.cons_append, List.nil_append]
  rw [decode_lead rfl, decodeBody_of_leadsVex (leadsVex_evexByte0 h) rfl, if_neg (by decide), if_neg (by decide),
    decodeEvex_payload h hz]
  exact ⟨_, rfl⟩

/-- Settles O60: what does not lead VEX or EVEX is no escape byte; the extension bits are asked first behind the lead byte, and
16-bit addressing first behind the opcode byte. -/
theorem decoder_refusals_in_32_bit_mode : Obligations.Decoder_refusals_in_32_bit_mode := by
  refine ⟨fun p b next rest hb hnext => ?_, fun p v1 v2 opc rest htop h => ?_, fun p p0 p1 p2 opc rest htop h => ?_,
    fun l w vl seg v2 v3 v reg a rest f hf hw hmod => ?_⟩
  · have hb : vexLead b = true := by
      simpa [vexLead, or_assoc] using hb
    exact decode_of_not_leadsVex hb (by simp [leadsVex, hnext]) p rest
  · rw [decode_lead rfl, decodeBody_lead rfl (.inr htop), if_neg (by decide), if_pos rfl, decodeVex3_of_extension h]
  · rw [decode_lead rfl, decodeBody_lead rfl (.inr htop), if_neg (by decide), if_neg (by decide),
      decodeEvex_of_extension h]
  · simp only [List.mem_cons, List.not_mem_nil, or_false] at hf
    rcases hf with rfl | rfl | rfl
    · obtain ⟨hwf, -⟩ := vex2Instr_fields l w ⟨seg, true⟩ v2 reg (.reg 0#3)
      obtain ⟨-, henc, -⟩ := vex2Instr_fields l w ⟨seg, true⟩ v2 reg (.mem a)
      obtain ⟨hadm, -⟩ := vex2WellFormed_iff.mp ((hwf .m32).symm.trans hw)
      obtain ⟨total, hd⟩ := decode_encodeVex2_operand hadm l w ⟨seg, true⟩ reg (.mem a) rest
      rw [henc, hd, finishVex_mem16 rfl rfl hmod]
    · obtain ⟨hwf, -⟩ := vex3Instr_fields l w ⟨seg, true⟩ v3 reg (.reg 0#3)
      obtain ⟨-, henc, -⟩ := vex3Instr_fields l w ⟨seg, true⟩ v3 reg (.mem a)
      obtain ⟨hadm, -⟩ := vex3WellFormed_iff.mp ((hwf .m32).symm.trans hw)
      obtain ⟨total, hd⟩ := decode_encodeVex3_operand hadm l w ⟨seg, true⟩ reg (.mem a) rest
      rw [henc, hd, finishVex_mem16 rfl rfl hmod]
    · obtain ⟨hwf, -⟩ := evexInstr_fields vl w ⟨seg, true⟩ v reg (.reg 0#3)
      obtain ⟨-, henc, -⟩ := evexInstr_fields vl w ⟨seg, true⟩ v reg (.mem a)
      obtain ⟨hadm, hz, -⟩ := evexWellFormed_iff.mp ((hwf .m32).symm.trans hw)
      obtain ⟨total, hd⟩ := decode_encodeEvex_operand hadm hz vl w ⟨seg, true⟩ reg (.mem a) rest
      rw [henc, hd, finishVex_mem16 rfl rfl hmod]

end Sys2Proof
end

section
/-! PROOFS. The prefixes before a form (30_encoding.md R71, R73, R100 step 1): which bytes the scan takes, and what it records. -/

namespace Sys2Proof

/-! ### The bytes -/

/-- The bytes that mean the same among the legacy prefixes (R71). -/
def PrefixByte.bytes : PrefixByte → List Byte
  | .lock => [0xF0#8]
  | .rep => [0xF2#8, 0xF3#8]
  | .seg n => [segByte n]
  | .opSize => [0x66#8]
  | .addrSize => [0x67#8]

theorem prefixOf_eq_some_iff {b : Byte} {q : PrefixByte} : prefixOf b = some q ↔ b ∈ q.bytes := by
  cases q with
  | seg n =>
    revert b
    cases n <;> decide
  | _ =>
    revert b
    decide

/-- A byte the scan of the prefixes takes: one of the legacy prefixes, or in 64-bit mode a REX byte (R71, R73). -/
def TakenAsPrefix (m : Mode) (b : Byte) : Prop := (prefixOf b).isSome = true ∨ (m = .m64 ∧ b.extractLsb' 4 4 = 4#4)

/-- A REX byte is made of its fields (R73). -/
theorem eq_rexByte_of_rexOf {b : Byte} {x : Rex} (h : rexOf b = some x) : b = rexByte x := by
  have hb : ∀ b : Byte, b.extractLsb' 4 4 = 4#4 →
      b = rexByte ⟨b.getLsbD 3, b.getLsbD 2, b.getLsbD 1, b.getLsbD 0⟩ := by decide
  unfold rexOf at h
  split at h
  · next hx =>
    cases h
    exact hb b hx
  · cases h

theorem rexByte_high (x : Rex) : (rexByte x).extractLsb' 4 4 = 4#4 := by
  obtain ⟨w, r, x, b⟩ := x
  revert w r x b
  decide

/-- No REX byte is one of the legacy prefixes (R71, R73). -/
theorem prefixOf_eq_none_of_high {b : Byte} (h : b.extractLsb' 4 4 = 4#4) : prefixOf b = none := by
  revert b
  decide

/-! ### The scan -/

/-- Bytes that are all prefixes are taken whatever follows them (R100 step 1). -/
theorem scanPrefixes_of_taken {m : Mode} {l : List Byte} (h : ∀ b ∈ l, TakenAsPrefix m b) (s : Scan) :
    ∃ s', ∀ bs, scanPrefixes m s (l ++ bs) = scanPrefixes m s' bs := by
  induction l generalizing s with
  | nil => exact ⟨s, fun _ => rfl⟩
  | cons b l ih =>
    rw [List.forall_mem_cons] at h
    obtain ⟨hb, hl⟩ := h
    rcases hb with hp | ⟨rfl, hx⟩
    · obtain ⟨q, hq⟩ := Option.isSome_iff_exists.mp hp
      obtain ⟨s', hs'⟩ := ih hl (s.add q)
      exact ⟨s', fun bs => (scanPrefixes_cons_prefix hq m s _).trans (hs' bs)⟩
    · obtain ⟨s', hs'⟩ := ih hl (s.addRex ⟨b.getLsbD 3, b.getLsbD 2, b.getLsbD 1, b.getLsbD 0⟩)
      refine ⟨s', fun bs => ?_⟩
      rw [← hs', List.cons_append]
      simp only [scanPrefixes, prefixOf_eq_none_of_high hx, rexOf, if_pos hx]

/-- What the scan took off the front it would have taken alone. -/
theorem scanPrefixes_split {m : Mode} {s s' : Scan} {bs r : List Byte} (h : scanPrefixes m s bs = (s', r)) :
    ∃ l, bs = l ++ r ∧ scanPrefixes m s l = (s', []) := by
  induction bs generalizing s with
  | nil => cases h; exact ⟨[], rfl, rfl⟩
  | cons b bs ih =>
    rcases scanPrefixes_cons_cases m s b with ⟨s1, -, hscan⟩ | hstop
    · obtain ⟨l, rfl, hl⟩ := ih ((hscan bs).symm.trans h)
      exact ⟨b :: l, rfl, (hscan l).trans hl⟩
    · cases (hstop bs).symm.trans h
      exact ⟨[], rfl, rfl⟩

/-- What holds of a scan that takes all its bytes, by induction from the last byte: it is one of the legacy prefixes or, in
64-bit mode, a REX byte. -/
theorem scanPrefixes_induction {m : Mode} {P : List Byte → Scan → Prop} (nil : P [] Scan.empty)
    (add : ∀ l s b q, P l s → b ∈ q.bytes → P (l ++ [b]) (s.add q))
    (addRex : m = .m64 → ∀ l s x, P l s → P (l ++ [rexByte x]) (s.addRex x))
    {l : List Byte} {s : Scan} (h : scanPrefixes m Scan.empty l = (s, [])) : P l s := by
  induction l using List.reverseRecOn generalizing s with
  | nil => cases h; exact nil
  | append_singleton l b ih =>
    rcases scanPrefixes_cut h with ⟨s1, hl, hb⟩ | ⟨l', -, hr, -⟩
    · cases hp : prefixOf b with
      | some q =>
        cases (scanPrefixes_cons_prefix hp m s1 []).symm.trans hb
        exact add l s1 b q (ih hl) (prefixOf_eq_some_iff.mp hp)
      | none =>
        cases hx : rexOf b with
        | none => cases (scanPrefixes_cons_stop hp hx m s1 []).symm.trans hb
        | some x =>
          obtain rfl := eq_rexByte_of_rexOf hx
          cases m with
          | m32 => simp [scanPrefixes, hp] at hb
          | m64 =>
            simp only [scanPrefixes, hp, hx] at hb
            cases hb
            exact addRex rfl l s1 x (ih hl)
    · cases l' <;> cases hr

/-- LOCK, 66, F2, F3 and REX, which make VEX and EVEX #UD (R101 rows 1 to 3). -/
def forbiddenBeforeVex (b : Byte) : Bool := b ∈ [0xF0#8, 0x66#8, 0xF2#8, 0xF3#8] || b.extractLsb' 4 4 == 4#4

theorem forbiddenBeforeVex_iff {b : Byte} :
    forbiddenBeforeVex b = true ↔ b ∈ [0xF0#8, 0x66#8, 0xF2#8, 0xF3#8] ∨ b.extractLsb' 4 4 = 4#4 := by
  simp [forbiddenBeforeVex]

/-- `s` has recorded the bytes `l`, as far as R101 rows 1 to 3 and the address size ask. -/
structure Scan.Records (s : Scan) (l : List Byte) : Prop where
  lock : s.lock = decide (0xF0#8 ∈ l)
  addrSize : s.addrSize = decide (0x67#8 ∈ l)
  illegalBeforeVex : s.illegalBeforeVex = l.any forbiddenBeforeVex

theorem Scan.illegalBeforeVex_add {b : Byte} {q : PrefixByte} (hb : b ∈ q.bytes) (s : Scan) :
    (s.add q).illegalBeforeVex = (s.illegalBeforeVex || forbiddenBeforeVex b) := by
  have hq : forbiddenBeforeVex b = decide (q = .lock ∨ q = .rep ∨ q = .opSize) := by
    cases q with
    | seg n =>
      obtain rfl := List.mem_singleton.mp hb
      cases n <;> rfl
    | rep =>
      simp only [PrefixByte.bytes, List.mem_cons, List.not_mem_nil, or_false] at hb
      rcases hb with rfl | rfl <;> rfl
    | _ =>
      obtain rfl := List.mem_singleton.mp hb
      rfl
  rw [hq]
  cases q <;> simp [Scan.illegalBeforeVex, Scan.add, Scan.set]

theorem Scan.lock_addrSize_add {b : Byte} {q : PrefixByte} (hb : b ∈ q.bytes) (s : Scan) :
    (s.add q).lock = (s.lock || decide (0xF0#8 = b)) ∧ (s.add q).addrSize = (s.addrSize || decide (0x67#8 = b)) := by
  cases q with
  | seg n =>
    obtain rfl := List.mem_singleton.mp hb
    cases n <;> simp [Scan.add, Scan.set, segByte]
  | rep =>
    simp only [PrefixByte.bytes, List.mem_cons, List.not_mem_nil, or_false] at hb
    rcases hb with rfl | rfl <;> simp [Scan.add, Scan.set]
  | _ =>
    obtain rfl := List.mem_singleton.mp hb
    simp [Scan.add, Scan.set]

theorem Scan.Records.add {s : Scan} {l : List Byte} (h : s.Records l) {b : Byte} {q : PrefixByte} (hb : b ∈ q.bytes) :
    (s.add q).Records (l ++ [b]) := by
  obtain ⟨hlock, h67⟩ := Scan.lock_addrSize_add hb s
  exact ⟨by simp [hlock, h.lock], by simp [h67, h.addrSize],
    by simp [Scan.illegalBeforeVex_add hb, h.illegalBeforeVex]⟩

theorem Scan.Records.addRex {s : Scan} {l : List Byte} (h : s.Records l) (x : Rex) :
    (s.addRex x).Records (l ++ [rexByte x]) := by
  have hne {c : Byte} (hc : c.extractLsb' 4 4 ≠ 4#4) : c ≠ rexByte x := by
    rintro rfl
    exact hc (rexByte_high x)
  have hlock : 0xF0#8 ≠ rexByte x := hne (by decide)
  have h67 : 0x67#8 ≠ rexByte x := hne (by decide)
  exact ⟨by simp [Scan.addRex, h.lock, hlock], by simp [Scan.addRex, h.addrSize, h67],
    by simp [Scan.illegalBeforeVex, Scan.addRex, forbiddenBeforeVex, rexByte_high]⟩

/-- The scan has recorded all the bytes it took. -/
theorem records_of_scanPrefixes {m : Mode} {l : List Byte} {s : Scan} (h : scanPrefixes m Scan.empty l = (s, [])) :
    s.Records l :=
  scanPrefixes_induction (P := fun l s => s.Records l) ⟨rfl, rfl, rfl⟩ (fun _ _ _ _ hs hb => hs.add hb)
    (fun _ _ _ x hs => hs.addRex x) h

/-- Behind bytes that are all prefixes the decoder goes on at the first one that is none, with what they recorded. -/
theorem decode_of_taken {m : Mode} {l : List Byte} (h : ∀ b ∈ l, TakenAsPrefix m b) {bs : List Byte}
    (hstop : ∀ s, scanPrefixes m s bs = (s, bs)) :
    ∃ s, s.Records l ∧ decode m (l ++ bs) = decodeBody m (l ++ bs).length s bs := by
  obtain ⟨s, hs⟩ := scanPrefixes_of_taken h Scan.empty
  have hl : scanPrefixes m Scan.empty l = (s, []) := by
    have hnil := hs []
    rwa [List.append_nil] at hnil
  exact ⟨s, records_of_scanPrefixes hl, by rw [decode, hs, hstop]⟩

end Sys2Proof
end

section
/-! PROOFS. What R101 makes illegal behind any prefixes (30_encoding.md section 9): LOCK before a form, 66, F2, F3 and REX before
VEX and EVEX, and an EVEX payload with `b = 1`, `L'L = 11` or zeroing without a writemask. -/

namespace Sys2Proof

/-- An illegal encoding whose operand bytes are all there is #UD, or too long (R70, R168 items 1 to 3). -/
theorem finishIllegal_encodeRegMem {a16 : Bool} {rm : RegMem} (h : rm.wellFormed a16 = true) (n : Nat) (reg : BitVec 3)
    (rest : List Byte) :
    finishIllegal (n + rest.length) a16 (encodeRegMem reg rm ++ rest) = if n ≤ 15 then .ud else .lengthGp := by
  simp only [finishIllegal, extent, takeRegMem_encodeRegMem h, illegalOfLength, Nat.add_sub_cancel]
  rcases Nat.lt_or_ge 15 n with hn | hn
  · rw [if_pos hn, if_neg (Nat.not_le.mpr hn)]
  · rw [if_neg (Nat.not_lt.mpr hn), if_pos hn]

/-! ### The parts of a form's bytes -/

/-- The REX byte, if there is one (R73). -/
def rexBytes : Option Rex → List Byte
  | none => []
  | some x => [rexByte x]

/-- The legacy prefixes of a form, as the encoder gives them (R71, R104). -/
def legacyPrefixes (p : Prefixes) (op66 : Bool) : List Byte := encodePrefixes p ++ if op66 then [0x66#8] else []

/-- The legacy layout as prefixes, opcode bytes and operand (R70). -/
theorem encodeLegacy_eq (op66 word : Bool) (p : Prefixes) (x : Option Rex) (reg : BitVec 3) (rm : RegMem) :
    encodeLegacy op66 word p x reg rm =
      (legacyPrefixes p op66 ++ rexBytes x) ++ ([0x0F#8, opcodeByte word] ++ encodeRegMem reg rm) := by
  cases x <;> simp [encodeLegacy, legacyPrefixes, rexBytes]

/-- The two-byte VEX layout as prefixes, opcode bytes and operand (R70). -/
theorem encodeVex2_eq (l word : Bool) (p : Prefixes) (v : Vex2) (reg : BitVec 3) (rm : RegMem) :
    encodeVex2 l word p v reg rm =
      (legacyPrefixes p false ++ rexBytes none) ++ ([0xC5#8, vex2Byte l v, opcodeByte word] ++ encodeRegMem reg rm) := by
  simp [encodeVex2, legacyPrefixes, rexBytes]

/-- The three-byte VEX layout as prefixes, opcode bytes and operand (R70). -/
theorem encodeVex3_eq (l word : Bool) (p : Prefixes) (v : Vex3) (reg : BitVec 3) (rm : RegMem) :
    encodeVex3 l word p v reg rm =
      (legacyPrefixes p false ++ rexBytes none) ++
        ([0xC4#8, vex3Byte1 v, vex3Byte2 l v, opcodeByte word] ++ encodeRegMem reg rm) := by
  simp [encodeVex3, legacyPrefixes, rexBytes]

/-- The EVEX layout as prefixes, opcode bytes and operand (R70). -/
theorem encodeEvex_eq (vl : EvexLen) (word : Bool) (p : Prefixes) (v : Evex) (reg : BitVec 3) (rm : RegMem) :
    encodeEvex vl word p v reg rm =
      (legacyPrefixes p false ++ rexBytes none) ++
        ([0x62#8, evexByte0 v, evexByte1 v, evexByte2 vl v, opcodeByte word] ++ encodeRegMem reg rm) := by
  simp [encodeEvex, legacyPrefixes, rexBytes]

theorem mem_legacyPrefixes {p : Prefixes} {op66 : Bool} {b : Byte} :
    b ∈ legacyPrefixes p op66 ↔
      (∃ n, p.seg = some n ∧ b = segByte n) ∨ p.a67 = true ∧ b = 0x67#8 ∨ op66 = true ∧ b = 0x66#8 := by
  obtain ⟨_ | n, a67⟩ := p <;> cases a67 <;> cases op66 <;> simp [legacyPrefixes, encodePrefixes]

theorem prefixOf_of_mem_legacyPrefixes {p : Prefixes} {op66 : Bool} {b : Byte} (h : b ∈ legacyPrefixes p op66) :
    (prefixOf b).isSome = true := by
  rcases mem_legacyPrefixes.mp h with ⟨n, -, rfl⟩ | ⟨-, rfl⟩ | ⟨-, rfl⟩
  · rw [prefixOf_segByte, Option.isSome_some]
  · rfl
  · rfl

theorem addrSizeByte_mem_prefixes {p : Prefixes} {op66 : Bool} {x : Option Rex} :
    0x67#8 ∈ legacyPrefixes p op66 ++ rexBytes x ↔ p.a67 = true := by
  have hseg (n : SegName) : 0x67#8 ≠ segByte n := by cases n <;> decide
  have hrex : 0x67#8 ∉ rexBytes x := by
    cases x with
    | none => exact List.not_mem_nil
    | some x => exact fun h => absurd (List.mem_singleton.mp h ▸ rexByte_high x) (by decide)
  simp [mem_legacyPrefixes, hseg, hrex]

theorem takenAsPrefix_of_mem {m : Mode} {p : Prefixes} {op66 : Bool} {x : Option Rex} (hx : m = .m64 ∨ x = none) {b : Byte}
    (h : b ∈ legacyPrefixes p op66 ++ rexBytes x) : TakenAsPrefix m b := by
  rcases List.mem_append.mp h with h | h
  · exact .inl (prefixOf_of_mem_legacyPrefixes h)
  · cases x with
    | none => cases h
    | some x =>
      obtain rfl := List.mem_singleton.mp h
      exact .inr ⟨hx.resolve_right nofun, rexByte_high x⟩

/-- `opc` are the bytes of `i` between its prefixes and its operand: the scan of the prefixes ends there, and prefixes that R101
rows 1 to 3 forbid before them make the encoding illegal. -/
structure OpcodeBytes (m : Mode) (i : Instr) (opc : List Byte) : Prop where
  stop : ∀ s bs, scanPrefixes m s (opc ++ bs) = (s, opc ++ bs)
  illegal : ∀ total s bs, s.lock = true ∨ (i.formClass = .vex ∨ i.formClass = .evex) ∧ s.illegalBeforeVex = true →
    decodeBody m total s (opc ++ bs) = finishIllegal total (m.addr16 s.addrSize) bs

/-- The escape byte and the opcode byte of a legacy form (R72, R74). -/
theorem opcodeBytes_legacy (m : Mode) {i : Instr} (hi : i.formClass = .mmx ∨ i.formClass = .sse) (word : Bool) :
    OpcodeBytes m i [0x0F#8, opcodeByte word] where
  stop s bs := scanPrefixes_cons_stop rfl rfl m s _
  illegal total s bs hs := by
    have hlock : s.lock = true := hs.resolve_right fun ⟨hvex, _⟩ => by
      rcases hi with hi | hi <;> simp [hi] at hvex
    have hlead : leadsVex m 0x0F#8 (opcodeByte word) = false := rfl
    simp [decodeBody, hlead, decodeLegacy, wordForm_opcodeByte, hlock]

/-- The lead byte, the payload and the opcode byte of VEX and EVEX (R83, R84, R87). -/
theorem opcodeBytes_vex {m : Mode} (i : Instr) {b next : Byte} {bs : List Byte} (hlead : leadsVex m b next = true)
    (hlen : (next :: bs).length = vexTail b) : OpcodeBytes m i (b :: next :: bs) where
  stop s rest := by
    have hb : vexLead b = true := (Bool.and_eq_true_iff.mp hlead).1
    have hstop : prefixOf b = none ∧ rexOf b = none := by
      simp only [vexLead, Bool.or_eq_true, beq_iff_eq] at hb
      rcases hb with (rfl | rfl) | rfl <;> decide
    exact scanPrefixes_cons_stop hstop.1 hstop.2 m s _
  illegal total s rest hs := by
    have hill : s.illegalBeforeVex = true := hs.elim (fun h => by simp [Scan.illegalBeforeVex, h]) And.right
    have hdrop : (next :: bs ++ rest).drop (vexTail b) = rest := List.drop_left' hlen
    rw [List.cons_append, List.cons_append, decodeBody, if_pos hlead, if_pos hill, illegalVex, ← List.cons_append, hdrop]

/-- An operand VEX and EVEX admit is one of the address size in force (R80, D16). -/
theorem wellFormed_of_vexWellFormed_addr16 {m : Mode} {a67 : Bool} {rm : RegMem} (h : rm.vexWellFormed m a67 = true) :
    rm.wellFormed (m.addr16 a67) = true := by
  cases rm with
  | reg r => rfl
  | mem a =>
    simp only [RegMem.vexWellFormed, Bool.and_eq_true, Bool.not_eq_true'] at h
    rw [h.1]
    exact h.2

theorem legacyWellFormed_iff {m : Mode} {p : Prefixes} {x : Option Rex} {rm : RegMem} :
    legacyWellFormed m p x rm = true ↔ (m = .m64 ∨ x = none) ∧ rm.wellFormed (m.addr16 p.a67) = true := by
  simp [legacyWellFormed]

/-- The bytes of a well-formed instruction: its prefixes, the bytes that say which form it is, and its operand (R70). -/
theorem encode_parts {m : Mode} {i : Instr} (h : i.wellFormed m = true) :
    ∃ own opc reg, encode i = own ++ (opc ++ encodeRegMem reg i.regMem) ∧ (∀ b ∈ own, TakenAsPrefix m b) ∧
      (0x67#8 ∈ own ↔ i.prefixes.a67 = true) ∧ OpcodeBytes m i opc ∧
      i.regMem.wellFormed (m.addr16 i.prefixes.a67) = true := by
  rcases instr_layouts i with ⟨op66, word, p, x, reg, rm, rfl⟩ | ⟨l, word, p, v, reg, rm, rfl⟩ |
    ⟨l, word, p, v, reg, rm, rfl⟩ | ⟨vl, word, p, v, reg, rm, rfl⟩
  · obtain ⟨hwf, henc, hp, hrm, hclass⟩ := legacyInstr_fields op66 word p x reg rm
    rw [hwf, legacyWellFormed_iff] at h
    obtain ⟨hx, hw⟩ := h
    rw [henc, hp, hrm, encodeLegacy_eq]
    exact ⟨_, _, reg, rfl, fun _ => takenAsPrefix_of_mem hx, addrSizeByte_mem_prefixes,
      opcodeBytes_legacy m (by rw [hclass]; cases op66 <;> simp) word, hw⟩
  · obtain ⟨hwf, henc, hp, hrm, -⟩ := vex2Instr_fields l word p v reg rm
    rw [hwf, vex2WellFormed_iff] at h
    obtain ⟨hadm, hw⟩ := h
    rw [henc, hp, hrm, encodeVex2_eq]
    exact ⟨_, _, reg, rfl, fun _ => takenAsPrefix_of_mem (.inr rfl), addrSizeByte_mem_prefixes,
      opcodeBytes_vex _ (leadsVex_vex2Byte hadm l) rfl, wellFormed_of_vexWellFormed_addr16 hw⟩
  · obtain ⟨hwf, henc, hp, hrm, -⟩ := vex3Instr_fields l word p v reg rm
    rw [hwf, vex3WellFormed_iff] at h
    obtain ⟨hadm, hw⟩ := h
    rw [henc, hp, hrm, encodeVex3_eq]
    exact ⟨_, _, reg, rfl, fun _ => takenAsPrefix_of_mem (.inr rfl), addrSizeByte_mem_prefixes,
      opcodeBytes_vex _ (leadsVex_vex3Byte1 hadm) rfl, wellFormed_of_vexWellFormed_addr16 hw⟩
  · obtain ⟨hwf, henc, hp, hrm, -⟩ := evexInstr_fields vl word p v reg rm
    rw [hwf, evexWellFormed_iff] at h
    obtain ⟨hadm, -, hw⟩ := h
    rw [henc, hp, hrm, encodeEvex_eq]
    exact ⟨_, _, reg, rfl, fun _ => takenAsPrefix_of_mem (.inr rfl), addrSizeByte_mem_prefixes,
      opcodeBytes_vex _ (leadsVex_evexByte0 hadm) rfl, wellFormed_of_vexWellFormed_addr16 hw⟩

/-- Settles O5: the scan takes the prefixes given and the form's own together; the opcode bytes behind them make LOCK, and under
VEX and EVEX the others, #UD once the operand bytes are there. -/
theorem illegal_prefix_is_invalid_opcode : Obligations.Illegal_prefix_is_invalid_opcode := by
  intro m i ps rest hw hps h67 hbad
  obtain ⟨own, opc, reg, henc, hown, hown67, hopc, hrm⟩ := encode_parts hw
  obtain ⟨s, hs, hd⟩ := decode_of_taken (List.forall_mem_append.mpr ⟨hps, hown⟩)
    (fun s => hopc.stop s (encodeRegMem reg i.regMem ++ rest))
  have hillegal : s.lock = true ∨ (i.formClass = .vex ∨ i.formClass = .evex) ∧ s.illegalBeforeVex = true := by
    rw [hs.lock, hs.illegalBeforeVex]
    refine hbad.imp (fun hf0 => ?_) (And.imp_right fun ⟨b, hb, hbv⟩ => ?_)
    · simp [hf0]
    · exact List.any_eq_true.mpr ⟨b, List.mem_append_left own hb, forbiddenBeforeVex_iff.mpr (hbv.imp_left (.tail _))⟩
  have hrm' : i.regMem.wellFormed (m.addr16 s.addrSize) = true := by
    have hsize : s.addrSize = (decide (0x67#8 ∈ ps) || i.prefixes.a67) := by
      simp [hs.addrSize, hown67]
    by_cases hmem : 0x67#8 ∈ ps
    · rcases h67 hmem with rfl | ha | ⟨r, hr⟩
      · exact hrm
      · rw [ha] at hrm
        simpa [hsize, hmem] using hrm
      · rw [hr]
        rfl
    · simpa [hsize, hmem] using hrm
  have hlist : ps ++ (encode i ++ rest) = (ps ++ own) ++ (opc ++ (encodeRegMem reg i.regMem ++ rest)) := by
    simp [henc]
  have hlen : ((ps ++ own) ++ (opc ++ (encodeRegMem reg i.regMem ++ rest))).length = ps.length + i.length + rest.length := by
    simp [← hlist, Instr.length, Nat.add_assoc]
  rw [hlist, hd, hopc.illegal _ _ _ hillegal, hlen, finishIllegal_encodeRegMem hrm']

/-! ### EVEX payloads -/

/-- Any third payload byte gives V', z and `aaa`, and none of the other fields (R87). -/
theorem evexOf_of_payload (v : Evex) (p2 : Byte) :
    evexOf (evexByte0 v) (evexByte1 v) p2 =
      { v with vHi := !p2.getLsbD 3, z := p2.getLsbD 7, aaa := p2.extractLsb' 0 3 } := by
  simp only [evexOf, evexByte0_fields, evexByte1_fields, Bool.not_not]

/-- `b = 1`, `L'L = 11`, and `z = 1` with `aaa = 000` are asked behind a payload that is otherwise well formed (R90, R93, R94). -/
theorem decodeEvex_of_illegal {m : Mode} {v : Evex} {p2 : Byte}
    (hadm : (evexOf (evexByte0 v) (evexByte1 v) p2).Admitted m)
    (hbad : p2.getLsbD 4 = true ∨ p2.extractLsb' 5 2 = 3#2 ∨ (p2.getLsbD 7 = true ∧ p2.extractLsb' 0 3 = 0#3))
    (total : Nat) (s : Scan) (word : Bool) (bs : List Byte) :
    decodeEvex m total s (evexByte0 v :: evexByte1 v :: p2 :: opcodeByte word :: bs) =
      finishIllegal total (m.addr16 s.addrSize) bs := by
  simp only [decodeEvex, if_neg (Evex.admitted_iff.mp hadm), evexByte0_fields, evexByte1_fields, wordForm_opcodeByte,
    ne_eq, not_true, BitVec.reduceEq, or_self, if_false, Bool.true_eq_false]
  split
  · rfl
  · next hb =>
    split
    · rfl
    · next vl hvl =>
      refine if_pos ?_
      rcases hbad with hb' | hll | hz
      · exact absurd hb' hb
      · rw [hll] at hvl
        cases hvl
      · exact hz

/-- Settles O6: behind LOCK, 66, F2, F3 or REX it is #UD for these, else for its payload, in both cases once the operand bytes
are there. -/
theorem illegal_evex_payload_is_invalid_opcode : Obligations.Illegal_evex_payload_is_invalid_opcode := by
  intro m v p2 word reg rm ps rest hext hrm hps hbad
  obtain ⟨s, hs, hd⟩ := decode_of_taken hps
    (bs := 0x62#8 :: evexByte0 v :: evexByte1 v :: p2 :: opcodeByte word :: (encodeRegMem reg rm ++ rest))
    (fun s => scanPrefixes_cons_stop rfl rfl m s _)
  have hadm : (evexOf (evexByte0 v) (evexByte1 v) p2).Admitted m := by
    rw [evexOf_of_payload]
    exact hext.imp_right fun ⟨hr, hx, hb, hrHi, _, hv, h3⟩ => ⟨hr, hx, hb, hrHi, by simp only [h3, Bool.not_true], hv⟩
  have hlead : leadsVex m 0x62#8 (evexByte0 v) = true := by
    rcases hext with rfl | ⟨hr, hx, -⟩
    · rfl
    · simp [leadsVex, vexLead, evexByte0_top hr hx]
  have hbody (total : Nat) :
      decodeBody m total s
          (0x62#8 :: evexByte0 v :: evexByte1 v :: p2 :: opcodeByte word :: (encodeRegMem reg rm ++ rest)) =
        finishIllegal total (m.addr16 s.addrSize) (encodeRegMem reg rm ++ rest) := by
    cases hill : s.illegalBeforeVex with
    | true => rw [decodeBody, if_pos hlead, if_pos hill]; rfl
    | false =>
      rw [decodeBody_of_leadsVex hlead hill, if_neg (by decide), if_neg (by decide), decodeEvex_of_illegal hadm hbad]
  have hlen : (ps ++ 0x62#8 :: evexByte0 v :: evexByte1 v :: p2 :: opcodeByte word ::
      (encodeRegMem reg rm ++ rest)).length = ps.length + 5 + (encodeRegMem reg rm).length + rest.length := by
    simp only [List.length_append, List.length_cons]
    omega
  rw [hd, hbody, hlen, hs.addrSize, finishIllegal_encodeRegMem hrm]

end Sys2Proof
end

section
/-! PROOFS. What the decoder accepts (30_encoding.md R70 to R100): the bytes behind the prefixes are those the encoder gives for
the form, and the prefixes are the form's own in any order. -/

namespace Sys2Proof

/-! ### The payloads: a byte is what its fields make -/

theorem eq_opcodeByte_of_wordForm {opc : Byte} {word : Bool} (h : wordForm opc = some word) : opc = opcodeByte word := by
  unfold wordForm at h
  split at h
  · next hopc => cases h; exact hopc
  · split at h
    · next hopc => cases h; exact hopc
    · cases h

/-- Two-byte VEX, where `pp` is 01 (R84, R85). -/
theorem vex2Byte_vex2Of {v1 : Byte} (h : v1.extractLsb' 0 2 = 1#2) : vex2Byte (v1.getLsbD 2) (vex2Of v1) = v1 := by
  revert v1
  decide

/-- Three-byte VEX, where `mmmmm` is 00001 (R83, R85). -/
theorem vex3Byte1_vex3Of {v1 : Byte} (h : v1.extractLsb' 0 5 = 1#5) (v2 : Byte) : vex3Byte1 (vex3Of v1 v2) = v1 := by
  simp only [vex3Byte1, vex3Of]
  revert v1
  decide

/-- Three-byte VEX, where `pp` is 01 (R83, R85). -/
theorem vex3Byte2_vex3Of {v2 : Byte} (h : v2.extractLsb' 0 2 = 1#2) (v1 : Byte) :
    vex3Byte2 (v2.getLsbD 2) (vex3Of v1 v2) = v2 := by
  simp only [vex3Byte2, vex3Of]
  revert v2
  decide

/-- EVEX, where bits 3:2 of `P0` are 0 and `mm` is 01 (R87, R89). -/
theorem evexByte0_evexOf {p0 : Byte} (h0 : p0.extractLsb' 2 2 = 0#2) (h1 : p0.extractLsb' 0 2 = 1#2) (p1 p2 : Byte) :
    evexByte0 (evexOf p0 p1 p2) = p0 := by
  simp only [evexByte0, evexOf]
  revert p0
  decide

/-- EVEX, where bit 2 of `P1` is 1 and `pp` is 01 (R87, R89). -/
theorem evexByte1_evexOf {p1 : Byte} (h2 : p1.getLsbD 2 = true) (hpp : p1.extractLsb' 0 2 = 1#2) (p0 p2 : Byte) :
    evexByte1 (evexOf p0 p1 p2) = p1 := by
  simp only [evexByte1, evexOf]
  revert p1
  decide

/-- EVEX, where `L'L` names a vector length and `b` is 0 (R87, R90, R94). -/
theorem evexByte2_evexOf {p2 : Byte} {vl : EvexLen} (hvl : evexLen (p2.extractLsb' 5 2) = some vl)
    (hb : p2.getLsbD 4 = false) (p0 p1 : Byte) : evexByte2 vl (evexOf p0 p1 p2) = p2 := by
  simp only [evexByte2, evexOf]
  revert p2
  cases vl <;> decide

/-! ### The form behind the prefixes -/

/-- `bs` begins with what the encoder gives for the well-formed `i` behind its prefixes `own`. -/
def BeginsWith (m : Mode) (bs own : List Byte) (i : Instr) : Prop :=
  i.wellFormed m = true ∧ ∃ body rest, bs = body ++ rest ∧ encode i = own ++ body

/-- A decoded operand is one the encoding admits, and its bytes are the encoder's (R75 to R77). -/
theorem finish_eq_form {total n : Nat} {a16 : Bool} {mk : BitVec 3 → RegMem → Instr} {bs : List Byte} {i : Instr}
    (h : finish total a16 mk bs = .form i n) :
    ∃ reg rm rest, rm.wellFormed a16 = true ∧ bs = encodeRegMem reg rm ++ rest ∧ i = mk reg rm := by
  unfold finish at h
  split at h
  · cases h
  · next reg rm rest ht =>
    split at h
    · cases h
    · cases h
      obtain ⟨hw, hbs⟩ := takeRegMem_eq_some_iff.mp ht
      exact ⟨reg, rm, rest, hw, hbs, rfl⟩

/-- As `finish_eq_form`: a decoded memory operand of a VEX or EVEX form does not use 16-bit addressing (D16). -/
theorem finishVex_eq_form {m : Mode} {total n : Nat} {s : Scan} {need : FeatureNeed} {mk : BitVec 3 → RegMem → Instr}
    {bs : List Byte} {i : Instr} (h : finishVex m total s need mk bs = .form i n) :
    ∃ reg rm rest, rm.vexWellFormed m s.addrSize = true ∧ bs = encodeRegMem reg rm ++ rest ∧ i = mk reg rm := by
  unfold finishVex at h
  split at h
  · cases h
  · next h16 =>
    split at h
    · cases h
    · obtain ⟨reg, rm, rest, hw, rfl, hi⟩ := finish_eq_form h
      refine ⟨reg, rm, rest, ?_, rfl, hi⟩
      cases rm with
      | reg r => rfl
      | mem a =>
        have hmod : a.mod ≠ 3#2 := by
          simp only [RegMem.wellFormed, MemAddr.wellFormed, Bool.and_eq_true, bne_iff_ne] at hw
          exact hw.1.1
        have haddr : m.addr16 s.addrSize = false := by
          simpa [encodeRegMem, memory16, extract_fields, hmod] using h16
        simp only [RegMem.vexWellFormed, haddr, Bool.not_false, Bool.true_and]
        exact hw

/-- A form in two-byte VEX has the bytes the encoder gives it, with the prefixes kept (R84 to R86). -/
theorem decodeVex2_eq_form {m : Mode} {total n : Nat} {s : Scan} {bs : List Byte} {i : Instr}
    (h : decodeVex2 m total s bs = .form i n) :
    BeginsWith m (0xC5#8 :: bs) (legacyPrefixes s.kept false ++ rexBytes none) i := by
  rcases bs with _ | ⟨v1, _ | ⟨opc, bs⟩⟩
  · exact absurd h cutShort_ne_form
  · exact absurd h cutShort_ne_form
  · simp only [decodeVex2] at h
    split at h
    · cases h
    · next hext =>
      split at h
      · cases h
      · next hpp =>
        split at h
        · cases h
        · next word hword =>
          obtain ⟨reg, rm, rest, hw, rfl, rfl⟩ := finishVex_eq_form h
          obtain ⟨hwf, henc, -⟩ := vex2Instr_fields (v1.getLsbD 2) word s.kept (vex2Of v1) reg rm
          refine ⟨(hwf m).trans (vex2WellFormed_iff.mpr ⟨Vex2.admitted_iff.mpr hext, hw⟩), _, rest, ?_,
            henc.trans (encodeVex2_eq ..)⟩
          rw [vex2Byte_vex2Of (not_not.mp hpp), ← eq_opcodeByte_of_wordForm hword]
          simp

/-- A form in three-byte VEX has the bytes the encoder gives it, with the prefixes kept (R83, R85, R86). -/
theorem decodeVex3_eq_form {m : Mode} {total n : Nat} {s : Scan} {bs : List Byte} {i : Instr}
    (h : decodeVex3 m total s bs = .form i n) :
    BeginsWith m (0xC4#8 :: bs) (legacyPrefixes s.kept false ++ rexBytes none) i := by
  rcases bs with _ | ⟨v1, _ | ⟨v2, _ | ⟨opc, bs⟩⟩⟩
  · exact absurd h cutShort_ne_form
  · exact absurd h cutShort_ne_form
  · exact absurd h cutShort_ne_form
  · simp only [decodeVex3] at h
    split at h
    · cases h
    · next hext =>
      split at h
      · cases h
      · next hfixed =>
        split at h
        · cases h
        · next word hword =>
          obtain ⟨hmmmmm, hpp⟩ : v1.extractLsb' 0 5 = 1#5 ∧ v2.extractLsb' 0 2 = 1#2 := by
            simpa only [ne_eq, not_or, not_not] using hfixed
          obtain ⟨reg, rm, rest, hw, rfl, rfl⟩ := finishVex_eq_form h
          obtain ⟨hwf, henc, -⟩ := vex3Instr_fields (v2.getLsbD 2) word s.kept (vex3Of v1 v2) reg rm
          refine ⟨(hwf m).trans (vex3WellFormed_iff.mpr ⟨Vex3.admitted_iff.mpr hext, hw⟩), _, rest, ?_,
            henc.trans (encodeVex3_eq ..)⟩
          rw [vex3Byte1_vex3Of hmmmmm, vex3Byte2_vex3Of hpp, ← eq_opcodeByte_of_wordForm hword]
          simp

/-- A form in EVEX has the bytes the encoder gives it, with the prefixes kept (R87 to R95). -/
theorem decodeEvex_eq_form {m : Mode} {total n : Nat} {s : Scan} {bs : List Byte} {i : Instr}
    (h : decodeEvex m total s bs = .form i n) :
    BeginsWith m (0x62#8 :: bs) (legacyPrefixes s.kept false ++ rexBytes none) i := by
  rcases bs with _ | ⟨p0, _ | ⟨p1, _ | ⟨p2, _ | ⟨opc, bs⟩⟩⟩⟩
  · exact absurd h cutShort_ne_form
  · exact absurd h cutShort_ne_form
  · exact absurd h cutShort_ne_form
  · exact absurd h cutShort_ne_form
  · simp only [decodeEvex] at h
    split at h
    · cases h
    · next hext =>
      split at h
      · exact absurd h finishIllegal_ne_form
      · next hfixed =>
        split at h
        · cases h
        · next hmap =>
          split at h
          · cases h
          · next word hword =>
            split at h
            · exact absurd h finishIllegal_ne_form
            · next hb =>
              split at h
              · exact absurd h finishIllegal_ne_form
              · next vl hvl =>
                split at h
                · exact absurd h finishIllegal_ne_form
                · next hz =>
                  obtain ⟨hzero, hone, -⟩ :
                      p0.extractLsb' 2 2 = 0#2 ∧ p1.getLsbD 2 = true ∧ p0.extractLsb' 0 2 ≠ 0#2 := by
                    simpa only [ne_eq, not_or, not_not, Bool.not_eq_false] using hfixed
                  obtain ⟨hmm, hpp⟩ : p0.extractLsb' 0 2 = 1#2 ∧ p1.extractLsb' 0 2 = 1#2 := by
                    simpa only [ne_eq, not_or, not_not] using hmap
                  obtain ⟨reg, rm, rest, hw, rfl, rfl⟩ := finishVex_eq_form h
                  obtain ⟨hwf, henc, -⟩ := evexInstr_fields vl word s.kept (evexOf p0 p1 p2) reg rm
                  refine ⟨(hwf m).trans (evexWellFormed_iff.mpr
                      ⟨Evex.admitted_iff.mpr hext, not_and.mp hz, hw⟩), _, rest, ?_, henc.trans (encodeEvex_eq ..)⟩
                  rw [evexByte0_evexOf hzero hmm, evexByte1_evexOf hone hpp,
                    evexByte2_evexOf hvl (Bool.eq_false_of_not_eq_true hb), ← eq_opcodeByte_of_wordForm hword]
                  simp

/-- A legacy form has the bytes the encoder gives it, with the prefixes and the REX byte recorded, none of them LOCK, F2 or F3
(R72 to R74). -/
theorem decodeLegacy_eq_form {m : Mode} {total n : Nat} {s : Scan} {bs : List Byte} {i : Instr}
    (hx : m = .m64 ∨ s.rex = none) (h : decodeLegacy m total s bs = .form i n) :
    s.lock = false ∧ s.rep = false ∧ BeginsWith m bs (legacyPrefixes s.kept s.opSize ++ rexBytes s.rex) i := by
  rcases bs with _ | ⟨b, bs⟩
  · exact absurd h cutShort_ne_form
  simp only [decodeLegacy] at h
  split at h
  · next hescape =>
    rcases bs with _ | ⟨opc, bs⟩
    · exact absurd h cutShort_ne_form
    simp only at h
    split at h
    · cases h
    · next word hword =>
      split at h
      · exact absurd h finishIllegal_ne_form
      · next hlock =>
        split at h
        · cases h
        · next hrep =>
          split at h
          · cases h
          · obtain ⟨reg, rm, rest, hw, rfl, rfl⟩ := finish_eq_form h
            obtain ⟨hwf, henc, -⟩ := legacyInstr_fields s.opSize word s.kept s.rex reg rm
            refine ⟨Bool.eq_false_of_not_eq_true hlock, Bool.eq_false_of_not_eq_true hrep,
              (hwf m).trans (legacyWellFormed_iff.mpr ⟨hx, hw⟩), _, rest, ?_, henc.trans (encodeLegacy_eq ..)⟩
            rw [hescape, ← eq_opcodeByte_of_wordForm hword]
            simp
  · cases h

/-- A decoded form behind the prefixes `s`: they hold no LOCK, F2 or F3, and its bytes are the encoder's. -/
theorem decodeBody_eq_form {m : Mode} {total n : Nat} {s : Scan} {bs : List Byte} {i : Instr}
    (hx : m = .m64 ∨ s.rex = none) (h : decodeBody m total s bs = .form i n) :
    s.lock = false ∧ s.rep = false ∧ BeginsWith m bs (legacyPrefixes s.kept s.opSize ++ rexBytes s.rex) i := by
  unfold decodeBody at h
  split at h
  · next b next bs =>
    split at h
    · next hlead =>
      split at h
      · exact absurd h finishIllegal_ne_form
      · next hlegal =>
        simp only [Scan.illegalBeforeVex, Bool.or_eq_true, not_or, Bool.not_eq_true, Option.isSome_eq_false_iff,
          Option.isNone_iff_eq_none] at hlegal
        obtain ⟨⟨⟨hlock, hrep⟩, h66⟩, hnorex⟩ := hlegal
        rw [h66, hnorex]
        refine ⟨hlock, hrep, ?_⟩
        split at h
        · next hb => exact hb ▸ decodeVex2_eq_form h
        · next hC5 =>
          split at h
          · next hb => exact hb ▸ decodeVex3_eq_form h
          · next hC4 =>
            obtain rfl : b = 0x62#8 := by
              simpa [leadsVex, vexLead, hC5, hC4] using And.left (Bool.and_eq_true_iff.mp hlead)
            exact decodeEvex_eq_form h
    · exact decodeLegacy_eq_form hx h
  · split at h
    · split at h
      · cases h
      · exact absurd h cutShort_ne_form
    · exact decodeLegacy_eq_form hx h
  · exact absurd h cutShort_ne_form

/-! ### The prefixes of a decoded form -/

/-- There is a REX byte in 64-bit mode only (R73). -/
theorem rex_eq_none_of_scan {m : Mode} {l : List Byte} {s : Scan} (h : scanPrefixes m Scan.empty l = (s, [])) :
    m = .m64 ∨ s.rex = none := by
  refine scanPrefixes_induction (P := fun _ s => m = .m64 ∨ s.rex = none) (.inr rfl) (fun l s b q hs hq => ?_)
    (fun hm _ _ _ _ => .inl hm) h
  cases q <;> exact hs

/-- A byte of a group that was not recorded before is one more of the form's own prefixes (R71). -/
theorem perm_legacyPrefixes_add {s : Scan} {b : Byte} {q : PrefixByte} (hb : b ∈ q.bytes) (htaken : s.taken q = false)
    (hlock : (s.add q).lock = false) (hrep : (s.add q).rep = false) :
    (legacyPrefixes s.kept s.opSize ++ [b]).Perm (legacyPrefixes (s.add q).kept (s.add q).opSize) := by
  cases q with
  | lock => cases hlock
  | rep => cases hrep
  | seg n =>
    obtain rfl := List.mem_singleton.mp hb
    have hseg : s.seg = none := by simpa [Scan.taken] using htaken
    have hadd : legacyPrefixes (s.add (.seg n)).kept (s.add (.seg n)).opSize =
        segByte n :: legacyPrefixes s.kept s.opSize := by
      have hkept : s.kept = ⟨none, s.addrSize⟩ := by rw [Scan.kept, hseg]
      rw [hkept]
      rfl
    rw [hadd]
    exact List.perm_append_singleton ..
  | opSize =>
    obtain rfl := List.mem_singleton.mp hb
    have h66 : s.opSize = false := htaken
    have hadd : legacyPrefixes (s.add .opSize).kept (s.add .opSize).opSize =
        legacyPrefixes s.kept s.opSize ++ [0x66#8] := by
      simp [legacyPrefixes, Scan.kept, Scan.add, Scan.set, h66]
    rw [hadd]
  | addrSize =>
    obtain rfl := List.mem_singleton.mp hb
    have h67 : s.addrSize = false := htaken
    simp only [legacyPrefixes, encodePrefixes, Scan.kept, Scan.add, Scan.set, h67, Bool.false_eq_true, if_true, if_false,
      List.append_nil, List.append_assoc]
    exact (List.perm_append_comm).append_left _

/-- The bytes `l` are what the encoder gives for the legacy prefixes recorded in `s`, in any order, then its REX byte, if there is
one (R71, R73). -/
def Scan.MadeOf (s : Scan) (l : List Byte) : Prop :=
  ∃ ps, l = ps ++ rexBytes s.rex ∧ ps.Perm (legacyPrefixes s.kept s.opSize) ∧ ∀ b ∈ ps, (prefixOf b).isSome = true

/-- What a scan took, where D15 refuses none of it and it holds no LOCK, F2 or F3. -/
theorem madeOf_of_scan {m : Mode} {l : List Byte} {s : Scan} (h : scanPrefixes m Scan.empty l = (s, [])) :
    s.Clean → s.lock = false → s.rep = false → s.MadeOf l := by
  refine scanPrefixes_induction (P := fun l s => s.Clean → s.lock = false → s.rep = false → s.MadeOf l) ?nil ?add ?addRex h
  case nil => exact fun _ _ _ => ⟨[], rfl, .nil, nofun⟩
  case add =>
    intro l s b q ih hb ⟨hred, hmis⟩ hlock hrep
    simp only [Scan.add, Bool.or_eq_false_iff] at hred hmis
    obtain ⟨hred, htaken⟩ := hred
    obtain ⟨hmis, hnorex⟩ := hmis
    have hnorex : s.rex = none := by simpa using hnorex
    have hold : s.lock = false ∧ s.rep = false ∧ (s.add q).rex = none := by
      cases q with
      | lock => cases hlock
      | rep => cases hrep
      | _ => exact ⟨hlock, hrep, hnorex⟩
    obtain ⟨hlock', hrep', hnorex'⟩ := hold
    obtain ⟨ps, rfl, hperm, hps⟩ := ih ⟨hred, hmis⟩ hlock' hrep'
    refine ⟨ps ++ [b], ?_, (hperm.append_right [b]).trans (perm_legacyPrefixes_add hb htaken hlock hrep), ?_⟩
    · rw [hnorex, hnorex', rexBytes, List.append_nil, List.append_nil]
    · exact List.forall_mem_append.mpr ⟨hps, List.forall_mem_singleton.mpr
        (Option.isSome_iff_exists.mpr ⟨q, prefixOf_eq_some_iff.mpr hb⟩)⟩
  case addRex =>
    intro _ l s x ih ⟨hred, hmis⟩ hlock hrep
    simp only [Scan.addRex, Bool.or_eq_false_iff] at hred hmis
    obtain ⟨hmis, hnorex⟩ := hmis
    have hnorex : s.rex = none := by simpa using hnorex
    obtain ⟨ps, rfl, hperm, hps⟩ := ih ⟨hred, hmis⟩ hlock hrep
    exact ⟨ps, by rw [hnorex, rexBytes, List.append_nil]; rfl, hperm, hps⟩

/-- The bytes of a decoded form are its encoding, but for the order of its legacy prefixes, and then the rest. -/
theorem decode_eq_form {m : Mode} {bs : List Byte} {i : Instr} {n : Nat} (h : decode m bs = .form i n) :
    i.wellFormed m = true ∧ ∃ ps own body rest, bs = ps ++ body ++ rest ∧ encode i = own ++ body ∧ ps.Perm own ∧
      ∀ b ∈ ps, (prefixOf b).isSome = true := by
  unfold decode at h
  have hscan : scanPrefixes m Scan.empty bs =
      ((scanPrefixes m Scan.empty bs).1, (scanPrefixes m Scan.empty bs).2) := rfl
  generalize (scanPrefixes m Scan.empty bs).1 = s, (scanPrefixes m Scan.empty bs).2 = r at h hscan
  obtain ⟨l, rfl, hl⟩ := scanPrefixes_split hscan
  obtain ⟨hlock, hrep, hwf, body, rest, rfl, henc⟩ := decodeBody_eq_form (rex_eq_none_of_scan hl) h
  obtain ⟨hclean, -⟩ := decodeBody_form (scanPrefixes_rex hscan nofun) h
  obtain ⟨ps, rfl, hperm, hps⟩ := madeOf_of_scan hl hclean hlock hrep
  exact ⟨hwf, ps, _, rexBytes s.rex ++ body, rest, by simp, by simp [henc], hperm, hps⟩

/-- The order of its prefixes does not change an instruction's length (R27). -/
theorem length_of_perm_prefixes {i : Instr} {ps own body : List Byte} (henc : encode i = own ++ body)
    (hperm : ps.Perm own) : i.length = (ps ++ body).length := by
  rw [Instr.length, henc, List.length_append, List.length_append, hperm.length_eq]

/-- Settles O2: the bytes behind the prefixes are read back field by field, and the prefixes one by one; the length is the
instruction's own, so these bytes are all it takes. -/
theorem decoded_is_well_formed : Obligations.Decoded_is_well_formed := by
  intro m bs i n h
  obtain ⟨hwf, ps, own, body, rest, rfl, henc, hperm, hps⟩ := decode_eq_form h
  obtain ⟨rfl, -⟩ := decode_form_length h
  refine ⟨hwf, ps, own, body, henc, ?_, hperm, hps⟩
  rw [length_of_perm_prefixes henc hperm, List.take_left']
  rfl

/-- Settles O3: the length is the instruction's own, which the decoder has found within the bytes given and within the limit. -/
theorem decoded_length : Obligations.Decoded_length := by
  intro m bs i n h
  obtain ⟨rfl, hle⟩ := decode_form_length h
  obtain ⟨-, ps, own, body, rest, rfl, henc, hperm, -⟩ := decode_eq_form h
  refine ⟨rfl, three_le_length i, hle, ?_⟩
  rw [length_of_perm_prefixes henc hperm, List.length_append (bs := rest)]
  exact Nat.le_add_right ..

end Sys2Proof
end

section
/-! PROOFS. Reading a memory operand that passes its checks (20_memory.md R51 to R63), and the loads of rows 1
to 4. -/

namespace Sys2Proof.Machine

/-! ### What is read -/

theorem physOf_of_translate {s : State} {a : Word64} {n : Nat} (h : s.translate a = .ok n) : s.physOf a = n := by
  simp only [State.physOf, h]

/-- Readable bytes lie in no device, so the read takes place (R62, D8). -/
theorem readOperand_of_readable {s : State} {m : Mode} {p : Place} (h : s.Readable m p) (N : Nat) :
    s.readOperand m p N = .ok (s.operandValue m p N, s.afterRead m p) := by
  have hdev : s.operandHas m p .device = false := List.any_eq_false.mpr fun i hi => by
    obtain ⟨-, b, hb, hkind⟩ := h i (List.mem_range.mp hi)
    simpa [physOf_of_translate hb] using hkind
  simp [State.readOperand, hdev]

/-- A byte of ordinary memory is read as it stands there (R63). -/
theorem operandByte_of_ordinary {s : State} {m : Mode} {p : Place} {i a : Nat}
    (ht : s.translate (linByte m p.lin i) = .ok a) (hk : s.kindAt a = .ordinary) : s.operandByte m p i = s.byteAt a := by
  simp [State.operandByte, physOf_of_translate ht, hk]

/-- An operand all of whose bytes are ordinary memory takes no draws (notes/assumptions/14.md). -/
theorem operandHas_shared_of_ordinary {s : State} {m : Mode} {p : Place} (h : s.Readable m p)
    (hord : ∀ i < p.size, ∀ a, s.translate (linByte m p.lin i) = .ok a → s.kindAt a = .ordinary) :
    s.operandHas m p .shared = false := by
  refine List.any_eq_false.mpr fun i hi => ?_
  have hi := List.mem_range.mp hi
  obtain ⟨-, a, ha, -⟩ := h i hi
  simp [physOf_of_translate ha, hord i hi a ha]

/-- The operand's value holds byte `i` at bits 8i+7:8i (R52). -/
theorem extractLsb'_operandValue (s : State) (m : Mode) {p : Place} {N : Nat} (hN : 8 * p.size ≤ N) {i : Nat}
    (hi : i < p.size) : (s.operandValue m p N).extractLsb' (8 * i) 8 = s.operandByte m p i :=
  lane_ofLanes 8 N _ _ i (by decide) hi hN

/-- What is read of a readable operand is what memory holds, as far as it is fixed. -/
theorem reads_operandValue {s : State} {m : Mode} {p : Place} {N : Nat} (h : s.Readable m p) (hN : 8 * p.size ≤ N) :
    s.Reads m p (s.operandValue m p N) (s.afterRead m p).draws := by
  refine ⟨fun i hi a ha hk => ?_, fun hord => ?_⟩
  · rw [extractLsb'_operandValue s m hN hi, operandByte_of_ordinary ha hk]
  · simp [operandHas_shared_of_ordinary h hord]

/-! ### The loads of rows 1 to 4 -/

/-- Readable bytes on a 16-byte boundary pass every test of rows 2 and 4 (R56, R57, R60). -/
theorem byteStop_of_readable_aligned {s : State} {m : Mode} {p : Place} (h : s.Readable m p)
    (ha : p.lin.toNat % 16 = 0) (sel : Nat → Bool) : s.byteStop m p true sel = none := by
  obtain ⟨hcanon, -, htrans⟩ := (byteStop_eq_none_iff ..).mp (byteStop_of_readable h sel)
  exact (byteStop_eq_none_iff ..).mpr ⟨hcanon, fun _ => (extractLsb'_low4_eq_zero_iff _).mpr ha, htrans⟩

section
variable {s : State} {c : AddrCtx} {ov : Option SegName} {a : MemAddr}

theorem loadMm_of_readable (hseg : s.SegmentOk c ov a 8) (hread : s.Readable c.mode (s.place c ov a 8))
    (hal : s.alignmentChecking = true → (s.place c ov a 8).lin.toNat % 8 = 0) :
    s.loadMm c ov a =
      .ok (s.operandValue c.mode (s.place c ov a 8) 64, s.afterRead c.mode (s.place c ov a 8)) := by
  have hcheck : (s.alignmentChecking && !(s.place c ov a 8).aligned) = false := by
    cases hac : s.alignmentChecking with
    | false => rfl
    | true =>
      have haligned : (s.place c ov a 8).aligned = true := beq_iff_eq.mpr (hal hac)
      rw [haligned]
      rfl
  simp [State.loadMm, segmentStop_of_segmentOk hseg, byteStop_of_readable hread, hcheck, readOperand_of_readable hread]

theorem loadSse_of_readable (hseg : s.SegmentOk c ov a 16) (hread : s.Readable c.mode (s.place c ov a 16))
    (hal : (s.place c ov a 16).lin.toNat % 16 = 0) :
    s.loadSse c ov a =
      .ok (s.operandValue c.mode (s.place c ov a 16) 128, s.afterRead c.mode (s.place c ov a 16)) := by
  simp [State.loadSse, segmentStop_of_segmentOk hseg, byteStop_of_readable_aligned hread hal,
    readOperand_of_readable hread]

end

end Sys2Proof.Machine
end

section
/-! PROOFS. Rows 1 to 4 (40_paddus_legacy.md R110 to R116): what they complete with, and what they leave as it was. -/

namespace Sys2Proof.Machine

/-- The saturated sum is the sum of every lane, or all ones where it exceeds them (R11, R12 (a)). -/
theorem sumOf_addUS {w : Nat} (hw : 0 < w) {N : Nat} (A B : BitVec N) : SumOf w (addUS w N A B) A B :=
  fun j hj => lane_addUS_toNat w N A B j hw hj

theorem laneBits_pos (i : Instr) : 0 < i.laneBits := by
  cases i <;> exact Nat.succ_pos _

/-! ### Rows 1 and 3 -/

section
variable {b : Bool} {p : Prefixes} {x : Option Rex} {reg : BitVec 3} {rm : RegMem} {s : State} {m : Mode}

/-- Rows 1 and 3 differ in their lane width alone (R111, R113). -/
theorem exec_mmx_eq_runMmx (b : Bool) (p : Prefixes) (x : Option Rex) (reg : BitVec 3) (rm : RegMem) (s : State) :
    exec (legacyInstr false b p x reg rm) s =
      runMmx (legacyInstr false b p x reg rm).laneBits p x reg rm (legacyInstr false b p x reg rm).length s := by
  cases b <;> rfl

theorem formClass_legacyInstr_mmx (b : Bool) (p : Prefixes) (x : Option Rex) (reg : BitVec 3) (rm : RegMem) :
    (legacyInstr false b p x reg rm).formClass = .mmx := by
  cases b <;> rfl

theorem mmxDest_legacyInstr_mmx (b : Bool) (p : Prefixes) (x : Option Rex) (reg : BitVec 3) (rm : RegMem) :
    (legacyInstr false b p x reg rm).mmxDest = some reg := by
  cases b <;> rfl

/-- An enabled run completes where its operand is read. -/
theorem runMmx_of_source {len n : Nat} {y : Word64} (hm : s.mode = some m) (he : s.MmxEnabled)
    (h : s.sourceMm m p x len rm = .ok (y, { s with draws := n })) (w : Nat) (reg : BitVec 3) :
    runMmx w p x reg rm len s =
      .next ((({ s with draws := n } : State).writeMm reg (addUS w 64 (s.mm reg) y)).advance m len) := by
  obtain ⟨hud, hnm, hmf⟩ := he.passes
  simp [runMmx, hm, hud, hnm, hmf, h]

theorem mmxResult_of_source {n : Nat} {y : Word64} (hm : s.mode = some m) (he : s.MmxEnabled)
    (h : s.sourceMm m p x (legacyInstr false b p x reg rm).length rm = .ok (y, { s with draws := n })) :
    MmxResult (legacyInstr false b p x reg rm) reg y n s m :=
  ⟨_, sumOf_addUS (laneBits_pos ..) _ _, (exec_mmx_eq_runMmx ..).trans (runMmx_of_source hm he h ..)⟩

theorem mmxMemoryResult_of_enabled {a : MemAddr} (hm : s.mode = some m) (he : s.MmxEnabled) :
    MmxMemoryResult (legacyInstr false b p x reg (.mem a)) p x reg a s m := by
  intro hseg hread hal
  exact ⟨_, _, reads_operandValue hread (Nat.le_refl 64),
    mmxResult_of_source hm he (loadMm_of_readable hseg hread hal)⟩

end

/-- Settles O27: a register operand is read as it stands. -/
theorem mmx_register_result : Obligations.Mmx_register_result :=
  fun _ _ _ _ _ _ hm he =>
    ⟨mmxResult_of_source (b := false) hm he rfl, mmxResult_of_source (b := true) hm he rfl⟩

/-- Settles O31: a readable operand passes the checks of R61, and is read as memory holds it. -/
theorem mmx_memory_result : Obligations.Mmx_memory_result :=
  fun _ _ _ _ _ _ hm he =>
    ⟨mmxMemoryResult_of_enabled (b := false) hm he, mmxMemoryResult_of_enabled (b := true) hm he⟩

/-- The write of an MMX register clears `TOP`, bits 13:11 of the status word (R115). -/
theorem top_writeMm (s : State) (d : BitVec 3) (y : Word64) : (s.writeMm d y).top = 0#3 := by
  apply BitVec.eq_of_getLsbD_eq
  intro j hj
  have hmask : ∀ k : Fin 3, (0xC7FF#16).getLsbD (11 + k.val) = false := by decide
  simp [State.top, hmask ⟨j, hj⟩]

/-- The register written holds ones above its new MMX value (R115). -/
theorem fpr_writeMm_same (s : State) (d : BitVec 3) (y : Word64) :
    (s.writeMm d y).fpr.get d.toFin = 0xFFFF#16 ++ (s.writeMm d y).mm d := by
  rw [mm_writeMm, if_pos rfl]
  simp [Vector.get_eq_getElem]

/-- The x87 side effects of a completed row 1 or 3 (R115). -/
theorem Completion.x87 {m : Mode} {i : Instr} {s t : State} {d : BitVec 3} (h : Completion m i s t)
    (hd : i.mmxDest = some d) (hcls : i.formClass = .mmx) :
    t.top = 0#3 ∧ t.ftw = 0#16 ∧ t.fpr.get d.toFin = 0xFFFF#16 ++ t.mm d := by
  cases h with
  | mmx d' y n hd' _ =>
    obtain rfl : d' = d := Option.some.inj (hd'.symm.trans hd)
    exact ⟨top_writeMm _ d' y, rfl, fpr_writeMm_same _ d' y⟩
  | vector _ _ _ _ hne _ => exact absurd hcls hne

theorem after_of_outcome_eq_fault {t : Stop} {s : State} {f : Fault} (h : t.outcome s = .fault f) :
    f.after = { s with cr2 := f.after.cr2 } := by
  cases t with
  | refuse r => cases h
  | exc e =>
    obtain ⟨g, hg, hafter, -⟩ := raise_eq_fault e s
    obtain rfl : g = f := Host.Outcome.fault.inj (hg.symm.trans h)
    exact hafter

/-- A run of rows 1 and 3 that faults leaves all but CR2 as it was (R171). -/
theorem runMmx_fault_after {w : Nat} {p : Prefixes} {x : Option Rex} {reg : BitVec 3} {rm : RegMem} {len : Nat}
    {s : State} {f : Fault} (h : runMmx w p x reg rm len s = .fault f) : f.after = { s with cr2 := f.after.cr2 } := by
  cases hm : s.mode with
  | none => exact absurd ((runMmx_of_mode_none hm ..).symm.trans h) nofun
  | some m =>
    rcases runMmx_cases w p x reg rm len s m hm with
      ⟨-, he⟩ | ⟨-, -, he⟩ | ⟨-, -, -, he⟩ | ⟨-, -, -, t, -, -, -, he⟩ | ⟨-, -, -, y, n, -, he⟩
    · exact after_of_outcome_eq_fault (t := .exc .ud) (he.symm.trans h)
    · exact after_of_outcome_eq_fault (t := .exc .nm) (he.symm.trans h)
    · split at he
      · exact after_of_outcome_eq_fault (t := .exc .mf) (he.symm.trans h)
      · exact absurd (he.symm.trans h) nofun
    · exact after_of_outcome_eq_fault (he.symm.trans h)
    · exact absurd (he.symm.trans h) nofun

/-- Settles O52: completion writes what R115 says and keeps the rest of the x87 state; a fault leaves the state before,
but for CR2. -/
theorem mmx_x87_side_effects : Obligations.Mmx_x87_side_effects := by
  intro b p x reg rm s
  refine ⟨fun t h => ?_, fun f h => ?_⟩
  · obtain ⟨m, -, hcompl⟩ := exec_completion h
    have hdest := mmxDest_legacyInstr_mmx b p x reg rm
    obtain ⟨htop, hftw, hfpr⟩ := hcompl.x87 hdest (formClass_legacyInstr_mmx ..)
    refine ⟨htop, hftw, hfpr, fun k => hcompl.fsw_getLsbD, fun e he => hcompl.fpr e fun hreg => he ?_⟩
    exact Option.some.inj (hreg.symm.trans hdest)
  · rw [exec_mmx_eq_runMmx] at h
    rw [runMmx_fault_after h]
    exact ⟨rfl, rfl, rfl⟩

/-! ### Rows 2 and 4 -/

section
variable {b : Bool} {p : Prefixes} {x : Option Rex} {reg : BitVec 3} {rm : RegMem} {s t : State} {m : Mode}

/-- Rows 2 and 4 differ in their lane width alone (R112, R114). -/
theorem exec_sse_eq_runSse (b : Bool) (p : Prefixes) (x : Option Rex) (reg : BitVec 3) (rm : RegMem) (s : State) :
    exec (legacyInstr true b p x reg rm) s =
      runSse (legacyInstr true b p x reg rm).laneBits p x reg rm (legacyInstr true b p x reg rm).length s := by
  cases b <;> rfl

/-- An enabled run completes where its operand is read. -/
theorem runSse_of_source {len n : Nat} {y : BitVec 128} (hm : s.mode = some m) (he : s.SseEnabled)
    (h : s.sourceSse m p x len rm = .ok (y, { s with draws := n })) (w : Nat) (reg : BitVec 3) :
    let d := regNum5 m false (rexFields x).r reg
    runSse w p x reg rm len s =
      .next ((({ s with draws := n } : State).writeLow128 d
        (addUS w 128 ((s.vreg d).setWidth 128) y)).advance m len) := by
  obtain ⟨hud, hnm⟩ := he.passes
  simp [runSse, hm, hud, hnm, h]

theorem sseResult_of_source {n : Nat} {y : BitVec 128} (hm : s.mode = some m) (he : s.SseEnabled)
    (h : s.sourceSse m p x (legacyInstr true b p x reg rm).length rm = .ok (y, { s with draws := n })) :
    SseResult (legacyInstr true b p x reg rm) (regNum5 m false (rexFields x).r reg) y n s m :=
  ⟨_, sumOf_addUS (laneBits_pos ..) _ _, (exec_sse_eq_runSse ..).trans (runSse_of_source hm he h ..)⟩

theorem sseMemoryResult_of_enabled {a : MemAddr} (hm : s.mode = some m) (he : s.SseEnabled) :
    SseMemoryResult (legacyInstr true b p x reg (.mem a)) p x (regNum5 m false (rexFields x).r reg) a s m := by
  intro hseg hread hal
  exact ⟨_, _, reads_operandValue hread (Nat.le_refl 128),
    sseResult_of_source hm he (loadSse_of_readable hseg hread hal)⟩

/-- The destination of a completed row 2 or 4: the sum below bit 128, what stood there above (R112, R114, R116). -/
theorem vreg_dest_of_exec_sse (hm : s.mode = some m) (h : exec (legacyInstr true b p x reg rm) s = .next t) :
    let d := regNum5 m false (rexFields x).r reg
    ∃ y n, s.sourceSse m p x (legacyInstr true b p x reg rm).length rm = .ok (y, { s with draws := n }) ∧
      t.vreg d = (s.vreg d).extractLsb' 128 384 ++
        addUS (legacyInstr true b p x reg rm).laneBits 128 ((s.vreg d).setWidth 128) y := by
  rw [exec_sse_eq_runSse] at h
  obtain ⟨m', y, n, hm', -, -, hsrc, rfl⟩ := runSse_next _ _ _ _ _ _ _ _ h
  obtain rfl : m = m' := Option.some.inj (hm.symm.trans hm')
  refine ⟨y, n, hsrc, ?_⟩
  rw [vreg_advance, writeLow128_eq, vreg_setVreg_same]
  rfl

/-- With a register operand the low 128 bits of the destination are the sum of the low 128 bits of both registers. -/
theorem low128_dest_of_exec_sse {r : BitVec 3} (hm : s.mode = some m)
    (h : exec (legacyInstr true b p x reg (.reg r)) s = .next t) :
    let d := regNum5 m false (rexFields x).r reg
    (t.vreg d).setWidth 128 =
      addUS (legacyInstr true b p x reg (.reg r)).laneBits 128 ((s.vreg d).setWidth 128)
        ((s.vreg (regNum5 m false (rexFields x).b r)).setWidth 128) := by
  intro d
  obtain ⟨y, n, hsrc, hdest⟩ := vreg_dest_of_exec_sse hm h
  obtain ⟨rfl, -⟩ := Prod.mk.inj (Except.ok.inj hsrc)
  exact (congrArg (BitVec.setWidth 128) hdest).trans BitVec.setWidth_append_eq_right

end

/-- A register written with the low 128 bits it had leaves the low 128 bits of every register as they were. -/
theorem low128_setVreg {s : State} {e : BitVec 5} {y : VReg} (h : y.setWidth 128 = (s.vreg e).setWidth 128)
    (i : BitVec 5) : ((s.setVreg e y).vreg i).setWidth 128 = (s.vreg i).setWidth 128 := by
  rw [vreg_setVreg]
  split
  · next hi => rw [h, hi]
  · rfl

/-- Settles O28: a register operand is read as it stands. -/
theorem sse_register_result : Obligations.Sse_register_result :=
  fun _ _ _ _ _ _ hm he =>
    ⟨sseResult_of_source (b := false) hm he rfl, sseResult_of_source (b := true) hm he rfl⟩

/-- Settles O32: a readable operand on a 16-byte boundary passes the checks of R61, and is read as memory holds it. -/
theorem sse_memory_result : Obligations.Sse_memory_result :=
  fun _ _ _ _ _ _ hm he =>
    ⟨sseMemoryResult_of_enabled (b := false) hm he, sseMemoryResult_of_enabled (b := true) hm he⟩

/-- Settles O47: the write keeps the bits from 128 up, and the sum is of the low 128 bits of both registers alone. -/
theorem legacy_sse_keeps_upper_bits : Obligations.Legacy_sse_keeps_upper_bits := by
  intro b p x reg rm s t m hm h d
  refine ⟨?_, ?_⟩
  · obtain ⟨y, n, -, hdest⟩ := vreg_dest_of_exec_sse hm h
    rw [hdest]
    exact BitVec.extractLsb'_append_eq_left
  · rintro r e y t' rfl hy h'
    have hm' : (s.setVreg e y).mode = some m := hm
    rw [low128_dest_of_exec_sse hm h, low128_dest_of_exec_sse hm' h', low128_setVreg hy, low128_setVreg hy]

end Sys2Proof.Machine
end

section
/-! PROOFS. Rows 5 to 8 (41_vpaddus_vex.md R120 to R125): the load of their operand, and what they complete with. -/

namespace Sys2Proof.Machine

/-! ### The load -/

/-- A VEX or EVEX operand may lie at any address unless alignment checking is on (R59, D9). -/
theorem loadUnaligned_of_readable {s : State} {m : Mode} {p : Place} (h : s.Readable m p)
    (hal : s.alignmentChecking = true → p.lin.toNat % p.size = 0) (N : Nat) :
    s.loadUnaligned m p N = .ok (s.operandValue m p N, s.afterRead m p) := by
  have hcheck : ¬ (s.alignmentChecking && !p.aligned) = true := by
    simpa [Place.aligned] using hal
  rw [State.loadUnaligned, if_neg hcheck, readOperand_of_readable h]

theorem loadVex_of_readable {s : State} {c : AddrCtx} {ov : Option SegName} {a : MemAddr} {N : Nat}
    (h16 : c.mode.addr16 c.a67 = false) (hseg : s.SegmentOk c ov a (N / 8))
    (hread : s.Readable c.mode (s.place c ov a (N / 8)))
    (hal : s.alignmentChecking = true → (s.place c ov a (N / 8)).lin.toNat % (N / 8) = 0) :
    s.loadVex c ov a N =
      .ok (s.operandValue c.mode (s.place c ov a (N / 8)) N, s.afterRead c.mode (s.place c ov a (N / 8))) := by
  simp [State.loadVex, h16, segmentStop_of_segmentOk hseg, byteStop_of_readable hread,
    loadUnaligned_of_readable hread hal]

/-! ### The run -/

section
variable {p : Prefixes} {v : Vex3} {reg : BitVec 3} {rm : RegMem} {s : State} {m : Mode} {i : Instr}

/-- Rows 5 to 8 differ in their lane width and their vector length alone (R121 to R124). -/
theorem exec_vex3_eq_runVex (l b : Bool) (p : Prefixes) (v : Vex3) (reg : BitVec 3) (rm : RegMem) (s : State) :
    let i := vex3Instr l b p v reg rm
    exec i s = runVex i.laneBits i.vectorBits p v reg rm i.length s := by
  cases l <;> cases b <;> rfl

/-- In its two-byte encoding a form is the run of the three-byte payload it stands for (30_encoding.md R84). -/
theorem exec_vex2_eq_runVex (l b : Bool) (p : Prefixes) (v : Vex2) (reg : BitVec 3) (rm : RegMem) (s : State) :
    let i := vex2Instr l b p v reg rm
    exec i s = runVex i.laneBits i.vectorBits p v.wide reg rm i.length s := by
  cases l <;> cases b <;> rfl

/-- An enabled run completes where its operand is read. -/
theorem runVex_of_source {len n N : Nat} {y : BitVec N} (hm : s.mode = some m) (he : s.VexEnabled (N == 256))
    (h : s.sourceVex m p v len N rm = .ok (y, { s with draws := n })) (w : Nat) (reg : BitVec 3) :
    runVex w N p v reg rm len s =
      .next ((({ s with draws := n } : State).writeZeroing (regNum5 m false v.r reg)
        (addUS w N ((s.vreg (vvvvNum m false v.vvvv)).setWidth N) y)).advance m len) := by
  obtain ⟨hud, hnm⟩ := he.passes
  simp [runVex, hm, hud, hnm, h]

theorem vexResult_of_source {N n : Nat} {y : BitVec N}
    (hrun : exec i s = runVex i.laneBits N p v reg rm i.length s)
    (hm : s.mode = some m) (he : s.VexEnabled (N == 256))
    (h : s.sourceVex m p v i.length N rm = .ok (y, { s with draws := n })) :
    VexResult i (regNum5 m false v.r reg) (vvvvNum m false v.vvvv) y n s m :=
  ⟨_, sumOf_addUS (laneBits_pos i) _ _, hrun.trans (runVex_of_source hm he h ..)⟩

/-- A register operand is read as it stands. -/
theorem vexRegisterResult_of_enabled {N : Nat} {r : BitVec 3}
    (hrun : exec i s = runVex i.laneBits N p v reg (.reg r) i.length s)
    (hm : s.mode = some m) (he : s.VexEnabled (N == 256)) :
    VexResult i (regNum5 m false v.r reg) (vvvvNum m false v.vvvv)
      ((s.vreg (regNum5 m false v.b r)).setWidth N) s.draws s m :=
  vexResult_of_source hrun hm he rfl

/-- A readable memory operand passes the checks of R61, and is read as memory holds it. -/
theorem vexMemoryResult_of_enabled {N : Nat} {a : MemAddr}
    (hrun : exec i s = runVex i.laneBits N p v reg (.mem a) i.length s)
    (hm : s.mode = some m) (he : s.VexEnabled (N == 256)) :
    VexMemoryResult N i p v (regNum5 m false v.r reg) (vvvvNum m false v.vvvv) a s m := by
  intro h16 hseg hread hal
  exact ⟨_, _, reads_operandValue hread (Nat.mul_div_le N 8),
    vexResult_of_source hrun hm he (loadVex_of_readable h16 hseg hread hal)⟩

end

/-! ### The statements -/

/-- Settles O29: each form, in both encodings, is the run of its class on a register operand. -/
theorem vex_register_result : Obligations.Vex_register_result := by
  intro p v v2 reg r s m hm d a b d2 a2 b2
  have vex3 (l w : Bool) := vexRegisterResult_of_enabled (exec_vex3_eq_runVex l w p v reg (.reg r) s) hm
  have vex2 (l w : Bool) := vexRegisterResult_of_enabled (exec_vex2_eq_runVex l w p v2 reg (.reg r) s) hm
  exact
    ⟨fun he => ⟨vex3 false false he, vex3 false true he, vex2 false false he, vex2 false true he⟩,
      fun he => ⟨vex3 true false he, vex3 true true he, vex2 true false he, vex2 true true he⟩⟩

/-- Settles O33: each form, in both encodings, is the run of its class on a readable memory operand. -/
theorem vex_memory_result : Obligations.Vex_memory_result := by
  intro p v v2 reg a s m hm d b d2 b2
  have vex3 (l w : Bool) := vexMemoryResult_of_enabled (exec_vex3_eq_runVex l w p v reg (.mem a) s) hm
  have vex2 (l w : Bool) := vexMemoryResult_of_enabled (exec_vex2_eq_runVex l w p v2 reg (.mem a) s) hm
  exact
    ⟨fun he => ⟨vex3 false false he, vex3 false true he, vex2 false false he, vex2 false true he⟩,
      fun he => ⟨vex3 true false he, vex3 true true he, vex2 true false he, vex2 true true he⟩⟩

end Sys2Proof.Machine
end

section
/-! PROOFS. Rows 9 to 14 (42_vpaddus_evex.md R130 to R140): the load of their operand under a writemask, what they complete
with, and the bits they zero. -/

namespace Sys2Proof.Machine

/-! ### The masked sum -/

theorem laneActive_eq_true_iff {aaa : BitVec 3} {mask : Word64} {j : Nat} :
    laneActive aaa mask j = true ↔ aaa = 0#3 ∨ mask.getLsbD j = true := by
  simp [laneActive]

/-- The active lanes hold the saturated sum, the others 0 or what they held (R131, R132). -/
theorem maskedSumOf_evexAddUS {w : Nat} (hw : 0 < w) {N : Nat} (aaa : BitVec 3) (z : Bool) (mask : Word64)
    (old A B : BitVec N) : MaskedSumOf w aaa z mask (evexAddUS w N aaa z mask old A B) old A B := by
  intro j hj
  rw [lane_evexAddUS w N aaa z mask old A B j hw hj]
  simp only [laneActive_eq_true_iff]
  split
  · exact satU_toNat ..
  · split <;> rfl

/-- Under merging, a sum none of whose lanes is active leaves whole lanes as they were (R132). -/
theorem evexAddUS_of_inactive {w N : Nat} (hw : 0 < w) (hN : w * (N / w) = N) {aaa : BitVec 3} {mask : Word64}
    (h : ∀ j, laneActive aaa mask j = false) (old A B : BitVec N) : evexAddUS w N aaa false mask old A B = old := by
  apply eq_of_lanes w N hw hN
  intro j hj
  rw [lane_evexAddUS w N aaa false mask old A B j hw hj, h j]
  rfl

/-! ### The load -/

/-- Where no boundary is asked for, the bytes picked pass exactly where each is canonical and translates (R56, R60). -/
theorem byteStop_unaligned_eq_none_iff {s : State} {m : Mode} {p : Place} {sel : Nat → Bool} :
    s.byteStop m p false sel = none ↔
      ∀ k < p.size, sel k = true →
        canonical m s.platform.laBits (linByte m p.lin k) = true ∧ ¬ ∃ e, s.FaultsAt m p k e := by
  have translates_iff (k : Nat) :
      (∃ b, s.translate (linByte m p.lin k) = .ok b) ↔ ¬ ∃ e, s.FaultsAt m p k e := by
    cases h : s.translate (linByte m p.lin k) <;> simp [State.FaultsAt, h]
  simp only [byteStop_eq_none_iff, translates_iff, Bool.false_eq_true, false_implies, true_and, ← forall_and]


section
variable {s : State} {c : AddrCtx} {ov : Option SegName} {a : MemAddr} {w N : Nat} {aaa : BitVec 3}

/-- An operand all of whose bytes are readable is read whatever the writemask (R140, D17 (a)). -/
theorem loadEvex_of_readable (h16 : c.mode.addr16 c.a67 = false) (hseg : s.SegmentOk c ov a (N / 8))
    (hread : s.Readable c.mode (s.place c ov a (N / 8)))
    (hal : s.alignmentChecking = true → (s.place c ov a (N / 8)).lin.toNat % (N / 8) = 0) :
    s.loadEvex c ov a w N aaa =
      .ok (s.operandValue c.mode (s.place c ov a (N / 8)) N, s.afterRead c.mode (s.place c ov a (N / 8))) := by
  simp [State.loadEvex, h16, segmentStop_of_segmentOk hseg, byteStop_of_readable hread,
    loadUnaligned_of_readable hread hal]

/-- Where the bytes of active lanes pass and others do not, there is no outcome (R140, D17 (c)). -/
theorem loadEvex_of_maskedStop (h16 : c.mode.addr16 c.a67 = false) (hseg : s.SegmentOk c ov a (N / 8))
    (hactive : s.byteStop c.mode (s.place c ov a (N / 8)) false (byteActive w aaa (s.mask aaa)) = none)
    (hall : s.byteStop c.mode (s.place c ov a (N / 8)) false allBytes ≠ none) :
    s.loadEvex c ov a w N aaa = .error (.refuse .maskedLaneFault) := by
  obtain ⟨t, ht⟩ := Option.ne_none_iff_exists'.mp hall
  simp [State.loadEvex, h16, segmentStop_of_segmentOk hseg, hactive, ht]

end

/-! ### The run -/

section
variable {vl : EvexLen} {b : Bool} {p : Prefixes} {v : Evex} {reg : BitVec 3} {rm : RegMem} {s t : State} {m : Mode}

/-- Rows 9 to 14 differ in their lane width and their vector length alone (R133 to R138). -/
theorem exec_evex_eq_runEvex (vl : EvexLen) (b : Bool) (p : Prefixes) (v : Evex) (reg : BitVec 3) (rm : RegMem)
    (s : State) :
    let i := evexInstr vl b p v reg rm
    exec i s = runEvex i.laneBits i.vectorBits p v reg rm i.length s := by
  cases vl <;> cases b <;> rfl

/-- The lanes of an EVEX form are bytes or words, and its vector length is one of three (R130). -/
theorem evexInstr_widths (vl : EvexLen) (b : Bool) (p : Prefixes) (v : Evex) (reg : BitVec 3) (rm : RegMem) :
    let i := evexInstr vl b p v reg rm
    (i.laneBits = 8 ∨ i.laneBits = 16) ∧ (i.vectorBits = 128 ∨ i.vectorBits = 256 ∨ i.vectorBits = 512) := by
  cases vl <;> cases b <;> simp [evexInstr, Instr.laneBits, Instr.vectorBits]

/-- An EVEX form has whole lanes, and no more bits than a register. -/
theorem evexInstr_whole_lanes (vl : EvexLen) (b : Bool) (p : Prefixes) (v : Evex) (reg : BitVec 3) (rm : RegMem) :
    let i := evexInstr vl b p v reg rm
    i.laneBits * (i.vectorBits / i.laneBits) = i.vectorBits ∧ i.vectorBits ≤ 512 := by
  obtain ⟨hw | hw, hN | hN | hN⟩ := evexInstr_widths vl b p v reg rm <;> simp only [hw, hN] <;> decide

/-- What the checks of a memory operand ask of an EVEX form (R91, R98, R131). -/
theorem evexInstr_operand (vl : EvexLen) (b : Bool) (p : Prefixes) (v : Evex) (reg : BitVec 3) (rm : RegMem) (m : Mode) :
    let i := evexInstr vl b p v reg rm
    instrCtx m i = evexCtx m p v i ∧ i.opmask = v.aaa := by
  cases vl <;> cases b <;> exact ⟨rfl, rfl⟩

/-- An EVEX form is enabled as its vector length is, and without zeroing where there is no writemask (R159). -/
theorem enabled_evexInstr_iff :
    let i := evexInstr vl b p v reg rm
    s.Enabled i ↔ s.EvexEnabled (i.vectorBits == 512) ∧ (v.z && v.aaa == 0#3) = false := by
  cases vl <;> cases b <;> exact Iff.rfl

/-- An enabled run completes where its operand is read. -/
theorem runEvex_of_source {len w N n : Nat} {y : BitVec N} (hm : s.mode = some m) (he : s.EvexEnabled (N == 512))
    (hz : (v.z && v.aaa == 0#3) = false) (h : s.sourceEvex m p v len w N rm = .ok (y, { s with draws := n }))
    (reg : BitVec 3) :
    let d := regNum5 m v.rHi v.r reg
    runEvex w N p v reg rm len s =
      .next ((({ s with draws := n } : State).writeZeroing d
        (evexAddUS w N v.aaa v.z (s.mask v.aaa) ((s.vreg d).setWidth N)
          ((s.vreg (vvvvNum m v.vHi v.vvvv)).setWidth N) y)).advance m len) := by
  obtain ⟨hud, hnm⟩ := he.passes hz
  simp [runEvex, hm, hud, hnm, h]

theorem evexResult_of_source {n : Nat} :
    let i := evexInstr vl b p v reg rm
    ∀ {y : BitVec i.vectorBits}, s.mode = some m → s.EvexEnabled (i.vectorBits == 512) →
      (v.z && v.aaa == 0#3) = false →
      s.sourceEvex m p v i.length i.laneBits i.vectorBits rm = .ok (y, { s with draws := n }) →
      EvexResult i v (regNum5 m v.rHi v.r reg) (vvvvNum m v.vHi v.vvvv) y n s m :=
  fun hm he hz h =>
    ⟨_, maskedSumOf_evexAddUS (laneBits_pos _) _ _ _ _ _ _,
      (exec_evex_eq_runEvex ..).trans (runEvex_of_source hm he hz h reg)⟩

/-- A register operand is read as it stands. -/
theorem evexRegisterResult_of_enabled (vl : EvexLen) (b : Bool) (p : Prefixes) (reg r : BitVec 3)
    (hm : s.mode = some m) (hz : (v.z && v.aaa == 0#3) = false) :
    let i := evexInstr vl b p v reg (.reg r)
    s.EvexEnabled (i.vectorBits == 512) →
      EvexResult i v (regNum5 m v.rHi v.r reg) (vvvvNum m v.vHi v.vvvv)
        ((s.vreg (regNum5 m v.x v.b r)).setWidth i.vectorBits) s.draws s m :=
  fun he => evexResult_of_source hm he hz rfl

/-- A readable memory operand passes the checks of R61 and R140, and is read as memory holds it. -/
theorem evexMemoryResult_of_enabled (vl : EvexLen) (b : Bool) (p : Prefixes) (reg : BitVec 3) (a : MemAddr)
    (hm : s.mode = some m) (hz : (v.z && v.aaa == 0#3) = false) :
    let i := evexInstr vl b p v reg (.mem a)
    s.EvexEnabled (i.vectorBits == 512) →
      EvexMemoryResult i.vectorBits i p v (regNum5 m v.rHi v.r reg) (vvvvNum m v.vHi v.vvvv) a s m := by
  intro i he h16 hseg hread hal
  exact ⟨_, _, reads_operandValue hread (Nat.mul_div_le i.vectorBits 8),
    evexResult_of_source hm he hz (loadEvex_of_readable h16 hseg hread hal)⟩

/-- The destination of a completed EVEX form: the masked sum at its vector length, and nothing above (R132, R139). -/
theorem vreg_dest_of_exec_evex (hm : s.mode = some m) (h : exec (evexInstr vl b p v reg rm) s = .next t) :
    let i := evexInstr vl b p v reg rm
    let d := regNum5 m v.rHi v.r reg
    ∃ y n, s.sourceEvex m p v i.length i.laneBits i.vectorBits rm = .ok (y, { s with draws := n }) ∧
      t.vreg d =
        (evexAddUS i.laneBits i.vectorBits v.aaa v.z (s.mask v.aaa) ((s.vreg d).setWidth i.vectorBits)
          ((s.vreg (vvvvNum m v.vHi v.vvvv)).setWidth i.vectorBits) y).setWidth 512 := by
  rw [exec_evex_eq_runEvex] at h
  obtain ⟨m', y, n, hm', -, -, hsrc, rfl⟩ := runEvex_next _ _ _ _ _ _ _ _ _ h
  obtain rfl : m = m' := Option.some.inj (hm.symm.trans hm')
  exact ⟨y, n, hsrc, by rw [vreg_advance, writeZeroing_eq, vreg_setVreg_same]⟩

/-- An enabled EVEX form whose operand fails at bytes of masked-off lanes alone has no outcome (R140, D17 (c)). -/
theorem exec_evex_of_maskedStop {a : MemAddr} (hm : s.mode = some m) :
    let i := evexInstr vl b p v reg (.mem a)
    let q := s.operandPlace m i a
    s.Enabled i → s.Addressable m i a → s.byteStop m q false (s.activeBytes i) = none →
      s.byteStop m q false allBytes ≠ none → exec i s = .refused .maskedLaneFault := by
  intro i q he ⟨h16, hseg⟩ hactive hall
  obtain ⟨-, -, hp, -, hclass⟩ := evexInstr_fields vl b p v reg (.mem a)
  obtain ⟨hctx, hmask⟩ := evexInstr_operand vl b p v reg (.mem a) m
  obtain ⟨hen, hz⟩ := enabled_evexInstr_iff.mp he
  replace h16 := h16 (.inr hclass)
  simp only [q, i, State.operandPlace, State.activeBytes, hctx, hp, hmask] at h16 hseg hactive hall
  exact (exec_evex_eq_runEvex ..).trans
    (runEvex_of_load_error hm hen hz (loadEvex_of_maskedStop h16 hseg hactive hall) reg)

end

/-! ### The statements -/

/-- Settles O30: each form is the run of its class on a register operand. -/
theorem evex_register_result : Obligations.Evex_register_result := by
  intro p v reg r s m hm hz d a b
  have evex (vl : EvexLen) (w : Bool) := evexRegisterResult_of_enabled vl w p reg r hm hz
  exact
    ⟨fun he => ⟨evex .vl128 false he, evex .vl128 true he, evex .vl256 false he, evex .vl256 true he⟩,
      fun he => ⟨evex .vl512 false he, evex .vl512 true he⟩⟩

/-- Settles O34: each form is the run of its class on a readable memory operand. -/
theorem evex_memory_result : Obligations.Evex_memory_result := by
  intro p v reg a s m hm hz d b
  have evex (vl : EvexLen) (w : Bool) := evexMemoryResult_of_enabled vl w p reg a hm hz
  exact
    ⟨fun he => ⟨evex .vl128 false he, evex .vl128 true he, evex .vl256 false he, evex .vl256 true he⟩,
      fun he => ⟨evex .vl512 false he, evex .vl512 true he⟩⟩

/-- Settles O41: the bytes of active lanes are checked first and alone, so that their fault is the outcome; where they pass, a
byte that fails the check of all bytes is of a masked-off lane. -/
theorem page_fault_under_writemask : Obligations.Page_fault_under_writemask := by
  intro vl w p v reg a s m i n q canon faults hm he haddr
  obtain ⟨-, -, -, hrm, hclass⟩ := evexInstr_fields vl w p v reg (.mem a)
  have hnotSse : (i.formClass == .sse) = false := by rw [hclass]; rfl
  have hact : ∀ k, s.activeBytes i k = true ↔ s.ActiveByte i k := activeBytes_eq_true_iff s i
  refine ⟨fun hcanon ⟨k, hk, hkact, hfault⟩ => ?_, fun ⟨k, hk, hfail⟩ hpass => ?_⟩
  · obtain ⟨j, hj, hjact, e, hje, hstop⟩ :=
      byteStop_of_fault (al := i.formClass == .sse) (fun j hj hjact => hcanon j hj ((hact j).mp hjact))
        (by simp [hnotSse]) ⟨k, hk, (hact k).mpr hkact, hfault⟩
    exact ⟨j, hj, (hact j).mp hjact, e, hje, exec_of_operandStop hrm hm he haddr hstop⟩
  · have hactive : s.byteStop m q false (s.activeBytes i) = none :=
      byteStop_unaligned_eq_none_iff.mpr fun j hj hjact => hpass j hj ((hact j).mp hjact)
    have hall : s.byteStop m q false allBytes ≠ none := fun hnone => by
      obtain ⟨hcanon, hnofault⟩ := byteStop_unaligned_eq_none_iff.mp hnone k hk rfl
      exact hfail.elim (fun hnc => hnc hcanon) hnofault
    exact exec_evex_of_maskedStop hm he haddr hactive hall

/-- Settles O48: the destination is the masked sum and zeros above it, and a sum without active lanes is what was there. -/
theorem evex_zeroes_upper_bits : Obligations.Evex_zeroes_upper_bits := by
  intro vl w p v reg rm s t m hm h d N
  obtain ⟨y, n, -, hdest⟩ := vreg_dest_of_exec_evex hm h
  obtain ⟨hlanes, hle⟩ := evexInstr_whole_lanes vl w p v reg rm
  rw [hdest]
  refine ⟨setWidth_ushiftRight_eq_zero (Nat.le_refl _) _, fun haaa hz hmask => ?_⟩
  have hinactive : ∀ j, laneActive v.aaa (s.mask v.aaa) j = false := by
    simp [laneActive, haaa, hmask]
  rw [BitVec.setWidth_setWidth_of_le _ hle, BitVec.setWidth_eq, hz,
    evexAddUS_of_inactive (laneBits_pos _) hlanes hinactive]

end Sys2Proof.Machine
end

section
/-! PROOFS. The exceptions an instruction can raise (60_exceptions.md R151 to R171): all an instruction of any row can do, said
once in the order of R168, and when it is #UD or #NM. -/

namespace Sys2Proof.Machine

/-! ### All an instruction can do (R168) -/

/-- The condition of an instruction's class for #UD (R156 to R159). -/
def State.udOf (s : State) (i : Instr) : Bool :=
  match i.formClass with
  | .mmx => s.udMmx
  | .sse => s.udSse
  | .vex => s.udVex (i.vectorBits == 256)
  | .evex => s.udEvex (i.vectorBits == 512) i.zeroingUnmasked 0#3

/-- What an instruction can do at `s` in a mode of the spec, in the order of R168. -/
inductive Does (i : Instr) (s : State) : Result → Prop where
  | invalidOpcode (hud : s.udOf i = true) : Does i s (raise .ud s)
  | deviceNotAvailable (hud : s.udOf i = false) (hts : s.cr0TS = true) : Does i s (raise .nm s)
  | pending (hud : s.udOf i = false) (hts : s.cr0TS = false) (hcls : i.formClass = .mmx) (hes : s.x87Pending = true) :
      Does i s (if s.cr0NE then raise .mf s else .refused .x87ExternalReport)
  /-- The memory operand stops it; #AC is of rows 1 and 3 alone (R165). -/
  | operand (a : MemAddr) (t : Stop) (hud : s.udOf i = false) (hts : s.cr0TS = false)
      (hes : i.formClass = .mmx → s.x87Pending = false) (hrm : i.regMem = .mem a)
      (ht : t.ofOperand ∨ (t = .exc .ac ∧ i.formClass = .mmx)) : Does i s (t.outcome s)
  | completes (t : State) (hud : s.udOf i = false) (hts : s.cr0TS = false)
      (hes : i.formClass = .mmx → s.x87Pending = false) : Does i s (.next t)

section
variable {i : Instr} {s : State}

theorem udOf_mmx (hcls : i.formClass = .mmx) : s.udOf i = s.udMmx := by
  simp only [State.udOf, hcls]

theorem udOf_sse (hcls : i.formClass = .sse) : s.udOf i = s.udSse := by
  simp only [State.udOf, hcls]

theorem udOf_vex (hcls : i.formClass = .vex) : s.udOf i = s.udVex (i.vectorBits == 256) := by
  simp only [State.udOf, hcls]

theorem udOf_evex (hcls : i.formClass = .evex) {z : Bool} {aaa : BitVec 3}
    (hz : i.zeroingUnmasked = (z && aaa == 0#3)) : s.udOf i = s.udEvex (i.vectorBits == 512) z aaa := by
  simp [State.udOf, hcls, State.udEvex, hz]

end

/-- What rows 2 and 4 to 14 share (R168): #UD, #NM, then the operand, then the write. -/
def vectorRun {α : Type} (ud : Bool) (src : Except Stop (α × State)) (write : α → State → State) (s : State) : Result :=
  if ud then raise .ud s
  else if s.cr0TS then raise .nm s
  else
    match src with
    | .error t => t.outcome s
    | .ok (y, s1) => .next (write y s1)

section
variable {i : Instr} {s : State} {m : Mode} {p : Prefixes} {reg : BitVec 3} {rm : RegMem} {w len : Nat}

theorem runSse_eq_vectorRun (hm : s.mode = some m) (x : Option Rex) :
    runSse w p x reg rm len s = vectorRun s.udSse (s.sourceSse m p x len rm) (fun y s1 =>
      let d := regNum5 m false (rexFields x).r reg
      (s1.writeLow128 d (addUS w 128 ((s.vreg d).setWidth 128) y)).advance m len) s := by
  simp only [runSse, hm, vectorRun]
  cases s.sourceSse m p x len rm <;> rfl

theorem runVex_eq_vectorRun {N : Nat} (hm : s.mode = some m) (v : Vex3) :
    runVex w N p v reg rm len s = vectorRun (s.udVex (N == 256)) (s.sourceVex m p v len N rm) (fun y s1 =>
      (s1.writeZeroing (regNum5 m false v.r reg)
        (addUS w N ((s.vreg (vvvvNum m false v.vvvv)).setWidth N) y)).advance m len) s := by
  simp only [runVex, hm, vectorRun]
  cases s.sourceVex m p v len N rm <;> rfl

theorem runEvex_eq_vectorRun {N : Nat} (hm : s.mode = some m) (v : Evex) :
    runEvex w N p v reg rm len s = vectorRun (s.udEvex (N == 512) v.z v.aaa) (s.sourceEvex m p v len w N rm) (fun y s1 =>
      let d := regNum5 m v.rHi v.r reg
      (s1.writeZeroing d (evexAddUS w N v.aaa v.z (s.mask v.aaa) ((s.vreg d).setWidth N)
        ((s.vreg (vvvvNum m v.vHi v.vvvv)).setWidth N) y)).advance m len) s := by
  simp only [runEvex, hm, vectorRun]
  cases s.sourceEvex m p v len w N rm <;> rfl

/-- All a vector run can do, where its operand stops only if it is in memory. -/
theorem vectorRun_does {α : Type} {ud : Bool} {src : Except Stop (α × State)} {write : α → State → State}
    (hud : s.udOf i = ud) (hcls : i.formClass ≠ .mmx)
    (hsrc : ∀ t, src = .error t → (∃ a, i.regMem = .mem a) ∧ t.ofOperand) : Does i s (vectorRun ud src write s) := by
  have hes : i.formClass = .mmx → s.x87Pending = false := fun h => absurd h hcls
  unfold vectorRun
  split
  · next h => exact .invalidOpcode (hud.trans h)
  · next h =>
    replace hud := hud.trans (Bool.eq_false_of_not_eq_true h)
    split
    · next hts => exact .deviceNotAvailable hud hts
    · next hts =>
      replace hts := Bool.eq_false_of_not_eq_true hts
      cases src with
      | error t =>
        obtain ⟨⟨a, ha⟩, ht⟩ := hsrc t rfl
        exact .operand a t hud hts hes ha (.inl ht)
      | ok q => exact .completes _ hud hts hes

theorem runSse_does {x : Option Rex} (hm : s.mode = some m) (hcls : i.formClass = .sse) :
    Does i s (runSse w p x reg i.regMem len s) := by
  rw [runSse_eq_vectorRun hm]
  exact vectorRun_does (udOf_sse hcls) (by simp [hcls]) fun t h => sourceSse_error _ _ _ _ _ _ t h

theorem runVex_does {v : Vex3} (hm : s.mode = some m) (hcls : i.formClass = .vex) :
    Does i s (runVex w i.vectorBits p v reg i.regMem len s) := by
  rw [runVex_eq_vectorRun hm]
  exact vectorRun_does (udOf_vex hcls) (by simp [hcls]) fun t h => sourceVex_error _ _ _ _ _ _ _ t h

theorem runEvex_does {v : Evex} (hm : s.mode = some m) (hcls : i.formClass = .evex)
    (hz : i.zeroingUnmasked = (v.z && v.aaa == 0#3)) : Does i s (runEvex w i.vectorBits p v reg i.regMem len s) := by
  rw [runEvex_eq_vectorRun hm]
  exact vectorRun_does (udOf_evex hcls hz) (by simp [hcls]) fun t h => sourceEvex_error _ _ _ _ _ _ _ _ t h

theorem runMmx_does {x : Option Rex} (hm : s.mode = some m) (hcls : i.formClass = .mmx) :
    Does i s (runMmx w p x reg i.regMem len s) := by
  have hof : s.udOf i = s.udMmx := udOf_mmx hcls
  rcases runMmx_cases w p x reg i.regMem len s m hm with
    ⟨hud, he⟩ | ⟨hud, hts, he⟩ | ⟨hud, hts, hes, he⟩ | ⟨hud, hts, hes, t, ⟨a, hrm⟩, ht, -, he⟩ | ⟨hud, hts, hes, y, n, -, he⟩
  · exact he ▸ .invalidOpcode (hof.trans hud)
  · exact he ▸ .deviceNotAvailable (hof.trans hud) hts
  · exact he ▸ .pending (hof.trans hud) hts hcls hes
  · exact he ▸ .operand a t (hof.trans hud) hts (fun _ => hes) hrm (ht.imp_right fun h => ⟨h, hcls⟩)
  · exact he ▸ .completes _ (hof.trans hud) hts fun _ => hes

/-- Every instruction is the run of its class. -/
theorem exec_does (i : Instr) (hm : s.mode = some m) : Does i s (exec i s) := by
  cases i with
  | paddusbMm | padduswMm => exact runMmx_does hm rfl
  | paddusbXmm | padduswXmm => exact runSse_does hm rfl
  | vpaddusbXmmVex3 | vpadduswXmmVex3 | vpaddusbYmmVex3 | vpadduswYmmVex3
  | vpaddusbXmmVex2 | vpadduswXmmVex2 | vpaddusbYmmVex2 | vpadduswYmmVex2 => exact runVex_does hm rfl
  | vpaddusbXmmEvex | vpaddusbYmmEvex | vpaddusbZmmEvex
  | vpadduswXmmEvex | vpadduswYmmEvex | vpadduswZmmEvex => exact runEvex_does hm rfl rfl

/-- An instruction that faults is in a mode of the spec (D4). -/
theorem does_of_exec_eq_fault {f : Fault} (h : exec i s = .fault f) : Does i s (.fault f) := by
  cases hm : s.mode with
  | none => exact absurd ((exec_of_mode_none hm i).symm.trans h) nofun
  | some m => exact h ▸ exec_does i hm

end

/-! ### Which faults (R152, R160, R165, R171) -/

/-- The faults of a memory operand: #SS, #GP, #PF, and #AC where that is its stop. -/
theorem vector_of_operandStop {t : Stop} {s : State} {f : Fault} {c : Prop} (ht : t.ofOperand ∨ (t = .exc .ac ∧ c))
    (h : t.outcome s = .fault f) : f.vector = 12 ∨ f.vector = 13 ∨ f.vector = 14 ∨ (f.vector = 17 ∧ c) := by
  rcases ht with (⟨r, rfl⟩ | rfl | rfl | ⟨e, a, rfl⟩) | ⟨rfl, hc⟩ <;> cases h
  · exact .inl rfl
  · exact .inr (.inl rfl)
  · exact .inr (.inr (.inl rfl))
  · exact .inr (.inr (.inr ⟨rfl, hc⟩))

/-- The exceptions of an instruction: those of its enabling conditions, #MF of rows 1 and 3, and those of a memory operand. -/
theorem Does.fault_vector {i : Instr} {s : State} {r : Result} {f : Fault} (h : Does i s r) (hr : r = .fault f) :
    f.vector = 6 ∨ f.vector = 7 ∨ (f.vector = 16 ∧ i.formClass = .mmx) ∨
      ((∃ a, i.regMem = .mem a) ∧
        (f.vector = 12 ∨ f.vector = 13 ∨ f.vector = 14 ∨ (f.vector = 17 ∧ i.formClass = .mmx))) := by
  cases h with
  | invalidOpcode => cases hr; exact .inl rfl
  | deviceNotAvailable => cases hr; exact .inr (.inl rfl)
  | pending _ _ hcls _ =>
    split at hr <;> cases hr
    exact .inr (.inr (.inl ⟨rfl, hcls⟩))
  | operand a t _ _ _ hrm ht => exact .inr (.inr (.inr ⟨⟨a, hrm⟩, vector_of_operandStop ht hr⟩))
  | completes => cases hr

/-- A fault is an exception taken at the state before the instruction. -/
theorem Does.exists_raise {i : Instr} {s : State} {r : Result} {f : Fault} (h : Does i s r) (hr : r = .fault f) :
    ∃ e, raise e s = .fault f := by
  cases h with
  | invalidOpcode => exact ⟨.ud, hr⟩
  | deviceNotAvailable => exact ⟨.nm, hr⟩
  | pending =>
    split at hr
    · exact ⟨.mf, hr⟩
    · cases hr
  | operand a t =>
    cases t with
    | exc e => exact ⟨e, hr⟩
    | refuse q => cases hr
  | completes => cases hr

theorem step_of_not_flat {s : State} {m : Mode} (hm : s.mode = some m) (hc : s.codeSegmentOk m = false) :
    step s = .refused .nonFlatSegment := by
  simp only [step, hm, hc, if_true]

/-- A step that faults takes an exception at the state before it: the decoder's, or the instruction's. -/
theorem step_fault_exists_raise {s : State} {f : Fault} (h : step s = .fault f) : ∃ e, raise e s = .fault f := by
  cases hm : s.mode with
  | none => exact absurd ((step_of_mode_none hm).symm.trans h) nofun
  | some m =>
    cases hc : s.codeSegmentOk m with
    | false => exact absurd ((step_of_not_flat hm hc).symm.trans h) nofun
    | true =>
      rcases step_cases s m hm hc with
        ⟨i, n, -, he⟩ | ⟨-, he⟩ | ⟨-, he⟩ | ⟨-, -, he⟩ | ⟨-, r, -, he⟩ | ⟨r, -, -, he⟩
      · exact (does_of_exec_eq_fault (he.symm.trans h)).exists_raise rfl
      · exact ⟨.ud, he.symm.trans h⟩
      · exact ⟨.gp, he.symm.trans h⟩
      · exact ⟨.gp, he.symm.trans h⟩
      · exact absurd (he.symm.trans h) nofun
      · exact absurd (he.symm.trans h) nofun

/-- Settles O19: a fault of a step is an exception taken at the state before it, which leaves all of it but CR2 on #PF. -/
theorem faults_leave_state_unchanged : Obligations.Faults_leave_state_unchanged := by
  intro s f h
  obtain ⟨e, he⟩ := step_fault_exists_raise h
  obtain ⟨g, hg, hcr2, hsame⟩ := raise_eq_fault e s
  obtain rfl : g = f := Host.Outcome.fault.inj (hg.symm.trans he)
  exact ⟨hsame, fun _ => hcr2⟩

/-- The vectors and error codes of R152. -/
theorem Fault.vector_errorCode (f : Fault) :
    (f.vector = 6 ∧ f.errorCode = none) ∨ (f.vector = 7 ∧ f.errorCode = none) ∨
      (f.vector = 12 ∧ f.errorCode = some 0#32) ∨ (f.vector = 13 ∧ f.errorCode = some 0#32) ∨ f.vector = 14 ∨
      (f.vector = 16 ∧ f.errorCode = none) ∨ (f.vector = 17 ∧ f.errorCode = some 0#32) := by
  cases f <;> simp [Fault.vector, Fault.errorCode]

/-- Settles O20: each fault has the error code of its vector, #MF and #AC stand among the faults of rows 1 and 3 alone, and
the others past #NM ask for a memory operand. -/
theorem exceptions_an_instruction_raises : Obligations.Exceptions_an_instruction_raises := by
  intro i s f h
  have hv := (does_of_exec_eq_fault h).fault_vector rfl
  refine ⟨f.vector_errorCode, fun hx87 => ?_, fun r hr => ?_⟩
  · rcases hv with hv | hv | ⟨-, hcls⟩ | ⟨-, hv | hv | hv | ⟨-, hcls⟩⟩
    · omega
    · omega
    · exact hcls
    · omega
    · omega
    · omega
    · exact hcls
  · rcases hv with hv | hv | ⟨hv, -⟩ | ⟨⟨a, ha⟩, -⟩
    · exact .inl hv
    · exact .inr (.inl hv)
    · exact .inr (.inr hv)
    · exact absurd (hr.symm.trans ha) nofun

/-! ### #UD and #NM (R156 to R161) -/

section
variable {i : Instr} {s : State} {m : Mode}

/-- #UD is the first test of every row. -/
theorem exec_eq_invalidOpcode_iff (hm : s.mode = some m) :
    exec i s = .fault (.invalidOpcode s) ↔ s.udOf i = true := by
  have h := exec_does i hm
  generalize exec i s = r at h ⊢
  cases h with
  | invalidOpcode hud => exact iff_of_true rfl hud
  | deviceNotAvailable hud => exact iff_of_false nofun (by simp [hud])
  | pending hud => exact iff_of_false (by split <;> nofun) (by simp [hud])
  | operand a t hud _ _ _ ht =>
    exact iff_of_false (fun hf => by simpa [Fault.vector] using vector_of_operandStop ht hf) (by simp [hud])
  | completes t hud => exact iff_of_false nofun (by simp [hud])

/-- #NM is the second. -/
theorem exec_eq_deviceNotAvailable_iff (hm : s.mode = some m) :
    exec i s = .fault (.deviceNotAvailable s) ↔ s.cr0TS = true ∧ s.udOf i = false := by
  have h := exec_does i hm
  generalize exec i s = r at h ⊢
  cases h with
  | invalidOpcode hud => exact iff_of_false nofun (by simp [hud])
  | deviceNotAvailable hud hts => exact iff_of_true rfl ⟨hts, hud⟩
  | pending _ hts => exact iff_of_false (by split <;> nofun) (by simp [hts])
  | operand a t _ hts _ _ ht =>
    exact iff_of_false (fun hf => by simpa [Fault.vector] using vector_of_operandStop ht hf) (by simp [hts])
  | completes t _ hts => exact iff_of_false nofun (by simp [hts])

end

/-- Settles O22: the #UD conditions of rows 1 to 4, bit by bit. -/
theorem legacy_invalid_opcode_iff : Obligations.Legacy_invalid_opcode_iff := by
  intro i s m hm
  refine ⟨fun hcls => ?_, fun hcls => ?_⟩
  · rw [exec_eq_invalidOpcode_iff hm, udOf_mmx hcls]
    simp [State.udMmx, State.cr0EM, Features.has]
  · rw [exec_eq_invalidOpcode_iff hm, udOf_sse hcls]
    simp [State.udSse, State.cr0EM, State.osfxsr, Features.has, or_assoc]

theorem xcr0Avx_eq_true_iff (s : State) : s.xcr0Avx = true ↔ s.xcr0.getLsbD 1 = true ∧ s.xcr0.getLsbD 2 = true := by
  refine ⟨fun h => ?_, fun ⟨h1, h2⟩ => xcr0Avx_of_bits h1 h2⟩
  have hbits := (extractLsb'_eq_allOnes_iff s.xcr0 1 2).mp (beq_iff_eq.mp h)
  exact ⟨hbits 0 (by decide), hbits 1 (by decide)⟩

theorem xcr0Avx512_eq_true_iff (s : State) :
    s.xcr0Avx512 = true ↔ s.xcr0.getLsbD 5 = true ∧ s.xcr0.getLsbD 6 = true ∧ s.xcr0.getLsbD 7 = true := by
  refine ⟨fun h => ?_, fun ⟨h5, h6, h7⟩ => xcr0Avx512_of_bits h5 h6 h7⟩
  have hbits := (extractLsb'_eq_allOnes_iff s.xcr0 5 3).mp (beq_iff_eq.mp h)
  exact ⟨hbits 0 (by decide), hbits 1 (by decide), hbits 2 (by decide)⟩

theorem xcr0Avx_eq_false_iff (s : State) : s.xcr0Avx = false ↔ s.xcr0.getLsbD 1 = false ∨ s.xcr0.getLsbD 2 = false := by
  rw [← Bool.not_eq_true, xcr0Avx_eq_true_iff, not_and_or, Bool.not_eq_true, Bool.not_eq_true]

theorem xcr0Avx512_eq_false_iff (s : State) :
    s.xcr0Avx512 = false ↔ s.xcr0.getLsbD 5 = false ∨ s.xcr0.getLsbD 6 = false ∨ s.xcr0.getLsbD 7 = false := by
  rw [← Bool.not_eq_true, xcr0Avx512_eq_true_iff, not_and_or, not_and_or, Bool.not_eq_true, Bool.not_eq_true,
    Bool.not_eq_true]

/-- Rows 5 to 8 have two vector lengths (R121 to R124). -/
theorem vectorBits_of_vex {i : Instr} (h : i.formClass = .vex) : i.vectorBits = 128 ∨ i.vectorBits = 256 := by
  cases i with
  | vpaddusbXmmVex3 | vpaddusbXmmVex2 | vpadduswXmmVex3 | vpadduswXmmVex2 => exact .inl rfl
  | vpaddusbYmmVex3 | vpaddusbYmmVex2 | vpadduswYmmVex3 | vpadduswYmmVex2 => exact .inr rfl
  | _ => cases h

/-- Settles O23: the #UD conditions of rows 5 to 8, bit by bit, with the flag of each vector length. -/
theorem vex_invalid_opcode_iff : Obligations.Vex_invalid_opcode_iff := by
  intro i s m hcls hm
  rw [exec_eq_invalidOpcode_iff hm, udOf_vex hcls]
  rcases vectorBits_of_vex hcls with hN | hN <;>
    simp [State.udVex, State.osxsave, xcr0Avx_eq_false_iff, Features.has, hN, or_assoc]

/-- Settles O24: the #UD conditions of rows 9 to 14, bit by bit; AVX512VL counts below 512 bits. -/
theorem evex_invalid_opcode_iff : Obligations.Evex_invalid_opcode_iff := by
  intro i s m hcls hm
  have hhas (zmm : Bool) : s.feat.has (.evex zmm) = false ↔
      s.feat.avx512bw = false ∨ (zmm = false ∧ s.feat.avx512vl = false) := by
    cases zmm <;> simp [Features.has, imp_iff_not_or]
  have hz : i.zeroingUnmasked = (i.zeroingUnmasked && 0#3 == 0#3) := (Bool.and_true _).symm
  rw [exec_eq_invalidOpcode_iff hm, udOf_evex hcls hz]
  simp [State.udEvex, State.osxsave, xcr0Avx_eq_false_iff, xcr0Avx512_eq_false_iff, hhas, or_assoc]

/-- `s` with `CR0.MP`, bit 1, inverted. -/
def State.flipMP (s : State) : State := { s with cr0 := s.cr0 ^^^ 2#64 }

theorem getLsbD_cr0_flipMP (s : State) {k : Nat} (hk : k ≠ 1) : s.flipMP.cr0.getLsbD k = s.cr0.getLsbD k := by
  have htwo : (2#64).getLsbD k = false := by
    rw [show (2#64) = BitVec.twoPow 64 1 from rfl, BitVec.getLsbD_twoPow]
    simp [Ne.symm hk]
  simp [State.flipMP, htwo]

/-- No row tests `CR0.MP`. -/
theorem flipMP_tests (s : State) (i : Instr) :
    s.flipMP.mode = s.mode ∧ s.flipMP.cr0TS = s.cr0TS ∧ s.flipMP.udOf i = s.udOf i := by
  have hpe : s.flipMP.cr0PE = s.cr0PE := getLsbD_cr0_flipMP s (by decide)
  have hem : s.flipMP.cr0EM = s.cr0EM := getLsbD_cr0_flipMP s (by decide)
  refine ⟨?_, getLsbD_cr0_flipMP s (by decide), ?_⟩
  · simp only [State.mode, hpe]
    rfl
  · simp only [State.udOf, State.udMmx, State.udSse, hem]
    rfl

/-- Settles O25: #NM is asked right after #UD, and neither test, nor the mode, reads `CR0.MP`. -/
theorem device_not_available_iff : Obligations.Device_not_available_iff := by
  intro i s m hm
  refine ⟨?_, ?_⟩
  · rw [exec_eq_deviceNotAvailable_iff hm, Ne, exec_eq_invalidOpcode_iff hm, Bool.not_eq_true]
    rfl
  · obtain ⟨hmode, hts, hud⟩ := flipMP_tests s i
    change exec i s.flipMP = .fault (.deviceNotAvailable s.flipMP) ↔ _
    rw [exec_eq_deviceNotAvailable_iff (hmode.trans hm), exec_eq_deviceNotAvailable_iff hm, hts, hud]

end Sys2Proof.Machine
end

section
/-! PROOFS. The pending x87 exception (60_exceptions.md R160, D19): what it does to rows 1 and 3, and that no other row reads the
x87 status word. -/

namespace Sys2Proof.Machine

/-- Past #UD and #NM the pending exception is the next test of rows 1 and 3 (R168). -/
theorem exec_of_pending {i : Instr} {s : State} {m : Mode} (hm : s.mode = some m) (hcls : i.formClass = .mmx)
    (hud : s.udOf i = false) (hts : s.cr0TS = false) (hes : s.x87Pending = true) :
    exec i s = if s.cr0NE then raise .mf s else .refused .x87ExternalReport := by
  have h := exec_does i hm
  generalize exec i s = r at h ⊢
  cases h with
  | invalidOpcode hud' => exact absurd (hud.symm.trans hud') nofun
  | deviceNotAvailable _ hts' => exact absurd (hts.symm.trans hts') nofun
  | pending => rfl
  | operand _ _ _ _ hes' => exact absurd (hes.symm.trans (hes' hcls)) nofun
  | completes _ _ _ hes' => exact absurd (hes.symm.trans (hes' hcls)) nofun

/-! ### Another x87 status word -/

/-- `s` with another x87 status word. -/
def State.withFsw (s : State) (f : BitVec 16) : State := { s with fsw := f }

/-- Two outcomes of the same kind, with the same next state but for the x87 status word, which is `f` in the second. -/
def SameButFsw (f : BitVec 16) (r r' : Result) : Prop :=
  SameKind r r' ∧ ∀ t, r = .next t → r' = .next (t.withFsw f)

section
variable (s : State) (f : BitVec 16)

@[simp] theorem mode_withFsw : (s.withFsw f).mode = s.mode := rfl
@[simp] theorem mask_withFsw (i : BitVec 3) : (s.withFsw f).mask i = s.mask i := rfl
@[simp] theorem segmentStop_withFsw (c : AddrCtx) (ov : Option SegName) (a : MemAddr) (n : Nat) :
    (s.withFsw f).segmentStop c ov a n = s.segmentStop c ov a n := rfl
@[simp] theorem place_withFsw (c : AddrCtx) (ov : Option SegName) (a : MemAddr) (n : Nat) :
    (s.withFsw f).place c ov a n = s.place c ov a n := rfl
@[simp] theorem byteStop_withFsw (m : Mode) (p : Place) (al : Bool) (sel : Nat → Bool) :
    (s.withFsw f).byteStop m p al sel = s.byteStop m p al sel := rfl

/-! ### Reading an operand: the same stop, or the same value -/

/-- What is read at `s` with the status word `f`, from what is read at `s`. -/
def readWithFsw {α : Type} (f : BitVec 16) (q : Except Stop (α × State)) : Except Stop (α × State) :=
  q.map fun r => (r.1, r.2.withFsw f)

theorem readOperand_withFsw (m : Mode) (p : Place) (N : Nat) :
    (s.withFsw f).readOperand m p N = readWithFsw f (s.readOperand m p N) :=
  rel_ite (fun q q' => q' = readWithFsw f q) Iff.rfl rfl rfl

theorem loadUnaligned_withFsw (m : Mode) (p : Place) (N : Nat) :
    (s.withFsw f).loadUnaligned m p N = readWithFsw f (s.loadUnaligned m p N) :=
  rel_ite (fun q q' => q' = readWithFsw f q) Iff.rfl rfl (readOperand_withFsw ..)

theorem sourceSse_withFsw (m : Mode) (p : Prefixes) (x : Option Rex) (len : Nat) (rm : RegMem) :
    (s.withFsw f).sourceSse m p x len rm = readWithFsw f (s.sourceSse m p x len rm) := by
  cases rm with
  | reg r => rfl
  | mem a =>
    simp only [State.sourceSse, State.loadSse, segmentStop_withFsw, place_withFsw, byteStop_withFsw]
    split
    · rfl
    · split
      · rfl
      · exact readOperand_withFsw ..

theorem sourceVex_withFsw (m : Mode) (p : Prefixes) (v : Vex3) (len N : Nat) (rm : RegMem) :
    (s.withFsw f).sourceVex m p v len N rm = readWithFsw f (s.sourceVex m p v len N rm) := by
  cases rm with
  | reg r => rfl
  | mem a =>
    simp only [State.sourceVex, State.loadVex, segmentStop_withFsw, place_withFsw, byteStop_withFsw]
    split
    · rfl
    · split
      · rfl
      · split
        · rfl
        · exact loadUnaligned_withFsw ..

theorem sourceEvex_withFsw (m : Mode) (p : Prefixes) (v : Evex) (len w N : Nat) (rm : RegMem) :
    (s.withFsw f).sourceEvex m p v len w N rm = readWithFsw f (s.sourceEvex m p v len w N rm) := by
  cases rm with
  | reg r => rfl
  | mem a =>
    simp only [State.sourceEvex, State.loadEvex, segmentStop_withFsw, place_withFsw, byteStop_withFsw, mask_withFsw]
    split
    · rfl
    · split
      · rfl
      · split
        · rfl
        · split
          · rfl
          · exact loadUnaligned_withFsw ..

/-! ### The runs -/

/-- The same exception has the same code and, but for #PF which writes it, leaves the same CR2. -/
theorem raise_withFsw (e : Exc) : SameButFsw f (raise e s) (raise e (s.withFsw f)) :=
  ⟨by cases e <;> exact ⟨rfl, rfl, rfl⟩, fun _ h => absurd h (raise_ne_next _ _ _)⟩

theorem sameButFsw_refused (r : Refusal) : SameButFsw f (.refused r) (.refused r) := by
  refine ⟨rfl, fun _ h => ?_⟩
  cases h

theorem outcome_withFsw (t : Stop) : SameButFsw f (t.outcome s) (t.outcome (s.withFsw f)) := by
  cases t with
  | exc e => exact raise_withFsw ..
  | refuse r => exact sameButFsw_refused f r

/-- A vector run whose operand and whose write do not read the status word. -/
theorem vectorRun_withFsw {α : Type} (ud : Bool) (src : Except Stop (α × State)) (write write' : α → State → State)
    (hwrite : ∀ y t, write' y (t.withFsw f) = (write y t).withFsw f) :
    SameButFsw f (vectorRun ud src write s) (vectorRun ud (readWithFsw f src) write' (s.withFsw f)) := by
  refine rel_ite (SameButFsw f) Iff.rfl (raise_withFsw ..) ?_
  refine rel_ite (SameButFsw f) Iff.rfl (raise_withFsw ..) ?_
  cases src with
  | error t => exact outcome_withFsw ..
  | ok q => exact ⟨trivial, fun t h => Host.Outcome.next.inj h ▸ congrArg _ (hwrite ..)⟩

variable {s} {m : Mode} (hm : s.mode = some m) {p : Prefixes} {reg : BitVec 3} {rm : RegMem} {w len : Nat}
include hm

theorem runSse_withFsw (x : Option Rex) :
    SameButFsw f (runSse w p x reg rm len s) (runSse w p x reg rm len (s.withFsw f)) := by
  rw [runSse_eq_vectorRun hm, runSse_eq_vectorRun (s := s.withFsw f) hm, sourceSse_withFsw]
  exact vectorRun_withFsw s f _ _ _ _ fun _ _ => rfl

theorem runVex_withFsw (v : Vex3) (N : Nat) :
    SameButFsw f (runVex w N p v reg rm len s) (runVex w N p v reg rm len (s.withFsw f)) := by
  rw [runVex_eq_vectorRun hm, runVex_eq_vectorRun (s := s.withFsw f) hm, sourceVex_withFsw]
  exact vectorRun_withFsw s f _ _ _ _ fun _ _ => rfl

theorem runEvex_withFsw (v : Evex) (N : Nat) :
    SameButFsw f (runEvex w N p v reg rm len s) (runEvex w N p v reg rm len (s.withFsw f)) := by
  rw [runEvex_eq_vectorRun hm, runEvex_eq_vectorRun (s := s.withFsw f) hm, sourceEvex_withFsw]
  exact vectorRun_withFsw s f _ _ _ _ fun _ _ => rfl

end

/-- No row but 1 and 3 reads the x87 status word, or writes it. -/
theorem exec_withFsw {i : Instr} (hcls : i.formClass ≠ .mmx) (s : State) (f : BitVec 16) :
    SameButFsw f (exec i s) (exec i (s.withFsw f)) := by
  cases hm : s.mode with
  | none =>
    rw [exec_of_mode_none hm, exec_of_mode_none (s := s.withFsw f) hm]
    exact sameButFsw_refused f _
  | some m =>
    cases i with
    | paddusbMm | padduswMm => exact absurd rfl hcls
    | paddusbXmm | padduswXmm => exact runSse_withFsw f hm ..
    | vpaddusbXmmVex3 | vpadduswXmmVex3 | vpaddusbYmmVex3 | vpadduswYmmVex3
    | vpaddusbXmmVex2 | vpadduswXmmVex2 | vpaddusbYmmVex2 | vpadduswYmmVex2 => exact runVex_withFsw f hm ..
    | vpaddusbXmmEvex | vpaddusbYmmEvex | vpaddusbZmmEvex
    | vpadduswXmmEvex | vpadduswYmmEvex | vpadduswZmmEvex => exact runEvex_withFsw f hm ..

/-- Settles O26: rows 1 and 3 test the pending exception past #UD and #NM, and no other row reads the word it stands in. -/
theorem pending_x87_exception : Obligations.Pending_x87_exception := by
  refine ⟨fun i s m hcls hm hmmx hem hts hes => ?_, fun i s f hcls => exec_withFsw hcls s f⟩
  have hud : s.udOf i = false := by
    rw [udOf_mmx hcls, State.udMmx, State.cr0EM, hem, Features.has, hmmx]
    rfl
  rw [exec_of_pending hm hcls hud hts hes]
  exact ⟨fun hne => if_pos hne, fun hne => if_neg (Bool.eq_false_iff.mp hne)⟩

end Sys2Proof.Machine
end

section
/-! PROOFS. The laws of the saturated sum (00_scope.md section 5, R12), read off its lanes as numbers. -/

namespace Sys2Proof.Machine

/-- Saturating at `M` before one more summand, on either side, does not change what the whole sum saturates to. -/
theorem min_add_min_assoc (a b c M : Nat) : min (min (a + b) M + c) M = min (a + min (b + c) M) M := by
  omega

theorem lane_toNat_le (w : Nat) {N : Nat} (X : BitVec N) (j : Nat) : (lane w X j).toNat ≤ 2 ^ w - 1 :=
  Nat.le_sub_one_of_lt (lane w X j).isLt

theorem addUS_comm (w N : Nat) (A B : BitVec N) : addUS w N A B = addUS w N B A := by
  have hlane : addSat w A B = addSat w B A := funext fun j => congrArg (satU w) (Nat.add_comm ..)
  rw [addUS, addUS, hlane]

section
variable {w N : Nat} (hw : 0 < w)
include hw

theorem addUS_assoc (hN : w * (N / w) = N) (A B C : BitVec N) :
    addUS w N (addUS w N A B) C = addUS w N A (addUS w N B C) := by
  refine eq_of_lanes w N hw hN _ _ fun j hj => BitVec.eq_of_toNat_eq ?_
  simp only [lane_addUS_toNat w N _ _ j hw hj]
  exact min_add_min_assoc ..

variable {j : Nat} (hj : j < N / w)
include hj

theorem lane_addUS_of_zero {A B : BitVec N} (h : lane w B j = 0#w) : lane w (addUS w N A B) j = lane w A j := by
  apply BitVec.eq_of_toNat_eq
  rw [lane_addUS_toNat w N A B j hw hj, h, BitVec.toNat_zero, Nat.add_zero, Nat.min_eq_left (lane_toNat_le ..)]

theorem lane_addUS_of_allOnes {A B : BitVec N} (h : lane w B j = BitVec.allOnes w) :
    lane w (addUS w N A B) j = BitVec.allOnes w := by
  apply BitVec.eq_of_toNat_eq
  rw [lane_addUS_toNat w N A B j hw hj, h, BitVec.toNat_allOnes, Nat.min_eq_right (Nat.le_add_left ..)]

/-- The saturated sum is below neither operand. -/
theorem le_lane_addUS (A B : BitVec N) :
    (lane w A j).toNat ≤ (lane w (addUS w N A B) j).toNat ∧ (lane w B j).toNat ≤ (lane w (addUS w N A B) j).toNat := by
  rw [lane_addUS_toNat w N A B j hw hj]
  exact ⟨Nat.le_min.mpr ⟨Nat.le_add_right .., lane_toNat_le ..⟩, Nat.le_min.mpr ⟨Nat.le_add_left .., lane_toNat_le ..⟩⟩

theorem lane_addUS_mono {A B C : BitVec N} (h : (lane w A j).toNat ≤ (lane w C j).toNat) :
    (lane w (addUS w N A B) j).toNat ≤ (lane w (addUS w N C B) j).toNat := by
  rw [lane_addUS_toNat w N A B j hw hj, lane_addUS_toNat w N C B j hw hj]
  exact min_le_min_right _ (Nat.add_le_add_right h _)

/-- The exact sum is kept exactly where it fits a lane. -/
theorem lane_addUS_toNat_eq_add_iff (A B : BitVec N) :
    (lane w (addUS w N A B) j).toNat = (lane w A j).toNat + (lane w B j).toNat ↔
      (lane w A j).toNat + (lane w B j).toNat ≤ 2 ^ w - 1 := by
  rw [lane_addUS_toNat w N A B j hw hj, min_eq_left_iff]

/-- The wrapping sum loses `2 ^ w` where the exact sum does not fit, and is then less than all ones. -/
theorem lane_addUS_eq_add_iff (A B : BitVec N) :
    lane w (addUS w N A B) j = lane w A j + lane w B j ↔ (lane w A j).toNat + (lane w B j).toNat ≤ 2 ^ w - 1 := by
  have hA := lane_toNat_le w A j
  have hB := lane_toNat_le w B j
  have hpos := Nat.two_pow_pos w
  rw [← BitVec.toNat_inj, BitVec.toNat_add, lane_addUS_toNat w N A B j hw hj]
  by_cases hfit : (lane w A j).toNat + (lane w B j).toNat < 2 ^ w
  · rw [Nat.mod_eq_of_lt hfit]
    omega
  · rw [Nat.mod_eq_sub_mod (Nat.le_of_not_lt hfit), Nat.mod_eq_of_lt (by omega)]
    omega

end

/-- Bit `w` of the `w + 1`-bit sum of two `w`-bit words is set exactly where the exact sum does not fit `w` bits. -/
theorem getLsbD_add_setWidth_succ {w : Nat} (a b : BitVec w) :
    (a.setWidth (w + 1) + b.setWidth (w + 1)).getLsbD w = true ↔ 2 ^ w ≤ a.toNat + b.toNat := by
  have ha := a.isLt
  have hb := b.isLt
  have hpow := Nat.pow_succ 2 w
  have hsum : (a.setWidth (w + 1) + b.setWidth (w + 1)).toNat = a.toNat + b.toNat := by
    rw [BitVec.toNat_add, BitVec.toNat_setWidth_of_le (Nat.le_succ w), BitVec.toNat_setWidth_of_le (Nat.le_succ w),
      Nat.mod_eq_of_lt (by omega)]
  have hmsb := BitVec.msb_eq_decide (a.setWidth (w + 1) + b.setWidth (w + 1))
  rw [BitVec.msb_eq_getLsbD_last, Nat.add_sub_cancel, hsum] at hmsb
  rw [hmsb, decide_eq_true_iff]

/-- Settles O46: commutativity and associativity vector by vector, the other laws at each lane. -/
theorem addUS_laws : Obligations.AddUS_laws := by
  intro w N A B C hw hN
  refine ⟨sumOf_addUS hw A B, addUS_comm w N A B, addUS_assoc hw hN A B C, fun j hj =>
    ⟨lane_addUS_of_zero hw hj, lane_addUS_of_allOnes hw hj, le_lane_addUS hw hj A B, lane_addUS_eq_add_iff hw hj A B,
      lane_addUS_mono hw hj, ?_⟩⟩
  have hpos := Nat.two_pow_pos w
  rw [Ne, lane_addUS_toNat_eq_add_iff hw hj, getLsbD_add_setWidth_succ]
  omega

end Sys2Proof.Machine
end

section
/-! PROOFS. The words of 95_test_vectors.md, and the bytes behind an instruction (30_encoding.md R100). -/

namespace Sys2Proof

/-- The bytes of a well-formed instruction are a word of the spec for it. -/
theorem decode_of_encode_eq {m : Mode} {i : Instr} {bs : List Byte} (h : i.wellFormed m = true) (henc : encode i = bs) :
    decode m bs = .form i bs.length := by
  have hd := decode_encode_append h []
  rwa [List.append_nil, Instr.length, henc] at hd

/-- Settles O8: each word is the encoding of what it decodes to. -/
theorem spec_words_decode : Obligations.Spec_words_decode :=
  ⟨decode_of_encode_eq (by decide) (by decide), decode_of_encode_eq (by decide) (by decide),
    decode_of_encode_eq (by decide) (by decide), decode_of_encode_eq (by decide) (by decide),
    decode_of_encode_eq (by decide) (by decide), decode_of_encode_eq (by decide) (by decide)⟩

/-! ### What a form's bytes are -/

/-- Prefixes that are scanned to their end leave what they recorded to the bytes behind them. -/
theorem scanPrefixes_append {m : Mode} {s s' : Scan} {l : List Byte} (h : scanPrefixes m s l = (s', [])) (bs : List Byte) :
    scanPrefixes m s (l ++ bs) = scanPrefixes m s' bs := by
  induction l generalizing s with
  | nil => cases h; rfl
  | cons b l ih =>
    rcases scanPrefixes_cons_cases m s b with ⟨s1, -, hscan⟩ | hstop
    · exact (hscan (l ++ bs)).trans (ih ((hscan l).symm.trans h))
    · cases (hstop l).symm.trans h

/-- The decoder sees of the prefixes what they recorded and how many they are, and nothing else (R100 step 1). -/
theorem decode_eq_of_scan_eq {m : Mode} {s : Scan} {l l' : List Byte} (h : scanPrefixes m Scan.empty l = (s, []))
    (h' : scanPrefixes m Scan.empty l' = (s, [])) (hlen : l.length = l'.length) (bs : List Byte) :
    decode m (l ++ bs) = decode m (l' ++ bs) := by
  rw [decode, decode, scanPrefixes_append h, scanPrefixes_append h', List.length_append, List.length_append, hlen]

/-- The scan of the prefixes a form has in the encoder's order. -/
theorem scanPrefixes_own {m : Mode} {x : Option Rex} (hx : m = .m64 ∨ x = none) (p : Prefixes) (op66 : Bool) :
    scanPrefixes m Scan.empty (legacyPrefixes p op66 ++ rexBytes x) = (Scan.ofInstr p op66 x, []) := by
  have hlegacy : scanPrefixes m Scan.empty (legacyPrefixes p op66) = (Scan.ofInstr p op66 none, []) := by
    rw [legacyPrefixes, scanPrefixes_encodePrefixes]
    cases op66 with
    | false => rfl
    | true => exact scanPrefixes_opSize ..
  rw [scanPrefixes_append hlegacy]
  cases x with
  | none => rfl
  | some r =>
    obtain rfl := hx.resolve_right nofun
    exact scanPrefixes_rexByte ..

/-- A clean scan without LOCK, F2 and F3 has recorded what a form's own prefixes record. -/
theorem Scan.eq_ofInstr {s : Scan} (hclean : s.Clean) (hlock : s.lock = false) (hrep : s.rep = false) :
    s = Scan.ofInstr s.kept s.opSize s.rex := by
  obtain ⟨lock, rep, seg, opSize, addrSize, rex, redundant, rexMisplaced⟩ := s
  obtain ⟨rfl, rfl⟩ := hclean
  obtain rfl := hlock
  obtain rfl := hrep
  rfl

/-- The bytes a form takes: prefixes that record what the form's own record, then those of its encoding. -/
theorem decode_form_scan {m : Mode} {bs : List Byte} {i : Instr} {n : Nat} (h : decode m bs = .form i n) :
    i.wellFormed m = true ∧ ∃ s l own body rest, bs = l ++ body ++ rest ∧ encode i = own ++ body ∧
      l.length = own.length ∧ scanPrefixes m Scan.empty l = (s, []) ∧ scanPrefixes m Scan.empty own = (s, []) := by
  unfold decode at h
  have hscan : scanPrefixes m Scan.empty bs =
      ((scanPrefixes m Scan.empty bs).1, (scanPrefixes m Scan.empty bs).2) := rfl
  generalize (scanPrefixes m Scan.empty bs).1 = s, (scanPrefixes m Scan.empty bs).2 = r at h hscan
  obtain ⟨l, rfl, hl⟩ := scanPrefixes_split hscan
  have hx := rex_eq_none_of_scan hl
  obtain ⟨hlock, hrep, hwf, body, rest, rfl, henc⟩ := decodeBody_eq_form hx h
  obtain ⟨hclean, -⟩ := decodeBody_form (scanPrefixes_rex hscan nofun) h
  have hown := scanPrefixes_own hx s.kept s.opSize
  rw [← Scan.eq_ofInstr hclean hlock hrep] at hown
  have hlen := (scanPrefixes_clean hl hclean).2.trans (scanPrefixes_clean hown hclean).2.symm
  exact ⟨hwf, s, l, _, body, rest, (List.append_assoc ..).symm, henc, Nat.add_left_cancel hlen, hl, hown⟩

/-- Settles O4: behind the same prefixes the decoder goes on as behind the form's own, where the round trip reads the form back
whatever follows. -/
theorem decode_ignores_later_bytes : Obligations.Decode_ignores_later_bytes := by
  intro m bs rest i n h
  obtain ⟨rfl, -⟩ := decode_form_length h
  obtain ⟨hwf, s, l, own, body, tail, rfl, henc, hlen, hl, hown⟩ := decode_form_scan h
  have htake : (l ++ body ++ tail).take i.length = l ++ body := List.take_left' (by simp [Instr.length, henc, hlen])
  calc decode m ((l ++ body ++ tail).take i.length ++ rest)
      = decode m (l ++ (body ++ rest)) := by rw [htake, List.append_assoc]
    _ = decode m (own ++ (body ++ rest)) := decode_eq_of_scan_eq hl hown hlen _
    _ = decode m (encode i ++ rest) := by rw [henc, List.append_assoc]
    _ = .form i i.length := decode_encode_append hwf rest

end Sys2Proof
end

section
/-! PROOFS. The error code of a page fault (20_memory.md R60), and the refusals of a memory operand before its bytes are tested
(R55, D7) and after (R59, R62, D8, D9), said once for every row. -/

namespace Sys2Proof.Machine

/-! ### The error code -/

theorem findLin_eq_some {l : List LinRegion} {a : Nat} {r : LinRegion} (h : findLin l a = some r) :
    r ∈ l ∧ r.base ≤ a ∧ a < r.base + r.size := by
  induction l with
  | nil => cases h
  | cons q l ih =>
    rw [findLin] at h
    split at h
    · next hq =>
      cases h
      exact ⟨List.mem_cons_self, hq⟩
    · obtain ⟨hmem, hin⟩ := ih h
      exact ⟨List.mem_cons_of_mem q hmem, hin⟩

/-- A linear byte that faults lies in a region that says so at the current privilege (R60). -/
theorem pageAnswer_eq_fault {s : State} {a : Word64} {p v k : Bool} (h : s.pageAnswer a = .fault p v k) :
    ∃ r ∈ s.platform.translation, r.base ≤ a.toNat ∧ a.toNat < r.base + r.size ∧
      (if s.cpl = 3#2 then r.user else r.supervisor) = .fault p v k := by
  unfold State.pageAnswer at h
  split at h
  · cases h
  · next r hr =>
    obtain ⟨hmem, hbase, hend⟩ := findLin_eq_some hr
    simp only [beq_iff_eq] at h
    split at h
    · cases h
    · next hans =>
      cases h
      exact ⟨r, hmem, hbase, hend, hans⟩

/-- The bits of the error code of a data read (R60). -/
theorem pageFaultCode_bits (p u v k : Bool) :
    let e := pageFaultCode p u v k
    e.getLsbD 0 = p ∧ e.getLsbD 1 = false ∧ e.getLsbD 2 = u ∧ e.getLsbD 3 = v ∧ e.getLsbD 4 = false ∧ e.getLsbD 5 = k ∧
      e.toNat < 64 := by
  revert p u v k
  decide

/-- Settles O40: the error code is made of the bits the region answers and of the privilege. -/
theorem page_fault_code_bits : Obligations.Page_fault_code_bits := by
  intro s a e h
  obtain ⟨p, v, k, hans, rfl⟩ := (translate_eq_error_iff s a e).mp h
  obtain ⟨r, hmem, hbase, hend, hpriv⟩ := pageAnswer_eq_fault hans
  obtain ⟨h0, h1, h2, h3, h4, h5, hlt⟩ := pageFaultCode_bits p (s.cpl == 3#2) v k
  exact ⟨by rw [h2, beq_iff_eq]; rfl, h1, h4, hlt, r, hmem, p, v, k, hbase, hend, hpriv, h0, h3, h5⟩

/-! ### The load of any row -/

/-- Why a read stops, if it does. -/
def stopOf {α : Type} : Except Stop α → Option Stop
  | .ok _ => none
  | .error t => some t

theorem stopOf_eq_some_iff {α : Type} {q : Except Stop α} {t : Stop} : stopOf q = some t ↔ q = .error t := by
  cases q <;> simp [stopOf]

/-- Why the load of the memory operand `a` of an instruction of any row stops, if it does. -/
def State.loadStop (s : State) (m : Mode) (i : Instr) (a : MemAddr) : Option Stop :=
  match i.formClass with
  | .mmx => stopOf (s.loadMm (instrCtx m i) i.prefixes.seg a)
  | .sse => stopOf (s.loadSse (instrCtx m i) i.prefixes.seg a)
  | .vex => stopOf (s.loadVex (instrCtx m i) i.prefixes.seg a i.vectorBits)
  | .evex => stopOf (s.loadEvex (instrCtx m i) i.prefixes.seg a i.laneBits i.vectorBits i.opmask)

section
variable {s : State} {m : Mode} {i : Instr} {a : MemAddr}

theorem loadStop_mmx (hcls : i.formClass = .mmx) :
    s.loadStop m i a = stopOf (s.loadMm (instrCtx m i) i.prefixes.seg a) := by
  simp only [State.loadStop, hcls]

theorem loadStop_sse (hcls : i.formClass = .sse) :
    s.loadStop m i a = stopOf (s.loadSse (instrCtx m i) i.prefixes.seg a) := by
  simp only [State.loadStop, hcls]

theorem loadStop_vex (hcls : i.formClass = .vex) :
    s.loadStop m i a = stopOf (s.loadVex (instrCtx m i) i.prefixes.seg a i.vectorBits) := by
  simp only [State.loadStop, hcls]

theorem loadStop_evex (hcls : i.formClass = .evex) :
    s.loadStop m i a =
      stopOf (s.loadEvex (instrCtx m i) i.prefixes.seg a i.laneBits i.vectorBits i.opmask) := by
  simp only [State.loadStop, hcls]

end

/-- An enabled instruction whose load stops does what the stop says. -/
theorem exec_of_loadStop {i : Instr} {a : MemAddr} {s : State} {m : Mode} {t : Stop} (hrm : i.regMem = .mem a)
    (hm : s.mode = some m) (he : s.Enabled i) (h : s.loadStop m i a = some t) : exec i s = t.outcome s := by
  cases i with
  | paddusbMm | padduswMm =>
    obtain rfl := hrm
    rw [loadStop_mmx rfl, stopOf_eq_some_iff] at h
    apply runMmx_of_load_error hm he
    exact h
  | paddusbXmm | padduswXmm =>
    obtain rfl := hrm
    rw [loadStop_sse rfl, stopOf_eq_some_iff] at h
    apply runSse_of_load_error hm he
    exact h
  | vpaddusbXmmVex3 | vpadduswXmmVex3 | vpaddusbYmmVex3 | vpadduswYmmVex3
  | vpaddusbXmmVex2 | vpadduswXmmVex2 | vpaddusbYmmVex2 | vpadduswYmmVex2 =>
    obtain rfl := hrm
    rw [loadStop_vex rfl, stopOf_eq_some_iff] at h
    apply runVex_of_load_error hm he
    exact h
  | vpaddusbXmmEvex | vpaddusbYmmEvex | vpaddusbZmmEvex
  | vpadduswXmmEvex | vpadduswYmmEvex | vpadduswZmmEvex =>
    obtain rfl := hrm
    rw [loadStop_evex rfl, stopOf_eq_some_iff] at h
    apply runEvex_of_load_error hm he.1 he.2
    exact h

/-- Rows 1 and 3 (R111, R113). -/
theorem vectorBits_of_mmx {i : Instr} (h : i.formClass = .mmx) : i.vectorBits = 64 := by
  cases i with
  | paddusbMm | padduswMm => rfl
  | _ => cases h

/-- Rows 2 and 4 (R112, R114). -/
theorem vectorBits_of_sse {i : Instr} (h : i.formClass = .sse) : i.vectorBits = 128 := by
  cases i with
  | paddusbXmm | padduswXmm => rfl
  | _ => cases h

/-! ### The segment test of 32-bit mode (R55, D7) -/

/-- The segment test comes first in every row, but for 16-bit addressing under VEX and EVEX (D16). -/
theorem loadStop_of_segmentStop {i : Instr} {a : MemAddr} {s : State} {m : Mode} {t : Stop}
    (h16 : i.formClass = .vex ∨ i.formClass = .evex → m.addr16 i.prefixes.a67 = false)
    (h : s.segmentStop (instrCtx m i) i.prefixes.seg a (i.vectorBits / 8) = some t) : s.loadStop m i a = some t := by
  have haddr16 (hcls : i.formClass = .vex ∨ i.formClass = .evex) :
      (instrCtx m i).mode.addr16 (instrCtx m i).a67 = false := h16 hcls
  cases hcls : i.formClass with
  | mmx =>
    rw [vectorBits_of_mmx hcls] at h
    rw [loadStop_mmx hcls]
    simp only [State.loadMm, h, stopOf]
  | sse =>
    rw [vectorBits_of_sse hcls] at h
    rw [loadStop_sse hcls]
    simp only [State.loadSse, h, stopOf]
  | vex =>
    rw [loadStop_vex hcls]
    simp [State.loadVex, haddr16 (.inl hcls), h, stopOf]
  | evex =>
    rw [loadStop_evex hcls]
    simp [State.loadEvex, haddr16 (.inr hcls), h, stopOf]

theorem hasBase_eq_true_iff (n : SegName) : n.hasBase = true ↔ n = .fs ∨ n = .gs := by
  cases n <;> decide

/-- A flat segment, bit by bit (R55, D7). -/
theorem flatSegment_eq_true_iff (s : State) (n : SegName) :
    s.flatSegment n = true ↔
      let r := s.segs.get n
      r.selector.extractLsb' 2 14 ≠ 0#14 ∧ r.present = true ∧ r.readable = true ∧ r.limit = 0xFFFFFFFF#32 ∧
        (n = .fs ∨ n = .gs ∨ r.base = 0#64) := by
  simp only [State.flatSegment, Bool.and_eq_true, Bool.or_eq_true, bne_iff_ne, beq_iff_eq, hasBase_eq_true_iff, and_assoc,
    or_assoc]

/-- Settles O59: the segment of the operand is asked first, its end next, and every row does what they say. -/
theorem operand_refusals_in_32_bit_mode : Obligations.Operand_refusals_in_32_bit_mode := by
  intro i a s hrm hm he h16 e n r flat
  have hflat : s.flatSegment n = true ↔ flat := flatSegment_eq_true_iff s n
  have hexec {t : Stop} (h : s.segmentStop (instrCtx .m32 i) i.prefixes.seg a (i.vectorBits / 8) = some t) :
      exec i s = t.outcome s :=
    exec_of_loadStop hrm hm he (loadStop_of_segmentStop h16 h)
  refine ⟨fun hnot => hexec (t := .refuse .nonFlatSegment) ?_, fun hf hend => hexec (t := .refuse .operandWraps) ?_⟩
  · exact if_pos (Bool.eq_false_of_not_eq_true (mt hflat.mp hnot))
  · have hpast : 2 ^ 32 ≤ e.ea.toNat + i.vectorBits / 8 - 1 := by omega
    have hnotFlat : ¬ s.flatSegment n = false := by simp [hflat.mpr hf]
    exact (if_neg hnotFlat).trans (if_pos hpast)

/-! ### Behind the tests of the bytes (R58, R59, R62) -/

/-- What is asked of a memory operand whose bytes have passed: its alignment under alignment checking, but in rows 2 and 4, then
that it touches no device. -/
def State.readStop (s : State) (m : Mode) (i : Instr) (q : Place) : Option Stop :=
  if i.formClass != .sse && (s.alignmentChecking && !q.aligned) then
    some (if i.formClass == .mmx then .exc .ac else .refuse .alignmentUnderCheck)
  else if s.operandHas m q .device then some (.refuse .deviceMemory)
  else none

theorem stopOf_readOperand (s : State) (m : Mode) (q : Place) (N : Nat) :
    stopOf (s.readOperand m q N) = if s.operandHas m q .device then some (.refuse .deviceMemory) else none := by
  unfold State.readOperand
  split <;> rfl

/-- The end of the loads that ask for alignment under alignment checking: `t` says what they do where it fails. -/
theorem stopOf_read_aligned (s : State) (m : Mode) (q : Place) (N : Nat) (t : Stop) :
    stopOf (if s.alignmentChecking && !q.aligned then .error t else s.readOperand m q N) =
      if s.alignmentChecking && !q.aligned then some t
      else if s.operandHas m q .device then some (.refuse .deviceMemory) else none := by
  split
  · rfl
  · exact stopOf_readOperand ..

/-- An operand all of whose bytes pass, in active lanes or not, stops the load only behind their tests. -/
theorem loadStop_of_passes {i : Instr} {a : MemAddr} {s : State} {m : Mode} (haddr : s.Addressable m i a)
    (hpass : s.byteStop m (s.operandPlace m i a) (i.formClass == .sse) allBytes = none) :
    s.loadStop m i a = s.readStop m i (s.operandPlace m i a) := by
  obtain ⟨h16, hseg⟩ := haddr
  replace hseg := segmentStop_of_segmentOk hseg
  have hmode : (instrCtx m i).mode = m := rfl
  have haddr16 (hcls : i.formClass = .vex ∨ i.formClass = .evex) : m.addr16 (instrCtx m i).a67 = false := h16 hcls
  unfold State.operandPlace at hpass ⊢
  cases hcls : i.formClass with
  | mmx =>
    have hboundary : (i.formClass == .sse) = false := by rw [hcls]; rfl
    simp only [hboundary, vectorBits_of_mmx hcls, Nat.reduceDiv] at hseg hpass ⊢
    rw [loadStop_mmx hcls]
    simp only [State.loadMm, State.readStop, hmode, hseg, hpass, stopOf_read_aligned, hcls]
    rfl
  | sse =>
    have hboundary : (i.formClass == .sse) = true := by rw [hcls]; rfl
    simp only [hboundary, vectorBits_of_sse hcls, Nat.reduceDiv] at hseg hpass ⊢
    rw [loadStop_sse hcls]
    simp only [State.loadSse, State.readStop, hmode, hseg, hpass, stopOf_readOperand, hcls]
    rfl
  | vex =>
    have hboundary : (i.formClass == .sse) = false := by rw [hcls]; rfl
    rw [hboundary] at hpass
    rw [loadStop_vex hcls]
    simp only [State.loadVex, State.loadUnaligned, State.readStop, hmode, haddr16 (.inl hcls), hseg, hpass,
      stopOf_read_aligned, hcls, Bool.false_eq_true, if_false]
    rfl
  | evex =>
    have hboundary : (i.formClass == .sse) = false := by rw [hcls]; rfl
    rw [hboundary] at hpass
    have hactive := byteStop_none_mono s m _ false allBytes (byteActive i.laneBits i.opmask (s.mask i.opmask))
      (fun _ _ => rfl) hpass
    rw [loadStop_evex hcls]
    simp only [State.loadEvex, State.loadUnaligned, State.readStop, hmode, haddr16 (.inr hcls), hseg, hactive, hpass,
      stopOf_read_aligned, hcls, Bool.false_eq_true, if_false]
    rfl

/-- An operand is aligned to its own size exactly where its address is a multiple of it (R58, R59). -/
theorem aligned_eq_false_iff (p : Place) : p.aligned = false ↔ p.lin.toNat % p.size ≠ 0 := by
  simp [Place.aligned]

/-- Settles O37: the bytes pass, and their alignment is asked next. -/
theorem vex_alignment_check_is_refused : Obligations.Vex_alignment_check_is_refused := by
  intro i a s m hcls hrm hm he haddr hread ha ham hac hcpl
  have hnot : i.formClass ≠ .sse ∧ i.formClass ≠ .mmx := by
    rcases hcls with h | h <;> simp [h]
  have hpass : s.byteStop m (s.operandPlace m i a) (i.formClass == .sse) allBytes = none := by
    rw [beq_eq_false_iff_ne.mpr hnot.1]
    exact byteStop_of_readable hread allBytes
  have hstop : s.readStop m i (s.operandPlace m i a) = some (.refuse .alignmentUnderCheck) := by
    simp [State.readStop, hnot, alignmentChecking_of_bits ham hac hcpl, (aligned_eq_false_iff (s.operandPlace m i a)).mpr ha]
  exact exec_of_loadStop hrm hm he ((loadStop_of_passes haddr hpass).trans hstop)

/-- Settles O42: the bytes pass, the alignment is not refused, and the device is asked last. -/
theorem device_operand_is_refused : Obligations.Device_operand_is_refused := by
  intro i a s m hrm hm he haddr q hc htrans halign hal ⟨k, hk, b, hb, hkind⟩
  have hpass : s.byteStop m q (i.formClass == .sse) allBytes = none :=
    (byteStop_eq_none_iff ..).mpr ⟨fun k hk _ => hc k hk,
      fun hsse => (extractLsb'_low4_eq_zero_iff _).mpr (halign (beq_iff_eq.mp hsse)), fun k hk _ => htrans k hk⟩
  have haligned : (s.alignmentChecking && !q.aligned) = false := by
    cases hac : s.alignmentChecking with
    | false => rfl
    | true => exact congrArg not (beq_iff_eq.mpr (hal hac))
  have hdev : s.operandHas m q .device = true :=
    List.any_eq_true.mpr ⟨k, List.mem_range.mpr hk, by rw [physOf_of_translate hb, hkind]; rfl⟩
  have hstop : s.readStop m i q = some (.refuse .deviceMemory) := by
    rw [State.readStop, haligned, Bool.and_false, hdev]
    rfl
  exact exec_of_loadStop hrm hm he ((loadStop_of_passes haddr hpass).trans hstop)

end Sys2Proof.Machine
end

section
/-! PROOFS. What a load that gives a value has read; from it, that mask bits above the lanes do not count (42_vpaddus_evex.md R131),
and that legacy, VEX and EVEX forms agree (41_vpaddus_vex.md section 3, 42_vpaddus_evex.md section 3). -/

namespace Sys2Proof.Machine

/-! ### Loads that give a value -/

section
variable {s t : State} {c : AddrCtx} {ov : Option SegName} {a : MemAddr} {m : Mode} {p : Prefixes} {len : Nat}

/-- The read of an operand in no device gives the operand's value. -/
theorem readOperand_eq_ok_iff {q : Place} {N : Nat} {y : BitVec N} :
    s.readOperand m q N = .ok (y, t) ↔
      s.operandHas m q .device = false ∧ y = s.operandValue m q N ∧ t = s.afterRead m q := by
  refine ⟨readOperand_ok s m q N y t, fun ⟨hdev, hy, ht⟩ => ?_⟩
  rw [State.readOperand, hdev, hy, ht]
  rfl

/-- A load of rows 5 to 8 gives a value exactly where every test passes, and then the operand's (R59, R61, R62). -/
theorem loadVex_eq_ok_iff {N : Nat} {y : BitVec N} :
    s.loadVex c ov a N = .ok (y, t) ↔
      c.mode.addr16 c.a67 = false ∧ s.segmentStop c ov a (N / 8) = none ∧
        s.byteStop c.mode (s.place c ov a (N / 8)) false allBytes = none ∧
        s.loadUnaligned c.mode (s.place c ov a (N / 8)) N = .ok (y, t) := by
  simp only [State.loadVex]
  split
  · next h16 => simp [h16]
  · next h16 =>
    split
    · next hseg => simp [hseg]
    · next hseg =>
      split
      · next hbytes => simp [hbytes]
      · next hbytes => simp [Bool.eq_false_of_not_eq_true h16, hseg, hbytes]

/-- A writemask takes part in the faults of a load alone: one that gives a value gives what it does without (R140, D17). -/
theorem loadEvex_eq_ok_iff {w N : Nat} {aaa : BitVec 3} {y : BitVec N} :
    s.loadEvex c ov a w N aaa = .ok (y, t) ↔ s.loadVex c ov a N = .ok (y, t) := by
  rw [loadVex_eq_ok_iff]
  have hactive (h : s.byteStop c.mode (s.place c ov a (N / 8)) false allBytes = none) :
      s.byteStop c.mode (s.place c ov a (N / 8)) false (byteActive w aaa (s.mask aaa)) = none :=
    byteStop_none_mono _ _ _ _ _ _ (fun _ _ => rfl) h
  simp only [State.loadEvex]
  split
  · next h16 => simp [h16]
  · next h16 =>
    split
    · next hseg => simp [hseg]
    · next hseg =>
      split
      · next hfail =>
        have hbytes : s.byteStop c.mode (s.place c ov a (N / 8)) false allBytes ≠ none := fun h =>
          absurd (hfail.symm.trans (hactive h)) nofun
        simp [hbytes]
      · split
        · next hbytes => simp [hbytes]
        · next hbytes => simp [Bool.eq_false_of_not_eq_true h16, hseg, hbytes]

theorem loadVex_value {N : Nat} {y : BitVec N} (h : s.loadVex c ov a N = .ok (y, t)) :
    y = s.operandValue c.mode (s.place c ov a (N / 8)) N := by
  obtain ⟨-, -, -, hload⟩ := loadVex_eq_ok_iff.mp h
  exact (readOperand_eq_ok_iff.mp (loadUnaligned_ok _ _ _ _ _ _ hload).2).2.1

theorem loadSse_value {y : BitVec 128} (h : s.loadSse c ov a = .ok (y, t)) :
    y = s.operandValue c.mode (s.place c ov a (128 / 8)) 128 := by
  simp only [State.loadSse] at h
  split at h
  · cases h
  · split at h
    · cases h
    · exact (readOperand_eq_ok_iff.mp h).2.1

end

/-! ### Other mask registers -/

/-- `s` with other mask registers. -/
def State.withMasks (s : State) (k : Vector Word64 8) : State := { s with k := k }

/-- What is read at `s` with the mask registers `k`, from what is read at `s`. -/
def readWithMasks {α : Type} (k : Vector Word64 8) (q : Except Stop (α × State)) : Except Stop (α × State) :=
  q.map fun r => (r.1, r.2.withMasks k)

section
variable (s : State) (k : Vector Word64 8)

@[simp] theorem segmentStop_withMasks (c : AddrCtx) (ov : Option SegName) (a : MemAddr) (n : Nat) :
    (s.withMasks k).segmentStop c ov a n = s.segmentStop c ov a n := rfl
@[simp] theorem place_withMasks (c : AddrCtx) (ov : Option SegName) (a : MemAddr) (n : Nat) :
    (s.withMasks k).place c ov a n = s.place c ov a n := rfl
@[simp] theorem byteStop_withMasks (m : Mode) (p : Place) (al : Bool) (sel : Nat → Bool) :
    (s.withMasks k).byteStop m p al sel = s.byteStop m p al sel := rfl

theorem readOperand_withMasks (m : Mode) (p : Place) (N : Nat) :
    (s.withMasks k).readOperand m p N = readWithMasks k (s.readOperand m p N) :=
  rel_ite (fun q q' => q' = readWithMasks k q) Iff.rfl rfl rfl

theorem loadUnaligned_withMasks (m : Mode) (p : Place) (N : Nat) :
    (s.withMasks k).loadUnaligned m p N = readWithMasks k (s.loadUnaligned m p N) :=
  rel_ite (fun q q' => q' = readWithMasks k q) Iff.rfl rfl (readOperand_withMasks ..)

/-- A load without writemask reads no mask register. -/
theorem loadVex_withMasks (c : AddrCtx) (ov : Option SegName) (a : MemAddr) (N : Nat) :
    (s.withMasks k).loadVex c ov a N = readWithMasks k (s.loadVex c ov a N) := by
  simp only [State.loadVex, segmentStop_withMasks, place_withMasks, byteStop_withMasks]
  split
  · rfl
  · split
    · rfl
    · split
      · rfl
      · exact loadUnaligned_withMasks ..

/-- An operand of rows 9 to 14 that gives a value gives it under any mask (R140, D17). -/
theorem sourceEvex_withMasks {m : Mode} {p : Prefixes} {v : Evex} {len w N : Nat} {rm : RegMem} {y : BitVec N} {t : State}
    (h : s.sourceEvex m p v len w N rm = .ok (y, t)) :
    (s.withMasks k).sourceEvex m p v len w N rm = .ok (y, t.withMasks k) := by
  cases rm with
  | reg r => cases h; rfl
  | mem a =>
    refine loadEvex_eq_ok_iff.mpr ?_
    rw [loadVex_withMasks, loadEvex_eq_ok_iff.mp h]
    rfl

end

theorem ofLanes_congr {w N k : Nat} {f g : Nat → BitVec w} (h : ∀ j < k, f j = g j) :
    ofLanes w N f k = ofLanes w N g k := by
  induction k with
  | zero => rfl
  | succ k ih => rw [ofLanes, ofLanes, ih fun j hj => h j (Nat.lt_succ_of_lt hj), h k (Nat.lt_succ_self k)]

/-- Of the mask only the bits of the lanes count (R131). -/
theorem evexAddUS_congr_mask {w N : Nat} {mask mask' : Word64}
    (h : ∀ j < N / w, mask.getLsbD j = mask'.getLsbD j) (aaa : BitVec 3) (z : Bool) (old A B : BitVec N) :
    evexAddUS w N aaa z mask old A B = evexAddUS w N aaa z mask' old A B :=
  ofLanes_congr fun j hj => by rw [laneActive, laneActive, h j hj]

/-- A run of rows 9 to 14 past #UD and #NM completes where its operand is read. -/
theorem runEvex_of_read {w N : Nat} {p : Prefixes} {v : Evex} {reg : BitVec 3} {rm : RegMem} {len : Nat} {s t : State}
    {m : Mode} {y : BitVec N} (hm : s.mode = some m) (hud : s.udEvex (N == 512) v.z v.aaa = false) (hts : s.cr0TS = false)
    (h : s.sourceEvex m p v len w N rm = .ok (y, t)) :
    let d := regNum5 m v.rHi v.r reg
    runEvex w N p v reg rm len s =
      .next ((t.writeZeroing d (evexAddUS w N v.aaa v.z (s.mask v.aaa) ((s.vreg d).setWidth N)
        ((s.vreg (vvvvNum m v.vHi v.vvvv)).setWidth N) y)).advance m len) := by
  simp [runEvex, hm, hud, hts, h]

/-- A completed run of rows 9 to 14 completes under any mask with the same bits for its lanes, and writes the same. -/
theorem runEvex_withMasks {w N : Nat} {p : Prefixes} {v : Evex} {reg : BitVec 3} {rm : RegMem} {len : Nat} {s t : State}
    {k : Vector Word64 8} (hk : ∀ j < N / w, (s.mask v.aaa).getLsbD j = ((s.withMasks k).mask v.aaa).getLsbD j)
    (h : runEvex w N p v reg rm len s = .next t) :
    runEvex w N p v reg rm len (s.withMasks k) = .next (t.withMasks k) := by
  obtain ⟨m, y, n, hm, hud, hts, hsrc, rfl⟩ := runEvex_next _ _ _ _ _ _ _ _ _ h
  rw [runEvex_of_read (s := s.withMasks k) hm hud hts (sourceEvex_withMasks s k hsrc), ← evexAddUS_congr_mask hk]
  rfl

/-- Settles O49: the operand is read under either mask, and the sum looks at the bits of its lanes alone. -/
theorem mask_bits_above_lanes_ignored : Obligations.Mask_bits_above_lanes_ignored := by
  intro vl w p v reg rm s t k i hk h
  obtain ⟨m, -, hcompl⟩ := exec_completion h
  rw [exec_evex_eq_runEvex] at h
  have hother := (exec_evex_eq_runEvex vl w p v reg rm (s.withMasks k)).trans (runEvex_withMasks hk h)
  exact ⟨by rw [hcompl.frame], t.withMasks k, hother, rfl, rfl⟩

/-! ### Legacy, VEX and EVEX forms of one operation -/

/-- The lane width of a form with word lanes or with byte lanes. -/
def laneWidth (b : Bool) : Nat := if b then 16 else 8

/-- The vector length of a VEX form by its `L` bit (R84). -/
def vexLength (l : Bool) : Nat := if l then 256 else 128

/-- `i` is the VEX form of lane width `b` and vector length `l` with these operands, in two bytes or in three (R83, R84). -/
def IsVexForm (l b : Bool) (p : Prefixes) (v : Vex3) (reg : BitVec 3) (rm : RegMem) (i : Instr) : Prop :=
  i = vex3Instr l b p v reg rm ∨ ∃ v2 : Vex2, v2.wide = v ∧ i = vex2Instr l b p v2 reg rm

section
variable {l b : Bool} {p : Prefixes} {v : Vex3} {reg : BitVec 3} {rm : RegMem} {i : Instr} {s t : State} {m : Mode}

/-- What a VEX form is, in two bytes or in three. -/
theorem IsVexForm.fields (h : IsVexForm l b p v reg rm i) :
    (∀ s, exec i s = runVex i.laneBits i.vectorBits p v reg rm i.length s) ∧ i.laneBits = laneWidth b ∧
      i.vectorBits = vexLength l ∧ ∀ m, instrCtx m i = vexCtx m p v i ∧ i.prefixes = p := by
  rcases h with rfl | ⟨v2, rfl, rfl⟩
  · cases l <;> cases b <;> exact ⟨fun _ => rfl, rfl, rfl, fun _ => ⟨rfl, rfl⟩⟩
  · cases l <;> cases b <;> exact ⟨fun _ => rfl, rfl, rfl, fun _ => ⟨rfl, rfl⟩⟩

/-- What a completed VEX form read and wrote. -/
theorem IsVexForm.next (h : IsVexForm l b p v reg rm i) (hm : s.mode = some m) (ht : exec i s = .next t) :
    ∃ y n, s.sourceVex m p v i.length (vexLength l) rm = .ok (y, { s with draws := n }) ∧
      t = (({ s with draws := n } : State).writeZeroing (regNum5 m false v.r reg)
        (addUS (laneWidth b) (vexLength l) ((s.vreg (vvvvNum m false v.vvvv)).setWidth (vexLength l)) y)).advance m
          i.length := by
  obtain ⟨hexec, hlane, hlength, -⟩ := h.fields
  rw [hexec, hlane, hlength] at ht
  obtain ⟨m', y, n, hm', -, -, hsrc, rfl⟩ := runVex_next _ _ _ _ _ _ _ _ _ ht
  obtain rfl : m = m' := Option.some.inj (hm.symm.trans hm')
  exact ⟨y, n, hsrc, rfl⟩

/-- A memory operand of a VEX form is read at its place. -/
theorem IsVexForm.mem_value (h : IsVexForm l b p v reg rm i) {a : MemAddr} {y : BitVec (vexLength l)}
    (hsrc : s.sourceVex m p v i.length (vexLength l) (.mem a) = .ok (y, t)) :
    y = s.operandValue m (s.operandPlace m i a) (vexLength l) := by
  obtain ⟨-, -, hlength, hctx⟩ := h.fields
  rw [State.operandPlace, (hctx m).1, (hctx m).2, hlength]
  exact loadVex_value hsrc

end

/-- A memory operand of a legacy XMM form is read at its place. -/
theorem legacy_mem_value {b : Bool} {p : Prefixes} {x : Option Rex} {reg : BitVec 3} {a : MemAddr} {s t : State}
    {m : Mode} {y : BitVec 128}
    (hsrc : s.sourceSse m p x (legacyInstr true b p x reg (.mem a)).length (.mem a) = .ok (y, t)) :
    y = s.operandValue m (s.operandPlace m (legacyInstr true b p x reg (.mem a)) a) 128 := by
  cases b <;> exact loadSse_value hsrc

/-- Settles O50: both forms read the same operand and add the same lanes; they differ in what they write above. -/
theorem vex_agrees_with_legacy : Obligations.Vex_agrees_with_legacy := by
  intro w p x v reg rm s t u m j i hj hm hr hreg hmem d hvvvv ht hu
  obtain ⟨y, n, hsrc, hlegacy⟩ := vreg_dest_of_exec_sse hm ht
  obtain ⟨z, n', hsrc', rfl⟩ := IsVexForm.next (l := false) hj hm hu
  have hlane : (legacyInstr true w p x reg rm).laneBits = laneWidth w := by cases w <;> rfl
  have hyz : y = z := by
    cases rm with
    | reg r =>
      rw [State.sourceVex, hreg r rfl] at hsrc'
      exact congrArg Prod.fst (Except.ok.inj (hsrc.symm.trans hsrc'))
    | mem a =>
      rw [legacy_mem_value hsrc, IsVexForm.mem_value (l := false) hj hsrc', (hmem a rfl).1]
      rfl
  subst hyz
  rw [← hr, hlane] at hlegacy
  rw [vreg_advance, writeZeroing_eq, vreg_setVreg_same, hlegacy, hvvvv]
  refine ⟨?_, setWidth_ushiftRight_eq_zero (Nat.le_refl 128) _, append_low128_ushiftRight (Nat.le_refl 128) _ _⟩
  rw [BitVec.setWidth_append_eq_right]
  exact BitVec.setWidth_setWidth_of_le _ (by decide)

/-- Without a writemask every lane is added (R131, R132). -/
theorem evexAddUS_unmasked (w N : Nat) (z : Bool) (mask : Word64) (old A B : BitVec N) :
    evexAddUS w N 0#3 z mask old A B = addUS w N A B :=
  ofLanes_congr fun _ _ => rfl

section
variable {l b : Bool} {p : Prefixes} {e : Evex} {reg : BitVec 3} {rm : RegMem} {s t : State} {m : Mode}

/-- The EVEX vector length of 128 or 256 bits, as the `L` bit of VEX says it. -/
def evexLength (l : Bool) : EvexLen := if l then .vl256 else .vl128

/-- What a completed EVEX form without writemask read and wrote. -/
theorem evex_unmasked_next (haaa : e.aaa = 0#3) (hm : s.mode = some m)
    (ht : exec (evexInstr (evexLength l) b p e reg rm) s = .next t) :
    let i := evexInstr (evexLength l) b p e reg rm
    ∃ y n, s.sourceEvex m p e i.length (laneWidth b) (vexLength l) rm = .ok (y, { s with draws := n }) ∧
      t = (({ s with draws := n } : State).writeZeroing (regNum5 m e.rHi e.r reg)
        (addUS (laneWidth b) (vexLength l) ((s.vreg (vvvvNum m e.vHi e.vvvv)).setWidth (vexLength l)) y)).advance m
          i.length := by
  intro i
  have hrun : exec i s = runEvex (laneWidth b) (vexLength l) p e reg rm i.length s := by cases l <;> cases b <;> rfl
  obtain ⟨m', y, n, hm', -, -, hsrc, rfl⟩ := runEvex_next _ _ _ _ _ _ _ _ _ (hrun.symm.trans ht)
  obtain rfl : m = m' := Option.some.inj (hm.symm.trans hm')
  exact ⟨y, n, hsrc, by rw [haaa, evexAddUS_unmasked]⟩

/-- A memory operand of an EVEX form is read at its place, whatever the writemask. -/
theorem evex_mem_value {a : MemAddr} {y : BitVec (vexLength l)}
    (hsrc : s.sourceEvex m p e (evexInstr (evexLength l) b p e reg (.mem a)).length (laneWidth b) (vexLength l) (.mem a)
      = .ok (y, t)) :
    y = s.operandValue m (s.operandPlace m (evexInstr (evexLength l) b p e reg (.mem a)) a) (vexLength l) := by
  cases l <;> cases b <;> exact loadVex_value (loadEvex_eq_ok_iff.mp hsrc)

end

/-- Settles O51: without writemask both forms add the same lanes of the same operand into the same register. -/
theorem evex_agrees_with_vex : Obligations.Evex_agrees_with_vex := by
  intro l w p v e reg rm s t u m i j hi hm haaa hr hvvvv hrHi hvHi hreg hmem ht hu
  obtain ⟨y, n, hsrc, rfl⟩ := IsVexForm.next hi hm ht
  obtain ⟨z, n', hsrc', rfl⟩ := evex_unmasked_next haaa hm hu
  have hyz : y = z := by
    cases rm with
    | reg r =>
      rw [State.sourceEvex, (hreg r rfl).1, (hreg r rfl).2] at hsrc'
      exact congrArg Prod.fst (Except.ok.inj (hsrc.symm.trans hsrc'))
    | mem a =>
      rw [IsVexForm.mem_value hi hsrc, evex_mem_value hsrc', (hmem a rfl).1]
      rfl
  subst hyz
  rw [hr, hvvvv, hrHi, hvHi]
  rfl

end Sys2Proof.Machine
end

section
/-! PROOFS. The prefixes D15 refuses (30_encoding.md R71 to R73, R101 rows 4, 6 and 10): what the scan records of their groups and
of REX, and what the decoder makes of a form behind them. -/

namespace Sys2Proof

/-! ### Groups of prefixes, and REX bytes -/

/-- The groups of the legacy prefixes but LOCK (R71). -/
def prefixGroups : List (List Byte) :=
  [[0xF2#8, 0xF3#8], [0x2E#8, 0x36#8, 0x3E#8, 0x26#8, 0x64#8, 0x65#8], [0x66#8], [0x67#8]]

/-- The group of one of the legacy prefixes, as an index into `prefixGroups` (R71); LOCK stands in the group of F2 and F3. -/
def PrefixByte.group : PrefixByte → Fin 4
  | .lock => 0
  | .rep => 0
  | .seg _ => 1
  | .opSize => 2
  | .addrSize => 3

/-- The group of a byte, if it is one of the legacy prefixes. -/
def groupOf (b : Byte) : Option (Fin 4) := (prefixOf b).map PrefixByte.group

theorem groupOf_of_mem_bytes {b : Byte} {q : PrefixByte} (h : b ∈ q.bytes) : groupOf b = some q.group := by
  rw [groupOf, prefixOf_eq_some_iff.mpr h, Option.map_some]

theorem groupOf_eq_some_iff {b : Byte} (h : b ≠ 0xF0#8) {n : Fin 4} : groupOf b = some n ↔ b ∈ prefixGroups[n] := by
  revert b n
  decide

/-- Two bytes are legacy prefixes of one group (R71). -/
def SameGroup (b c : Byte) : Prop := ∃ n, groupOf b = some n ∧ groupOf c = some n

/-- Two bytes are of one group where one of the lists of R71 holds both. -/
theorem sameGroup_iff {b c : Byte} (hb : b ≠ 0xF0#8) (hc : c ≠ 0xF0#8) :
    SameGroup b c ↔ ∃ g ∈ prefixGroups, b ∈ g ∧ c ∈ g := by
  simp only [SameGroup, groupOf_eq_some_iff hb, groupOf_eq_some_iff hc]
  constructor
  · rintro ⟨n, h⟩
    exact ⟨prefixGroups[n], List.getElem_mem _, h⟩
  · rintro ⟨g, hg, h⟩
    obtain ⟨n, hn, rfl⟩ := List.mem_iff_getElem.mp hg
    exact ⟨⟨n, hn⟩, h⟩

theorem sameGroup_iff_of_mem_bytes {b c : Byte} {q : PrefixByte} (h : c ∈ q.bytes) :
    SameGroup b c ↔ groupOf b = some q.group := by
  simp [SameGroup, groupOf_of_mem_bytes h]

/-- A REX byte (R73). -/
def IsRex (b : Byte) : Prop := b.extractLsb' 4 4 = 4#4

theorem not_isRex_of_prefixOf {b : Byte} (h : (prefixOf b).isSome = true) : ¬ IsRex b := fun hx => by
  rw [prefixOf_eq_none_of_high hx] at h
  cases h

theorem groupOf_rexByte (x : Rex) : groupOf (rexByte x) = none := by
  rw [groupOf, prefixOf_eq_none_of_high (rexByte_high x), Option.map_none]

/-! ### What the scan records of them -/

/-- `s` has recorded of the bytes `l` the groups of their legacy prefixes, and where their REX bytes stand. -/
structure Scan.RecordsGroups (s : Scan) (l : List Byte) : Prop where
  taken : ∀ q, s.taken q = true ↔ ∃ b ∈ l, groupOf b = some q.group
  rep : s.rep = true ↔ 0xF2#8 ∈ l ∨ 0xF3#8 ∈ l
  rex : s.rex.isSome = true ↔ ∃ b ∈ l, IsRex b
  redundant : s.redundant = false ↔ l.Pairwise fun b c => ¬ SameGroup b c
  rexMisplaced : s.rexMisplaced = false ↔ l.Pairwise fun b _ => ¬ IsRex b

theorem Scan.RecordsGroups.rex_eq_false_iff {s : Scan} {l : List Byte} (h : s.RecordsGroups l) :
    s.rex.isSome = false ↔ ∀ b ∈ l, ¬ IsRex b := by
  rw [← Bool.not_eq_true, h.rex]
  simp

theorem Scan.taken_add (s : Scan) (p q : PrefixByte) :
    (s.add p).taken q = true ↔ s.taken q = true ∨ p.group = q.group := by
  cases p <;> cases q <;> simp [Scan.add, Scan.set, Scan.taken, PrefixByte.group]

theorem Scan.rep_add {b : Byte} {q : PrefixByte} (hb : b ∈ q.bytes) (s : Scan) :
    (s.add q).rep = true ↔ s.rep = true ∨ b = 0xF2#8 ∨ b = 0xF3#8 := by
  have hq : b = 0xF2#8 ∨ b = 0xF3#8 ↔ q = .rep := by
    have hrep : b = 0xF2#8 ∨ b = 0xF3#8 ↔ b ∈ PrefixByte.rep.bytes := by simp [PrefixByte.bytes]
    rw [hrep, ← prefixOf_eq_some_iff, prefixOf_eq_some_iff.mpr hb, Option.some.injEq]
  rw [hq]
  cases q <;> simp [Scan.add, Scan.set]

theorem Scan.RecordsGroups.add {s : Scan} {l : List Byte} (h : s.RecordsGroups l) {b : Byte} {q : PrefixByte}
    (hb : b ∈ q.bytes) : (s.add q).RecordsGroups (l ++ [b]) where
  taken p := by
    simp [Scan.taken_add, h.taken, groupOf_of_mem_bytes hb, or_and_right, exists_or]
  rep := by
    simp only [Scan.rep_add hb, h.rep, List.mem_append, List.mem_singleton, eq_comm (a := b)]
    tauto
  rex := by
    have hx : ¬ IsRex b := not_isRex_of_prefixOf (by rw [prefixOf_eq_some_iff.mpr hb, Option.isSome_some])
    have hrex : (s.add q).rex = s.rex := by cases q <;> rfl
    simp [hrex, h.rex, or_and_right, exists_or, hx]
  redundant := by
    have hred : (s.add q).redundant = (s.redundant || s.taken q) := by cases q <;> rfl
    have htaken : s.taken q = false ↔ ∀ c ∈ l, groupOf c ≠ some q.group := by
      rw [← Bool.not_eq_true, h.taken]
      simp
    simp [hred, h.redundant, htaken, List.pairwise_append, sameGroup_iff_of_mem_bytes hb]
  rexMisplaced := by
    have hmis : (s.add q).rexMisplaced = (s.rexMisplaced || s.rex.isSome) := by cases q <;> rfl
    simp only [hmis, Bool.or_eq_false_iff, h.rexMisplaced, h.rex_eq_false_iff]
    simp [List.pairwise_append]

theorem Scan.RecordsGroups.addRex {s : Scan} {l : List Byte} (h : s.RecordsGroups l) (x : Rex) :
    (s.addRex x).RecordsGroups (l ++ [rexByte x]) where
  taken q := by
    have htaken : (s.addRex x).taken q = s.taken q := by cases q <;> rfl
    simp [htaken, h.taken, or_and_right, exists_or, groupOf_rexByte]
  rep := by
    have hne {c : Byte} (hc : ¬ IsRex c) : c ≠ rexByte x := fun h => hc (h ▸ rexByte_high x)
    have hrep : (s.addRex x).rep = s.rep := rfl
    simp [hrep, h.rep, hne (c := 0xF2#8) (by unfold IsRex; decide), hne (c := 0xF3#8) (by unfold IsRex; decide)]
  rex := by
    have hx : IsRex (rexByte x) := rexByte_high x
    simp [Scan.addRex, or_and_right, exists_or, hx]
  redundant := by
    have hred : (s.addRex x).redundant = s.redundant := rfl
    simp [hred, h.redundant, List.pairwise_append, SameGroup, groupOf_rexByte]
  rexMisplaced := by
    have hmis : (s.addRex x).rexMisplaced = (s.rexMisplaced || s.rex.isSome) := rfl
    simp only [hmis, Bool.or_eq_false_iff, h.rexMisplaced, h.rex_eq_false_iff]
    simp [List.pairwise_append]

theorem recordsGroups_of_scanPrefixes {m : Mode} {l : List Byte} {s : Scan}
    (h : scanPrefixes m Scan.empty l = (s, [])) : s.RecordsGroups l :=
  scanPrefixes_induction (P := fun l s => s.RecordsGroups l)
    ⟨fun q => by cases q <;> simp [Scan.taken, Scan.empty], by simp [Scan.empty], by simp [Scan.empty],
      by simp [Scan.empty], by simp [Scan.empty]⟩
    (fun _ _ _ _ hs hb => hs.add hb) (fun _ _ _ x hs => hs.addRex x) h

theorem Scan.RecordsGroups.opSize {s : Scan} {l : List Byte} (h : s.RecordsGroups l) :
    s.opSize = true ↔ 0x66#8 ∈ l := by
  have hb : ∀ b : Byte, groupOf b = some PrefixByte.opSize.group ↔ b = 0x66#8 := by decide
  have htaken := h.taken .opSize
  simp only [hb, exists_eq_right] at htaken
  exact htaken

/-- Behind bytes that are all prefixes the decoder goes on at the first one that is none, with the scan of them. -/
theorem decode_of_scan {m : Mode} {l : List Byte} (h : ∀ b ∈ l, TakenAsPrefix m b) {bs : List Byte}
    (hstop : ∀ s, scanPrefixes m s bs = (s, bs)) :
    ∃ s : Scan, s.Records l ∧ s.RecordsGroups l ∧ decode m (l ++ bs) = decodeBody m (l ++ bs).length s bs := by
  obtain ⟨s, hs⟩ := scanPrefixes_of_taken h Scan.empty
  have hl : scanPrefixes m Scan.empty l = (s, []) := by
    have hnil := hs []
    rwa [List.append_nil] at hnil
  exact ⟨s, records_of_scanPrefixes hl, recordsGroups_of_scanPrefixes hl, by rw [decode, hs, hstop]⟩

/-! ### A form behind prefixes that are refused -/

/-- The processor has the flags of the form that the bytes of `i` are behind prefixes with or without 66 (R72). -/
def Instr.supportedBehind (f : Features) (i : Instr) (op66 : Bool) : Bool :=
  if i.formClass = .mmx ∧ op66 = true then f.sse2 else i.supportedBy f

/-- What the decoder makes of the bytes `opc` of `i` between its prefixes and its operand, behind prefixes without LOCK. -/
structure RefusedBytes (m : Mode) (i : Instr) (opc : List Byte) : Prop where
  stop : ∀ s bs, scanPrefixes m s (opc ++ bs) = (s, opc ++ bs)
  /-- Behind prefixes D15 refuses: the refusal, but #UD where R101 rows 4, 6 and 10 list the form and neither F2 or F3 (R72)
  nor 16-bit addressing (D16) is in the way. -/
  refused : ∀ total (s : Scan) r bs f, s.lock = false → s.refusal = some r → (i.formClass = .sse → s.opSize = true) →
    (i.formClass = .vex ∨ i.formClass = .evex → s.illegalBeforeVex = false ∧ s.rexMisplaced = false) →
    (decodeBody m total s (opc ++ bs)).under f =
      if s.rep = true ∨ (i.formClass = .vex ∨ i.formClass = .evex) ∧ memory16 m s.addrSize bs = true ∨
          i.supportedBehind f s.opSize = true then .reject r
      else finishIllegal total (m.addr16 s.addrSize) bs
  /-- Behind F2 or F3 with nothing else amiss: another map entry (R72). -/
  reserved : ∀ total (s : Scan) bs, i.formClass = .mmx ∨ i.formClass = .sse → s.lock = false → s.refusal = none →
    s.rep = true → decodeBody m total s (opc ++ bs) = .reject .reservedMapEntry

section
variable {s : Scan} (hlock : s.lock = false) (m : Mode) (total : Nat) (word : Bool) (bs : List Byte)
include hlock

/-- F2 or F3 makes the opcode of a legacy form another map entry, which is refused (R72). -/
theorem decodeBody_legacy_of_rep (hrep : s.rep = true) :
    decodeBody m total s ([0x0F#8, opcodeByte word] ++ bs) = .reject (s.refusal.getD .reservedMapEntry) := by
  have hlead : leadsVex m 0x0F#8 (opcodeByte word) = false := rfl
  simp [decodeBody, hlead, decodeLegacy, wordForm_opcodeByte, hlock, hrep]

/-- Without F2 and F3 a legacy form behind prefixes D15 refuses is barred for what they are. -/
theorem decodeBody_legacy_of_refusal (hrep : s.rep = false) {r : Reject} (hr : s.refusal = some r) :
    decodeBody m total s ([0x0F#8, opcodeByte word] ++ bs) =
      .barred r (if s.opSize then .sse else .mmx) (extent total (m.addr16 s.addrSize) bs) := by
  have hlead : leadsVex m 0x0F#8 (opcodeByte word) = false := rfl
  simp [decodeBody, hlead, decodeLegacy, wordForm_opcodeByte, hlock, hrep, hr]

end

theorem refusedBytes_legacy (m : Mode) (op66 word : Bool) (p : Prefixes) (x : Option Rex) (reg : BitVec 3) (rm : RegMem) :
    RefusedBytes m (legacyInstr op66 word p x reg rm) [0x0F#8, opcodeByte word] where
  stop s bs := scanPrefixes_cons_stop rfl rfl m s _
  refused total s r bs f hlock hr h66 _ := by
    obtain ⟨-, -, -, -, hclass⟩ := legacyInstr_fields op66 word p x reg rm
    have hneed : f.has (if s.opSize then .sse else .mmx) =
        (legacyInstr op66 word p x reg rm).supportedBehind f s.opSize := by
      rw [hclass] at h66
      simp only [Instr.supportedBehind, Instr.supportedBy, hclass]
      cases op66 with
      | true => simp [h66 rfl, Features.has]
      | false => cases s.opSize <;> simp [Features.has]
    have hvex : ¬ ((legacyInstr op66 word p x reg rm).formClass = .vex ∨
        (legacyInstr op66 word p x reg rm).formClass = .evex) := by
      rw [hclass]
      cases op66 <;> simp
    cases hrep : s.rep with
    | true =>
      rw [decodeBody_legacy_of_rep hlock m total word bs hrep, hr, if_pos (.inl rfl)]
      rfl
    | false =>
      rw [decodeBody_legacy_of_refusal hlock m total word bs hrep hr, under_barred, hneed]
      simp [hvex, finishIllegal]
  reserved total s bs _ hlock hr hrep := by
    rw [decodeBody_legacy_of_rep hlock m total word bs hrep, hr, Option.getD_none]

/-- Where the operand bytes show no 16-bit addressing under VEX and EVEX, the address size does not change how far they go. -/
theorem extent_of_memory16 {m : Mode} {a67 : Bool} {bs : List Byte} (h : memory16 m a67 bs = false) (total : Nat) :
    extent total false bs = extent total (m.addr16 a67) bs := by
  cases bs with
  | nil => rfl
  | cons b bs =>
    simp only [memory16, Bool.and_eq_false_iff, bne_eq_false_iff_eq] at h
    rcases h with h | h
    · rw [h]
    · simp [extent, takeRegMem, h]

theorem finishVex_redundant {s : Scan} (h : s.redundant = true) (m : Mode) (total : Nat) (need : FeatureNeed)
    (mk : BitVec 3 → RegMem → Instr) (bs : List Byte) (f : Features) :
    (finishVex m total s need mk bs).under f =
      if memory16 m s.addrSize bs = true ∨ f.has need = true then .reject .redundantPrefix
      else finishIllegal total (m.addr16 s.addrSize) bs := by
  simp only [finishVex, if_pos h]
  split
  · next h16 => simp [h16, Verdict.under]
  · next h16 => simp [h16, finishIllegal, extent_of_memory16 (Bool.eq_false_of_not_eq_true h16)]

/-- VEX and EVEX: prefixes that they do not forbid leave the operand to read, of a form that needs `need`. -/
theorem refusedBytes_vex {m : Mode} {i : Instr} {b next : Byte} {bs : List Byte} {need : FeatureNeed}
    {mk : Scan → BitVec 3 → RegMem → Instr} (hclass : i.formClass = .vex ∨ i.formClass = .evex)
    (hneed : ∀ f : Features, f.has need = i.supportedBy f) (hopc : OpcodeBytes m i (b :: next :: bs))
    (hbody : ∀ total (s : Scan) rest, s.illegalBeforeVex = false →
      decodeBody m total s (b :: next :: (bs ++ rest)) = finishVex m total s need (mk s) rest) :
    RefusedBytes m i (b :: next :: bs) where
  stop := hopc.stop
  refused total s r rest f _ hr _ hvex := by
    obtain ⟨hforbidden, hmis⟩ := hvex hclass
    have hmmx : i.formClass ≠ .mmx := by rcases hclass with h | h <;> simp [h]
    have hrep : s.rep = false := by
      simp only [Scan.illegalBeforeVex, Bool.or_eq_false_iff] at hforbidden
      exact hforbidden.1.1.2
    have hred : s.redundant = true ∧ r = .redundantPrefix := by
      simp only [Scan.refusal, hmis, Bool.false_eq_true, if_false] at hr
      split at hr
      · next hred => exact ⟨hred, (Option.some.inj hr).symm⟩
      · cases hr
    obtain ⟨hred, rfl⟩ := hred
    rw [List.cons_append, List.cons_append, hbody total s rest hforbidden, finishVex_redundant hred, hneed]
    simp [hrep, hclass, Instr.supportedBehind, hmmx]
  reserved _ _ _ hlegacy := by
    rcases hclass with h | h <;> simp [h] at hlegacy

/-- The bytes of a well-formed instruction, with what the decoder makes of them behind prefixes it refuses. -/
theorem encode_refused_parts {m : Mode} {i : Instr} (h : i.wellFormed m = true) :
    ∃ x opc reg, encode i =
        (legacyPrefixes i.prefixes (i.formClass == .sse) ++ rexBytes x) ++ (opc ++ encodeRegMem reg i.regMem) ∧
      (m = .m64 ∨ x = none) ∧ RefusedBytes m i opc ∧ i.regMem.wellFormed (m.addr16 i.prefixes.a67) = true ∧
      (i.formClass = .vex ∨ i.formClass = .evex → x = none ∧ i.regMem.vexWellFormed m i.prefixes.a67 = true) := by
  rcases instr_layouts i with ⟨op66, word, p, x, reg, rm, rfl⟩ | ⟨l, word, p, v, reg, rm, rfl⟩ |
    ⟨l, word, p, v, reg, rm, rfl⟩ | ⟨vl, word, p, v, reg, rm, rfl⟩
  · obtain ⟨hwf, henc, hp, hrm, hclass⟩ := legacyInstr_fields op66 word p x reg rm
    rw [hwf, legacyWellFormed_iff] at h
    obtain ⟨hx, hw⟩ := h
    have h66 : ((if op66 then FormClass.sse else .mmx) == .sse) = op66 := by cases op66 <;> rfl
    rw [henc, hp, hrm, hclass, h66, encodeLegacy_eq]
    exact ⟨x, _, reg, rfl, hx, refusedBytes_legacy m op66 word p x reg rm, hw, by cases op66 <;> simp⟩
  · obtain ⟨hwf, henc, hp, hrm, hclass⟩ := vex2Instr_fields l word p v reg rm
    rw [hwf, vex2WellFormed_iff] at h
    obtain ⟨hadm, hw⟩ := h
    have hlead := leadsVex_vex2Byte hadm l
    have hbytes : RefusedBytes m (vex2Instr l word p v reg rm) [0xC5#8, vex2Byte l v, opcodeByte word] :=
      refusedBytes_vex (need := .vex l) (mk := fun s => vex2Instr l word s.kept v) (.inl hclass)
        (fun f => by cases l <;> cases word <;> rfl) (opcodeBytes_vex _ hlead rfl) fun total s rest hs => by
          rw [decodeBody_of_leadsVex hlead hs, if_pos rfl]
          exact decodeVex2_payload hadm ..
    rw [henc, hp, hrm, hclass, encodeVex2_eq]
    exact ⟨none, _, reg, rfl, .inr rfl, hbytes, wellFormed_of_vexWellFormed_addr16 hw, fun _ => ⟨rfl, hw⟩⟩
  · obtain ⟨hwf, henc, hp, hrm, hclass⟩ := vex3Instr_fields l word p v reg rm
    rw [hwf, vex3WellFormed_iff] at h
    obtain ⟨hadm, hw⟩ := h
    have hlead := leadsVex_vex3Byte1 hadm
    have hbytes : RefusedBytes m (vex3Instr l word p v reg rm) [0xC4#8, vex3Byte1 v, vex3Byte2 l v, opcodeByte word] :=
      refusedBytes_vex (need := .vex l) (mk := fun s => vex3Instr l word s.kept v) (.inl hclass)
        (fun f => by cases l <;> cases word <;> rfl) (opcodeBytes_vex _ hlead rfl) fun total s rest hs => by
          rw [decodeBody_of_leadsVex hlead hs, if_neg (by decide), if_pos rfl]
          exact decodeVex3_payload hadm ..
    rw [henc, hp, hrm, hclass, encodeVex3_eq]
    exact ⟨none, _, reg, rfl, .inr rfl, hbytes, wellFormed_of_vexWellFormed_addr16 hw, fun _ => ⟨rfl, hw⟩⟩
  · obtain ⟨hwf, henc, hp, hrm, hclass⟩ := evexInstr_fields vl word p v reg rm
    rw [hwf, evexWellFormed_iff] at h
    obtain ⟨hadm, hz, hw⟩ := h
    have hlead := leadsVex_evexByte0 hadm
    have hbytes : RefusedBytes m (evexInstr vl word p v reg rm)
        [0x62#8, evexByte0 v, evexByte1 v, evexByte2 vl v, opcodeByte word] :=
      refusedBytes_vex (need := .evex (vl == .vl512)) (mk := fun s => evexInstr vl word s.kept v) (.inr hclass)
        (fun f => by cases vl <;> cases word <;> rfl) (opcodeBytes_vex _ hlead rfl) fun total s rest hs => by
          rw [decodeBody_of_leadsVex hlead hs, if_neg (by decide), if_neg (by decide)]
          exact decodeEvex_payload hadm hz ..
    rw [henc, hp, hrm, hclass, encodeEvex_eq]
    exact ⟨none, _, reg, rfl, .inr rfl, hbytes, wellFormed_of_vexWellFormed_addr16 hw, fun _ => ⟨rfl, hw⟩⟩

/-! ### The prefixes given and the form's own -/

/-- The prefixes of a form in the encoder's order, with the REX byte `x`. -/
def Instr.ownPrefixes (i : Instr) (x : Option Rex) : List Byte :=
  legacyPrefixes i.prefixes (i.formClass == .sse) ++ rexBytes x

theorem not_mem_ownPrefixes {b : Byte} (hb : b ∈ [0xF0#8, 0xF2#8, 0xF3#8]) (i : Instr) (x : Option Rex) :
    b ∉ i.ownPrefixes x := by
  intro h
  rcases List.mem_append.mp h with h | h
  · rcases mem_legacyPrefixes.mp h with ⟨n, -, rfl⟩ | ⟨-, rfl⟩ | ⟨-, rfl⟩
    · cases n <;> exact absurd hb (by decide)
    · exact absurd hb (by decide)
    · exact absurd hb (by decide)
  · cases x with
    | none => cases h
    | some x =>
      have hhigh : ∀ c ∈ [0xF0#8, 0xF2#8, 0xF3#8], c.extractLsb' 4 4 ≠ 4#4 := by decide
      exact hhigh b hb (List.mem_singleton.mp h ▸ rexByte_high x)

theorem opSizeByte_mem_ownPrefixes {i : Instr} {x : Option Rex} : 0x66#8 ∈ i.ownPrefixes x ↔ i.formClass = .sse := by
  have hseg (n : SegName) : 0x66#8 ≠ segByte n := by cases n <;> decide
  have hrex : 0x66#8 ∉ rexBytes x := by
    cases x with
    | none => exact List.not_mem_nil
    | some x => exact fun h => absurd (List.mem_singleton.mp h ▸ rexByte_high x) (by decide)
  simp [Instr.ownPrefixes, mem_legacyPrefixes, hseg, hrex]

theorem pairwise_rexBytes (R : Byte → Byte → Prop) (x : Option Rex) : (rexBytes x).Pairwise R := by
  cases x with
  | none => exact List.Pairwise.nil
  | some x => exact List.pairwise_singleton R _

/-- A form's own REX byte stands last of its prefixes (R73). -/
theorem pairwise_not_isRex {ps : List Byte} (h : ∀ b ∈ ps, (prefixOf b).isSome = true) (i : Instr) (x : Option Rex) :
    (ps ++ i.ownPrefixes x).Pairwise fun b _ => ¬ IsRex b := by
  have hlegacy : ∀ b ∈ ps ++ legacyPrefixes i.prefixes (i.formClass == .sse), ¬ IsRex b := fun b hb =>
    not_isRex_of_prefixOf ((List.mem_append.mp hb).elim (h b) prefixOf_of_mem_legacyPrefixes)
  rw [Instr.ownPrefixes, ← List.append_assoc, List.pairwise_append]
  exact ⟨List.pairwise_of_forall_mem_list fun b hb _ _ => hlegacy b hb, pairwise_rexBytes _ x,
    fun b hb _ _ => hlegacy b hb⟩

section
variable {s : Scan} {ps : List Byte} {i : Instr} {x : Option Rex}

theorem Scan.Records.lock_of_ownPrefixes (h : s.Records (ps ++ i.ownPrefixes x)) (hps : ∀ b ∈ ps, b ≠ 0xF0#8) :
    s.lock = false := by
  rw [h.lock, decide_eq_false_iff_not, List.mem_append, not_or]
  exact ⟨fun hf0 => hps _ hf0 rfl, not_mem_ownPrefixes (by decide) i x⟩

theorem Scan.Records.addrSize_iff (h : s.Records (ps ++ i.ownPrefixes x)) :
    s.addrSize = true ↔ 0x67#8 ∈ ps ∨ i.prefixes.a67 = true := by
  rw [h.addrSize, decide_eq_true_iff, List.mem_append, Instr.ownPrefixes, addrSizeByte_mem_prefixes]

theorem Scan.RecordsGroups.rep_iff (h : s.RecordsGroups (ps ++ i.ownPrefixes x)) :
    s.rep = true ↔ 0xF2#8 ∈ ps ∨ 0xF3#8 ∈ ps := by
  have hf2 := not_mem_ownPrefixes (b := 0xF2#8) (by decide) i x
  have hf3 := not_mem_ownPrefixes (b := 0xF3#8) (by decide) i x
  simp [h.rep, hf2, hf3]

theorem Scan.RecordsGroups.opSize_iff (h : s.RecordsGroups (ps ++ i.ownPrefixes x)) :
    s.opSize = true ↔ 0x66#8 ∈ ps ∨ i.formClass = .sse := by
  rw [h.opSize, List.mem_append, opSizeByte_mem_ownPrefixes]

/-- Before VEX and EVEX forms stand only overrides and 67, where none of the others is given. -/
theorem Scan.Records.illegalBeforeVex_of_vex (h : s.Records (ps ++ i.ownPrefixes none))
    (hvex : i.formClass = .vex ∨ i.formClass = .evex)
    (hps : ∀ b ∈ ps, (prefixOf b).isSome = true ∧ b ∉ [0xF0#8, 0x66#8, 0xF2#8, 0xF3#8]) : s.illegalBeforeVex = false := by
  have hsse : (i.formClass == .sse) = false := by rcases hvex with h | h <;> rw [h] <;> rfl
  rw [h.illegalBeforeVex, List.any_eq_false]
  intro b hb
  rw [forbiddenBeforeVex_iff]
  rcases List.mem_append.mp hb with hb | hb
  · obtain ⟨hp, hne⟩ := hps b hb
    exact not_or.mpr ⟨hne, not_isRex_of_prefixOf hp⟩
  · rw [Instr.ownPrefixes, hsse, rexBytes, List.append_nil, mem_legacyPrefixes] at hb
    rcases hb with ⟨n, -, rfl⟩ | ⟨-, rfl⟩ | ⟨hfalse, -⟩
    · cases n <;> decide
    · decide
    · cases hfalse

/-- No REX byte, none misplaced. -/
theorem Scan.RecordsGroups.rexMisplaced_of_rex {l : List Byte} (h : s.RecordsGroups l) (hrex : s.rex.isSome = false) :
    s.rexMisplaced = false :=
  h.rexMisplaced.mpr (List.pairwise_of_forall_mem_list fun b hb _ _ => h.rex_eq_false_iff.mp hrex b hb)

end

/-- A well-formed instruction behind more prefixes: what the scan has recorded, and where the decoder goes on. -/
theorem decode_behind {m : Mode} {i : Instr} (h : i.wellFormed m = true) {ps : List Byte}
    (hps : ∀ b ∈ ps, TakenAsPrefix m b) (rest : List Byte) :
    ∃ x opc reg, ∃ s : Scan, s.Records (ps ++ i.ownPrefixes x) ∧ s.RecordsGroups (ps ++ i.ownPrefixes x) ∧
      decode m (ps ++ (encode i ++ rest)) =
        decodeBody m (ps.length + i.length + rest.length) s (opc ++ (encodeRegMem reg i.regMem ++ rest)) ∧
      RefusedBytes m i opc ∧ i.regMem.wellFormed (m.addr16 i.prefixes.a67) = true ∧
      (i.formClass = .vex ∨ i.formClass = .evex → x = none ∧ i.regMem.vexWellFormed m i.prefixes.a67 = true) := by
  obtain ⟨x, opc, reg, henc, hx, hopc, hrm, hvex⟩ := encode_refused_parts h
  have hown : ∀ b ∈ i.ownPrefixes x, TakenAsPrefix m b := fun b => takenAsPrefix_of_mem hx
  obtain ⟨s, hs, hgroups, hd⟩ := decode_of_scan (List.forall_mem_append.mpr ⟨hps, hown⟩)
    (fun s => hopc.stop s (encodeRegMem reg i.regMem ++ rest))
  have hlist : ps ++ (encode i ++ rest) = (ps ++ i.ownPrefixes x) ++ (opc ++ (encodeRegMem reg i.regMem ++ rest)) := by
    simp [henc, Instr.ownPrefixes]
  have hlen : ((ps ++ i.ownPrefixes x) ++ (opc ++ (encodeRegMem reg i.regMem ++ rest))).length =
      ps.length + i.length + rest.length := by
    simp [← hlist, Instr.length, Nat.add_assoc]
  rw [hlen, ← hlist] at hd
  exact ⟨x, opc, reg, s, hs, hgroups, hd, hopc, hrm, hvex⟩

/-- The operand bytes of a well-formed operand name one with 16-bit addressing where it is one in memory (R80). -/
theorem memory16_encodeRegMem_iff {a16 : Bool} {rm : RegMem} (h : rm.wellFormed a16 = true) (m : Mode) (a67 : Bool)
    (reg : BitVec 3) (rest : List Byte) :
    memory16 m a67 (encodeRegMem reg rm ++ rest) = true ↔ m.addr16 a67 = true ∧ ∃ a, rm = .mem a := by
  cases rm with
  | reg r => simp [encodeRegMem, memory16, extract_fields]
  | mem a =>
    simp only [RegMem.wellFormed, MemAddr.wellFormed, Bool.and_eq_true, bne_iff_ne, ne_eq] at h
    simp [encodeRegMem, memory16, extract_fields, h.1.1]

/-- 16-bit addressing holds in 32-bit mode with 67 (R80). -/
theorem addr16_iff {m : Mode} {a67 : Bool} : m.addr16 a67 = true ↔ m = .m32 ∧ a67 = true := by
  cases m <;> simp [Mode.addr16]

/-- More prefixes leave an operand well formed, where a 67 among them gives it no 16-bit addressing it has not. -/
theorem RegMem.wellFormed_of_addr16 {m : Mode} {a67 a67' : Bool} {rm : RegMem} (h : rm.wellFormed (m.addr16 a67) = true)
    (hmem : (∃ a, rm = .mem a) → (m.addr16 a67' = true ↔ m.addr16 a67 = true)) : rm.wellFormed (m.addr16 a67') = true := by
  cases rm with
  | reg r => rfl
  | mem a => rwa [Bool.eq_iff_iff.mpr (hmem ⟨a, rfl⟩)]

/-- A memory operand admitted under VEX and EVEX has no 16-bit addressing (D16). -/
theorem RegMem.addr16_of_vexWellFormed {m : Mode} {a67 : Bool} {rm : RegMem} (h : rm.vexWellFormed m a67 = true)
    (hmem : ∃ a, rm = .mem a) : m.addr16 a67 = false := by
  obtain ⟨a, rfl⟩ := hmem
  simp only [RegMem.vexWellFormed, Bool.and_eq_true, Bool.not_eq_true'] at h
  exact h.1

/-- A well-formed instruction behind prefixes D15 refuses with `r`: refused where the processor has the flags of the form the
prefixes select, where F2 or F3 makes it another map entry, and where 16-bit addressing does; else #UD, or too long. -/
theorem refused_verdict {f : Features} {m : Mode} {i : Instr} {ps : List Byte} {r : Reject} (hw : i.wellFormed m = true)
    (hps : ∀ b ∈ ps, TakenAsPrefix m b ∧ b ≠ 0xF0#8)
    (hvex : i.formClass = .vex ∨ i.formClass = .evex → ∀ b ∈ ps, (prefixOf b).isSome = true ∧ b ∉ [0x66#8, 0xF2#8, 0xF3#8])
    (hr : ∀ x (s : Scan), s.RecordsGroups (ps ++ i.ownPrefixes x) → s.refusal = some r) (rest : List Byte) :
    let v := (decode m (ps ++ (encode i ++ rest))).under f
    let has := if i.formClass = .mmx ∧ 0x66#8 ∈ ps then f.sse2 else i.supportedBy f
    let rep := 0xF2#8 ∈ ps ∨ 0xF3#8 ∈ ps
    let mem16 := m = .m32 ∧ 0x67#8 ∈ ps ∧ ∃ a, i.regMem = .mem a
    (has = true ∨ rep ∨ ((i.formClass = .vex ∨ i.formClass = .evex) ∧ mem16) → v = .reject r) ∧
      (has = false → ¬ rep → (mem16 → i.prefixes.a67 = true) →
        v = if ps.length + i.length ≤ 15 then .ud else .lengthGp) := by
  intro v has rep mem16
  obtain ⟨x, opc, reg, s, hs, hgroups, hd, hopc, hrm, hvexForm⟩ := decode_behind hw (fun b hb => (hps b hb).1) rest
  have hlegal (hclass : i.formClass = .vex ∨ i.formClass = .evex) : s.illegalBeforeVex = false ∧ s.rexMisplaced = false := by
    obtain ⟨rfl, -⟩ := hvexForm hclass
    have hill := hs.illegalBeforeVex_of_vex hclass fun b hb =>
      ⟨(hvex hclass b hb).1, List.not_mem_cons_of_ne_of_not_mem (hps b hb).2 (hvex hclass b hb).2⟩
    exact ⟨hill, hgroups.rexMisplaced_of_rex (Bool.or_eq_false_iff.mp hill).2⟩
  have hhas : i.supportedBehind f s.opSize = has :=
    if_congr (and_congr_right fun hmmx => by simp [hgroups.opSize_iff, hmmx]) rfl rfl
  have hv := hopc.refused (ps.length + i.length + rest.length) s r (encodeRegMem reg i.regMem ++ rest) f
    (hs.lock_of_ownPrefixes fun b hb => (hps b hb).2) (hr x s hgroups) (fun hsse => hgroups.opSize_iff.mpr (.inr hsse)) hlegal
  rw [← hd] at hv
  refine ⟨fun h => hv.trans (if_pos ?_), fun hno hrep h67 => hv.trans ?_⟩
  · rcases h with hyes | hrep | ⟨hclass, h32, h67, hmem⟩
    · exact .inr (.inr (hhas.trans hyes))
    · exact .inl (hgroups.rep_iff.mpr hrep)
    · have h16 : m.addr16 s.addrSize = true := addr16_iff.mpr ⟨h32, hs.addrSize_iff.mpr (.inl h67)⟩
      exact .inr (.inl ⟨hclass, (memory16_encodeRegMem_iff hrm m _ reg rest).mpr ⟨h16, hmem⟩⟩)
  · have haddr (hmem : ∃ a, i.regMem = .mem a) : m.addr16 s.addrSize = true ↔ m.addr16 i.prefixes.a67 = true := by
      rw [addr16_iff, addr16_iff, hs.addrSize_iff]
      exact ⟨fun ⟨h32, h⟩ => ⟨h32, h.elim (fun h => h67 ⟨h32, h, hmem⟩) id⟩, And.imp_right .inr⟩
    rw [if_neg, finishIllegal_encodeRegMem (RegMem.wellFormed_of_addr16 hrm haddr)]
    rintro (h | ⟨hclass, h16⟩ | h)
    · exact hrep (hgroups.rep_iff.mp h)
    · obtain ⟨h16, hmem⟩ := (memory16_encodeRegMem_iff hrm m _ reg rest).mp h16
      have hno16 := RegMem.addr16_of_vexWellFormed (hvexForm hclass).2 hmem
      exact Bool.false_ne_true (hno16.symm.trans ((haddr hmem).mp h16))
    · exact Bool.false_ne_true (hno.symm.trans (hhas.symm.trans h))

/-- One pair out of order spoils the list. -/
theorem not_pairwise_of_before {α : Type} {R : α → α → Prop} {pre mid post : List α} {b c : α} (h : ¬ R b c) :
    ¬ (pre ++ b :: (mid ++ c :: post)).Pairwise R := fun hp => by
  exact h (List.rel_of_pairwise_cons (List.pairwise_append.mp hp).2.1 (a' := c) (by simp))

/-- Settles O7: behind a form's own prefixes, which are of different groups with REX last, the scan says what is wrong with the
prefixes given, and the form's bytes say what that makes of it. -/
theorem redundant_prefixes_are_refused : Obligations.Redundant_prefixes_are_refused := by
  refine ⟨?_, ?_, ?_⟩
  · intro f m i pre mid post rest b c g hw hg hb hc ps v mem16 hps hvex
    have hne {x : Byte} (hx : x ∈ ps) : x ≠ 0xF0#8 := (hps x hx).2
    have hsame : SameGroup b c := (sameGroup_iff (hne (by simp [ps])) (hne (by simp [ps]))).mpr ⟨g, hg, hb, hc⟩
    have hr (x : Option Rex) (s : Scan) (hs : s.RecordsGroups (ps ++ i.ownPrefixes x)) :
        s.refusal = some .redundantPrefix := by
      have hmis := hs.rexMisplaced.mpr (pairwise_not_isRex (fun b hb => (hps b hb).1) i x)
      have hred : s.redundant ≠ false := fun h =>
        not_pairwise_of_before (not_not.mpr hsame) (List.pairwise_append.mp (hs.redundant.mp h)).1
      simp [Scan.refusal, hmis, Bool.eq_true_of_not_eq_false hred]
    exact refused_verdict hw (fun x hx => ⟨.inl (hps x hx).1, hne hx⟩)
      (fun hclass x hx => ⟨(hps x hx).1, hvex hclass x hx⟩) hr rest
  · intro m i ps rest hw hclass hown hps hgroups hrep
    obtain ⟨x, opc, reg, s, hs, hsg, hd, hopc, -⟩ := decode_behind hw (fun b hb => .inl (hps b hb).1) rest
    have hmis := hsg.rexMisplaced.mpr (pairwise_not_isRex (fun b hb => (hps b hb).1) i x)
    have hred : s.redundant = false := by
      have hsse : (i.formClass == .sse) = false := by rw [hclass]; rfl
      have hrex : i.ownPrefixes x = rexBytes x := by rw [Instr.ownPrefixes, hown, hsse]; rfl
      rw [hsg.redundant, hrex, List.pairwise_append]
      refine ⟨hgroups.imp_of_mem fun {a b} ha hb hne hsame => ?_, pairwise_rexBytes _ x, fun a _ b hb => ?_⟩
      · obtain ⟨g, hg, h⟩ := (sameGroup_iff (hps a ha).2 (hps b hb).2).mp hsame
        exact hne g hg h
      · cases x with
        | none => cases hb
        | some x =>
          obtain rfl := List.mem_singleton.mp hb
          simp [SameGroup, groupOf_rexByte]
    have hr : s.refusal = none := by simp [Scan.refusal, hmis, hred]
    rw [hd]
    exact hopc.reserved _ s _ (.inl hclass) (hs.lock_of_ownPrefixes fun b hb => (hps b hb).2) hr (hsg.rep_iff.mpr hrep)
  · intro f i pre post rest b c hw hclass ps v hps hb
    have hvex : ¬ (i.formClass = .vex ∨ i.formClass = .evex) := by
      rcases hclass with h | h <;> simp [h]
    have hr (x : Option Rex) (s : Scan) (hs : s.RecordsGroups (ps ++ i.ownPrefixes x)) :
        s.refusal = some .rexMisplaced := by
      have hmis : s.rexMisplaced ≠ false := fun h =>
        not_pairwise_of_before (mid := []) (not_not.mpr hb) (List.pairwise_append.mp (hs.rexMisplaced.mp h)).1
      simp [Scan.refusal, Bool.eq_true_of_not_eq_false hmis]
    obtain ⟨hrefused, hillegal⟩ := refused_verdict (f := f) hw
      (fun x hx => ⟨(hps x hx).1.imp_right fun h => ⟨rfl, h⟩, (hps x hx).2⟩) (fun h => absurd h hvex) hr rest
    exact ⟨fun h => hrefused (h.imp_right .inl), fun hno hrep => hillegal hno hrep nofun⟩

end Sys2Proof
end
